-- ==== Sys2Proof/Word.lean ====
section
/-! DEFINITION. The word types of the block: 32-bit words of the host port, 16-bit word numbers, and
bit strings as the spec writes them (00_scope.md R11, R12; 20_memory.md R71). -/

namespace Sys2Proof

/-- One word of the HOST space: every host access moves one (20_memory.md R71). -/
abbrev Word := BitVec 32

/-- A word number of the HOST space, 0 to 0xFFFF (20_memory.md R71). -/
abbrev WordNo := BitVec 16

/-- One byte of the payload memory as the host writes memory down (DESIGN CHOICE, log entry 7). -/
abbrev Byte := BitVec 8

/-- A bit string, first bit first; the first bit is the highest-order one (00_scope.md R12). -/
abbrev Bits := List Bool

end Sys2Proof
end

