-- ==== Sys2Proof/Syntax.lean ====
section
/-! DEFINITION. The commands of the block, one constructor for each row of spec/opcode_table.json
(30_encoding.md R103). All operands but the immediate of `PARSE_SUBCH` are implicit registers. -/

namespace Sys2Proof

/-- The 27 commands of 30_encoding.md R103. -/
inductive Instr where
  | nop
  | cellSet
  | poolDefault
  | poolCheck
  | resv2code
  | code2resv
  | rivEnc
  | rivDec
  | sciPack
  | sciUnpack
  | crc2id
  | frBuild
  | frCtrl
  | frData
  | frMod
  | frClear
  | rxDemod
  | rxLoop
  | parseSubch (idx : Nat)
  | parseAll
  | rxClear
  | radioOpen
  | radioClose
  | schStart
  | schCancel
  | clrFlags
  | softReset
deriving DecidableEq, Repr

end Sys2Proof
end

