-- ==== Sys2Proof/WellFormed.lean ====
section
/-! DEFINITION. Which commands an encoding can hold: the one explicit operand, the sub-channel index of
`PARSE_SUBCH`, is the 8-bit unsigned immediate (30_encoding.md R100, R101). That the index is below
`POOL_NSUBCH` is a check on the state, made at issue. -/

namespace Sys2Proof

/-- The immediate fits its 8-bit field (30_encoding.md R100). -/
def Instr.wellFormed : Instr → Bool
  | .parseSubch idx => decide (idx < 256)
  | .nop | .cellSet | .poolDefault | .poolCheck | .resv2code | .code2resv | .rivEnc | .rivDec
  | .sciPack | .sciUnpack | .crc2id | .frBuild | .frCtrl | .frData | .frMod | .frClear
  | .rxDemod | .rxLoop | .parseAll | .rxClear | .radioOpen | .radioClose | .schStart
  | .schCancel | .clrFlags | .softReset => true

/-- `Instr.wellFormed` as a proposition. -/
abbrev Instr.WellFormed (i : Instr) : Prop := i.wellFormed = true

end Sys2Proof
end

