-- ==== Sys2Proof/Decode.lean ====
section
/-! DEFINITION. The decoder of the command word, total on all 32-bit words, and the encoder
(30_encoding.md R100 to R104). A word is bits 31:16 zero, 15:8 `imm8`, 7:0 `opcode`. -/

namespace Sys2Proof

/-- Why a command word is illegal (30_encoding.md R104). -/
inductive DecodeReject where
  /-- A non-zero bit in 31:16. -/
  | upperBitsNotZero
  /-- An opcode of no row. -/
  | opcodeNotListed
  /-- A listed opcode other than `PARSE_SUBCH` with a non-zero immediate. -/
  | immediateNotZero
deriving DecidableEq, Repr

/-- The `opcode` field, bits 7:0 (30_encoding.md R100). -/
def opcodeField (c : Word) : BitVec 8 := c.extractLsb' 0 8

/-- The `imm8` field, bits 15:8 (30_encoding.md R100). -/
def immField (c : Word) : BitVec 8 := c.extractLsb' 8 8

/-- The `zero` field, bits 31:16 (30_encoding.md R100). -/
def zeroField (c : Word) : BitVec 16 := c.extractLsb' 16 16

/-- The opcode map of 30_encoding.md R103: the command of an opcode, given the immediate. -/
def ofOpcode (op imm : Nat) : Option Instr :=
  match op with
  | 0x00 => some .nop
  | 0x01 => some .cellSet
  | 0x02 => some .poolDefault
  | 0x03 => some .poolCheck
  | 0x10 => some .resv2code
  | 0x11 => some .code2resv
  | 0x12 => some .rivEnc
  | 0x13 => some .rivDec
  | 0x14 => some .sciPack
  | 0x15 => some .sciUnpack
  | 0x16 => some .crc2id
  | 0x20 => some .frBuild
  | 0x21 => some .frCtrl
  | 0x22 => some .frData
  | 0x23 => some .frMod
  | 0x24 => some .frClear
  | 0x30 => some .rxDemod
  | 0x31 => some .rxLoop
  | 0x32 => some (.parseSubch imm)
  | 0x33 => some .parseAll
  | 0x34 => some .rxClear
  | 0x40 => some .radioOpen
  | 0x41 => some .radioClose
  | 0x42 => some .schStart
  | 0x43 => some .schCancel
  | 0x7E => some .clrFlags
  | 0x7F => some .softReset
  | _ => none

/-- The command a word stands for, or why it stands for none (30_encoding.md R100 to R104). -/
def decode (c : Word) : Except DecodeReject Instr :=
  if zeroField c ≠ 0 then .error .upperBitsNotZero
  else
    match ofOpcode (opcodeField c).toNat (immField c).toNat with
    | none => .error .opcodeNotListed
    | some i =>
      if immField c ≠ 0 ∧ (opcodeField c).toNat ≠ 0x32 then .error .immediateNotZero else .ok i

/-- The opcode of a command (30_encoding.md R103). -/
def opcodeOf : Instr → Nat
  | .nop => 0x00
  | .cellSet => 0x01
  | .poolDefault => 0x02
  | .poolCheck => 0x03
  | .resv2code => 0x10
  | .code2resv => 0x11
  | .rivEnc => 0x12
  | .rivDec => 0x13
  | .sciPack => 0x14
  | .sciUnpack => 0x15
  | .crc2id => 0x16
  | .frBuild => 0x20
  | .frCtrl => 0x21
  | .frData => 0x22
  | .frMod => 0x23
  | .frClear => 0x24
  | .rxDemod => 0x30
  | .rxLoop => 0x31
  | .parseSubch _ => 0x32
  | .parseAll => 0x33
  | .rxClear => 0x34
  | .radioOpen => 0x40
  | .radioClose => 0x41
  | .schStart => 0x42
  | .schCancel => 0x43
  | .clrFlags => 0x7E
  | .softReset => 0x7F

/-- The immediate of a command: the index of `PARSE_SUBCH`, 0 for every other (30_encoding.md R101). -/
def immOf : Instr → Nat
  | .parseSubch idx => idx
  | .nop | .cellSet | .poolDefault | .poolCheck | .resv2code | .code2resv | .rivEnc | .rivDec
  | .sciPack | .sciUnpack | .crc2id | .frBuild | .frCtrl | .frData | .frMod | .frClear
  | .rxDemod | .rxLoop | .parseAll | .rxClear | .radioOpen | .radioClose | .schStart
  | .schCancel | .clrFlags | .softReset => 0

/-- The word of a command: opcode in 7:0, immediate in 15:8, zero above (30_encoding.md R100). -/
def encode (i : Instr) : Word := BitVec.ofNat 32 (opcodeOf i + 256 * immOf i)

/-- `match` and `mask` of a command's row of spec/opcode_table.json (30_encoding.md R103). -/
def rowMatch (i : Instr) : Word := BitVec.ofNat 32 (opcodeOf i)

/-- See `rowMatch`. -/
def rowMask : Instr → Word
  | .parseSubch _ => 0xFFFF00FF
  | .nop | .cellSet | .poolDefault | .poolCheck | .resv2code | .code2resv | .rivEnc | .rivDec
  | .sciPack | .sciUnpack | .crc2id | .frBuild | .frCtrl | .frData | .frMod | .frClear
  | .rxDemod | .rxLoop | .parseAll | .rxClear | .radioOpen | .radioClose | .schStart
  | .schCancel | .clrFlags | .softReset => 0xFFFFFFFF

/-- The command the decoder reads from an instruction whose bits are `w`: a command is one 32-bit word,
and of a row of `nbits` bits every bit above is 0. -/
def decodeTableWord (nbits w : Nat) : Option Instr :=
  match decode (BitVec.ofNat 32 (w % 2 ^ nbits)) with
  | .ok i => some i
  | .error _ => none

end Sys2Proof
end

