-- ==== Sys2Proof/Config.lean ====
section
/-! DEFINITION. What an implementation fixes: the configuration of 00_scope.md R9, the opaque value types
of the external collaborators (10_state.md R55, 60_exceptions.md R290 to R294), and the values the spec
leaves open, each an opaque constant without a body (log entries 2, 5, 6, 9, 10, 12). -/

namespace Sys2Proof

/-- A frequency-domain buffer of one subframe: its size in resource blocks and its symbols as one
opaque token, 0 for all-zero symbols (10_state.md R55; DESIGN CHOICE, log entry 4). -/
structure Grid where
  blocks : Nat
  content : Nat
deriving DecidableEq, Repr, Inhabited

/-- A time-domain sample buffer: its length in samples and its samples as one opaque token
(10_state.md R55; DESIGN CHOICE, log entry 4). -/
structure Samples where
  length : Nat
  content : Nat
deriving DecidableEq, Repr, Inhabited

/-- The empty (zero-resource-block) grid (10_state.md R58). -/
def Grid.empty : Grid := { blocks := 0, content := 0 }

/-- The all-zero grid of `n` resource blocks (10_state.md R55). -/
def Grid.zero (n : Nat) : Grid := { blocks := n, content := 0 }

/-- The empty sample buffer (10_state.md R58). -/
def Samples.empty : Samples := { length := 0, content := 0 }

/-- The radio handle: an opaque value passed back to every radio call (10_state.md R53). -/
abbrev Handle := Nat

/-- A hardware time: seconds and a fraction in units of `1/FRAC_UNITS` second (00_scope.md R16). -/
structure HwTime where
  sec : Nat
  frac : Nat
deriving DecidableEq, Repr, Inhabited

/-- The contents of a payload buffer: its bytes, keyed by their position from the first payload bit
(byte `p` holds the payload bits `8p` to `8p+7`); unlisted bytes are zero (10_state.md R54; DESIGN CHOICE, log entry 7). -/
abbrev Payload := List Host.Cell

/-- What a collaborator does with one call: it answers, or it never answers
(00_scope.md R8, 93_implementation_defined.md U2; DEDUCED, log entry 3). -/
inductive Answer (α : Type) where
  | never
  | reply (a : α)
deriving DecidableEq, Repr, Inhabited

/-- The data-channel configuration of six members (42_framer_tx.md R166, 43_parser_rx.md R199). -/
structure DataConfig where
  prbStart : Nat
  nofPrb : Nat
  scramblingId : Word
  mcs : BitVec 5
  redundancyVersion : BitVec 1
  subframe : Nat
deriving DecidableEq, Repr, Inhabited

/-- The two shapes of the channel-estimation parameters (60_exceptions.md R293). -/
inductive ChestParams where
  | control (prbOffset cyclicShift : Nat)
  | data (scramblingId : Word) (subframe prbStart nofPrb : Nat)
deriving DecidableEq, Repr, Inhabited

/-- The cell configuration as `set_cell` hands it to the backends (60_exceptions.md R290). -/
structure CellArgs where
  tm : BitVec 8
  id : BitVec 16
  nprb : BitVec 8
  cp : BitVec 1
deriving DecidableEq, Repr, Inhabited

/-- One row of the default pool table (40_pool.md R123). -/
structure PoolRow where
  count : Nat
  width : Nat
  start : Nat
  adjacency : Nat
deriving DecidableEq, Repr, Inhabited

/-- The least `w` from `w` on with `2^w ≥ t`, within `fuel` steps. -/
def leastWidth (t : Nat) : Nat → Nat → Nat
  | 0, w => w
  | fuel + 1, w => if t ≤ 2 ^ w then w else leastWidth t fuel (w + 1)

/-- The number of valid pairs `N(N+1)/2` (41_sci_codec.md R134). -/
def rivCount (n : Nat) : Nat := n * (n + 1) / 2

/-- The configuration of an implementation: one field for each quantity of 00_scope.md R9, with the default
that R9 states. The five fields R9 calls OPEN and gives no value have no default here; the span oracle's
default is that of 93_implementation_defined.md U9, which stands where the field is `none`. -/
structure Params where
  /-- `MAX_SUBCH` -/
  maxSubch : Nat := 20
  /-- `SUPPORTED_NPRB` -/
  supportedNprb : List Nat := [50, 100]
  /-- `POOL_DEFAULT` (40_pool.md R123): a row for each count of `supportedNprb` -/
  poolDefault : Nat → Option PoolRow := fun n =>
    if n = 50 then some ⟨10, 5, 0, 1⟩ else if n = 100 then some ⟨20, 5, 0, 1⟩ else none
  /-- `CCW`, the control-channel width in resource blocks -/
  ccw : Nat := 2
  /-- `SHIFTS`, in scan order -/
  shifts : List Nat := [0, 3, 6, 9]
  /-- `TX_CS` -/
  txCs : Nat := 0
  /-- `W_PRIO` -/
  wPrio : Nat := 3
  /-- `W_RESV` -/
  wResv : Nat := 4
  /-- `W_TGAP` -/
  wTgap : Nat := 4
  /-- `W_MCS` -/
  wMcs : Nat := 5
  /-- `W_RIV(N)`: the least `w` with `2^w ≥ N(N+1) div 2` (41_sci_codec.md R134) -/
  wRiv : Nat → Nat := fun n => leastWidth (rivCount n) (rivCount n) 0
  /-- `SCI_LEN` -/
  sciLen : Nat := 32
  /-- `CRC_LEN` -/
  crcLen : Nat := 16
  /-- `BITSTR_MAX` -/
  bitstrMax : Nat := 32
  /-- `GUARD_MS` -/
  guardMs : Nat := 3
  /-- the reset value of `SCH_STEP_MS` -/
  stepMsReset : BitVec 10 := 100
  /-- `FRAC_UNITS` -/
  fracUnits : Nat := 1000000000
  /-- `SUBFRAME_MS` -/
  subframeMs : Nat := 1
  /-- one less than the number of words of a payload buffer: `TB_MAX_BITS` is any multiple of 32 from 32 to
  32768 (92_eei_decisions.md D25) -/
  tbWordsLessOne : Fin 1024
  /-- `valid_span`, where the implementation sets its own oracle; `none`: the default of U9 -/
  validSpan : Option (Nat → Answer Nat) := none
  /-- `radio_args`, an opaque session input -/
  radioArgs : Nat
  /-- `center_freq`, an opaque session input -/
  centerFreq : Nat
  /-- `tx_gain`, an opaque session input -/
  txGain : Nat

/-- What the registers of 10_state.md R23, R37, R42, R43, R46 and the shapes of 60_exceptions.md R292 and R293 ask of a
configuration: their widths are numbers of the spec's tables, and `State` has them as such. -/
structure Params.FitsRegisters (p : Params) : Prop where
  sci : p.wPrio = 3 ∧ p.wResv = 4 ∧ p.wTgap = 4 ∧ p.wMcs = 5 ∧ p.wRiv p.maxSubch = 8
  strings : p.sciLen = 32 ∧ p.crcLen = 16 ∧ p.bitstrMax = 32
  entries : p.maxSubch = 20
  shifts : p.shifts.length = 4 ∧ ∀ cs ∈ p.shifts, cs < 2 ^ 4
  frac : p.fracUnits ≤ 2 ^ 30

namespace Config

/-! What R9 leaves OPEN: constants without a body, so that a statement holds for every value. -/

/-- `TB_MAX_BITS div 32 - 1` (00_scope.md R9; DEDUCED, log entry 6). -/
opaque openTbWords : Fin 1024
/-- The implementation's own span oracle, if it sets one (00_scope.md R9, 93_implementation_defined.md U9;
DESIGN CHOICE, log entry 10). -/
opaque openSpan : Option (Nat → Answer Nat)
/-- `radio_args`, `center_freq`, `tx_gain` (00_scope.md R9; DEDUCED, log entry 9). -/
opaque openRadioArgs : Nat
@[inherit_doc openRadioArgs] opaque openCenterFreq : Nat
@[inherit_doc openRadioArgs] opaque openTxGain : Nat

/-- The configuration of this block: R9's defaults, and its OPEN quantities open (log entry 8). -/
def params : Params where
  tbWordsLessOne := openTbWords
  validSpan := openSpan
  radioArgs := openRadioArgs
  centerFreq := openCenterFreq
  txGain := openTxGain

@[inherit_doc Params.maxSubch] def maxSubch : Nat := params.maxSubch
@[inherit_doc Params.supportedNprb] def supportedNprb : List Nat := params.supportedNprb
@[inherit_doc Params.poolDefault] def poolDefault (n : Nat) : Option PoolRow := params.poolDefault n
@[inherit_doc Params.ccw] def ccw : Nat := params.ccw
@[inherit_doc Params.shifts] def shifts : List Nat := params.shifts
@[inherit_doc Params.txCs] def txCs : Nat := params.txCs
@[inherit_doc Params.wPrio] def wPrio : Nat := params.wPrio
@[inherit_doc Params.wResv] def wResv : Nat := params.wResv
@[inherit_doc Params.wTgap] def wTgap : Nat := params.wTgap
@[inherit_doc Params.wMcs] def wMcs : Nat := params.wMcs
@[inherit_doc Params.wRiv] def wRiv (n : Nat) : Nat := params.wRiv n
@[inherit_doc Params.sciLen] def sciLen : Nat := params.sciLen
@[inherit_doc Params.crcLen] def crcLen : Nat := params.crcLen
@[inherit_doc Params.bitstrMax] def bitstrMax : Nat := params.bitstrMax
@[inherit_doc Params.guardMs] def guardMs : Nat := params.guardMs
@[inherit_doc Params.stepMsReset] def stepMsReset : BitVec 10 := params.stepMsReset
@[inherit_doc Params.fracUnits] def fracUnits : Nat := params.fracUnits
@[inherit_doc Params.subframeMs] def subframeMs : Nat := params.subframeMs
@[inherit_doc Params.radioArgs] def radioArgs : Nat := params.radioArgs
@[inherit_doc Params.centerFreq] def centerFreq : Nat := params.centerFreq
@[inherit_doc Params.txGain] def txGain : Nat := params.txGain

/-- `MS`, one millisecond in `frac` units (00_scope.md R16). -/
def ms : Nat := fracUnits / 1000

/-- `TB_MAX_BITS div 32`, the mapped words of a payload window (20_memory.md R75). -/
def tbWords : Nat := params.tbWordsLessOne.val + 1

/-- `TB_MAX_BITS`. -/
def tbMaxBits : Nat := 32 * tbWords

end Config

/-- The bits a control decode recovers: `SCI_LEN` of them, the first one highest (60_exceptions.md R292). -/
abbrev ControlBits := BitVec Config.sciLen

/-- The CRC bits of a control message: `CRC_LEN` of them, the first one highest (60_exceptions.md R292). -/
abbrev CrcBits := BitVec Config.crcLen

namespace Config

/-! Free values, each indexed by the counter `State.draws`: nothing is known of any of them. -/

/-- The contents of `TXGRID` after a framer failure (93_implementation_defined.md U1; DEDUCED, log entry 5). -/
opaque freeGrid : Nat → Grid
/-- The backends' cell configuration after `rst` (93_implementation_defined.md U6; DESIGN CHOICE, log entry 12). -/
opaque freeBackendCell : Nat → Option CellArgs
/-- A grid a backend answers with, where the state lists no answer (60_exceptions.md R290; DESIGN CHOICE, log entry 2). -/
opaque freeGridAnswer : Nat → Answer Grid
/-- The same for `modulate`. -/
opaque freeSamplesAnswer : Nat → Answer Samples
/-- The same for `encode_control`: `err`, or the new grid and the CRC bits. -/
opaque freeEncodeControl : Nat → Answer (Option (Grid × CrcBits))
/-- The same for `decode_control`: `err`, or the payload bits and the CRC bits. -/
opaque freeDecodeControl : Nat → Answer (Option (ControlBits × CrcBits))
/-- The same for `encode_data`: `err`, or the new grid. -/
opaque freeEncodeData : Nat → Answer (Option Grid)
/-- The same for `decode_data`: `err`, or the payload. -/
opaque freeDecodeData : Nat → Answer (Option Payload)
/-- The same for `open`: `err`, or the handle. -/
opaque freeOpen : Nat → Answer (Option Handle)
/-- The same for `set_freq` and `set_gain`: true for `ok`. -/
opaque freeSetter : Nat → Answer Bool
/-- The same for `set_sample_rate`: `err`, or the rate the hardware took. -/
opaque freeSetRate : Nat → Answer (Option Nat)
/-- The same for `get_time`. -/
opaque freeTime : Nat → Answer HwTime
/-- The same for `send_timed`: the signed 32-bit return value. -/
opaque freeSendTimed : Nat → Answer Word

end Config

end Sys2Proof
end

