-- ==== Sys2Proof/Machine/State.lean ====
section
/-! DEFINITION. Everything the spec gives the machine, as plain data (10_state.md R20 to R58), the model's
own fields beside it (moves still to come, answers still to come, the free-value counter, what was put on
the ports), the reasons a step could stop, and the state after reset. -/

namespace Sys2Proof.Machine

/-- The states of the transmit framer (10_state.md R25, 42_framer_tx.md R160). -/
inductive FrState where
  | empty | controlPlaced | dataPlaced | modulated | ready
deriving DecidableEq, Repr, Inhabited

/-- The states of the scheduler (10_state.md R26, 44_scheduler.md R220). -/
inductive SchState where
  | idle | awaitStart | scheduled | lateReset
deriving DecidableEq, Repr, Inhabited

/-- The bits of `STATUS` but for the two state fields (10_state.md R28). -/
structure Status where
  busy : Bool := false
  done : Bool := false
  errv : Bool := false
  cellv : Bool := false
  poolv : Bool := false
  radio : Bool := false
  cancel : Bool := false
  frfail : Bool := false
deriving DecidableEq, Repr, Inhabited

/-- `FLAGS`: the sticky report flags (10_state.md R29). -/
structure Flags where
  slip : Bool := false
  sendfail : Bool := false
  ovr : Bool := false
deriving DecidableEq, Repr, Inhabited

/-- `OPA`, `OPB`, `OPC`, `RES0`, `RES1` (10_state.md R22). -/
structure OperandRegs where
  opa : Word := 0
  opb : Word := 0
  opc : Word := 0
  res0 : Word := 0
  res1 : Word := 0
deriving DecidableEq, Repr, Inhabited

/-- ResourcePool (10_state.md R34). -/
structure Pool where
  nsubch : BitVec 5 := 0
  width : BitVec 8 := 0
  startPrb : BitVec 8 := 0
  adj : BitVec 1 := 0
deriving DecidableEq, Repr, Inhabited

/-- ControlInfo: the SCI registers (10_state.md R23). -/
structure Sci where
  fmt : BitVec 1 := 0
  prio : BitVec 3 := 0
  resv : BitVec 4 := 0
  riv : BitVec 8 := 0
  tgap : BitVec 4 := 0
  mcs : BitVec 5 := 0
  retx : BitVec 1 := 0
  txfmt : BitVec 1 := 0
deriving DecidableEq, Repr, Inhabited

/-- A bit-string register pair, left-aligned (00_scope.md R13, 10_state.md R37). -/
structure BitPair where
  bits : Word := 0
  nbits : BitVec 6 := 0
deriving DecidableEq, Repr, Inhabited

/-- The framer's inputs (10_state.md R38). -/
structure FramerIn where
  start : BitVec 5 := 0
  len : BitVec 5 := 0
  sfidx : Word := 0
deriving DecidableEq, Repr, Inhabited

/-- The framer's outputs (10_state.md R39). -/
structure FramerOut where
  ctrlOff : BitVec 8 := 0
  dataStart : BitVec 8 := 0
  dataNprb : BitVec 8 := 0
  scrid : Word := 0
  rv : BitVec 1 := 0
deriving DecidableEq, Repr, Inhabited

/-- The scheduler's registers (10_state.md R44 to R51). -/
structure Sched where
  srate : Word := 0
  stepMs : BitVec 10 := Config.stepMsReset
  epochSec : Word := 0
  epochFrac : BitVec 30 := 0
  secOff : Word := 0
  msecOff : BitVec 10 := 0
  txSec : Word := 0
  txFrac : BitVec 30 := 0
  ticks : Word := 0
  slips : Word := 0
  sendFails : Word := 0
  lastRet : Word := 0
deriving DecidableEq, Repr, Inhabited

/-- One entry of the DecodeResult file (10_state.md R43). -/
structure DrEntry where
  ctrl : Bool := false
  ok : Bool := false
  ctrlMask : BitVec 4 := 0
  okMask : BitVec 4 := 0
  prio : BitVec 3 := 0
  resv : BitVec 4 := 0
  interval : BitVec 16 := 0
  riv : BitVec 8 := 0
  tgap : BitVec 4 := 0
  mcs : BitVec 5 := 0
  retx : BitVec 1 := 0
  txfmt : BitVec 1 := 0
  start : BitVec 5 := 0
  len : BitVec 5 := 0
  dataStart : BitVec 8 := 0
  dataNprb : BitVec 8 := 0
  scrid : Word := 0
  rv : BitVec 1 := 0
  shift : BitVec 4 := 0
deriving DecidableEq, Repr, Inhabited

/-- The names of the host-visible registers (10_state.md R57). -/
inductive Reg where
  | id | cmd | status | err | errInfo | flags
  | cellTm | cellId | cellNprb | cellCp
  | poolNsubch | poolSubchW | poolStartPrb | poolAdj
  | sciFmt | sciPrio | sciResv | sciRiv | sciTgap | sciMcs | sciRetx | sciTxfmt
  | opa | opb | opc | res0 | res1
  | sciBits | sciNbits | crcBits | crcNbits
  | frStart | frLen | frSfidx | frCtrlOff | frDataStart | frDataNprb | frScrid | frRv
  | schSrate | schStepMs | schEpochSec | schEpochFrac | schSecOff | schMsecOff
  | schTxSec | schTxFrac | schTicks | schSlips | schSendfails | schLastRet
  | rxSfidx
deriving DecidableEq, Repr

/-- The error kinds (60_exceptions.md R270). `scheduleSlip` has a code for naming only. -/
inductive ErrKind where
  | invalidConfiguration | invalidInterval | malformedControlInfo | noValidDataResources
  | hardwareFailure | scheduleSlip | backendFailure | illegalCommand | sequenceError
deriving DecidableEq, Repr

/-- The event pulses (60_exceptions.md R281). -/
inductive Pulse where
  | evDone | evErr | evSlip | evSendfail
deriving DecidableEq, Repr

/-- The calls the block makes on the collaborators, with their arguments (60_exceptions.md R290 to R294). -/
inductive Call where
  | setCell (c : CellArgs)
  | modulate (g : Grid)
  | demodulate (x : Samples)
  | encodeControl (bits : Bits) (g : Grid) (off : Nat)
  | decodeControl (g : Grid) (off : Nat)
  | encodeData (p : Payload) (cfg : DataConfig) (g : Grid)
  | decodeData (g : Grid) (cfg : DataConfig)
  | getValidResourceSpan (req : Nat)
  | setConfig (p : ChestParams)
  | insertReferenceSignal (g : Grid)
  | estimateAndEqualize (g : Grid)
  | radioOpen (args : Nat)
  | setFreq (h : Option Handle) (f : Nat)
  | setGain (h : Option Handle) (g : Nat)
  | setSampleRate (h : Option Handle) (rate : Nat)
  | getTime (h : Option Handle)
  | sendTimed (h : Option Handle) (x : Samples) (nSamples sec frac : Nat) (isStart isEnd : Bool)
  | radioClose (h : Option Handle)
deriving DecidableEq, Repr

/-- What the block puts on its ports: a backend call, an event pulse, a word read by the host. -/
inductive Out where
  | call (c : Call)
  | pulse (p : Pulse)
  | readData (a : WordNo) (v : Word)
deriving DecidableEq, Repr

/-- One move of an agent: a host access, a new level on an input, or one turn of the engine
(00_scope.md R6, 60_exceptions.md R282; DESIGN CHOICE, log entry 1). -/
inductive Move where
  | hostWrite (a : WordNo) (v : Word)
  | hostRead (a : WordNo)
  | cancelIn (level : Bool)
  | rstIn (level : Bool)
  | rxIn (x : Samples)
  | engine
deriving DecidableEq, Repr

/-- The answers the collaborators will still give, one list for each operation, the next one first
(60_exceptions.md R290 to R295; DESIGN CHOICE, log entry 2). -/
structure Backends where
  modulate : List (Answer Samples) := []
  demodulate : List (Answer Grid) := []
  encodeControl : List (Answer (Option (Grid × CrcBits))) := []
  decodeControl : List (Answer (Option (ControlBits × CrcBits))) := []
  encodeData : List (Answer (Option Grid)) := []
  decodeData : List (Answer (Option Payload)) := []
  validSpan : List (Answer Nat) := []
  insertRef : List (Answer Grid) := []
  equalize : List (Answer Grid) := []
  radioOpen : List (Answer (Option Handle)) := []
  setFreq : List (Answer Bool) := []
  setGain : List (Answer Bool) := []
  setRate : List (Answer (Option Nat)) := []
  getTime : List (Answer HwTime) := []
  sendTimed : List (Answer Word) := []
deriving DecidableEq, Repr, Inhabited

/-- The whole machine (10_state.md R20). -/
structure State where
  /-- `STATUS` bits 7:0 -/
  status : Status := {}
  /-- `STATUS[10:8]` -/
  frState : FrState := .empty
  /-- `STATUS[13:12]` -/
  schState : SchState := .idle
  err : BitVec 8 := 0
  errInfo : Word := 0
  flags : Flags := {}
  /-- `CELL_TM`, `CELL_ID`, `CELL_NPRB`, `CELL_CP` (10_state.md R33) -/
  cell : CellArgs := { tm := 0, id := 0, nprb := 0, cp := 0 }
  pool : Pool := {}
  sci : Sci := {}
  opr : OperandRegs := {}
  /-- `SCI_BITS`, `SCI_NBITS` -/
  sciBits : BitPair := {}
  /-- `CRC_BITS`, `CRC_NBITS` -/
  crcBits : BitPair := {}
  frIn : FramerIn := {}
  frOut : FramerOut := {}
  sched : Sched := {}
  rxSfidx : Word := 0
  /-- the DecodeResult file, `MAX_SUBCH` entries (10_state.md R42) -/
  dr : Vector DrEntry Config.maxSubch := Vector.replicate Config.maxSubch {}
  /-- the payload memory: `TXTB` and `RXTB` (10_state.md R54), canonical (DESIGN CHOICE, log entry 7) -/
  mem : List Host.Cell := []
  txgrid : Grid := Grid.empty
  rxgrid : Grid := Grid.empty
  txsamp : Samples := Samples.empty
  rxsamp : Samples := Samples.empty
  /-- the radio handle (10_state.md R53) -/
  handle : Option Handle := none
  /-- the channel-estimation backend's stored configuration (10_state.md R56) -/
  chestCfg : Option ChestParams := none
  /-- the cell configuration the backends were last given (10_state.md R56) -/
  backendCell : Option CellArgs := none
  /-- `PS_IDX` (10_state.md R27) -/
  psIdx : BitVec 5 := 0
  /-- `PS_SHIFT` (10_state.md R27) -/
  psShift : BitVec 2 := 0
  /-- a backend call is in flight that is never answered (00_scope.md R8; DEDUCED, log entry 3) -/
  hung : Bool := false
  /-- the level of the input `cancel` (60_exceptions.md R282) -/
  inCancel : Bool := false
  /-- the level of the input `rst` (70_reset_and_hazards.md R310) -/
  inRst : Bool := false
  /-- the samples on the input `rx_in` (43_parser_rx.md R191) -/
  inRx : Samples := Samples.empty
  /-- the MODEL's own: the moves still to come (DESIGN CHOICE, log entry 1) -/
  moves : List Move := []
  /-- the MODEL's own: the answers still to come (DESIGN CHOICE, log entry 2) -/
  backends : Backends := {}
  /-- the MODEL's own: how many free values have been drawn (DESIGN CHOICE, log entry 2) -/
  draws : Nat := 0
  /-- the MODEL's own: what was put on the ports, newest first (DESIGN CHOICE, log entry 17) -/
  out : List Out := []
deriving DecidableEq, Repr

/-- The machine right after reset: every default above is the value of 10_state.md R57, R58; the values
the spec does not give are those of log entries 1, 2, 11, 12 and 17. -/
def State.reset : State := {}

/-- Reasons the machine could stop with a fault. There is none: every error of this block is a completion
or a rejection, that is a next state (00_scope.md R8, 60_exceptions.md R276), and an access to an unmapped
word is defined (20_memory.md R76). Safe: nothing is ruled out by it (DEDUCED, log entry 18). -/
inductive Fault
deriving DecidableEq, Repr

/-- Reasons a step could give an instruction no meaning. -/
inductive Refusal where
  /-- Raised by `exec` for a command that has no meaning yet; safe. No arm raises it. -/
  | notModelled (mnemonic : String)
deriving DecidableEq, Repr

end Sys2Proof.Machine
end

