-- ==== Sys2Proof/Machine/Bits.lean ====
section
/-! DEFINITION. Bit strings (00_scope.md R12) and the register pairs that hold them (R13). -/

namespace Sys2Proof.Machine

/-- `val(b)`: the first bit is the highest-order one; the empty string is 0 (00_scope.md R12). -/
def val : Bits → Nat
  | [] => 0
  | b :: rest => b.toNat * 2 ^ rest.length + val rest

/-- `bits_n(v)`: the `n`-bit string whose value is `v mod 2^n` (00_scope.md R12). -/
def bitsOf : Nat → Nat → Bits
  | 0, _ => []
  | n + 1, v => v.testBit n :: bitsOf n v

/-- `zeros(n)` (00_scope.md R12). -/
def zeros (n : Nat) : Bits := List.replicate n false

/-- `b[i..j)` (00_scope.md R12). -/
def substr (b : Bits) (i j : Nat) : Bits := (b.drop i).take (j - i)

/-- The pair a string of at most 32 bits is stored as: left-aligned, the bits below it zero
(00_scope.md R13). -/
def pairOf (b : Bits) : BitPair :=
  { bits := BitVec.ofNat 32 (val (b ++ zeros (Config.bitstrMax - b.length)))
    nbits := BitVec.ofNat 6 b.length }

/-- `str(X)`: the string a pair holds; the bits below it are ignored (00_scope.md R13). -/
def strOf (p : BitPair) : Bits := (bitsOf Config.bitstrMax p.bits.toNat).take p.nbits.toNat

end Sys2Proof.Machine
end

