-- ==== Sys2Proof/Machine/Flags.lean ====
section
/-! DEFINITION. Every flag and code computation: the state codes, `STATUS`, `FLAGS`, `DR_FLAGS`, the error
codes, and the flag writes that several commands share (10_state.md R25, R26, R28, R29, R43;
60_exceptions.md R270). -/

namespace Sys2Proof.Machine

/-- The code of `FR_STATE` (10_state.md R25). -/
def FrState.code : FrState → BitVec 3
  | .empty => 0
  | .controlPlaced => 1
  | .dataPlaced => 2
  | .modulated => 3
  | .ready => 4

/-- The code of `SCH_STATE` (10_state.md R26). -/
def SchState.code : SchState → BitVec 2
  | .idle => 0
  | .awaitStart => 1
  | .scheduled => 2
  | .lateReset => 3

/-- The value of `ERR` for each kind (60_exceptions.md R270). -/
def ErrKind.code : ErrKind → BitVec 8
  | .invalidConfiguration => 1
  | .invalidInterval => 2
  | .malformedControlInfo => 3
  | .noValidDataResources => 4
  | .hardwareFailure => 5
  | .scheduleSlip => 6
  | .backendFailure => 7
  | .illegalCommand => 8
  | .sequenceError => 9

/-- One flag as a bit. -/
def bit (b : Bool) : BitVec 1 := BitVec.ofBool b

/-- The `STATUS` word (10_state.md R28), highest bit first. -/
def statusWord (s : State) : Word :=
  (0 : BitVec 18) ++ s.schState.code ++ (0 : BitVec 1) ++ s.frState.code ++ bit s.status.frfail
    ++ bit s.status.cancel ++ bit s.status.radio ++ bit s.status.poolv ++ bit s.status.cellv
    ++ bit s.status.errv ++ bit s.status.done ++ bit s.status.busy

/-- The `FLAGS` word (10_state.md R29). -/
def flagsWord (f : Flags) : Word :=
  (0 : BitVec 29) ++ bit f.ovr ++ bit f.sendfail ++ bit f.slip

/-- `DR_FLAGS` of an entry (10_state.md R43). -/
def drFlagsWord (e : DrEntry) : BitVec 12 :=
  e.okMask ++ e.ctrlMask ++ (0 : BitVec 2) ++ bit e.ok ++ bit e.ctrl

/-- `FLAGS.OVR <- 1`: a host write was ignored because the block was busy (20_memory.md R77). -/
def setOvr (s : State) : State := { s with flags.ovr := true }

/-- The cancel latch is cleared, and set again at once while the input `cancel` is 1
(10_state.md R52, 44_scheduler.md R232; DEDUCED, log entry 14). -/
def clearCancel (s : State) : State := { s with status.cancel := s.inCancel }

/-- The cancel latch is set (10_state.md R52). -/
def setCancel (s : State) : State := { s with status.cancel := true }

/-- A host write to a `CELL_*` register: `CELLV` and `POOLV` cleared (20_memory.md R74). -/
def invalidateCell (s : State) : State := { s with status.cellv := false, status.poolv := false }

/-- A host write to a `POOL_*` register: `POOLV` cleared (20_memory.md R74). -/
def invalidatePool (s : State) : State := { s with status.poolv := false }

end Sys2Proof.Machine
end

