-- ==== Sys2Proof/Machine/Memory.lean ====
section
/-! DEFINITION. The payload memory (10_state.md R54, 20_memory.md R75, R79): a list of (address, byte)
pairs, addresses strictly rising, no listed byte zero; an unlisted address reads as 0, the reset value of
every payload bit (10_state.md R58). The byte at address `4 a + j` is byte `j` of HOST word `a`, byte 0
holding bits 31:24, so that the bytes of a window follow the payload bits in order (DESIGN CHOICE, log entry 7). -/

namespace Sys2Proof.Machine

/-- What an unlisted address reads as (10_state.md R58). -/
def unlistedByte : Byte := 0

/-- The byte at an address. -/
def readByte : List Host.Cell → Nat → Byte
  | [], _ => unlistedByte
  | (b, w) :: rest, a => if b = a then w else readByte rest a

/-- Store a byte, keeping the canonical form. -/
def writeByte : List Host.Cell → Nat → Byte → List Host.Cell
  | [], a, v => if v = unlistedByte then [] else [(a, v)]
  | (b, w) :: rest, a, v =>
    if a < b then (if v = unlistedByte then (b, w) :: rest else (a, v) :: (b, w) :: rest)
    else if a = b then (if v = unlistedByte then rest else (a, v) :: rest)
    else (b, w) :: writeByte rest a v

/-- Every address in `[lo, hi)` reads 0 afterwards. -/
def clearBytes (m : List Host.Cell) (lo hi : Nat) : List Host.Cell :=
  m.filter fun c => !(decide (lo ≤ c.1) && decide (c.1 < hi))

/-- The canonical form, from a lower bound on the addresses. -/
def canonicalFrom : Nat → List Host.Cell → Bool
  | _, [] => true
  | lo, (a, v) :: rest => decide (lo ≤ a) && decide (v ≠ unlistedByte) && canonicalFrom (a + 1) rest

/-- `Memory.wf`: addresses strictly rising, no entry equal to what an unlisted address reads as. -/
def Memory.wf (m : List Host.Cell) : Bool := canonicalFrom 0 m

/-- The byte address of HOST word `a`. -/
def byteAddr (a : Nat) : Nat := 4 * a

/-- The first word number of the `TXTB` window (20_memory.md R75). -/
def txtbBase : Nat := 0x400

/-- The first word number of the `RXTB[i]` window (20_memory.md R75). -/
def rxtbBase (i : Nat) : Nat := 0x8000 + 0x400 * i

/-- One past the last word number of the `RXTB` windows (20_memory.md R75). -/
def rxtbEnd : Nat := 0xD000

/-- The bytes of a payload buffer: `TB_MAX_BITS div 8`. -/
def tbBytes : Nat := 4 * Config.tbWords

/-- Byte `j` of a word, byte 0 being bits 31:24 (20_memory.md R79). -/
def wordByte (v : Word) (j : Nat) : Byte := v.extractLsb' (8 * (3 - j)) 8

/-- HOST word `a` of the payload memory (20_memory.md R79). -/
def readWord (m : List Host.Cell) (a : Nat) : Word :=
  readByte m (byteAddr a) ++ readByte m (byteAddr a + 1) ++ readByte m (byteAddr a + 2)
    ++ readByte m (byteAddr a + 3)

/-- Store HOST word `a` of the payload memory. -/
def writeWord (m : List Host.Cell) (a : Nat) (v : Word) : List Host.Cell :=
  writeByte (writeByte (writeByte (writeByte m (byteAddr a) (wordByte v 0))
    (byteAddr a + 1) (wordByte v 1)) (byteAddr a + 2) (wordByte v 2)) (byteAddr a + 3) (wordByte v 3)

/-- A whole payload buffer as a value: its listed bytes, counted from the window's first word. -/
def takePayload (m : List Host.Cell) (base : Nat) : Payload :=
  (m.filter fun c => decide (byteAddr base ≤ c.1) && decide (c.1 < byteAddr base + tbBytes)).map
    fun c => (c.1 - byteAddr base, c.2)

/-- A whole payload buffer replaced by a value: the value's bytes inside `TB_MAX_BITS`, every other byte
of the buffer zero; the first entry of a position counts (43_parser_rx.md R199). -/
def putPayload (m : List Host.Cell) (base : Nat) (p : Payload) : List Host.Cell :=
  p.foldr (fun c acc => if c.1 < tbBytes then writeByte acc (byteAddr base + c.1) c.2 else acc)
    (clearBytes m (byteAddr base) (byteAddr base + tbBytes))

/-- Every bit of every `RXTB[i]` zero (43_parser_rx.md R193). -/
def clearRxtb (m : List Host.Cell) : List Host.Cell :=
  clearBytes m (byteAddr (rxtbBase 0)) (byteAddr rxtbEnd)

/-- Bit `j` of the payload buffer whose window begins at word `base` (20_memory.md R79). -/
def payloadBit (m : List Host.Cell) (base j : Nat) : Bool :=
  (readWord m (base + j / 32)).getLsbD (31 - j % 32)

end Sys2Proof.Machine
end

