-- ==== Sys2Proof/Machine/Operands.lean ====
section
/-! DEFINITION. Every operand form: the implicit register operands as the rules name them
(30_encoding.md R102, 10_state.md R34), the codec's pure functions of 41_sci_codec.md on them, the time
arithmetic of 00_scope.md R16, the state conditions of 30_encoding.md R109, and the register map of
10_state.md R57 with the host's view of each register. -/

namespace Sys2Proof.Machine

/-! ### Named operands -/

/-- `N = R[POOL_NSUBCH]` (10_state.md R34). -/
def opN (s : State) : Nat := s.pool.nsubch.toNat
/-- `w = R[POOL_SUBCH_W]` (10_state.md R34). -/
def opW (s : State) : Nat := s.pool.width.toNat
/-- `p0 = R[POOL_START_PRB]` (10_state.md R34). -/
def opP0 (s : State) : Nat := s.pool.startPrb.toNat
/-- `adj = R[POOL_ADJ]` (10_state.md R34). -/
def opAdj (s : State) : Bool := s.pool.adj = 1
/-- `start = R[FR_START]` (10_state.md R38). -/
def opStart (s : State) : Nat := s.frIn.start.toNat
/-- `len = R[FR_LEN]` (10_state.md R38). -/
def opLen (s : State) : Nat := s.frIn.len.toNat
/-- `R[CELL_NPRB]` (10_state.md R33). -/
def opNprb (s : State) : Nat := s.cell.nprb.toNat
/-- `sr = R[SCH_SRATE]` (10_state.md R45). -/
def opSr (s : State) : Nat := s.sched.srate.toNat
/-- `step = R[SCH_STEP_MS]` (10_state.md R47). -/
def opStep (s : State) : Nat := s.sched.stepMs.toNat

/-- `zero_grid()`: the all-zero grid of the committed cell's size (10_state.md R55; DEDUCED, log entry 20). -/
def zeroGrid (s : State) : Grid := Grid.zero (opNprb s)

/-- `zero_grid()` when a cell is committed, else the empty grid (42_framer_tx.md R172, 44_scheduler.md R232). -/
def clearedGrid (s : State) : Grid := if s.status.cellv then zeroGrid s else Grid.empty

/-! ### The codec's functions (41_sci_codec.md) -/

/-- `resv_to_code(v)` (41_sci_codec.md R130). -/
def resvToCode (v : Nat) : Option Nat :=
  if v = 20 then some 12
  else if v = 50 then some 11
  else if v % 100 = 0 ∧ 100 ≤ v ∧ v ≤ 1000 then some (v / 100)
  else none

/-- `code_to_resv(c)` (41_sci_codec.md R132). -/
def codeToResv (c : Nat) : Nat :=
  if c = 12 then 20 else if c = 11 then 50 else c * 100

/-- `W_RIV(N)`, the width of the RIV field (00_scope.md R9, 41_sci_codec.md R134). -/
def wRiv (n : Nat) : Nat := Config.wRiv n

/-- `riv_encode(N, s, l)` (41_sci_codec.md R135). -/
def rivEncode (n s l : Nat) : Nat :=
  if l - 1 ≤ n / 2 then n * (l - 1) + s else n * (n - l + 1) + (n - 1 - s)

/-- `riv_decode(r, N)`: start and length (41_sci_codec.md R137). -/
def rivDecode (r n : Nat) : Option (Nat × Nat) :=
  let a := r / n
  let b := r % n
  if a + 1 + b ≤ n then some (b, a + 1)
  else if a ≤ n then some (n - 1 - b, n - a + 1)
  else none

/-- `LEN(f, N)`: the bits of a control word before the padding (41_sci_codec.md R139). -/
def sciLength (fmt : BitVec 1) (n : Nat) : Nat :=
  Config.wPrio + Config.wResv + wRiv n + Config.wTgap + Config.wMcs + 1 + (if fmt = 1 then 1 else 0)

/-- The fields of a control word in their order, before the padding (41_sci_codec.md R139, R140). -/
def packBody (c : Sci) (n : Nat) : Bits :=
  bitsOf Config.wPrio c.prio.toNat ++ bitsOf Config.wResv c.resv.toNat ++ bitsOf (wRiv n) c.riv.toNat
    ++ bitsOf Config.wTgap c.tgap.toNat ++ bitsOf Config.wMcs c.mcs.toNat ++ bitsOf 1 c.retx.toNat
    ++ (if c.fmt = 1 then bitsOf 1 c.txfmt.toNat else [])

/-- `pack(c, N)`; `none` where the RIV does not fit its field (41_sci_codec.md R140). -/
def pack (c : Sci) (n : Nat) : Option Bits :=
  if 2 ^ wRiv n ≤ c.riv.toNat then none
  else some (packBody c n ++ zeros (Config.sciLen - (packBody c n).length))

/-- The value of the `w` bits of `b` from position `p` on. -/
def fieldAt (b : Bits) (p w : Nat) : Nat := val (substr b p (p + w))

/-- `unpack(b, f, N)`: the fields in their order, each from where the one before it ends; `none` where the
string is too short (41_sci_codec.md R142). -/
def unpack (b : Bits) (f : BitVec 1) (n : Nat) : Option Sci :=
  let atResv := Config.wPrio
  let atRiv := atResv + Config.wResv
  let atTgap := atRiv + wRiv n
  let atMcs := atTgap + Config.wTgap
  let atRetx := atMcs + Config.wMcs
  if b.length < sciLength f n then none
  else
    some
      { fmt := f
        prio := BitVec.ofNat _ (fieldAt b 0 Config.wPrio)
        resv := BitVec.ofNat _ (fieldAt b atResv Config.wResv)
        riv := BitVec.ofNat _ (fieldAt b atRiv (wRiv n))
        tgap := BitVec.ofNat _ (fieldAt b atTgap Config.wTgap)
        mcs := BitVec.ofNat _ (fieldAt b atMcs Config.wMcs)
        retx := BitVec.ofNat _ (fieldAt b atRetx 1)
        txfmt := if f = 1 then BitVec.ofNat _ (fieldAt b (atRetx + 1) 1) else 0 }

/-- A ControlInfo is well-formed for `N` sub-channels; the field widths hold by type (41_sci_codec.md R147). -/
def sciWellFormed (c : Sci) (n : Nat) : Bool :=
  decide (c.riv.toNat < 2 ^ wRiv n) && (decide (c.fmt = 1) || decide (c.txfmt = 0))

/-- `scrambling_id(b) = val(b)` (41_sci_codec.md R145). -/
def scramblingId (b : Bits) : Nat := val b

/-- A sub-channel count the codec commands accept (41_sci_codec.md R136, R138, R141, R143). -/
def countInRange (n : Nat) : Bool := decide (n ≠ 0) && decide (n ≤ Config.maxSubch)

/-- The pool invariant with the bounds of 10_state.md R35. -/
def poolInvariant (n w nprb : Nat) : Bool :=
  decide (1 ≤ n) && decide (n ≤ Config.maxSubch) && decide (1 ≤ w) && decide (n * w ≤ nprb)

/-! ### The span oracle (93_implementation_defined.md U9) -/

/-- `m` with every factor `p` taken out, within `fuel` divisions. -/
def withoutFactor (p : Nat) : Nat → Nat → Nat
  | 0, m => m
  | fuel + 1, m => if m % p = 0 then withoutFactor p fuel (m / p) else m

/-- `m = 2^a × 3^b × 5^c` for some `a`, `b`, `c` (93_implementation_defined.md U9). -/
def isValidSize (m : Nat) : Bool :=
  decide (m ≠ 0) && decide (withoutFactor 5 m (withoutFactor 3 m (withoutFactor 2 m m)) = 1)

/-- The default of `valid_span`: the largest `m ≤ req` of the form `2^a × 3^b × 5^c`, never 0 for `req ≥ 1`
(93_implementation_defined.md U9, 92_eei_decisions.md D31). -/
def spanDefault : Nat → Nat
  | 0 => 0
  | req + 1 => if isValidSize (req + 1) then req + 1 else spanDefault req

/-- `valid_span`: the implementation's own oracle, or the default where it sets none (00_scope.md R9). -/
def spanOracle (req : Nat) : Answer Nat :=
  match Config.params.validSpan with
  | some oracle => oracle req
  | none => .reply (spanDefault req)

/-! ### Times (00_scope.md R16) -/

/-- `norm(sec, f)`. -/
def normTime (sec f : Nat) : HwTime :=
  { sec := sec + f / Config.fracUnits, frac := f % Config.fracUnits }

/-- `samples(t, srate)`. -/
def samplesOf (t : HwTime) (srate : Nat) : Nat :=
  t.sec * srate + t.frac * srate / Config.fracUnits

/-- `n_samples` (44_scheduler.md R235). -/
def nSamples (sr : Nat) : Nat := sr / 1000 * Config.subframeMs

/-! ### State conditions for acceptance -/

/-- The state condition of 30_encoding.md R109; a command not listed there has none. -/
def acceptable (i : Instr) (s : State) : Bool :=
  match i with
  | .frBuild | .frCtrl =>
    s.status.cellv && s.status.poolv && !s.status.frfail && decide (s.frState = .empty)
  | .frData =>
    s.status.cellv && s.status.poolv && !s.status.frfail && decide (s.frState = .controlPlaced)
  | .frMod => s.status.cellv && !s.status.frfail && decide (s.frState = .dataPlaced)
  | .rxDemod => s.status.cellv
  | .rxLoop => s.status.cellv && !s.status.frfail
  | .parseSubch _ | .parseAll => s.status.cellv && s.status.poolv
  | .radioOpen => !s.status.radio
  | .radioClose => s.status.radio
  | .schStart => s.status.radio && !s.status.frfail && decide (s.frState = .ready)
  | .nop | .cellSet | .poolDefault | .poolCheck | .resv2code | .code2resv | .rivEnc | .rivDec
  | .sciPack | .sciUnpack | .crc2id | .frClear | .rxClear | .schCancel | .clrFlags
  | .softReset => true

/-- The decoding check that looks at the state: the index of `PARSE_SUBCH` is below `POOL_NSUBCH`
(30_encoding.md R104, R105). -/
def indexLegal (i : Instr) (s : State) : Bool :=
  match i with
  | .parseSubch idx => decide (idx < opN s)
  | .nop | .cellSet | .poolDefault | .poolCheck | .resv2code | .code2resv | .rivEnc | .rivDec
  | .sciPack | .sciUnpack | .crc2id | .frBuild | .frCtrl | .frData | .frMod | .frClear
  | .rxDemod | .rxLoop | .parseAll | .rxClear | .radioOpen | .radioClose | .schStart
  | .schCancel | .clrFlags | .softReset => true

/-! ### The DecodeResult file -/

/-- Entry `i`; past the file an entry of zeros (10_state.md R42). -/
def drAt (s : State) (i : Nat) : DrEntry := s.dr[i]?.getD {}

/-- Entry `i` replaced; past the file nothing is written (DESIGN CHOICE, log entry 19). -/
def putDr (s : State) (i : Nat) (e : DrEntry) : State := { s with dr := s.dr.setIfInBounds i e }

/-- Word `k` of a DecodeResult entry (10_state.md R43). -/
def drWord (e : DrEntry) (k : Nat) : Word :=
  match k with
  | 0 => (drFlagsWord e).setWidth 32
  | 1 => e.prio.setWidth 32
  | 2 => e.resv.setWidth 32
  | 3 => e.interval.setWidth 32
  | 4 => e.riv.setWidth 32
  | 5 => e.tgap.setWidth 32
  | 6 => e.mcs.setWidth 32
  | 7 => e.retx.setWidth 32
  | 8 => e.txfmt.setWidth 32
  | 9 => e.start.setWidth 32
  | 10 => e.len.setWidth 32
  | 11 => e.dataStart.setWidth 32
  | 12 => e.dataNprb.setWidth 32
  | 13 => e.scrid
  | 14 => e.rv.setWidth 32
  | 15 => e.shift.setWidth 32
  | _ => 0

/-! ### The register map (10_state.md R57) -/

/-- The register at a word number below 0x40, if one is mapped there (10_state.md R57). -/
def regAt (a : Nat) : Option Reg :=
  match a with
  | 0x00 => some .id
  | 0x01 => some .cmd
  | 0x02 => some .status
  | 0x03 => some .err
  | 0x04 => some .errInfo
  | 0x05 => some .flags
  | 0x08 => some .cellTm
  | 0x09 => some .cellId
  | 0x0A => some .cellNprb
  | 0x0B => some .cellCp
  | 0x0C => some .poolNsubch
  | 0x0D => some .poolSubchW
  | 0x0E => some .poolStartPrb
  | 0x0F => some .poolAdj
  | 0x10 => some .sciFmt
  | 0x11 => some .sciPrio
  | 0x12 => some .sciResv
  | 0x13 => some .sciRiv
  | 0x14 => some .sciTgap
  | 0x15 => some .sciMcs
  | 0x16 => some .sciRetx
  | 0x17 => some .sciTxfmt
  | 0x18 => some .opa
  | 0x19 => some .opb
  | 0x1A => some .opc
  | 0x1B => some .res0
  | 0x1C => some .res1
  | 0x20 => some .sciBits
  | 0x21 => some .sciNbits
  | 0x22 => some .crcBits
  | 0x23 => some .crcNbits
  | 0x28 => some .frStart
  | 0x29 => some .frLen
  | 0x2A => some .frSfidx
  | 0x2B => some .frCtrlOff
  | 0x2C => some .frDataStart
  | 0x2D => some .frDataNprb
  | 0x2E => some .frScrid
  | 0x2F => some .frRv
  | 0x30 => some .schSrate
  | 0x31 => some .schStepMs
  | 0x32 => some .schEpochSec
  | 0x33 => some .schEpochFrac
  | 0x34 => some .schSecOff
  | 0x35 => some .schMsecOff
  | 0x36 => some .schTxSec
  | 0x37 => some .schTxFrac
  | 0x38 => some .schTicks
  | 0x39 => some .schSlips
  | 0x3A => some .schSendfails
  | 0x3B => some .schLastRet
  | 0x3C => some .rxSfidx
  | _ => none

/-- The value a host read of a register returns, zero-extended to 32 bits (10_state.md R21, R57; `CMD`
reads 0, R32; `ID` is constant, R31). -/
def readReg (r : Reg) (s : State) : Word :=
  match r with
  | .id => 0x534C5458
  | .cmd => 0
  | .status => statusWord s
  | .err => s.err.setWidth 32
  | .errInfo => s.errInfo
  | .flags => flagsWord s.flags
  | .cellTm => s.cell.tm.setWidth 32
  | .cellId => s.cell.id.setWidth 32
  | .cellNprb => s.cell.nprb.setWidth 32
  | .cellCp => s.cell.cp.setWidth 32
  | .poolNsubch => s.pool.nsubch.setWidth 32
  | .poolSubchW => s.pool.width.setWidth 32
  | .poolStartPrb => s.pool.startPrb.setWidth 32
  | .poolAdj => s.pool.adj.setWidth 32
  | .sciFmt => s.sci.fmt.setWidth 32
  | .sciPrio => s.sci.prio.setWidth 32
  | .sciResv => s.sci.resv.setWidth 32
  | .sciRiv => s.sci.riv.setWidth 32
  | .sciTgap => s.sci.tgap.setWidth 32
  | .sciMcs => s.sci.mcs.setWidth 32
  | .sciRetx => s.sci.retx.setWidth 32
  | .sciTxfmt => s.sci.txfmt.setWidth 32
  | .opa => s.opr.opa
  | .opb => s.opr.opb
  | .opc => s.opr.opc
  | .res0 => s.opr.res0
  | .res1 => s.opr.res1
  | .sciBits => s.sciBits.bits
  | .sciNbits => s.sciBits.nbits.setWidth 32
  | .crcBits => s.crcBits.bits
  | .crcNbits => s.crcBits.nbits.setWidth 32
  | .frStart => s.frIn.start.setWidth 32
  | .frLen => s.frIn.len.setWidth 32
  | .frSfidx => s.frIn.sfidx
  | .frCtrlOff => s.frOut.ctrlOff.setWidth 32
  | .frDataStart => s.frOut.dataStart.setWidth 32
  | .frDataNprb => s.frOut.dataNprb.setWidth 32
  | .frScrid => s.frOut.scrid
  | .frRv => s.frOut.rv.setWidth 32
  | .schSrate => s.sched.srate
  | .schStepMs => s.sched.stepMs.setWidth 32
  | .schEpochSec => s.sched.epochSec
  | .schEpochFrac => s.sched.epochFrac.setWidth 32
  | .schSecOff => s.sched.secOff
  | .schMsecOff => s.sched.msecOff.setWidth 32
  | .schTxSec => s.sched.txSec
  | .schTxFrac => s.sched.txFrac.setWidth 32
  | .schTicks => s.sched.ticks
  | .schSlips => s.sched.slips
  | .schSendfails => s.sched.sendFails
  | .schLastRet => s.sched.lastRet
  | .rxSfidx => s.rxSfidx

/-- Whether the host may write a register: access RW in 10_state.md R57. -/
def hostWritable : Reg → Bool
  | .cellTm | .cellId | .cellNprb | .cellCp
  | .poolNsubch | .poolSubchW | .poolStartPrb | .poolAdj
  | .sciFmt | .sciPrio | .sciResv | .sciRiv | .sciTgap | .sciMcs | .sciRetx | .sciTxfmt
  | .opa | .opb | .opc
  | .sciBits | .sciNbits | .crcBits | .crcNbits
  | .frStart | .frLen | .frSfidx
  | .schSrate | .schStepMs | .rxSfidx => true
  | .id | .cmd | .status | .err | .errInfo | .flags | .res0 | .res1
  | .frCtrlOff | .frDataStart | .frDataNprb | .frScrid | .frRv
  | .schEpochSec | .schEpochFrac | .schSecOff | .schMsecOff
  | .schTxSec | .schTxFrac | .schTicks | .schSlips | .schSendfails | .schLastRet => false

/-- An accepted host write of a register: the low bits are stored (10_state.md R21), with the side effects
of 20_memory.md R74; a read-only register keeps its value (R78). A write of `CMD` is not made here. -/
def writeReg (r : Reg) (v : Word) (s : State) : State :=
  match r with
  | .cellTm => invalidateCell { s with cell.tm := v.setWidth 8 }
  | .cellId => invalidateCell { s with cell.id := v.setWidth 16 }
  | .cellNprb => invalidateCell { s with cell.nprb := v.setWidth 8 }
  | .cellCp => invalidateCell { s with cell.cp := v.setWidth 1 }
  | .poolNsubch => invalidatePool { s with pool.nsubch := v.setWidth 5 }
  | .poolSubchW => invalidatePool { s with pool.width := v.setWidth 8 }
  | .poolStartPrb => invalidatePool { s with pool.startPrb := v.setWidth 8 }
  | .poolAdj => invalidatePool { s with pool.adj := v.setWidth 1 }
  | .sciFmt => { s with sci.fmt := v.setWidth 1 }
  | .sciPrio => { s with sci.prio := v.setWidth 3 }
  | .sciResv => { s with sci.resv := v.setWidth 4 }
  | .sciRiv => { s with sci.riv := v.setWidth 8 }
  | .sciTgap => { s with sci.tgap := v.setWidth 4 }
  | .sciMcs => { s with sci.mcs := v.setWidth 5 }
  | .sciRetx => { s with sci.retx := v.setWidth 1 }
  | .sciTxfmt => { s with sci.txfmt := v.setWidth 1 }
  | .opa => { s with opr.opa := v }
  | .opb => { s with opr.opb := v }
  | .opc => { s with opr.opc := v }
  | .sciBits => { s with sciBits.bits := v }
  | .sciNbits => { s with sciBits.nbits := v.setWidth 6 }
  | .crcBits => { s with crcBits.bits := v }
  | .crcNbits => { s with crcBits.nbits := v.setWidth 6 }
  | .frStart => { s with frIn.start := v.setWidth 5 }
  | .frLen => { s with frIn.len := v.setWidth 5 }
  | .frSfidx => { s with frIn.sfidx := v }
  | .schSrate => { s with sched.srate := v }
  | .schStepMs => { s with sched.stepMs := v.setWidth 10 }
  | .rxSfidx => { s with rxSfidx := v }
  | .id | .cmd | .status | .err | .errInfo | .flags | .res0 | .res1
  | .frCtrlOff | .frDataStart | .frDataNprb | .frScrid | .frRv
  | .schEpochSec | .schEpochFrac | .schSecOff | .schMsecOff
  | .schTxSec | .schTxFrac | .schTicks | .schSlips | .schSendfails | .schLastRet => s

end Sys2Proof.Machine
end

