-- ==== Sys2Proof/Machine/Ops.lean ====
section
/-! DEFINITION. The operations several commands share: port output, the run of a command body, the calls on
the collaborators (60_exceptions.md R290 to R295), acceptance, completion and rejection (R276), taking an
error as one operation, reports (R279), and the reset event (70_reset_and_hazards.md R311). -/

namespace Sys2Proof.Machine

/-! ### Ports -/

/-- Put one thing on a port. -/
def emit (o : Out) (s : State) : State := { s with out := o :: s.out }

/-- Make a call that has no answer. -/
def callNoAnswer (c : Call) (s : State) : State := emit (.call c) s

/-- Pulse an event output (60_exceptions.md R281). -/
def pulse (p : Pulse) (s : State) : State := emit (.pulse p) s

/-! ### The run of a command body -/

/-- How a piece of a command's pseudocode ends: with a value; with `raise K(info)` (00_scope.md R15); or
inside a backend call that is never answered (00_scope.md R8). -/
inductive Run (α : Type) where
  | value (a : α) (s : State)
  | raised (k : ErrKind) (info : Word) (s : State)
  | hung (s : State)

/-- The next piece of the pseudocode: nothing after a `raise` is performed (00_scope.md R15). -/
def Run.next {α β : Type} (r : Run α) (f : α → State → Run β) : Run β :=
  match r with
  | .value a s => f a s
  | .raised k i s => .raised k i s
  | .hung s => .hung s

/-- The end of a pass over the pseudocode with nothing raised. -/
def done (s : State) : Run Unit := .value () s

/-! ### Calls on the collaborators -/

/-- `call B.op(args)`: the call goes out, then the first listed answer comes back and is taken off the
list, or a free value where none is listed (60_exceptions.md R290; DESIGN CHOICE, log entry 2). -/
def ask {α : Type} (c : Call) (listed : List (Answer α)) (rest : List (Answer α) → Backends → Backends)
    (free : Answer α) (s : State) : Run α :=
  match listed with
  | .reply a :: q => .value a { emit (.call c) s with backends := rest q s.backends }
  | .never :: q => .hung { emit (.call c) s with backends := rest q s.backends }
  | [] =>
    match free with
    | .reply a => .value a { emit (.call c) s with draws := s.draws + 1 }
    | .never => .hung { emit (.call c) s with draws := s.draws + 1 }

/-- `BACKENDS.set_cell`: no answer, cannot fail (60_exceptions.md R290). -/
def callSetCell (s : State) : State :=
  callNoAnswer (.setCell s.cell) { s with backendCell := some s.cell }

/-- `MOD.modulate` (60_exceptions.md R291). -/
def askModulate (s : State) : Run Samples :=
  ask (.modulate s.txgrid) s.backends.modulate (fun q b => { b with modulate := q })
    (Config.freeSamplesAnswer s.draws) s

/-- `MOD.demodulate` (60_exceptions.md R291). -/
def askDemodulate (s : State) : Run Grid :=
  ask (.demodulate s.rxsamp) s.backends.demodulate (fun q b => { b with demodulate := q })
    (Config.freeGridAnswer s.draws) s

/-- `CODEC.encode_control` on `TXGRID`: `err`, or the new grid and the CRC bits that follow the payload in
the codeword (60_exceptions.md R292). -/
def askEncodeControl (bits : Bits) (off : Nat) (s : State) : Run (Option (Grid × CrcBits)) :=
  ask (.encodeControl bits s.txgrid off) s.backends.encodeControl
    (fun q b => { b with encodeControl := q }) (Config.freeEncodeControl s.draws) s

/-- `CODEC.decode_control`: `err`, or the payload bits and the CRC bits (60_exceptions.md R292). -/
def askDecodeControl (eq : Grid) (off : Nat) (s : State) : Run (Option (ControlBits × CrcBits)) :=
  ask (.decodeControl eq off) s.backends.decodeControl (fun q b => { b with decodeControl := q })
    (Config.freeDecodeControl s.draws) s

/-- `CODEC.encode_data` with the whole of `TXTB`, on `TXGRID` (60_exceptions.md R292, 42_framer_tx.md R175). -/
def askEncodeData (cfg : DataConfig) (s : State) : Run (Option Grid) :=
  ask (.encodeData (takePayload s.mem txtbBase) cfg s.txgrid) s.backends.encodeData
    (fun q b => { b with encodeData := q }) (Config.freeEncodeData s.draws) s

/-- `CODEC.decode_data` (60_exceptions.md R292). -/
def askDecodeData (eq : Grid) (cfg : DataConfig) (s : State) : Run (Option Payload) :=
  ask (.decodeData eq cfg) s.backends.decodeData (fun q b => { b with decodeData := q })
    (Config.freeDecodeData s.draws) s

/-- `CODEC.get_valid_resource_span`, held to its contract `0 ≤ v ≤ req` (60_exceptions.md R292; log
entry 10). -/
def askValidSpan (req : Nat) (s : State) : Run Nat :=
  (ask (.getValidResourceSpan req) s.backends.validSpan (fun q b => { b with validSpan := q })
    (spanOracle req) s).next fun v t => .value (min v req) t

/-- `CHEST.set_config`: the parameters are stored; no answer (60_exceptions.md R293). -/
def callSetConfig (p : ChestParams) (s : State) : State :=
  callNoAnswer (.setConfig p) { s with chestCfg := some p }

/-- `CHEST.insert_reference_signal` (60_exceptions.md R293). -/
def askInsertRef (s : State) : Run Grid :=
  ask (.insertReferenceSignal s.txgrid) s.backends.insertRef (fun q b => { b with insertRef := q })
    (Config.freeGridAnswer s.draws) s

/-- `CHEST.estimate_and_equalize` on `RXGRID`, which it does not modify (60_exceptions.md R293). -/
def askEqualize (s : State) : Run Grid :=
  ask (.estimateAndEqualize s.rxgrid) s.backends.equalize (fun q b => { b with equalize := q })
    (Config.freeGridAnswer s.draws) s

/-- `RADIO.open` (60_exceptions.md R294). -/
def askRadioOpen (s : State) : Run (Option Handle) :=
  ask (.radioOpen Config.radioArgs) s.backends.radioOpen (fun q b => { b with radioOpen := q })
    (Config.freeOpen s.draws) s

/-- `RADIO.set_freq`: true for `ok` (60_exceptions.md R294). -/
def askSetFreq (s : State) : Run Bool :=
  ask (.setFreq s.handle Config.centerFreq) s.backends.setFreq (fun q b => { b with setFreq := q })
    (Config.freeSetter s.draws) s

/-- `RADIO.set_gain`: true for `ok` (60_exceptions.md R294). -/
def askSetGain (s : State) : Run Bool :=
  ask (.setGain s.handle Config.txGain) s.backends.setGain (fun q b => { b with setGain := q })
    (Config.freeSetter s.draws) s

/-- `RADIO.set_sample_rate`: `err`, or the rate the hardware took (60_exceptions.md R294). -/
def askSetRate (s : State) : Run (Option Nat) :=
  ask (.setSampleRate s.handle (opSr s)) s.backends.setRate (fun q b => { b with setRate := q })
    (Config.freeSetRate s.draws) s

/-- The contract of the clock: `sec < 2^32`, `frac < FRAC_UNITS` (60_exceptions.md R295; DESIGN CHOICE, log entry 32). -/
def clockContract (t : HwTime) : HwTime :=
  { sec := min t.sec (2 ^ 32 - 1), frac := min t.frac (Config.fracUnits - 1) }

/-- `RADIO.get_time`: one clock read, held to its contract (60_exceptions.md R295). -/
def askTime (s : State) : Run HwTime :=
  (ask (.getTime s.handle) s.backends.getTime (fun q b => { b with getTime := q })
    (Config.freeTime s.draws) s).next fun t u => .value (clockContract t) u

/-- `RADIO.send_timed` of `TXSAMP` as one whole burst (60_exceptions.md R294, 44_scheduler.md R229). -/
def askSendTimed (tx : HwTime) (s : State) : Run Word :=
  ask (.sendTimed s.handle s.txsamp (nSamples (opSr s)) tx.sec tx.frac true true) s.backends.sendTimed
    (fun q b => { b with sendTimed := q }) (Config.freeSendTimed s.draws) s

/-- `RADIO.close`: no answer; the handle is no longer held (60_exceptions.md R294, 10_state.md R53). -/
def callRadioClose (s : State) : State :=
  callNoAnswer (.radioClose s.handle) { s with handle := none }

/-! ### Acceptance, completion, rejection (60_exceptions.md R276) -/

/-- Acceptance: `DONE <- 0`, `BUSY <- 1`. -/
def accept (s : State) : State := { s with status.done := false, status.busy := true }

/-- The pulses of a completion with code `e`, newest first: `ev_done`, and `ev_err` unless `e = 0`. -/
def completionPulses (e : BitVec 8) : List Out :=
  if e = 0 then [.pulse .evDone] else [.pulse .evErr, .pulse .evDone]

/-- The five writes and the pulses of a completion with code `e` and detail `i`. -/
def complete (e : BitVec 8) (i : Word) (s : State) : State :=
  { s with
    err := e
    errInfo := i
    status := { s.status with errv := decide (e ≠ 0), busy := false, done := true }
    out := completionPulses e ++ s.out }

/-- A command ends without error. -/
def completeOk (s : State) : State := complete 0 0 s

/-- TAKING AN ERROR: the command ends with the kind's code and its detail word (00_scope.md R15,
60_exceptions.md R276, R284). There is no vector, no saved pc, no mode change; the return is the host's next
command (R285). -/
def takeError (k : ErrKind) (info : Word) (s : State) : State := complete k.code info s

/-- Rejection at issue: the writes of a completion, without `BUSY` ever having been 1
(60_exceptions.md R276, R278). -/
def reject (k : ErrKind) (c : Word) (s : State) : State := takeError k c s

/-- The engine waits for a backend for ever: `BUSY` stays 1 (00_scope.md R8; DEDUCED, log entry 3). -/
def hang (s : State) : State := { s with hung := true }

/-- The end of a command's rule: `done`, a `raise`, or a call that is never answered. -/
def finish (r : Run Unit) : State :=
  match r with
  | .value _ s => completeOk s
  | .raised k i s => takeError k i s
  | .hung s => hang s

/-- The issue of a decoded command: busy first, then the decoding check on the state, then the state
condition, then acceptance and the command's own rule (30_encoding.md R105, 60_exceptions.md R283). -/
def issue (i : Instr) (rule : State → State) (s : State) : State :=
  if s.status.busy then setOvr s
  else if !indexLegal i s then reject .illegalCommand (encode i) s
  else if !acceptable i s then reject .sequenceError (encode i) s
  else rule (accept s)

/-- The outcome of a command is always a next state (00_scope.md R8). -/
def issueNext (i : Instr) (rule : State → State) (s : State) : Host.Outcome State Fault Refusal :=
  .next (issue i rule s)

/-! ### Reports (60_exceptions.md R279) -/

/-- `report ScheduleSlip`. -/
def reportSlip (s : State) : State :=
  pulse .evSlip { s with flags.slip := true, sched.slips := s.sched.slips + 1 }

/-- `report HardwareFailure(send)`. -/
def reportSendFail (s : State) : State :=
  pulse .evSendfail { s with flags.sendfail := true, sched.sendFails := s.sched.sendFails + 1 }

/-! ### Clearing what several rules clear -/

/-- `RX_CLEAR`'s writes: every DecodeResult word and every `RXTB` bit 0 (43_parser_rx.md R193). -/
def clearRx (s : State) : State :=
  { s with dr := Vector.replicate Config.maxSubch {}, mem := clearRxtb s.mem }

/-! ### Reset -/

/-- The reset event: every piece of the block's state takes its reset value, the latch is set again at once
if the input `cancel` is 1; the inputs, what lies outside the block and the model's own fields stay
(70_reset_and_hazards.md R311; log entries 12, 14, 24). -/
def resetBlock (s : State) : State :=
  { State.reset with
    status := { State.reset.status with cancel := s.inCancel }
    backendCell := s.backendCell
    inCancel := s.inCancel
    inRst := s.inRst
    inRx := s.inRx
    moves := s.moves
    backends := s.backends
    draws := s.draws
    out := s.out }

end Sys2Proof.Machine
end

