-- ==== Sys2Proof/Machine/CodecCmds.lean ====
section
/-! DEFINITION. The Control Information codec commands (41_sci_codec.md R130 to R147). None calls a
backend; all are accepted in any state that is not busy. -/

namespace Sys2Proof.Machine

/-- The rule of `RESV2CODE` (41_sci_codec.md R131). -/
def ruleResv2code (s : State) : Run Unit :=
  match resvToCode s.opr.opa.toNat with
  | none => .raised .invalidInterval s.opr.opa s
  | some c => done { s with opr.res0 := BitVec.ofNat 32 c }

/-- `RESV2CODE` (41_sci_codec.md R131). -/
def execResv2code (s : State) : Host.Outcome State Fault Refusal :=
  issueNext .resv2code (fun s => finish (ruleResv2code s)) s

/-- The rule of `CODE2RESV`: the low 32 bits of the interval (41_sci_codec.md R133). -/
def ruleCode2resv (s : State) : Run Unit :=
  done { s with opr.res0 := BitVec.ofNat 32 (codeToResv s.opr.opa.toNat) }

/-- `CODE2RESV` (41_sci_codec.md R133). -/
def execCode2resv (s : State) : Host.Outcome State Fault Refusal :=
  issueNext .code2resv (fun s => finish (ruleCode2resv s)) s

/-- The rule of `RIV_ENC` (41_sci_codec.md R136). -/
def ruleRivEnc (s : State) : Run Unit :=
  let n := s.opr.opa.toNat
  let st := s.opr.opb.toNat
  let l := s.opr.opc.toNat
  if !countInRange n then .raised .invalidConfiguration 4 s
  else if l = 0 ∨ n < st + l then .raised .malformedControlInfo 4 s
  else done { s with opr.res0 := BitVec.ofNat 32 (rivEncode n st l) }

/-- `RIV_ENC` (41_sci_codec.md R136). -/
def execRivEnc (s : State) : Host.Outcome State Fault Refusal :=
  issueNext .rivEnc (fun s => finish (ruleRivEnc s)) s

/-- The rule of `RIV_DEC` (41_sci_codec.md R138). -/
def ruleRivDec (s : State) : Run Unit :=
  let r := s.opr.opa.toNat
  let n := s.opr.opb.toNat
  if !countInRange n then .raised .invalidConfiguration 4 s
  else
    match rivDecode r n with
    | none => .raised .malformedControlInfo 5 s
    | some (st, l) => done { s with opr.res0 := BitVec.ofNat 32 st, opr.res1 := BitVec.ofNat 32 l }

/-- `RIV_DEC` (41_sci_codec.md R138). -/
def execRivDec (s : State) : Host.Outcome State Fault Refusal :=
  issueNext .rivDec (fun s => finish (ruleRivDec s)) s

/-- The rule of `SCI_PACK` (41_sci_codec.md R141). -/
def ruleSciPack (s : State) : Run Unit :=
  if !countInRange (opN s) then .raised .invalidConfiguration 4 s
  else
    match pack s.sci (opN s) with
    | none => .raised .malformedControlInfo 1 s
    | some b => done { s with sciBits := pairOf b }

/-- `SCI_PACK` (41_sci_codec.md R141). -/
def execSciPack (s : State) : Host.Outcome State Fault Refusal :=
  issueNext .sciPack (fun s => finish (ruleSciPack s)) s

/-- The rule of `SCI_UNPACK`; `SCI_FMT` is read, not written (41_sci_codec.md R143). -/
def ruleSciUnpack (s : State) : Run Unit :=
  if !countInRange (opN s) then .raised .invalidConfiguration 4 s
  else if Config.bitstrMax < s.sciBits.nbits.toNat then .raised .malformedControlInfo 3 s
  else
    match unpack (strOf s.sciBits) s.sci.fmt (opN s) with
    | none => .raised .malformedControlInfo 2 s
    | some c => done { s with sci := { c with fmt := s.sci.fmt } }

/-- `SCI_UNPACK` (41_sci_codec.md R143). -/
def execSciUnpack (s : State) : Host.Outcome State Fault Refusal :=
  issueNext .sciUnpack (fun s => finish (ruleSciUnpack s)) s

/-- The rule of `CRC2ID` (41_sci_codec.md R146). -/
def ruleCrc2id (s : State) : Run Unit :=
  if Config.bitstrMax < s.crcBits.nbits.toNat then .raised .malformedControlInfo 3 s
  else done { s with opr.res0 := BitVec.ofNat 32 (scramblingId (strOf s.crcBits)) }

/-- `CRC2ID` (41_sci_codec.md R146). -/
def execCrc2id (s : State) : Host.Outcome State Fault Refusal :=
  issueNext .crc2id (fun s => finish (ruleCrc2id s)) s

end Sys2Proof.Machine
end

