-- ==== Sys2Proof/Machine/FramerCmds.lean ====
section
/-! DEFINITION. The Frame Assembler commands: the six steps (42_framer_tx.md R162 to R167), the commands as
sequences of steps (R168 to R172), and failure (R173). -/

namespace Sys2Proof.Machine

/-- Step 1: the RIV of the allocation (42_framer_tx.md R162). -/
def frStep1 (s : State) : Run Unit :=
  if opLen s = 0 ∨ opN s < opStart s + opLen s then .raised .malformedControlInfo 4 s
  else done { s with sci.riv := BitVec.ofNat 8 (rivEncode (opN s) (opStart s) (opLen s)) }

/-- The codeword of an encoded control message: the payload, then the CRC bits the backend appended
(60_exceptions.md R292). -/
def codeword (bits : Bits) (crc : CrcBits) : Bits := bits ++ bitsOf Config.crcLen crc.toNat

/-- Step 2: pack, control-channel encode, reference signals; its value is the codeword
(42_framer_tx.md R163). -/
def frStep2 (s : State) : Run Bits :=
  match pack s.sci (opN s) with
  | none => .raised .malformedControlInfo 1 s
  | some b =>
    let s := { s with sciBits := pairOf b }
    let off := opStart s * opW s
    (askEncodeControl b off s).next fun r s =>
      match r with
      | none => .raised .backendFailure 1 s
      | some (g, crc) =>
        let s := { s with txgrid := g, frOut.ctrlOff := BitVec.ofNat 8 off }
        (askInsertRef (callSetConfig (.control off Config.txCs) s)).next fun g s =>
          .value (codeword b crc) { s with txgrid := g, frState := .controlPlaced }

/-- Step 3: the scrambling identifier from the CRC bits of the codeword (42_framer_tx.md R164). -/
def frStep3 (cw : Bits) (s : State) : Run Unit :=
  let crc := substr cw Config.sciLen (Config.sciLen + Config.crcLen)
  done { s with crcBits := pairOf crc, frOut.scrid := BitVec.ofNat 32 (scramblingId crc) }

/-- The requested data span: `(len × w) ∸ CCW` (42_framer_tx.md R165). -/
def frReq (s : State) : Nat := opLen s * opW s - Config.ccw

/-- Step 4: the data-channel span (42_framer_tx.md R165). -/
def frStep4 (s : State) : Run Unit :=
  let req := frReq s
  if req = 0 then .raised .noValidDataResources (BitVec.ofNat 32 req) s
  else
    (askValidSpan req s).next fun v s =>
      if v = 0 then .raised .noValidDataResources (BitVec.ofNat 32 req) s
      else done { s with frOut.dataNprb := BitVec.ofNat 8 v }

/-- The first resource block of the data region: `start × w + CCW` (42_framer_tx.md R166). -/
def frDataStart (s : State) : Nat := opStart s * opW s + Config.ccw

/-- The data-channel configuration of step 5 (42_framer_tx.md R166). -/
def frDataConfig (s : State) : DataConfig :=
  { prbStart := frDataStart s
    nofPrb := s.frOut.dataNprb.toNat
    scramblingId := s.frOut.scrid
    mcs := s.sci.mcs
    redundancyVersion := if s.sci.retx = 1 then 1 else 0
    subframe := s.frIn.sfidx.toNat % 10 }

/-- Step 5: data-channel encode and reference signals (42_framer_tx.md R166). -/
def frStep5 (s : State) : Run Unit :=
  let cfg := frDataConfig s
  let s := { s with frOut.dataStart := BitVec.ofNat 8 cfg.prbStart, frOut.rv := cfg.redundancyVersion }
  (askEncodeData cfg s).next fun r s =>
    match r with
    | none => .raised .backendFailure 2 s
    | some g =>
      let s := callSetConfig (.data cfg.scramblingId cfg.subframe cfg.prbStart cfg.nofPrb)
        { s with txgrid := g }
      (askInsertRef s).next fun g s => done { s with txgrid := g, frState := .dataPlaced }

/-- Step 6: modulate, then zero the frequency-domain buffer (42_framer_tx.md R167). -/
def frStep6 (s : State) : Run Unit :=
  (askModulate s).next fun x s =>
    let s := { s with txsamp := x, frState := .modulated }
    done { s with txgrid := zeroGrid s, frState := .ready }

/-- The end of a framer command: on a `raise`, `FRFAIL <- 1`, `FR_STATE` and `TXSAMP` keep their values and
`TXGRID` is a free value (42_framer_tx.md R173, 93_implementation_defined.md U1; DEDUCED, log entry 5). -/
def finishFramer (r : Run Unit) : State :=
  match r with
  | .value _ s => completeOk s
  | .raised k i s =>
    takeError k i
      { s with status.frfail := true, txgrid := Config.freeGrid s.draws, draws := s.draws + 1 }
  | .hung s => hang s

/-- Steps 1 to 3 (42_framer_tx.md R169). -/
def ruleFrCtrl (s : State) : Run Unit :=
  (frStep1 s).next fun _ s => (frStep2 s).next fun cw s => frStep3 cw s

/-- Steps 4 and 5 (42_framer_tx.md R170). -/
def ruleFrData (s : State) : Run Unit := (frStep4 s).next fun _ s => frStep5 s

/-- Steps 1 to 6 (42_framer_tx.md R168). -/
def ruleFrBuild (s : State) : Run Unit :=
  (ruleFrCtrl s).next fun _ s => (ruleFrData s).next fun _ s => frStep6 s

/-- `FR_BUILD` runs the whole assembly (42_framer_tx.md R168). -/
def execFrBuild (s : State) : Host.Outcome State Fault Refusal :=
  issueNext .frBuild (fun s => finishFramer (ruleFrBuild s)) s

/-- `FR_CTRL` runs steps 1 to 3 (42_framer_tx.md R169). -/
def execFrCtrl (s : State) : Host.Outcome State Fault Refusal :=
  issueNext .frCtrl (fun s => finishFramer (ruleFrCtrl s)) s

/-- `FR_DATA` runs steps 4 and 5 (42_framer_tx.md R170). -/
def execFrData (s : State) : Host.Outcome State Fault Refusal :=
  issueNext .frData (fun s => finishFramer (ruleFrData s)) s

/-- `FR_MOD` runs step 6 (42_framer_tx.md R171). -/
def execFrMod (s : State) : Host.Outcome State Fault Refusal :=
  issueNext .frMod (fun s => finishFramer (frStep6 s)) s

/-- The rule of `FR_CLEAR` (42_framer_tx.md R172). -/
def ruleFrClear (s : State) : Run Unit :=
  done
    { s with
      txgrid := clearedGrid s
      txsamp := Samples.empty
      frOut := {}
      frState := .empty
      status.frfail := false }

/-- `FR_CLEAR` discards the frame (42_framer_tx.md R172). -/
def execFrClear (s : State) : Host.Outcome State Fault Refusal :=
  issueNext .frClear (fun s => finish (ruleFrClear s)) s

end Sys2Proof.Machine
end

