-- ==== Sys2Proof/Machine/ParserCmds.lean ====
section
/-! DEFINITION. The Frame Parser commands: loading and clearing (43_parser_rx.md R191 to R193), the scan of
one sub-channel over the four cyclic shifts (R194 to R199), and the two parse commands (R201, R202). -/

namespace Sys2Proof.Machine

/-- The rule of `RX_DEMOD` (43_parser_rx.md R191). -/
def ruleRxDemod (s : State) : Run Unit :=
  (askDemodulate { s with rxsamp := s.inRx }).next fun g s => done { s with rxgrid := g }

/-- `RX_DEMOD` loads the receive grid from the samples on `rx_in` (43_parser_rx.md R191). -/
def execRxDemod (s : State) : Host.Outcome State Fault Refusal :=
  issueNext .rxDemod (fun s => finish (ruleRxDemod s)) s

/-- `RX_LOOP` copies the transmit grid to the receive grid (43_parser_rx.md R192). -/
def execRxLoop (s : State) : Host.Outcome State Fault Refusal :=
  issueNext .rxLoop (fun s => finish (done { s with rxgrid := s.txgrid })) s

/-- `RX_CLEAR` empties the DecodeResult file (43_parser_rx.md R193). -/
def execRxClear (s : State) : Host.Outcome State Fault Refusal :=
  issueNext .rxClear (fun s => finish (done (clearRx s))) s

/-- The resource-block offset at which the control channel is sought (43_parser_rx.md R195). -/
def rxCtrlOff (idx : Nat) (s : State) : Nat := if opAdj s then idx * opW s else idx * 2

/-- The requested data span of the receive path (43_parser_rx.md R198). -/
def rxReq (idx st l : Nat) (s : State) : Nat :=
  (st + l) * opW s + opP0 s - (idx * opW s + Config.ccw)

/-- The first resource block of the data region of the receive path (43_parser_rx.md R198). -/
def rxDataStart (idx : Nat) (s : State) : Nat := idx * opW s + Config.ccw

/-- What step 3 records of a control message that decoded at shift number `k`, value `cs`
(43_parser_rx.md R197). -/
def recordControl (e : DrEntry) (c : Sci) (st l k cs : Nat) : DrEntry :=
  { e with
    prio := c.prio
    resv := c.resv
    interval := BitVec.ofNat 16 (codeToResv c.resv.toNat)
    riv := c.riv
    tgap := c.tgap
    mcs := c.mcs
    retx := c.retx
    txfmt := c.txfmt
    start := BitVec.ofNat 5 st
    len := BitVec.ofNat 5 l
    shift := BitVec.ofNat 4 cs
    ctrl := true
    ctrlMask := e.ctrlMask ||| BitVec.ofNat 4 (2 ^ k) }

/-- What step 4 writes before the span is asked for (43_parser_rx.md R198). -/
def recordSpanBasis (e : DrEntry) (c : Sci) (crc : CrcBits) (dataStart : Nat) : DrEntry :=
  { e with
    scrid := BitVec.ofNat 32 (scramblingId (bitsOf Config.crcLen crc.toNat))
    rv := if c.retx = 1 then 1 else 0
    dataStart := BitVec.ofNat 8 dataStart }

/-- The data-channel configuration of step 5 (43_parser_rx.md R199). -/
def rxDataConfig (idx v : Nat) (c : Sci) (s : State) : DataConfig :=
  { prbStart := rxDataStart idx s
    nofPrb := v
    scramblingId := (drAt s idx).scrid
    mcs := c.mcs
    redundancyVersion := (drAt s idx).rv
    subframe := s.rxSfidx.toNat % 10 }

/-- Step 5: data equalization and decode; the payload is stored whole, only on success
(43_parser_rx.md R199). -/
def rxStep5 (idx k v : Nat) (c : Sci) (s : State) : Run Unit :=
  let cfg := rxDataConfig idx v c s
  let s := callSetConfig (.data cfg.scramblingId cfg.subframe cfg.prbStart v) s
  (askEqualize s).next fun eq s =>
    (askDecodeData eq cfg s).next fun r s =>
      match r with
      | none => done s
      | some p =>
        let e := drAt s idx
        done
          (putDr { s with mem := putPayload s.mem (rxtbBase idx) p } idx
            { e with ok := true, okMask := e.okMask ||| BitVec.ofNat 4 (2 ^ k) })

/-- Step 4: the span; a collapsed span ends this shift's attempt (43_parser_rx.md R198). -/
def rxStep4 (idx k st l : Nat) (c : Sci) (crc : CrcBits) (s : State) : Run Unit :=
  let req := rxReq idx st l s
  let s := putDr s idx (recordSpanBasis (drAt s idx) c crc (rxDataStart idx s))
  if req = 0 then done (putDr s idx { drAt s idx with dataNprb := 0 })
  else
    (askValidSpan req s).next fun v s =>
      let s := putDr s idx { drAt s idx with dataNprb := BitVec.ofNat 8 v }
      if v = 0 then done s else rxStep5 idx k v c s

/-- Step 3: unpack as format B, check the ControlInfo invariant, record (43_parser_rx.md R197). -/
def rxStep3 (idx k cs : Nat) (bits : ControlBits) (crc : CrcBits) (s : State) : Run Unit :=
  match unpack (bitsOf Config.sciLen bits.toNat) 1 (opN s) with
  | none => done s
  | some c =>
    match rivDecode c.riv.toNat (opN s) with
    | none => done s
    | some (st, l) =>
      rxStep4 idx k st l c crc (putDr s idx (recordControl (drAt s idx) c st l k cs))

/-- One shift of a scan: steps 1 to 5; every `continue` is the end of this function
(43_parser_rx.md R194 to R199). -/
def scanShift (idx k cs : Nat) (s : State) : Run Unit :=
  let s := { s with psShift := BitVec.ofNat 2 k }
  let off := rxCtrlOff idx s
  (askEqualize (callSetConfig (.control off cs) s)).next fun eq s =>
    (askDecodeControl eq off s).next fun r s =>
      match r with
      | none => done s
      | some (bits, crc) => rxStep3 idx k cs bits crc s

/-- The shifts from number `k` on, unconditionally (43_parser_rx.md R194). -/
def scanShifts (idx : Nat) : Nat → List Nat → State → Run Unit
  | _, [], s => done s
  | k, cs :: rest, s => (scanShift idx k cs s).next fun _ s => scanShifts idx (k + 1) rest s

/-- `scan(idx)` (43_parser_rx.md R194). -/
def scan (idx : Nat) (s : State) : Run Unit :=
  scanShifts idx 0 Config.shifts { putDr s idx {} with psIdx := BitVec.ofNat 5 idx }

/-- Several sub-channels in order (43_parser_rx.md R202). -/
def scanList : List Nat → State → Run Unit
  | [], s => done s
  | idx :: rest, s => (scan idx s).next fun _ s => scanList rest s

/-- `PARSE_SUBCH idx` (43_parser_rx.md R201). -/
def execParseSubch (idx : Nat) (s : State) : Host.Outcome State Fault Refusal :=
  issueNext (.parseSubch idx) (fun s => finish (scan idx s)) s

/-- `PARSE_ALL`: every sub-channel below `N`, ascending (43_parser_rx.md R202). -/
def execParseAll (s : State) : Host.Outcome State Fault Refusal :=
  issueNext .parseAll (fun s => finish (scanList (List.range (opN s)) s)) s

end Sys2Proof.Machine
end

