-- ==== Sys2Proof/Machine/PoolCmds.lean ====
section
/-! DEFINITION. The Resource Pool Model commands (40_pool.md R120 to R123). -/

namespace Sys2Proof.Machine

/-- The rule of `CELL_SET` (40_pool.md R120). -/
def ruleCellSet (s : State) : Run Unit :=
  if opNprb s = 0 then .raised .invalidConfiguration 1 s
  else
    let s := callSetCell s
    let s := { s with txgrid := zeroGrid s, rxgrid := zeroGrid s, txsamp := Samples.empty }
    let s := { s with frState := .empty, status.frfail := false, frOut := {} }
    let s := clearRx s
    done { s with status.cellv := true }

/-- `CELL_SET` commits the cell configuration and reallocates the frame buffers (40_pool.md R120). -/
def execCellSet (s : State) : Host.Outcome State Fault Refusal :=
  issueNext .cellSet (fun s => finish (ruleCellSet s)) s

/-- The row of the default pool table, where the count is supported (40_pool.md R121, R123). -/
def defaultPool (n : Nat) : Option PoolRow :=
  if n ∈ Config.supportedNprb then Config.poolDefault n else none

/-- The rule of `POOL_DEFAULT` (40_pool.md R121). -/
def rulePoolDefault (s : State) : Run Unit :=
  match defaultPool (opNprb s) with
  | none => .raised .invalidConfiguration 2 { s with status.poolv := false }
  | some row =>
    done
      { s with
        pool :=
          { nsubch := BitVec.ofNat 5 row.count
            width := BitVec.ofNat 8 row.width
            startPrb := BitVec.ofNat 8 row.start
            adj := BitVec.ofNat 1 row.adjacency }
        status.poolv := true }

/-- `POOL_DEFAULT` is `get_default_config` (40_pool.md R121). -/
def execPoolDefault (s : State) : Host.Outcome State Fault Refusal :=
  issueNext .poolDefault (fun s => finish (rulePoolDefault s)) s

/-- The rule of `POOL_CHECK` (40_pool.md R122). -/
def rulePoolCheck (s : State) : Run Unit :=
  if poolInvariant (opN s) (opW s) (opNprb s) then done { s with status.poolv := true }
  else .raised .invalidConfiguration 3 { s with status.poolv := false }

/-- `POOL_CHECK` validates a pool the host wrote itself (40_pool.md R122). -/
def execPoolCheck (s : State) : Host.Outcome State Fault Refusal :=
  issueNext .poolCheck (fun s => finish (rulePoolCheck s)) s

end Sys2Proof.Machine
end

