-- ==== Sys2Proof/Machine/SchedulerCmds.lean ====
section
/-! DEFINITION. The Transmission Scheduler: the radio commands (44_scheduler.md R221, R222), the start of the
loop (R223, R224), the tick (R225 to R230), cancellation and termination (R231, R232, R236). -/

namespace Sys2Proof.Machine

/-- A step of the radio bring-up failed: the handle is closed, then the error (44_scheduler.md R221). -/
def radioFail (sub : Word) (s : State) : Run Unit := .raised .hardwareFailure sub (callRadioClose s)

/-- The rule of `RADIO_OPEN` (44_scheduler.md R221). -/
def ruleRadioOpen (s : State) : Run Unit :=
  if opSr s = 0 ∨ opSr s % 1000 ≠ 0 then .raised .invalidConfiguration 5 s
  else
    (askRadioOpen s).next fun r s =>
      match r with
      | none => .raised .hardwareFailure 1 s
      | some h =>
        (askSetFreq { s with handle := some h }).next fun ok s =>
          if !ok then radioFail 2 s
          else
            (askSetGain s).next fun ok s =>
              if !ok then radioFail 3 s
              else
                (askSetRate s).next fun a s =>
                  if a = some (opSr s) then done { s with status.radio := true } else radioFail 4 s

/-- `RADIO_OPEN` opens and configures the radio backend (44_scheduler.md R221). -/
def execRadioOpen (s : State) : Host.Outcome State Fault Refusal :=
  issueNext .radioOpen (fun s => finish (ruleRadioOpen s)) s

/-- `RADIO_CLOSE` (44_scheduler.md R222). -/
def execRadioClose (s : State) : Host.Outcome State Fault Refusal :=
  issueNext .radioClose
    (fun s => finish (done { callRadioClose s with status.radio := false })) s

/-- `derive_epoch()`; a seconds value of `2^32` or more is `time_overflow()`, here the raise that
`runScheduler` turns into a termination (44_scheduler.md R224, R236). -/
def deriveEpoch (s : State) : Run Unit :=
  (askTime s).next fun t s =>
    let e := normTime t.sec (t.frac / Config.ms * Config.ms + Config.guardMs * Config.ms)
    if 2 ^ 32 ≤ e.sec then .raised .hardwareFailure 5 s
    else
      done
        { s with
          sched.epochSec := BitVec.ofNat 32 e.sec
          sched.epochFrac := BitVec.ofNat 30 e.frac }

/-- Both offsets zero (44_scheduler.md R223, R228). -/
def zeroOffsets (s : State) : State := { s with sched.secOff := 0, sched.msecOff := 0 }

/-- `terminate()` but for the completion (44_scheduler.md R232). -/
def terminate (s : State) : State :=
  let s := callRadioClose s
  let s := { s with status.radio := false, txsamp := Samples.empty }
  let s := { s with txgrid := clearedGrid s, frState := .empty, status.frfail := false }
  { clearCancel s with schState := .idle }

/-- The end of a pass of the scheduler: it goes on, or it terminates with HardwareFailure(5), or it waits
for ever (44_scheduler.md R223, R236). -/
def runScheduler (r : Run Unit) : State :=
  match r with
  | .value _ s => s
  | .raised k i s => takeError k i (terminate s)
  | .hung s => hang s

/-- A step that `SCH_START` accepts: it divides 1000 (44_scheduler.md R223, 10_state.md R47). -/
def stepLegal (step : Nat) : Bool := decide (step ≠ 0) && decide (1000 % step = 0)

/-- The rule of `SCH_START` up to the loop, which the engine's turns then run tick by tick
(44_scheduler.md R223, 20_memory.md R86). -/
def ruleSchStart (s : State) : Run Unit :=
  let s := clearCancel s
  let s :=
    { s with sched.ticks := 0, sched.slips := 0, sched.sendFails := 0, sched.lastRet := 0 }
  (deriveEpoch { s with schState := .awaitStart }).next fun _ s =>
    done { zeroOffsets s with schState := .scheduled }

/-- `SCH_START`: the command stays in execution while the loop runs (44_scheduler.md R223). -/
def execSchStart (s : State) : Host.Outcome State Fault Refusal :=
  issueNext .schStart
    (fun s =>
      if stepLegal (opStep s) then runScheduler (ruleSchStart s)
      else takeError .invalidConfiguration 6 s) s

/-- `SCH_CANCEL`: accepted also while busy, where it only sets the latch (44_scheduler.md R231). -/
def execSchCancel (s : State) : Host.Outcome State Fault Refusal :=
  if s.status.busy then .next (setCancel s)
  else issueNext .schCancel (fun s => finish (done (setCancel s))) s

/-! ### The tick -/

/-- The transmit time of a tick, not yet bounded (44_scheduler.md R226). -/
def txTimeOf (s : State) : HwTime :=
  normTime (s.sched.epochSec.toNat + s.sched.secOff.toNat)
    (s.sched.epochFrac.toNat + s.sched.msecOff.toNat * Config.ms)

/-- `tx_time()` (44_scheduler.md R226). -/
def takeTxTime (s : State) : Run HwTime :=
  let tx := txTimeOf s
  if 2 ^ 32 ≤ tx.sec then .raised .hardwareFailure 5 s
  else
    .value tx
      { s with sched.txSec := BitVec.ofNat 32 tx.sec, sched.txFrac := BitVec.ofNat 30 tx.frac }

/-- `late_reset()` (44_scheduler.md R228). -/
def lateReset (s : State) : Run Unit :=
  (deriveEpoch (reportSlip { s with schState := .lateReset })).next fun _ s =>
    done { zeroOffsets s with schState := .scheduled }

/-- `send(tx)` (44_scheduler.md R229). -/
def sendBurst (tx : HwTime) (s : State) : Run Unit :=
  (askSendTimed tx s).next fun ret s =>
    let s := { s with sched.lastRet := ret }
    if ret.msb then done (reportSendFail s) else done s

/-- `advance()` (44_scheduler.md R230). At `SCH_SEC_OFF = 2^32 - 1` the rule's lines write `2^32`, of which the
register keeps 0, also where no transmit time has reached `2^32` seconds (an epoch of second 0), though the
rule's last sentence has R236 fire first; the model follows the lines (DESIGN CHOICE, log entry 33). -/
def advance (s : State) : State :=
  let m := s.sched.msecOff.toNat + opStep s
  if 1000 ≤ m then { s with sched.secOff := s.sched.secOff + 1, sched.msecOff := 0 }
  else { s with sched.msecOff := BitVec.ofNat 10 m }

/-- The slip test (44_scheduler.md R227). -/
def slipped (now tx : HwTime) (sr : Nat) : Bool := decide (samplesOf tx sr < samplesOf now sr)

/-- The part of a tick after its cancel check (44_scheduler.md R225). -/
def ruleTick (s : State) : Run Unit :=
  (takeTxTime { s with sched.ticks := s.sched.ticks + 1 }).next fun tx s =>
    (askTime s).next fun now s =>
      if slipped now tx (opSr s) then lateReset s
      else (sendBurst tx s).next fun _ s => done (advance s)

/-- `tick()`, one pass of the loop (44_scheduler.md R225, R232). -/
def tick (s : State) : State :=
  if s.status.cancel || s.inCancel then completeOk (terminate s) else runScheduler (ruleTick s)

/-- One turn of the engine: a tick while the loop runs, else nothing; an engine that waits for a backend
for ever makes no further step (44_scheduler.md R223, 93_implementation_defined.md U2). -/
def engineTurn (s : State) : State :=
  if s.schState = .scheduled && !s.hung then tick s else s

end Sys2Proof.Machine
end

