-- ==== Sys2Proof/Machine/SystemCmds.lean ====
section
/-! DEFINITION. The system commands (45_system_ops.md R260 to R262). -/

namespace Sys2Proof.Machine

/-- `NOP` (45_system_ops.md R260). -/
def execNop (s : State) : Host.Outcome State Fault Refusal :=
  issueNext .nop (fun s => finish (done s)) s

/-- `CLR_FLAGS` (45_system_ops.md R261). -/
def execClrFlags (s : State) : Host.Outcome State Fault Refusal :=
  issueNext .clrFlags (fun s => finish (done { s with flags := {} })) s

/-- The rule of `SOFT_RESET`: an open radio is closed, then the reset event; the backends are not told
(45_system_ops.md R262). -/
def ruleSoftReset (s : State) : Run Unit :=
  done (resetBlock (if s.status.radio then callRadioClose s else s))

/-- `SOFT_RESET` (45_system_ops.md R262). -/
def execSoftReset (s : State) : Host.Outcome State Fault Refusal :=
  issueNext .softReset (fun s => finish (ruleSoftReset s)) s

end Sys2Proof.Machine
end

