-- ==== Sys2Proof/Machine/Dispatch.lean ====
section
/-! DEFINITION. The meaning of each command: one arm per constructor of Instr. -/

namespace Sys2Proof.Machine

def exec (i : Instr) (s : State) : Host.Outcome State Fault Refusal :=
  match i with
  | .nop => Sys2Proof.Machine.execNop s
  | .cellSet => Sys2Proof.Machine.execCellSet s
  | .poolDefault => Sys2Proof.Machine.execPoolDefault s
  | .poolCheck => Sys2Proof.Machine.execPoolCheck s
  | .resv2code => Sys2Proof.Machine.execResv2code s
  | .code2resv => Sys2Proof.Machine.execCode2resv s
  | .rivEnc => Sys2Proof.Machine.execRivEnc s
  | .rivDec => Sys2Proof.Machine.execRivDec s
  | .sciPack => Sys2Proof.Machine.execSciPack s
  | .sciUnpack => Sys2Proof.Machine.execSciUnpack s
  | .crc2id => Sys2Proof.Machine.execCrc2id s
  | .frBuild => Sys2Proof.Machine.execFrBuild s
  | .frCtrl => Sys2Proof.Machine.execFrCtrl s
  | .frData => Sys2Proof.Machine.execFrData s
  | .frMod => Sys2Proof.Machine.execFrMod s
  | .frClear => Sys2Proof.Machine.execFrClear s
  | .rxDemod => Sys2Proof.Machine.execRxDemod s
  | .rxLoop => Sys2Proof.Machine.execRxLoop s
  | .parseSubch idx => Sys2Proof.Machine.execParseSubch idx s
  | .parseAll => Sys2Proof.Machine.execParseAll s
  | .rxClear => Sys2Proof.Machine.execRxClear s
  | .radioOpen => Sys2Proof.Machine.execRadioOpen s
  | .radioClose => Sys2Proof.Machine.execRadioClose s
  | .schStart => Sys2Proof.Machine.execSchStart s
  | .schCancel => Sys2Proof.Machine.execSchCancel s
  | .clrFlags => Sys2Proof.Machine.execClrFlags s
  | .softReset => Sys2Proof.Machine.execSoftReset s

end Sys2Proof.Machine
end

