-- ==== Sys2Proof/Machine/HostPort.lean ====
section
/-! DEFINITION. The host port: the address map (20_memory.md R75), host reads and writes
(45_system_ops.md R264), the issue of a command word (30_encoding.md R105), and the moves of the agents on
the block's inputs (60_exceptions.md R282, 70_reset_and_hazards.md R310). -/

namespace Sys2Proof.Machine

/-- What a word number of HOST names (20_memory.md R75). -/
inductive HostLoc where
  | reg (r : Reg)
  | dr (i k : Nat)
  | txtb (k : Nat)
  | rxtb (i k : Nat)
  | unmapped
deriving DecidableEq, Repr

/-- The address map of HOST (20_memory.md R75). -/
def locate (a : WordNo) : HostLoc :=
  let n := a.toNat
  if n < 0x40 then
    match regAt n with
    | some r => .reg r
    | none => .unmapped
  else if 0x100 ≤ n ∧ n < 0x240 then .dr ((n - 0x100) / 16) ((n - 0x100) % 16)
  else if 0x400 ≤ n ∧ n < 0x800 then
    if n - 0x400 < Config.tbWords then .txtb (n - 0x400) else .unmapped
  else if 0x8000 ≤ n ∧ n < 0xD000 then
    if (n - 0x8000) % 0x400 < Config.tbWords then .rxtb ((n - 0x8000) / 0x400) ((n - 0x8000) % 0x400)
    else .unmapped
  else .unmapped

/-- `host_read(a)`: no side effect (45_system_ops.md R264, 20_memory.md R74, R76). -/
def hostRead (a : WordNo) (s : State) : Word :=
  match locate a with
  | .reg r => readReg r s
  | .dr i k => drWord (drAt s i) k
  | .txtb k => readWord s.mem (txtbBase + k)
  | .rxtb i k => readWord s.mem (rxtbBase i + k)
  | .unmapped => 0

/-- The word number of `CMD` (10_state.md R32). -/
def cmdWord : WordNo := 0x01

/-- A write of a word to `CMD`: a command the decoder knows is issued; any other word is ignored while
busy, else rejected with IllegalCommand (30_encoding.md R104, R105). -/
def issueWord (c : Word) (s : State) : Host.Outcome State Fault Refusal :=
  match decode c with
  | .ok i => exec i s
  | .error _ => .next (if s.status.busy then setOvr s else reject .illegalCommand c s)

/-- A host write of anything but `CMD` while the block is not busy (45_system_ops.md R264). -/
def storeWord (a : WordNo) (v : Word) (s : State) : State :=
  match locate a with
  | .reg r => writeReg r v s
  | .txtb k => { s with mem := writeWord s.mem (txtbBase + k) v }
  | .dr _ _ | .rxtb _ _ | .unmapped => s

/-- `host_write(a, v)` (45_system_ops.md R264). -/
def hostWrite (a : WordNo) (v : Word) (s : State) : Host.Outcome State Fault Refusal :=
  if a = cmdWord then issueWord v s
  else if s.status.busy then .next (setOvr s)
  else .next (storeWord a v s)

/-- The input `rst` goes to 1: the reset event, the backends' cell configuration a free value
(70_reset_and_hazards.md R310, R311; DESIGN CHOICE, log entry 12). -/
def enterReset (s : State) : State :=
  resetBlock
    { s with inRst := true, backendCell := Config.freeBackendCell s.draws, draws := s.draws + 1 }

/-- One move of an agent. While `rst` is 1 the block is held in the reset state, host writes are ignored
and the latch follows the input `cancel` (70_reset_and_hazards.md R310; DEDUCED, log entry 14). -/
def makeMove (m : Move) (s : State) : Host.Outcome State Fault Refusal :=
  match m with
  | .hostWrite a v => if s.inRst then .next s else hostWrite a v s
  | .hostRead a => .next (emit (.readData a (hostRead a s)) s)
  | .cancelIn level =>
    .next
      { s with
        inCancel := level
        status.cancel := if s.inRst then level else s.status.cancel || level }
  | .rstIn level => .next (if level then enterReset s else { s with inRst := false })
  | .rxIn x => .next { s with inRx := x }
  | .engine => .next (if s.inRst then s else engineTurn s)

end Sys2Proof.Machine
end

