-- ==== Sys2Proof/Machine/Step.lean ====
section
/-! DEFINITION. One step of the whole machine: the next listed move, or a turn of the engine when no agent
has a move to come (00_scope.md R6, 20_memory.md R83, R86; DESIGN CHOICE, log entry 1). -/

namespace Sys2Proof.Machine

/-- One step. -/
def step (s : State) : Host.Outcome State Fault Refusal :=
  match s.moves with
  | [] => makeMove .engine s
  | m :: rest => makeMove m { s with moves := rest }

/-- `s` with a command word as the host's next write of `CMD`, and `rst` at 0 so that the write is not
ignored: the very next step issues it (30_encoding.md R105; DESIGN CHOICE, log entry 1). -/
def State.withFetchWord (s : State) (nbits w : Nat) : State :=
  { s with
    inRst := false
    moves := .hostWrite cmdWord (BitVec.ofNat 32 (w % 2 ^ nbits)) :: s.moves }

end Sys2Proof.Machine
end

