-- ==== Sys2Proof/Machine/Script.lean ====
section
/-! DEFINITION. The host scripts: the operations of 30_encoding.md R107 with the bus transaction each stands
for, and the pseudo-operations of R108 with their expansions. -/

namespace Sys2Proof.Machine

/-- One line of a host script (30_encoding.md R107). -/
inductive ScriptOp where
  | wr (r : Reg) (v : Word)
  | wrTxtb (k : Nat) (v : Word)
  | rd (r : Reg)
  | rdDr (i k : Nat)
  | rdTxtb (k : Nat)
  | rdRxtb (i k : Nat)
  | cmd (i : Instr)
  | wait
deriving DecidableEq, Repr

/-- The pseudo-operations of 30_encoding.md R108. -/
inductive PseudoOp where
  | frame (start len sfidx : Word)
  | sci (fmt prio resv riv tgap mcs retx txfmt : Word)
  | init (nprb : Word)
deriving DecidableEq, Repr

/-- The word number of a register (10_state.md R57). -/
def wordOf (r : Reg) : Nat :=
  match (List.range 0x40).find? fun a => decide (regAt a = some r) with
  | some a => a
  | none => 0

/-- The bus transaction of a script line; `WAIT` is one poll of `STATUS` (30_encoding.md R107). -/
def encodeLine (op : ScriptOp) : Move :=
  match op with
  | .wr r v => .hostWrite (BitVec.ofNat 16 (wordOf r)) v
  | .wrTxtb k v => .hostWrite (BitVec.ofNat 16 (txtbBase + k)) v
  | .rd r => .hostRead (BitVec.ofNat 16 (wordOf r))
  | .rdDr i k => .hostRead (BitVec.ofNat 16 (0x100 + 16 * i + k))
  | .rdTxtb k => .hostRead (BitVec.ofNat 16 (txtbBase + k))
  | .rdRxtb i k => .hostRead (BitVec.ofNat 16 (rxtbBase i + k))
  | .cmd i => .hostWrite cmdWord (encode i)
  | .wait => .hostRead (BitVec.ofNat 16 (wordOf .status))

/-- The expansion of a pseudo-operation (30_encoding.md R108). -/
def expandPseudo (p : PseudoOp) : List ScriptOp :=
  match p with
  | .frame start len sfidx =>
    [.wr .frStart start, .wr .frLen len, .wr .frSfidx sfidx, .cmd .frBuild, .wait]
  | .sci fmt prio resv riv tgap mcs retx txfmt =>
    [.wr .sciFmt fmt, .wr .sciPrio prio, .wr .sciResv resv, .wr .sciRiv riv, .wr .sciTgap tgap,
      .wr .sciMcs mcs, .wr .sciRetx retx, .wr .sciTxfmt txfmt]
  | .init nprb =>
    [.wr .cellNprb nprb, .cmd .cellSet, .wait, .cmd .poolDefault, .wait]

end Sys2Proof.Machine
end

