-- ==== Sys2Proof/Safety.lean ====
section
/-! DEFINITION. What the statements are written in: the states a completion leaves (60_exceptions.md R276),
spelled out field by field, the meaning of an address map row, and the invariant of a safe run. -/

namespace Sys2Proof.Machine

/-! ### What a completion leaves, spelled out (60_exceptions.md R276) -/

/-- `s` after a completion without error: `ERR = 0`, `ERR_INFO = 0`, `ERRV = 0`, `BUSY = 0`, `DONE = 1`, one
`ev_done`; nothing else. -/
def afterOk (s : State) : State :=
  { s with
    err := 0
    errInfo := 0
    status := { s.status with errv := false, busy := false, done := true }
    out := .pulse .evDone :: s.out }

/-- `s` after a completion or rejection with a non-zero code: the code and its detail word, `ERRV = 1`,
`BUSY = 0`, `DONE = 1`, `ev_done` and `ev_err`; nothing else. -/
def afterError (code : BitVec 8) (info : Word) (s : State) : State :=
  { s with
    err := code
    errInfo := info
    status := { s.status with errv := true, busy := false, done := true }
    out := .pulse .evErr :: .pulse .evDone :: s.out }

/-- `s` with a command in execution: `BUSY = 1`, `DONE = 0`; nothing else. -/
def inExecution (s : State) : State := { s with status := { s.status with busy := true, done := false } }

/-- The next `n` calls of an operation are answered from the list (60_exceptions.md R290). -/
def Answered {α : Type} (n : Nat) (q : List (Answer α)) : Prop :=
  n ≤ q.length ∧ ∀ x ∈ q.take n, ∃ a, x = .reply a

/-- What a framer command's failure adds to its other effects: `FRFAIL = 1` and `TXGRID` a free value
(42_framer_tx.md R173; DEDUCED, log entry 5). -/
def frameDiscarded (s : State) : State :=
  { s with
    status := { s.status with frfail := true }
    txgrid := Config.freeGrid s.draws
    draws := s.draws + 1 }

/-- What termination of the scheduler releases, spelled out: the radio is closed, the frame is discarded,
the latch is what the input `cancel` says, the scheduler is `IDLE` (44_scheduler.md R232). -/
def released (s : State) : State :=
  { s with
    handle := none
    txsamp := Samples.empty
    txgrid := if s.status.cellv then Grid.zero s.cell.nprb.toNat else Grid.empty
    frState := .empty
    schState := .idle
    status := { s.status with radio := false, frfail := false, cancel := s.inCancel }
    out := .call (.radioClose s.handle) :: s.out }

/-- The control word of a ControlInfo for `n` sub-channels as one number, first field highest
(41_sci_codec.md R139). -/
def controlWord (c : Sci) (n : Nat) : Nat :=
  c.prio.toNat * 2 ^ 29 + c.resv.toNat * 2 ^ 25 + c.riv.toNat * 2 ^ (25 - wRiv n)
    + c.tgap.toNat * 2 ^ (21 - wRiv n) + c.mcs.toNat * 2 ^ (16 - wRiv n)
    + c.retx.toNat * 2 ^ (15 - wRiv n)
    + if c.fmt = 1 then c.txfmt.toNat * 2 ^ (14 - wRiv n) else 0

/-- The control word a framer command of the state's allocation sends: the ControlInfo of the SCI registers
with the allocation's RIV (42_framer_tx.md R162, R163). -/
def sentWord (s : State) : Word :=
  let n := s.pool.nsubch.toNat
  BitVec.ofNat 32 (controlWord
    { s.sci with riv := BitVec.ofNat 8 (rivEncode n s.frIn.start.toNat s.frIn.len.toNat) } n)

/-- `s` when `FR_BUILD` has run steps 1 to 3 on a valid allocation, the control encode answered with grid `g`
and CRC bits `crc`, the reference signals with grid `g'`: everything those steps write, spelled out
(42_framer_tx.md R162 to R164). -/
def controlStepsDone (s : State) (g g' : Grid) (crc : CrcBits)
    (qe : List (Answer (Option (Grid × CrcBits)))) (qi : List (Answer Grid)) : State :=
  let off := s.frIn.start.toNat * s.pool.width.toNat
  let riv := rivEncode s.pool.nsubch.toNat s.frIn.start.toNat s.frIn.len.toNat
  { s with
    sci := { s.sci with riv := BitVec.ofNat 8 riv }
    sciBits := { bits := sentWord s, nbits := 32 }
    crcBits := { bits := BitVec.ofNat 32 (crc.toNat * 2 ^ 16), nbits := 16 }
    frOut := { s.frOut with ctrlOff := BitVec.ofNat 8 off, scrid := BitVec.ofNat 32 crc.toNat }
    txgrid := g'
    chestCfg := some (.control off 0)
    frState := .controlPlaced
    backends := { s.backends with encodeControl := qe, insertRef := qi }
    out := .call (.insertReferenceSignal g) :: .call (.setConfig (.control off 0)) ::
      .call (.encodeControl (bitsOf 32 (sentWord s).toNat) s.txgrid off) :: s.out }

/-- A time in sample units at rate `sr` (00_scope.md R16). -/
def sampleUnits (sec frac sr : Nat) : Nat := sec * sr + frac * sr / 1000000000

/-- The host-writable registers, as pairs of word number and width (10_state.md R57). -/
def rwRegisters : List (Nat × Nat) :=
  [(0x08, 8), (0x09, 16), (0x0A, 8), (0x0B, 1), (0x0C, 5), (0x0D, 8), (0x0E, 8), (0x0F, 1),
    (0x10, 1), (0x11, 3), (0x12, 4), (0x13, 8), (0x14, 4), (0x15, 5), (0x16, 1), (0x17, 1),
    (0x18, 32), (0x19, 32), (0x1A, 32), (0x20, 32), (0x21, 6), (0x22, 32), (0x23, 6),
    (0x28, 5), (0x29, 5), (0x2A, 32), (0x30, 32), (0x31, 10), (0x3C, 32)]

/-- The word numbers of the read-only registers (10_state.md R57). -/
def roRegisters : List Nat :=
  [0x00, 0x02, 0x03, 0x04, 0x05, 0x1B, 0x1C, 0x2B, 0x2C, 0x2D, 0x2E, 0x2F, 0x32, 0x33, 0x34, 0x35, 0x36,
    0x37, 0x38, 0x39, 0x3A, 0x3B]

/-- A word number that names nothing (20_memory.md R75, 10_state.md R57). -/
def Unmapped (n : Nat) : Prop :=
  (n < 0x40 ∧ n ≠ 0x01 ∧ n ∉ roRegisters ∧ n ∉ rwRegisters.map Prod.fst) ∨
    (0x40 ≤ n ∧ n < 0x100) ∨ (0x240 ≤ n ∧ n < 0x400) ∨
    (0x400 ≤ n ∧ n < 0x800 ∧ Config.tbWords ≤ n - 0x400) ∨ (0x800 ≤ n ∧ n < 0x8000) ∨
    (0x8000 ≤ n ∧ n < 0xD000 ∧ Config.tbWords ≤ (n - 0x8000) % 0x400) ∨ 0xD000 ≤ n

/-- What a host sees of the ports but for the completions: `out` without the `ev_done` pulses. -/
def withoutDone (o : List Out) : List Out := o.filter fun x => decide (x ≠ .pulse .evDone)

/-- What one command leaves of a machine, after what the commands before it left. -/
def execAfter (o : Host.Outcome State Fault Refusal) (i : Instr) : Host.Outcome State Fault Refusal :=
  match o with
  | .next u => exec i u
  | .fault r => .fault r
  | .refused r => .refused r

/-! ### Payload windows -/

/-- A byte address that a payload window maps (20_memory.md R75). -/
def payloadAddr (a : Nat) : Prop :=
  (byteAddr txtbBase ≤ a ∧ a < byteAddr txtbBase + tbBytes) ∨
    ∃ i, i < Config.maxSubch ∧ byteAddr (rxtbBase i) ≤ a ∧ a < byteAddr (rxtbBase i) + tbBytes

/-! ### A scan, shift by shift (43_parser_rx.md R194 to R200) -/

/-- What the collaborators answer at one shift: the equalized grid and the control decode; and, where the scan
comes to ask for them, the span, the second equalized grid and the data decode (43_parser_rx.md R195 to R199). -/
structure Heard where
  eq : Grid
  control : Option (ControlBits × CrcBits)
  span : Nat := 0
  eqData : Grid := Grid.empty
  data : Option Payload := none
deriving DecidableEq, Repr

/-- The RIV field of a received format B word for `n` sub-channels, by its place (41_sci_codec.md R139). -/
def heardRiv (n : Nat) (bits : ControlBits) : Nat := bits.toNat / 2 ^ (25 - wRiv n) % 2 ^ wRiv n

/-- The pair of a RIV by the two branches of 41_sci_codec.md R137, for every value below `n(n+1)`. -/
def heardPair (n r : Nat) : Nat × Nat :=
  if r / n + 1 + r % n ≤ n then (r % n, r / n + 1) else (n - 1 - r % n, n - r / n + 1)

/-- The span step 4 computes from a received word, the document's expression (43_parser_rx.md R198). -/
def heardReq (s : State) (idx : Nat) (bits : ControlBits) : Nat :=
  let n := s.pool.nsubch.toNat
  let w := s.pool.width.toNat
  let pair := heardPair n (heardRiv n bits)
  (pair.1 + pair.2) * w + s.pool.startPrb.toNat - (idx * w + 2)

/-- The scan asks for a span at this shift: a control message decoded, its span not collapsed (R196, R198). -/
def Heard.asksSpan (h : Heard) (s : State) (idx : Nat) : Bool :=
  match h.control with
  | none => false
  | some (bits, _) => decide (heardReq s idx bits ≠ 0)

/-- The scan asks for a data decode at this shift: the span granted is not 0 (R198, R199). -/
def Heard.asksData (h : Heard) (s : State) (idx : Nat) : Bool :=
  h.asksSpan s idx && decide (h.span ≠ 0)

/-- Control and data both decode at this shift (R200). -/
def Heard.succeeds (h : Heard) (s : State) (idx : Nat) : Bool := h.asksData s idx && h.data.isSome

/-- The data-channel configuration of step 5 (43_parser_rx.md R199). -/
def heardConfig (s : State) (idx : Nat) (bits : ControlBits) (crc : CrcBits) (v : Nat) : DataConfig :=
  let r := wRiv s.pool.nsubch.toNat
  { prbStart := idx * s.pool.width.toNat + 2
    nofPrb := v
    scramblingId := BitVec.ofNat 32 crc.toNat
    mcs := BitVec.ofNat 5 (bits.toNat / 2 ^ (16 - r))
    redundancyVersion := BitVec.ofNat 1 (bits.toNat / 2 ^ (15 - r))
    subframe := s.rxSfidx.toNat % 10 }

/-- The calls of shift number `k`, in order: the control region at `idx × w` where control and data are
adjacent, else at `idx × 2`, with shift `3 k`; the control decode; then the span, the data region and the
data decode as far as they are asked for (43_parser_rx.md R195, R196, R198, R199). -/
def heardCalls (s : State) (idx k : Nat) (h : Heard) : List Call :=
  let off := if s.pool.adj = 1 then idx * s.pool.width.toNat else idx * 2
  [.setConfig (.control off (3 * k)), .estimateAndEqualize s.rxgrid, .decodeControl h.eq off] ++
    match h.control with
    | none => []
    | some (bits, crc) =>
      let cfg := heardConfig s idx bits crc h.span
      (if h.asksSpan s idx then [.getValidResourceSpan (heardReq s idx bits)] else []) ++
      if h.asksData s idx then
        [.setConfig (.data cfg.scramblingId cfg.subframe cfg.prbStart h.span),
          .estimateAndEqualize s.rxgrid, .decodeData h.eqData cfg]
      else []

/-- What shift number `k` makes of the DecodeResult entry `e`: a control message that decodes overwrites
every recorded word, the masks keep what came before (43_parser_rx.md R197 to R200). -/
def heardEntry (s : State) (idx k : Nat) (e : DrEntry) (h : Heard) : DrEntry :=
  match h.control with
  | none => e
  | some (bits, crc) =>
    let n := s.pool.nsubch.toNat
    let r := wRiv n
    let b := bits.toNat
    let resv := b / 2 ^ 25 % 16
    let pair := heardPair n (heardRiv n bits)
    { ctrl := true
      ok := e.ok || h.succeeds s idx
      ctrlMask := e.ctrlMask ||| BitVec.ofNat 4 (2 ^ k)
      okMask := if h.succeeds s idx then e.okMask ||| BitVec.ofNat 4 (2 ^ k) else e.okMask
      prio := BitVec.ofNat 3 (b / 2 ^ 29)
      resv := BitVec.ofNat 4 resv
      interval := BitVec.ofNat 16 (if resv = 12 then 20 else if resv = 11 then 50 else resv * 100)
      riv := BitVec.ofNat 8 (heardRiv n bits)
      tgap := BitVec.ofNat 4 (b / 2 ^ (21 - r))
      mcs := BitVec.ofNat 5 (b / 2 ^ (16 - r))
      retx := BitVec.ofNat 1 (b / 2 ^ (15 - r))
      txfmt := BitVec.ofNat 1 (b / 2 ^ (14 - r))
      start := BitVec.ofNat 5 pair.1
      len := BitVec.ofNat 5 pair.2
      dataStart := BitVec.ofNat 8 (idx * s.pool.width.toNat + 2)
      dataNprb := if h.asksSpan s idx then BitVec.ofNat 8 h.span else 0
      scrid := BitVec.ofNat 32 crc.toNat
      rv := BitVec.ofNat 1 (b / 2 ^ (15 - r))
      shift := BitVec.ofNat 4 (3 * k) }

/-- Byte `j` of the payload window after a scan, `b` before it: that of the last payload that decoded
(43_parser_rx.md R199). -/
def heardByte (s : State) (idx : Nat) (hs : List Heard) (j : Nat) (b : Byte) : Byte :=
  hs.foldl (fun b h => if h.succeeds s idx then readByte (h.data.getD []) j else b) b

/-- The parameters of the last `set_config` among some calls, in order. -/
def lastConfig (calls : List Call) : Option ChestParams :=
  calls.foldl (fun p c => match c with | .setConfig q => some q | _ => p) none

/-! ### The invariant of a safe run -/

/-- What every scan leaves in a DecodeResult entry (43_parser_rx.md R197 to R200). -/
structure DrConsistent (e : DrEntry) : Prop where
  ok_iff : e.ok = true ↔ e.okMask ≠ 0
  ctrl_iff : e.ctrl = true ↔ e.ctrlMask ≠ 0
  ok_subset : e.okMask &&& e.ctrlMask = e.okMask
  interval : e.interval = BitVec.ofNat 16 (codeToResv e.resv.toNat)
  rv : e.rv = e.retx
  shift : e.shift.toNat ∈ Config.shifts
  scrid : e.scrid.toNat < 2 ^ Config.crcLen

/-- The invariant every step keeps: what the spec promises of the block's state between two steps, for
any run and any environment. -/
structure State.Inv (s : State) : Prop where
  /-- the payload memory is canonical -/
  mem_wf : Memory.wf s.mem = true
  /-- the payload memory lists only mapped bytes (20_memory.md R75) -/
  mem_mapped : ∀ c ∈ s.mem, payloadAddr c.1
  /-- codes 10 to 255 and 6 are never in `ERR` (60_exceptions.md R270, R277) -/
  err_code : s.err.toNat ≤ 9 ∧ s.err ≠ 6
  /-- `ERRV` says `ERR ≠ 0` (10_state.md R28) -/
  errv : s.status.errv = decide (s.err ≠ 0)
  /-- `ERR_INFO` is 0 on success (10_state.md R30) -/
  errInfo : s.err = 0 → s.errInfo = 0
  /-- `BUSY` says that the scheduler runs or a backend call is in flight for ever -/
  busy : s.status.busy = (decide (s.schState ≠ .idle) || s.hung)
  /-- `BUSY` and `DONE` exclude each other (60_exceptions.md R276) -/
  busy_done : ¬(s.status.busy = true ∧ s.status.done = true)
  /-- between ticks a running scheduler is `SCHEDULED` (44_scheduler.md R220) -/
  scheduled : s.schState ≠ .idle → s.hung = false → s.schState = .scheduled
  /-- the scheduler runs only with the radio open and a frame `READY` (30_encoding.md R109) -/
  running : s.schState ≠ .idle →
    s.status.radio = true ∧ s.frState = .ready ∧ s.status.frfail = false ∧
      stepLegal s.sched.stepMs.toNat = true
  /-- `MODULATED` is never visible (42_framer_tx.md R160) -/
  not_modulated : s.frState ≠ .modulated
  /-- no failed frame is `READY` (42_framer_tx.md R173) -/
  failed_not_ready : s.status.frfail = true → s.frState ≠ .ready
  /-- a committed cell has resource blocks (40_pool.md R120) -/
  cellv : s.status.cellv = true → s.cell.nprb ≠ 0
  /-- `POOLV = 1` means the pool invariant holds (10_state.md R35) -/
  poolv : s.status.poolv = true →
    1 ≤ s.pool.nsubch.toNat ∧ s.pool.nsubch.toNat ≤ Config.maxSubch ∧ 1 ≤ s.pool.width.toNat ∧
      s.pool.nsubch.toNat * s.pool.width.toNat ≤ s.cell.nprb.toNat
  /-- `RADIO = 1` means a handle is held (10_state.md R53) -/
  radio : s.status.radio = true → s.handle.isSome = true
  /-- the epoch is a whole number of milliseconds below one second (44_scheduler.md R224) -/
  epoch : s.sched.epochFrac.toNat < Config.fracUnits ∧ s.sched.epochFrac.toNat % Config.ms = 0
  /-- so is the transmit time (44_scheduler.md R226) -/
  txFrac : s.sched.txFrac.toNat < Config.fracUnits ∧ s.sched.txFrac.toNat % Config.ms = 0
  /-- `0 ≤ SCH_MSEC_OFF < 1000` (10_state.md R48) -/
  msecOff : s.sched.msecOff.toNat < 1000
  /-- the latch is set while the input `cancel` is 1 (10_state.md R52) -/
  cancel : s.inCancel = true → s.status.cancel = true
  /-- while `rst` is 1 the block is held in the reset state (70_reset_and_hazards.md R310) -/
  held : s.inRst = true → resetBlock s = s
  /-- every DecodeResult entry is what some scan leaves, or zero (43_parser_rx.md R200) -/
  dr : ∀ i, DrConsistent (drAt s i)

end Sys2Proof.Machine
end

