-- ==== Sys2Proof/Certificates/Slice0/Obligations.lean ====
section
/-! DEFINITION. The statements for the provers (spec/ rules named in each docstring). The words
`hypotheses` here are on the state alone; the answers of the collaborators are the lists of
`State.backends` (DESIGN CHOICE, log entry 2). -/

section Statements

open Sys2Proof Sys2Proof.Machine

/-! ### Encoding and issue -/

/-- 30_encoding.md R103: a few command words written out bit by bit from the opcode map. -/
def Obligations.WrittenOutWordsDecode : Prop :=
  decode 0b00000000000000000000000000000000#32 = .ok .nop ∧
  decode 0b00000000000000000000000000000011#32 = .ok .poolCheck ∧
  decode 0b00000000000000000000000000010101#32 = .ok .sciUnpack ∧
  decode 0b00000000000000000000000000100010#32 = .ok .frData ∧
  decode 0b00000000000000000001001100110010#32 = .ok (.parseSubch 19) ∧
  decode 0b00000000000000000000000001000011#32 = .ok .schCancel ∧
  decode 0b00000000000000000000000001111111#32 = .ok .softReset ∧
  decode 0b00000000000000000000000000000100#32 = .error .opcodeNotListed

/-- 30_encoding.md R100, R101, R103: decoding the word of a well-formed command gives the command. -/
def Obligations.DecodeOfEncodedCommand : Prop :=
  ∀ i : Instr, i.WellFormed → decode (encode i) = .ok i

/-- 30_encoding.md R100, R103: a word that decodes is the word of its command, which is well-formed: each
command has one word, and every other word is refused. -/
def Obligations.EncodeOfDecodedWord : Prop :=
  ∀ (c : Word) (i : Instr), decode c = .ok i → i.WellFormed ∧ encode i = c

/-- 30_encoding.md R105: when the next move is the host's write of a command word to `CMD`, and the block is
not held in reset, the step takes that move off the list and runs the decoded command. The other clauses say
what the step makes of every other listed move, and of an empty list: a turn of the engine, which does nothing
unless the loop runs (00_scope.md R6, 45_system_ops.md R264); a level on the input `cancel` sets the latch at 1
and leaves it at 0 (10_state.md R52, 60_exceptions.md R282), while `rst` is 1 the latch follows the input; `rst`
back at 0 and new samples on `rx_in` change nothing else (70_reset_and_hazards.md R310). That moves are a list,
and the latch under reset, are the model's (log entries 1, 14, 15). -/
def Obligations.StepRunsDecodedCommand : Prop :=
  (∀ (s : State) (rest : List Move) (c : Word) (i : Instr),
    s.moves = .hostWrite cmdWord c :: rest → s.inRst = false → decode c = .ok i →
      step s = exec i { s with moves := rest }) ∧
  (∀ s : State, s.moves = [] → step s = makeMove .engine s) ∧
  (∀ (s : State) (m : Move) (rest : List Move), s.moves = m :: rest →
    (let u := { s with moves := rest }
     step s = makeMove m u ∧
     (∀ a v, m = .hostWrite a v →
       (s.inRst = true → step s = .next u) ∧ (s.inRst = false → step s = hostWrite a v u)) ∧
     (∀ a, m = .hostRead a → step s = .next { u with out := .readData a (hostRead a s) :: s.out }) ∧
     (m = .cancelIn true →
       step s = .next { u with inCancel := true, status := { s.status with cancel := true } }) ∧
     (m = .cancelIn false →
       (s.inRst = false → step s = .next { u with inCancel := false }) ∧
       (s.inRst = true →
         step s = .next { u with inCancel := false, status := { s.status with cancel := false } })) ∧
     (m = .rstIn false → step s = .next { u with inRst := false }) ∧
     ∀ x, m = .rxIn x → step s = .next { u with inRx := x })) ∧
  ∀ s : State, (s.inRst = true ∨ s.schState ≠ .scheduled ∨ s.hung = true) → makeMove .engine s = .next s

/-- 30_encoding.md R104: every word that matches no row, and `PARSE_SUBCH` with an index of `POOL_NSUBCH` or
more, is rejected with IllegalCommand: `ERR = 8`, `ERR_INFO` the word, `ERRV = DONE = 1`, nothing else. -/
def Obligations.IllegalWordsAreRejected : Prop :=
  ∀ (s : State) (c : Word), s.status.busy = false →
    (let n := c.toNat
     let op := n % 256
     let imm := n / 256 % 256
     65536 ≤ n ∨
     (0x04 ≤ op ∧ op ≤ 0x0F) ∨ (0x17 ≤ op ∧ op ≤ 0x1F) ∨ (0x25 ≤ op ∧ op ≤ 0x2F) ∨
     (0x35 ≤ op ∧ op ≤ 0x3F) ∨ (0x44 ≤ op ∧ op ≤ 0x7D) ∨ 0x80 ≤ op ∨
     (op ≠ 0x32 ∧ imm ≠ 0) ∨ (op = 0x32 ∧ s.pool.nsubch.toNat ≤ imm)) →
    hostWrite cmdWord c s = .next (afterError 8 c s)

/-- 30_encoding.md R109: each command of the table is rejected with SequenceError (`ERR = 9`, `ERR_INFO` the
word, `ERRV = DONE = 1`, nothing else) exactly where its condition fails; for `PARSE_SUBCH` the index is in
range first. -/
def Obligations.WrongStateIsRejected : Prop :=
  ∀ s : State, s.status.busy = false →
    (¬(s.status.cellv = true ∧ s.status.poolv = true ∧ s.status.frfail = false ∧ s.frState = .empty) →
      exec .frBuild s = .next (afterError 9 0x20 s) ∧ exec .frCtrl s = .next (afterError 9 0x21 s)) ∧
    (¬(s.status.cellv = true ∧ s.status.poolv = true ∧ s.status.frfail = false ∧
        s.frState = .controlPlaced) → exec .frData s = .next (afterError 9 0x22 s)) ∧
    (¬(s.status.cellv = true ∧ s.status.frfail = false ∧ s.frState = .dataPlaced) →
      exec .frMod s = .next (afterError 9 0x23 s)) ∧
    (s.status.cellv = false → exec .rxDemod s = .next (afterError 9 0x30 s)) ∧
    (¬(s.status.cellv = true ∧ s.status.frfail = false) →
      exec .rxLoop s = .next (afterError 9 0x31 s)) ∧
    (¬(s.status.cellv = true ∧ s.status.poolv = true) →
      exec .parseAll s = .next (afterError 9 0x33 s) ∧
      ∀ idx, idx < s.pool.nsubch.toNat →
        exec (.parseSubch idx) s = .next (afterError 9 (BitVec.ofNat 32 (0x32 + 256 * idx)) s)) ∧
    (s.status.radio = true → exec .radioOpen s = .next (afterError 9 0x40 s)) ∧
    (s.status.radio = false → exec .radioClose s = .next (afterError 9 0x41 s)) ∧
    (¬(s.status.radio = true ∧ s.status.frfail = false ∧ s.frState = .ready) →
      exec .schStart s = .next (afterError 9 0x42 s))

/-- 60_exceptions.md R276, 00_scope.md R8: what any command leaves. Either it stays in execution (the
scheduler's loop, or a backend call never answered), or it has completed: `BUSY = 0`, `DONE = 1`, `ERRV` says
`ERR ≠ 0`, `ERR_INFO = 0` on success, `ERR` one of the codes of R270 but 6, and exactly the pulses of R281
last on the ports. -/
def Obligations.EveryCommandCompletesOrRuns : Prop :=
  ∀ (i : Instr) (s : State), s.status.busy = false → s.hung = false → s.schState = .idle →
    ∃ t, exec i s = .next t ∧
      ((t.status.busy = true ∧ t.status.done = false ∧ t.err = s.err ∧
          ((t.hung = true ∧ t.schState ≠ .scheduled) ∨
            (i = .schStart ∧ t.schState = .scheduled ∧ t.hung = false))) ∨
        (t.status.busy = false ∧ t.status.done = true ∧ t.hung = false ∧ t.schState = .idle ∧
          t.err.toNat ≤ 9 ∧ t.err ≠ 6 ∧ t.status.errv = decide (t.err ≠ 0) ∧
          (t.err = 0 → t.errInfo = 0) ∧
          ∃ calls, (∀ x ∈ calls, ∃ c, x = Out.call c) ∧
            t.out = (if t.err = 0 then [.pulse .evDone] else [.pulse .evErr, .pulse .evDone]) ++ calls
              ++ s.out))

/-- 20_memory.md R77: while the block is busy every host write but the word of `SCH_CANCEL` to `CMD` is
ignored and sets `FLAGS.OVR`; that word sets the cancel latch and nothing else; a read is answered. -/
def Obligations.BusyIgnoresHostWrites : Prop :=
  ∀ (s : State) (a : WordNo) (v : Word), s.status.busy = true →
    (¬(a = 0x0001 ∧ v = 0x00000043) →
      hostWrite a v s = .next { s with flags := { s.flags with ovr := true } }) ∧
    hostWrite 0x0001 0x00000043 s = .next { s with status := { s.status with cancel := true } } ∧
    makeMove (.hostRead a) s = .next { s with out := .readData a (hostRead a s) :: s.out }

/-! ### System commands and reset -/

/-- 45_system_ops.md R260, R261: `NOP` and `CLR_FLAGS`. -/
def Obligations.NopAndClearFlags : Prop :=
  ∀ s : State, s.status.busy = false →
    exec .nop s = .next (afterOk s) ∧ hostWrite cmdWord 0x00000000 s = exec .nop s ∧
    exec .clrFlags s = .next (afterOk { s with flags := { slip := false, sendfail := false, ovr := false } }) ∧
    hostWrite cmdWord 0x0000007E s = exec .clrFlags s

/-- 45_system_ops.md R262: `SOFT_RESET` closes an open radio, gives every piece of state its reset value,
and leaves `DONE = 1`; the latch is what the input `cancel` says, and nothing outside the block is told. -/
def Obligations.SoftReset : Prop :=
  ∀ s : State, s.status.busy = false →
    hostWrite cmdWord 0x0000007F s = exec .softReset s ∧
    exec .softReset s = .next
      { State.reset with
        status := { State.reset.status with done := true, cancel := s.inCancel }
        backendCell := s.backendCell
        inCancel := s.inCancel
        inRst := s.inRst
        inRx := s.inRx
        moves := s.moves
        backends := s.backends
        draws := s.draws
        out := .pulse .evDone ::
          (if s.status.radio then [.call (.radioClose s.handle)] else []) ++ s.out }

/-- 10_state.md R57, R58: what the host reads after reset, at every word number, and the hidden state. -/
def Obligations.ResetValues : Prop :=
  (∀ a : WordNo, hostRead a State.reset =
    if a = 0x0000 then 0x534C5458 else if a = 0x0031 then 100 else 0) ∧
  State.reset.frState = .empty ∧ State.reset.schState = .idle ∧
  State.reset.txgrid = Grid.empty ∧ State.reset.rxgrid = Grid.empty ∧
  State.reset.txsamp = Samples.empty ∧ State.reset.rxsamp = Samples.empty ∧
  State.reset.handle = none ∧ State.reset.chestCfg = none ∧
  (∀ j, payloadBit State.reset.mem txtbBase j = false) ∧
  ∀ i j, payloadBit State.reset.mem (rxtbBase i) j = false

/-- 70_reset_and_hazards.md R310, R311: the reset event, whatever runs: every word reads its reset value
(but for the latch, which follows the input `cancel`), no completion and no call is made; and while `rst` is 1
host writes and the engine change nothing. -/
def Obligations.RstEvent : Prop :=
  ∀ s : State, ∃ t, makeMove (.rstIn true) s = .next t ∧
    (∀ a : WordNo, a ≠ 0x0002 → hostRead a t = hostRead a State.reset) ∧
    hostRead 0x0002 t = (if s.inCancel then 0x40 else 0) ∧
    t.hung = false ∧ t.txgrid = Grid.empty ∧ t.rxgrid = Grid.empty ∧ t.txsamp = Samples.empty ∧
    t.rxsamp = Samples.empty ∧ t.handle = none ∧ t.chestCfg = none ∧ t.out = s.out ∧
    (∀ a v, makeMove (.hostWrite a v) t = .next t) ∧ makeMove .engine t = .next t

/-! ### Host access -/

/-- 10_state.md R21, 20_memory.md R74: an accepted write of a host-writable register stores the value
modulo `2^w` and clears `CELLV` and `POOLV` as R74 says; every other word reads as before, and nothing the
host cannot read changes. -/
def Obligations.RegisterWrites : Prop :=
  ∀ (s : State) (a : WordNo) (v : Word) (w : Nat), s.status.busy = false →
    (a.toNat, w) ∈ rwRegisters →
    ∃ t, hostWrite a v s = .next t ∧
      hostRead a t = BitVec.ofNat 32 (v.toNat % 2 ^ w) ∧
      (∀ b : WordNo, b ≠ a → b ≠ 0x0002 → hostRead b t = hostRead b s) ∧
      t.status =
        (if 0x08 ≤ a.toNat ∧ a.toNat ≤ 0x0B then { s.status with cellv := false, poolv := false }
         else if 0x0C ≤ a.toNat ∧ a.toNat ≤ 0x0F then { s.status with poolv := false }
         else s.status) ∧
      { t with
        status := s.status, cell := s.cell, pool := s.pool, sci := s.sci, opr := s.opr
        sciBits := s.sciBits, crcBits := s.crcBits, frIn := s.frIn, sched := s.sched
        rxSfidx := s.rxSfidx } = s

/-- 20_memory.md R74, R76, R78: a write of a read-only or unmapped word changes nothing at all; an unmapped
word and `CMD` read 0; a read changes nothing but what it puts on the port. -/
def Obligations.ReadOnlyAndUnmappedWords : Prop :=
  ∀ (s : State) (a : WordNo) (v : Word),
    (s.status.busy = false →
      (a.toNat ∈ roRegisters ∨ (0x100 ≤ a.toNat ∧ a.toNat < 0x240) ∨
        (0x8000 ≤ a.toNat ∧ a.toNat < 0xD000) ∨ Unmapped a.toNat) →
      hostWrite a v s = .next s) ∧
    (Unmapped a.toNat ∨ a = 0x0001 → hostRead a s = 0) ∧
    makeMove (.hostRead a) s = .next { s with out := .readData a (hostRead a s) :: s.out }

/-- 20_memory.md R79: a write of word `k` of the `TXTB` window stores payload bits `32k` to `32k + 31`, the
first one in bit 31, reads back whole, and changes no other byte and nothing but the payload memory. -/
def Obligations.TxtbWindowWrites : Prop :=
  ∀ (s : State) (k : Nat) (v : Word), s.status.busy = false → Memory.wf s.mem = true →
    k < Config.tbWords →
    ∃ m, hostWrite (BitVec.ofNat 16 (0x400 + k)) v s = .next { s with mem := m } ∧
      hostRead (BitVec.ofNat 16 (0x400 + k)) { s with mem := m } = v ∧
      (∀ b < 32, payloadBit m txtbBase (32 * k + b) = v.getLsbD (31 - b)) ∧
      ∀ a, ¬(4 * (0x400 + k) ≤ a ∧ a < 4 * (0x400 + k) + 4) → readByte m a = readByte s.mem a

/-- 20_memory.md R75, R79, 10_state.md R42, R43: what the host reads in the `RXTB[i]` windows and in the
DecodeResult file. -/
def Obligations.ReceiveWindowsRead : Prop :=
  ∀ (s : State) (i : Nat), i < 20 →
    (∀ k b, k < Config.tbWords → b < 32 →
      (hostRead (BitVec.ofNat 16 (0x8000 + 0x400 * i + k)) s).getLsbD (31 - b) =
        payloadBit s.mem (rxtbBase i) (32 * k + b)) ∧
    ∀ k, k < 16 →
      (hostRead (BitVec.ofNat 16 (0x100 + 16 * i + k)) s).toNat =
        (let e := drAt s i
         [e.ctrl.toNat + 2 * e.ok.toNat + 16 * e.ctrlMask.toNat + 256 * e.okMask.toNat,
          e.prio.toNat, e.resv.toNat, e.interval.toNat, e.riv.toNat, e.tgap.toNat, e.mcs.toNat,
          e.retx.toNat, e.txfmt.toNat, e.start.toNat, e.len.toNat, e.dataStart.toNat, e.dataNprb.toNat,
          e.scrid.toNat, e.rv.toNat, e.shift.toNat].getD k 0)

/-- 10_state.md R25, R26, R28, R29: the words `STATUS` and `FLAGS`, bit by bit. -/
def Obligations.StatusAndFlagsWords : Prop :=
  ∀ s : State,
    (hostRead 0x0002 s).toNat =
      s.status.busy.toNat + 2 * s.status.done.toNat + 4 * s.status.errv.toNat + 8 * s.status.cellv.toNat
        + 16 * s.status.poolv.toNat + 32 * s.status.radio.toNat + 64 * s.status.cancel.toNat
        + 128 * s.status.frfail.toNat
        + 256 * (match s.frState with
          | .empty => 0 | .controlPlaced => 1 | .dataPlaced => 2 | .modulated => 3 | .ready => 4)
        + 4096 * (match s.schState with
          | .idle => 0 | .awaitStart => 1 | .scheduled => 2 | .lateReset => 3) ∧
    (hostRead 0x0005 s).toNat =
      s.flags.slip.toNat + 2 * s.flags.sendfail.toNat + 4 * s.flags.ovr.toNat

/-! ### Pool -/

/-- 40_pool.md R120: `CELL_SET`. -/
def Obligations.CellSet : Prop :=
  ∀ s : State, s.status.busy = false →
    hostWrite cmdWord 0x00000001 s = exec .cellSet s ∧
    (s.cell.nprb = 0 → exec .cellSet s = .next (afterError 1 1 s)) ∧
    (s.cell.nprb ≠ 0 →
      ∃ m, exec .cellSet s = .next (afterOk
          { s with
            backendCell := some s.cell
            txgrid := Grid.zero s.cell.nprb.toNat
            rxgrid := Grid.zero s.cell.nprb.toNat
            txsamp := Samples.empty
            frState := .empty
            status := { s.status with frfail := false, cellv := true }
            frOut := { ctrlOff := 0, dataStart := 0, dataNprb := 0, scrid := 0, rv := 0 }
            dr := Vector.replicate 20 {}
            mem := m
            out := .call (.setCell s.cell) :: s.out }) ∧
        ∀ a, readByte m a = if 0x20000 ≤ a ∧ a < 0x34000 then 0 else readByte s.mem a)

/-- 40_pool.md R121, R123: `POOL_DEFAULT`. -/
def Obligations.PoolDefault : Prop :=
  ∀ s : State, s.status.busy = false →
    hostWrite cmdWord 0x00000002 s = exec .poolDefault s ∧
    (s.cell.nprb = 50 → exec .poolDefault s = .next (afterOk
      { s with
        pool := { nsubch := 10, width := 5, startPrb := 0, adj := 1 }
        status := { s.status with poolv := true } })) ∧
    (s.cell.nprb = 100 → exec .poolDefault s = .next (afterOk
      { s with
        pool := { nsubch := 20, width := 5, startPrb := 0, adj := 1 }
        status := { s.status with poolv := true } })) ∧
    (s.cell.nprb ≠ 50 ∧ s.cell.nprb ≠ 100 → exec .poolDefault s = .next (afterError 1 2
      { s with status := { s.status with poolv := false } }))

/-- 40_pool.md R122: `POOL_CHECK`. -/
def Obligations.PoolCheck : Prop :=
  ∀ s : State, s.status.busy = false →
    hostWrite cmdWord 0x00000003 s = exec .poolCheck s ∧
    (let n := s.pool.nsubch.toNat
     let w := s.pool.width.toNat
     let bad := n = 0 ∨ 20 < n ∨ w = 0 ∨ s.cell.nprb.toNat < n * w
     (bad → exec .poolCheck s = .next (afterError 1 3
        { s with status := { s.status with poolv := false } })) ∧
     (¬bad → exec .poolCheck s = .next (afterOk
        { s with status := { s.status with poolv := true } })))

/-! ### Codec -/

/-- 41_sci_codec.md R130, R131: `RESV2CODE`. -/
def Obligations.ReservationToCode : Prop :=
  ∀ s : State, s.status.busy = false →
    hostWrite cmdWord 0x00000010 s = exec .resv2code s ∧
    (let v := s.opr.opa.toNat
     let put := fun c : Nat => afterOk { s with opr := { s.opr with res0 := BitVec.ofNat 32 c } }
     (v = 20 → exec .resv2code s = .next (put 12)) ∧
     (v = 50 → exec .resv2code s = .next (put 11)) ∧
     (∀ k, 1 ≤ k → k ≤ 10 → v = 100 * k → exec .resv2code s = .next (put k)) ∧
     (v ≠ 20 ∧ v ≠ 50 ∧ (∀ k, 1 ≤ k → k ≤ 10 → v ≠ 100 * k) →
       exec .resv2code s = .next (afterError 2 s.opr.opa s)))

/-- 41_sci_codec.md R132, R133: `CODE2RESV`, total on all 32 bits. -/
def Obligations.CodeToReservation : Prop :=
  ∀ s : State, s.status.busy = false →
    hostWrite cmdWord 0x00000011 s = exec .code2resv s ∧
    (let c := s.opr.opa.toNat
     exec .code2resv s = .next (afterOk { s with opr := { s.opr with
       res0 := if c = 12 then 20 else if c = 11 then 50 else BitVec.ofNat 32 (c * 100) } }))

/-- 41_sci_codec.md R132: every interval that `RESV2CODE` accepts comes back from `CODE2RESV`, and the code
is one of 1 to 12. -/
def Obligations.ReservationRoundTrip : Prop :=
  ∀ s t : State, s.status.busy = false → exec .resv2code s = .next t → t.err = 0 →
    1 ≤ t.opr.res0.toNat ∧ t.opr.res0.toNat ≤ 12 ∧
    ∃ u, exec .code2resv { t with opr := { t.opr with opa := t.opr.res0 } } = .next u ∧
      u.opr.res0 = s.opr.opa

/-- 41_sci_codec.md R134: the width of the RIV field is least, and the spec's table of widths. -/
def Obligations.RivWidthIsLeast : Prop :=
  (∀ n : Nat, n * (n + 1) / 2 ≤ 2 ^ wRiv n ∧ ∀ w, n * (n + 1) / 2 ≤ 2 ^ w → wRiv n ≤ w) ∧
  (List.range 20).map (fun k => wRiv (k + 1)) =
    [0, 2, 3, 4, 4, 5, 5, 6, 6, 6, 7, 7, 7, 7, 7, 8, 8, 8, 8, 8]

/-- 41_sci_codec.md R135: `riv_encode` maps the valid pairs of `n` sub-channels one to one onto the numbers
below `n(n+1)/2`. -/
def Obligations.RivEncodeBijection : Prop :=
  ∀ n : Nat, 1 ≤ n →
    (∀ s l, 1 ≤ l → s + l ≤ n → rivEncode n s l < n * (n + 1) / 2) ∧
    ∀ r, r < n * (n + 1) / 2 →
      ∃ s l, (1 ≤ l ∧ s + l ≤ n ∧ rivEncode n s l = r) ∧
        ∀ s' l', 1 ≤ l' → s' + l' ≤ n → rivEncode n s' l' = r → s' = s ∧ l' = l

/-- 41_sci_codec.md R136: `RIV_ENC`. -/
def Obligations.RivEncodeCommand : Prop :=
  ∀ s : State, s.status.busy = false →
    hostWrite cmdWord 0x00000012 s = exec .rivEnc s ∧
    (let n := s.opr.opa.toNat
     let st := s.opr.opb.toNat
     let l := s.opr.opc.toNat
     (n = 0 ∨ 20 < n → exec .rivEnc s = .next (afterError 1 4 s)) ∧
     (1 ≤ n → n ≤ 20 → (l = 0 ∨ n < st + l) → exec .rivEnc s = .next (afterError 3 4 s)) ∧
     (1 ≤ n → n ≤ 20 → 1 ≤ l → st + l ≤ n →
       (let r := if l - 1 ≤ n / 2 then n * (l - 1) + st else n * (n - l + 1) + (n - 1 - st)
        exec .rivEnc s = .next (afterOk { s with opr := { s.opr with res0 := BitVec.ofNat 32 r } }))))

/-- 41_sci_codec.md R137: the laws of `riv_decode` for every `n ≥ 1`: it inverts `riv_encode`, its results
are valid pairs, it fails exactly from `n(n+1)` on, and a value that `riv_encode` does not produce decodes to
the pair of a smaller value. -/
def Obligations.RivDecodeLaws : Prop :=
  ∀ n : Nat, 1 ≤ n →
    (∀ s l, 1 ≤ l → s + l ≤ n → rivDecode (rivEncode n s l) n = some (s, l)) ∧
    (∀ r s l, rivDecode r n = some (s, l) → 1 ≤ l ∧ s + l ≤ n) ∧
    (∀ r, rivDecode r n = none ↔ n * (n + 1) ≤ r) ∧
    ∀ r, n * (n + 1) / 2 ≤ r → r < n * (n + 1) → ∃ r', r' < r ∧ rivDecode r' n = rivDecode r n

/-- 41_sci_codec.md R138: `RIV_DEC`. -/
def Obligations.RivDecodeCommand : Prop :=
  ∀ s : State, s.status.busy = false →
    hostWrite cmdWord 0x00000013 s = exec .rivDec s ∧
    (let r := s.opr.opa.toNat
     let n := s.opr.opb.toNat
     let a := r / n
     let b := r % n
     let put := fun st l : Nat => afterOk
       { s with opr := { s.opr with res0 := BitVec.ofNat 32 st, res1 := BitVec.ofNat 32 l } }
     (n = 0 ∨ 20 < n → exec .rivDec s = .next (afterError 1 4 s)) ∧
     (1 ≤ n → n ≤ 20 → n * (n + 1) ≤ r → exec .rivDec s = .next (afterError 3 5 s)) ∧
     (1 ≤ n → n ≤ 20 → r < n * (n + 1) →
       (a + 1 + b ≤ n → exec .rivDec s = .next (put b (a + 1))) ∧
       (n < a + 1 + b → exec .rivDec s = .next (put (n - 1 - b) (n - a + 1)))))

/-- 41_sci_codec.md R139, R140, R141: `SCI_PACK`: the control word by its fields' places. -/
def Obligations.SciPack : Prop :=
  ∀ s : State, s.status.busy = false →
    hostWrite cmdWord 0x00000014 s = exec .sciPack s ∧
    (let n := s.pool.nsubch.toNat
     (n = 0 ∨ 20 < n → exec .sciPack s = .next (afterError 1 4 s)) ∧
     (1 ≤ n → n ≤ 20 → 2 ^ wRiv n ≤ s.sci.riv.toNat → exec .sciPack s = .next (afterError 3 1 s)) ∧
     (1 ≤ n → n ≤ 20 → s.sci.riv.toNat < 2 ^ wRiv n → controlWord s.sci n < 2 ^ 32 ∧
       exec .sciPack s = .next (afterOk
         { s with sciBits := { bits := BitVec.ofNat 32 (controlWord s.sci n), nbits := 32 } })))

/-- 41_sci_codec.md R142, R143: `SCI_UNPACK`: each field by its place in the word; the bits below the fields
are ignored. -/
def Obligations.SciUnpack : Prop :=
  ∀ s : State, s.status.busy = false →
    hostWrite cmdWord 0x00000015 s = exec .sciUnpack s ∧
    (let n := s.pool.nsubch.toNat
     let w := wRiv n
     let k := s.sciBits.nbits.toNat
     let b := s.sciBits.bits.toNat
     let need := 17 + w + (if s.sci.fmt = 1 then 1 else 0)
     (n = 0 ∨ 20 < n → exec .sciUnpack s = .next (afterError 1 4 s)) ∧
     (1 ≤ n → n ≤ 20 → 32 < k → exec .sciUnpack s = .next (afterError 3 3 s)) ∧
     (1 ≤ n → n ≤ 20 → k ≤ 32 → k < need → exec .sciUnpack s = .next (afterError 3 2 s)) ∧
     (1 ≤ n → n ≤ 20 → k ≤ 32 → need ≤ k →
       exec .sciUnpack s = .next (afterOk { s with sci :=
         { fmt := s.sci.fmt
           prio := BitVec.ofNat 3 (b / 2 ^ 29)
           resv := BitVec.ofNat 4 (b / 2 ^ 25)
           riv := BitVec.ofNat 8 (b / 2 ^ (25 - w) % 2 ^ w)
           tgap := BitVec.ofNat 4 (b / 2 ^ (21 - w))
           mcs := BitVec.ofNat 5 (b / 2 ^ (16 - w))
           retx := BitVec.ofNat 1 (b / 2 ^ (15 - w))
           txfmt := if s.sci.fmt = 1 then BitVec.ofNat 1 (b / 2 ^ (14 - w)) else 0 } })))

/-- 41_sci_codec.md R144, R147: `unpack(pack(c, N), c.fmt, N) = c` for every well-formed `c`. -/
def Obligations.PackUnpackRoundTrip : Prop :=
  ∀ (c : Sci) (n : Nat), 1 ≤ n → n ≤ 20 → c.riv.toNat < 2 ^ wRiv n → (c.fmt = 0 → c.txfmt = 0) →
    ∃ b, pack c n = some b ∧ b.length = 32 ∧ unpack b c.fmt n = some c

/-- 41_sci_codec.md R145: the scrambling identifier of a bit string of any length. -/
def Obligations.ScramblingIdIsBigEndianValue : Prop :=
  (∀ b : Bits, scramblingId b =
    ∑ i ∈ Finset.range b.length, (b.getD i false).toNat * 2 ^ (b.length - 1 - i)) ∧
  (∀ n, scramblingId (List.replicate n false) = 0) ∧
  scramblingId [true, false, true] = 5

/-- 41_sci_codec.md R146: `CRC2ID`. -/
def Obligations.CrcToId : Prop :=
  ∀ s : State, s.status.busy = false →
    hostWrite cmdWord 0x00000016 s = exec .crc2id s ∧
    (let n := s.crcBits.nbits.toNat
     (32 < n → exec .crc2id s = .next (afterError 3 3 s)) ∧
     (n ≤ 32 → exec .crc2id s = .next (afterOk
       { s with opr := { s.opr with
          res0 := BitVec.ofNat 32 (s.crcBits.bits.toNat / 2 ^ (32 - n)) } })))


/-! ### Framer -/

/-- 42_framer_tx.md R162, R163, R164, R169: `FR_CTRL` with a valid allocation and answering backends: the
RIV, the packed word, the control placement at `start × w`, the reference signals with shift `TX_CS = 0`, the
scrambling identifier from the codeword's CRC bits, `FR_STATE = CONTROL_PLACED`. -/
def Obligations.FramerControlSteps : Prop :=
  ∀ (s : State) (g g' : Grid) (crc : CrcBits) (qe : List (Answer (Option (Grid × CrcBits))))
    (qi : List (Answer Grid)),
    s.status.busy = false → s.status.cellv = true → s.status.poolv = true → s.status.frfail = false →
    s.frState = .empty → s.pool.nsubch.toNat ≤ 20 → 1 ≤ s.frIn.len.toNat →
    s.frIn.start.toNat + s.frIn.len.toNat ≤ s.pool.nsubch.toNat →
    s.backends.encodeControl = .reply (some (g, crc)) :: qe → s.backends.insertRef = .reply g' :: qi →
    (let n := s.pool.nsubch.toNat
     let sci := { s.sci with
       riv := BitVec.ofNat 8 (rivEncode n s.frIn.start.toNat s.frIn.len.toNat) }
     let word := sentWord s
     let off := s.frIn.start.toNat * s.pool.width.toNat
     hostWrite cmdWord 0x00000021 s = exec .frCtrl s ∧
     exec .frCtrl s = .next (afterOk
      { s with
        sci := sci
        sciBits := { bits := word, nbits := 32 }
        txgrid := g'
        frOut := { s.frOut with ctrlOff := BitVec.ofNat 8 off, scrid := BitVec.ofNat 32 crc.toNat }
        crcBits := { bits := BitVec.ofNat 32 (crc.toNat * 2 ^ 16), nbits := 16 }
        chestCfg := some (.control off 0)
        frState := .controlPlaced
        backends := { s.backends with encodeControl := qe, insertRef := qi }
        out := .call (.insertReferenceSignal g) :: .call (.setConfig (.control off 0)) ::
          .call (.encodeControl (bitsOf 32 word.toNat) s.txgrid off) :: s.out }))

/-- 42_framer_tx.md R165, R166, R170: `FR_DATA` with a span the backend grants: the configuration of six
members, the payload handed over whole, the data placement, the reference signals of the same region,
`FR_STATE = DATA_PLACED`. -/
def Obligations.FramerDataSteps : Prop :=
  ∀ (s : State) (v : Nat) (g g' : Grid) (qv : List (Answer Nat)) (qe : List (Answer (Option Grid)))
    (qi : List (Answer Grid)),
    s.status.busy = false → s.status.cellv = true → s.status.poolv = true → s.status.frfail = false →
    s.frState = .controlPlaced → 0 < v → v ≤ s.frIn.len.toNat * s.pool.width.toNat - 2 →
    s.backends.validSpan = .reply v :: qv → s.backends.encodeData = .reply (some g) :: qe →
    s.backends.insertRef = .reply g' :: qi →
    (let ps := s.frIn.start.toNat * s.pool.width.toNat + 2
     let rv : BitVec 1 := if s.sci.retx = 1 then 1 else 0
     let sf := s.frIn.sfidx.toNat % 10
     let cfg : DataConfig :=
      { prbStart := ps, nofPrb := v % 256, scramblingId := s.frOut.scrid, mcs := s.sci.mcs,
        redundancyVersion := rv, subframe := sf }
     hostWrite cmdWord 0x00000022 s = exec .frData s ∧
     exec .frData s = .next (afterOk
      { s with
        frOut := { s.frOut with
          dataNprb := BitVec.ofNat 8 v, dataStart := BitVec.ofNat 8 ps, rv := rv }
        txgrid := g'
        chestCfg := some (.data s.frOut.scrid sf ps (v % 256))
        frState := .dataPlaced
        backends := { s.backends with validSpan := qv, encodeData := qe, insertRef := qi }
        out := .call (.insertReferenceSignal g) ::
          .call (.setConfig (.data s.frOut.scrid sf ps (v % 256))) ::
          .call (.encodeData (takePayload s.mem txtbBase) cfg s.txgrid) ::
          .call (.getValidResourceSpan (s.frIn.len.toNat * s.pool.width.toNat - 2)) :: s.out }))

/-- 42_framer_tx.md R168, R174: `FR_BUILD` runs all six steps on one allocation and leaves the frame `READY`;
the control and data placements are those of R174. -/
def Obligations.FramerBuild : Prop :=
  ∀ (s : State) (g g' g'' g''' : Grid) (crc : CrcBits) (v : Nat) (x : Samples)
    (qe : List (Answer (Option (Grid × CrcBits)))) (qi : List (Answer Grid)) (qv : List (Answer Nat))
    (qd : List (Answer (Option Grid))) (qm : List (Answer Samples)),
    s.status.busy = false → s.status.cellv = true → s.status.poolv = true → s.status.frfail = false →
    s.frState = .empty → s.pool.nsubch.toNat ≤ 20 → 1 ≤ s.frIn.len.toNat →
    s.frIn.start.toNat + s.frIn.len.toNat ≤ s.pool.nsubch.toNat →
    0 < v → v ≤ s.frIn.len.toNat * s.pool.width.toNat - 2 →
    s.backends.encodeControl = .reply (some (g, crc)) :: qe →
    s.backends.insertRef = .reply g' :: .reply g''' :: qi → s.backends.validSpan = .reply v :: qv →
    s.backends.encodeData = .reply (some g'') :: qd → s.backends.modulate = .reply x :: qm →
    (let n := s.pool.nsubch.toNat
     let sci := { s.sci with
       riv := BitVec.ofNat 8 (rivEncode n s.frIn.start.toNat s.frIn.len.toNat) }
     let word := sentWord s
     let off := s.frIn.start.toNat * s.pool.width.toNat
     let scrid := BitVec.ofNat 32 crc.toNat
     let rv : BitVec 1 := if s.sci.retx = 1 then 1 else 0
     let sf := s.frIn.sfidx.toNat % 10
     let cfg : DataConfig :=
      { prbStart := off + 2, nofPrb := v % 256, scramblingId := scrid, mcs := s.sci.mcs,
        redundancyVersion := rv, subframe := sf }
     hostWrite cmdWord 0x00000020 s = exec .frBuild s ∧
     exec .frBuild s = .next (afterOk
      { s with
        sci := sci
        sciBits := { bits := word, nbits := 32 }
        crcBits := { bits := BitVec.ofNat 32 (crc.toNat * 2 ^ 16), nbits := 16 }
        frOut := { ctrlOff := BitVec.ofNat 8 off, dataStart := BitVec.ofNat 8 (off + 2),
                   dataNprb := BitVec.ofNat 8 v, scrid := scrid, rv := rv }
        txsamp := x
        txgrid := Grid.zero s.cell.nprb.toNat
        chestCfg := some (.data scrid sf (off + 2) (v % 256))
        frState := .ready
        backends := { s.backends with
          encodeControl := qe, insertRef := qi, validSpan := qv, encodeData := qd, modulate := qm }
        out := .call (.modulate g''') :: .call (.insertReferenceSignal g'') ::
          .call (.setConfig (.data scrid sf (off + 2) (v % 256))) ::
          .call (.encodeData (takePayload s.mem txtbBase) cfg g') ::
          .call (.getValidResourceSpan (s.frIn.len.toNat * s.pool.width.toNat - 2)) ::
          .call (.insertReferenceSignal g) :: .call (.setConfig (.control off 0)) ::
          .call (.encodeControl (bitsOf 32 word.toNat) s.txgrid off) :: s.out }))

/-- 42_framer_tx.md R169: `FR_BUILD` equals `FR_CTRL`, `FR_DATA`, `FR_MOD` in sequence, whatever the
backends answer, but for the completion pulses in between. -/
def Obligations.BuildEqualsThreeSteps : Prop :=
  ∀ s a b c : State, s.status.busy = false →
    exec .frCtrl s = .next a → a.status.busy = false → a.err = 0 →
    exec .frData a = .next b → b.status.busy = false → b.err = 0 →
    exec .frMod b = .next c → c.status.busy = false → c.err = 0 →
    ∃ o, exec .frBuild s = .next { c with out := o } ∧ withoutDone o = withoutDone c.out

/-- 42_framer_tx.md R162, R163, R165, R166, 60_exceptions.md R280, R283: the errors of the framer's steps,
in their order: an invalid pair before any call, a failed control encode, a span of zero with and without
asking, a failed data encode; each with what the lines before it wrote; for `FR_BUILD` at steps 4 and 5 with
everything steps 1 to 3 wrote and `FR_STATE = CONTROL_PLACED` (R168, R173). -/
def Obligations.FramerStepErrors : Prop :=
  ∀ s : State, s.status.busy = false → s.status.cellv = true → s.status.poolv = true →
    s.status.frfail = false →
    (s.frState = .empty →
      (s.frIn.len = 0 ∨ s.pool.nsubch.toNat < s.frIn.start.toNat + s.frIn.len.toNat →
        exec .frCtrl s = .next (afterError 3 4 (frameDiscarded s)) ∧
        exec .frBuild s = .next (afterError 3 4 (frameDiscarded s))) ∧
      ∀ qe, s.backends.encodeControl = .reply none :: qe →
        s.pool.nsubch.toNat ≤ 20 → 1 ≤ s.frIn.len.toNat →
        s.frIn.start.toNat + s.frIn.len.toNat ≤ s.pool.nsubch.toNat →
        (let n := s.pool.nsubch.toNat
         let sci := { s.sci with
           riv := BitVec.ofNat 8 (rivEncode n s.frIn.start.toNat s.frIn.len.toNat) }
         let word := sentWord s
         let t := afterError 7 1 (frameDiscarded
          { s with
            sci := sci
            sciBits := { bits := word, nbits := 32 }
            backends := { s.backends with encodeControl := qe }
            out := .call (.encodeControl (bitsOf 32 word.toNat) s.txgrid
              (s.frIn.start.toNat * s.pool.width.toNat)) :: s.out })
         exec .frCtrl s = .next t ∧ exec .frBuild s = .next t)) ∧
    (s.frState = .empty → ∀ (g g' : Grid) (crc : CrcBits) (qc : List (Answer (Option (Grid × CrcBits))))
        (qi : List (Answer Grid)),
      s.backends.encodeControl = .reply (some (g, crc)) :: qc → s.backends.insertRef = .reply g' :: qi →
      s.pool.nsubch.toNat ≤ 20 → 1 ≤ s.frIn.len.toNat →
      s.frIn.start.toNat + s.frIn.len.toNat ≤ s.pool.nsubch.toNat →
      (let placed := controlStepsDone s g g' crc qc qi
       let req := s.frIn.len.toNat * s.pool.width.toNat - 2
       (req = 0 → exec .frBuild s = .next (afterError 4 0 (frameDiscarded placed))) ∧
       (req ≠ 0 → ∀ qv, s.backends.validSpan = .reply 0 :: qv →
         exec .frBuild s = .next (afterError 4 (BitVec.ofNat 32 req) (frameDiscarded
          { placed with
            backends := { placed.backends with validSpan := qv }
            out := .call (.getValidResourceSpan req) :: placed.out }))) ∧
       (∀ v qv qe, 0 < v → v ≤ req → s.backends.validSpan = .reply v :: qv →
         s.backends.encodeData = .reply none :: qe →
         (let ps := s.frIn.start.toNat * s.pool.width.toNat + 2
          let rv : BitVec 1 := if s.sci.retx = 1 then 1 else 0
          let cfg : DataConfig :=
            { prbStart := ps, nofPrb := v % 256, scramblingId := BitVec.ofNat 32 crc.toNat,
              mcs := s.sci.mcs, redundancyVersion := rv, subframe := s.frIn.sfidx.toNat % 10 }
          exec .frBuild s = .next (afterError 7 2 (frameDiscarded
            { placed with
              frOut := { placed.frOut with
                dataNprb := BitVec.ofNat 8 v, dataStart := BitVec.ofNat 8 ps, rv := rv }
              backends := { placed.backends with validSpan := qv, encodeData := qe }
              out := .call (.encodeData (takePayload s.mem txtbBase) cfg g') ::
                .call (.getValidResourceSpan req) :: placed.out })))))) ∧
    (s.frState = .controlPlaced →
      (let req := s.frIn.len.toNat * s.pool.width.toNat - 2
       (req = 0 → exec .frData s = .next (afterError 4 0 (frameDiscarded s))) ∧
       (req ≠ 0 → ∀ qv, s.backends.validSpan = .reply 0 :: qv →
         exec .frData s = .next (afterError 4 (BitVec.ofNat 32 req) (frameDiscarded
          { s with
            backends := { s.backends with validSpan := qv }
            out := .call (.getValidResourceSpan req) :: s.out }))) ∧
       (∀ v qv qe, 0 < v → v ≤ req → s.backends.validSpan = .reply v :: qv →
         s.backends.encodeData = .reply none :: qe →
         (let ps := s.frIn.start.toNat * s.pool.width.toNat + 2
          let rv : BitVec 1 := if s.sci.retx = 1 then 1 else 0
          let cfg : DataConfig :=
            { prbStart := ps, nofPrb := v % 256, scramblingId := s.frOut.scrid, mcs := s.sci.mcs,
              redundancyVersion := rv, subframe := s.frIn.sfidx.toNat % 10 }
          exec .frData s = .next (afterError 7 2 (frameDiscarded
            { s with
              frOut := { s.frOut with
                dataNprb := BitVec.ofNat 8 v, dataStart := BitVec.ofNat 8 ps, rv := rv }
              backends := { s.backends with validSpan := qv, encodeData := qe }
              out := .call (.encodeData (takePayload s.mem txtbBase) cfg s.txgrid) ::
                .call (.getValidResourceSpan req) :: s.out }))))))

/-- 42_framer_tx.md R173: a framer command that fails after acceptance sets `FRFAIL`, leaves `FR_STATE`
where the failing step found it (for `FR_BUILD` `EMPTY` in steps 1 and 2, `CONTROL_PLACED` in steps 4 and 5), so
never a frame `READY`, keeps `TXSAMP` and everything that is not the framer's; and while `FRFAIL = 1` the six
commands are rejected with SequenceError. -/
def Obligations.FailedFrameIsDiscarded : Prop :=
  (∀ (i : Instr) (s t : State), i ∈ [Instr.frBuild, .frCtrl, .frData, .frMod] →
    s.status.busy = false → acceptable i s = true → exec i s = .next t → t.status.busy = false →
    t.err ≠ 0 →
    t.status = { s.status with errv := true, done := true, frfail := true } ∧
    t.frState ≠ .ready ∧ t.frState ≠ .modulated ∧ (i ≠ .frBuild → t.frState = s.frState) ∧
    (i = .frBuild → s.frState = .empty ∧
      ((t.frState = .empty ∧ (t.err = 3 ∨ (t.err = 7 ∧ t.errInfo = 1))) ∨
        (t.frState = .controlPlaced ∧ (t.err = 4 ∨ (t.err = 7 ∧ t.errInfo = 2))))) ∧
    { t with
      err := s.err, errInfo := s.errInfo, status := s.status, frState := s.frState, sci := s.sci
      sciBits := s.sciBits, crcBits := s.crcBits, frOut := s.frOut, txgrid := s.txgrid
      chestCfg := s.chestCfg, backends := s.backends, draws := s.draws, out := s.out } = s) ∧
  ∀ (i : Instr) (s : State), i ∈ [Instr.frBuild, .frCtrl, .frData, .frMod, .rxLoop, .schStart] →
    s.status.busy = false → s.status.frfail = true → exec i s = .next (afterError 9 (encode i) s)

/-- 42_framer_tx.md R167, R171, R172: `FR_MOD` makes the sample buffer, zeroes the transmit grid and leaves
the frame `READY`; `FR_CLEAR` discards the frame. -/
def Obligations.FramerModulationAndClear : Prop :=
  ∀ s : State, s.status.busy = false →
    (∀ (x : Samples) (q : List (Answer Samples)),
      s.status.cellv = true → s.status.frfail = false → s.frState = .dataPlaced →
      s.backends.modulate = .reply x :: q →
      hostWrite cmdWord 0x00000023 s = exec .frMod s ∧
      exec .frMod s = .next (afterOk
        { s with
          txsamp := x
          txgrid := Grid.zero s.cell.nprb.toNat
          frState := .ready
          backends := { s.backends with modulate := q }
          out := .call (.modulate s.txgrid) :: s.out })) ∧
    hostWrite cmdWord 0x00000024 s = exec .frClear s ∧
    exec .frClear s = .next (afterOk
      { s with
        txgrid := if s.status.cellv then Grid.zero s.cell.nprb.toNat else Grid.empty
        txsamp := Samples.empty
        frOut := { ctrlOff := 0, dataStart := 0, dataNprb := 0, scrid := 0, rv := 0 }
        frState := .empty
        status := { s.status with frfail := false } })

/-- 20_memory.md R81: with a valid pool, a frame that `FR_BUILD` made `READY` has its control and data
regions side by side inside its allocation and inside the grid. -/
def Obligations.PlacementsLieInTheGrid : Prop :=
  ∀ s t : State, s.status.busy = false → s.frState = .empty →
    s.pool.nsubch.toNat * s.pool.width.toNat ≤ s.cell.nprb.toNat →
    exec .frBuild s = .next t → t.frState = .ready →
    (let w := s.pool.width.toNat
     let last := (s.frIn.start.toNat + s.frIn.len.toNat) * w
     t.frOut.ctrlOff.toNat = s.frIn.start.toNat * w ∧
     t.frOut.ctrlOff.toNat + 2 ≤ t.frOut.dataStart.toNat ∧
     t.frOut.dataStart.toNat + t.frOut.dataNprb.toNat ≤ last ∧
     0 < t.frOut.dataNprb.toNat ∧ last ≤ s.cell.nprb.toNat)

/-! ### Parser -/

/-- 43_parser_rx.md R191, R192, R193: `RX_DEMOD`, `RX_LOOP`, `RX_CLEAR`. -/
def Obligations.ReceiveGridCommands : Prop :=
  ∀ s : State, s.status.busy = false →
    (∀ g q, s.status.cellv = true → s.backends.demodulate = .reply g :: q →
      hostWrite cmdWord 0x00000030 s = exec .rxDemod s ∧
      exec .rxDemod s = .next (afterOk
        { s with
          rxsamp := s.inRx
          rxgrid := g
          backends := { s.backends with demodulate := q }
          out := .call (.demodulate s.inRx) :: s.out })) ∧
    (s.status.cellv = true → s.status.frfail = false →
      hostWrite cmdWord 0x00000031 s = exec .rxLoop s ∧
      exec .rxLoop s = .next (afterOk { s with rxgrid := s.txgrid })) ∧
    hostWrite cmdWord 0x00000034 s = exec .rxClear s ∧
    ∃ m, exec .rxClear s = .next (afterOk { s with dr := Vector.replicate 20 {}, mem := m }) ∧
      ∀ a, readByte m a = if 0x20000 ≤ a ∧ a < 0x34000 then 0 else readByte s.mem a

/-- 43_parser_rx.md R190, R200, R201: `PARSE_SUBCH idx` completes without error whatever the backends answer,
writes its own entry and its own payload window and nothing else, and leaves the entry as R200 says. And for
any answers at the four shifts, one `Heard` each (R194 to R199): the calls in order, with the control region
sought at `idx × w` or `idx × 2` as `POOL_ADJ` says; every word of the entry, whether no, one or several control
messages decode (the last one stands, the masks keep all), whether the span collapses, the data decode fails or
the RIV is no encoding of a pair; the payload of the last data decode; and nothing else. -/
def Obligations.ParseSubchannel : Prop :=
  (∀ (s : State) (idx : Nat), s.status.busy = false → s.status.cellv = true → s.status.poolv = true →
    s.pool.nsubch.toNat ≤ 20 → idx < s.pool.nsubch.toNat → Memory.wf s.mem = true →
    Answered 8 s.backends.equalize → Answered 4 s.backends.decodeControl →
    Answered 4 s.backends.validSpan → Answered 4 s.backends.decodeData →
    hostWrite cmdWord (BitVec.ofNat 32 (0x32 + 256 * idx)) s = exec (.parseSubch idx) s ∧
    ∃ t, exec (.parseSubch idx) s = .next t ∧
      t.err = 0 ∧ t.errInfo = 0 ∧
      t.status = { s.status with errv := false, busy := false, done := true } ∧
      (∀ j, j ≠ idx → drAt t j = drAt s j) ∧
      DrConsistent (drAt t idx) ∧
      (∀ a, ¬(byteAddr (rxtbBase idx) ≤ a ∧ a < byteAddr (rxtbBase idx) + tbBytes) →
        readByte t.mem a = readByte s.mem a) ∧
      ((drAt t idx).ok = false → t.mem = s.mem) ∧
      { t with
        err := s.err, errInfo := s.errInfo, status := s.status, dr := s.dr, mem := s.mem
        chestCfg := s.chestCfg, psIdx := s.psIdx, psShift := s.psShift, backends := s.backends
        out := s.out } = s) ∧
  ∀ (s : State) (idx : Nat) (hs : List Heard) (qe : List (Answer Grid))
    (qc : List (Answer (Option (ControlBits × CrcBits)))) (qv : List (Answer Nat))
    (qd : List (Answer (Option Payload))),
    s.status.busy = false → s.status.cellv = true → s.status.poolv = true →
    s.pool.nsubch.toNat ≤ 20 → idx < s.pool.nsubch.toNat → Memory.wf s.mem = true → hs.length = 4 →
    (∀ h ∈ hs, ∀ bits crc, h.control = some (bits, crc) → h.span ≤ heardReq s idx bits) →
    s.backends.equalize = (hs.flatMap fun h =>
      .reply h.eq :: if h.asksData s idx then [.reply h.eqData] else []) ++ qe →
    s.backends.decodeControl = (hs.map fun h => .reply h.control) ++ qc →
    s.backends.validSpan = ((hs.filter (·.asksSpan s idx)).map fun h => .reply h.span) ++ qv →
    s.backends.decodeData = ((hs.filter (·.asksData s idx)).map fun h => .reply h.data) ++ qd →
    (let calls := hs.zipIdx.flatMap fun hk => heardCalls s idx hk.2 hk.1
     ∃ m, exec (.parseSubch idx) s = .next (afterOk
        { s with
          dr := s.dr.setIfInBounds idx (hs.zipIdx.foldl (fun e hk => heardEntry s idx hk.2 e hk.1) {})
          mem := m
          chestCfg := lastConfig calls
          psIdx := BitVec.ofNat 5 idx
          psShift := 3
          backends := { s.backends with
            equalize := qe, decodeControl := qc, validSpan := qv, decodeData := qd }
          out := (calls.map Out.call).reverse ++ s.out }) ∧
      (∀ j < tbBytes, readByte m (byteAddr (rxtbBase idx) + j) =
        heardByte s idx hs j (readByte s.mem (byteAddr (rxtbBase idx) + j))) ∧
      ∀ a, ¬(byteAddr (rxtbBase idx) ≤ a ∧ a < byteAddr (rxtbBase idx) + tbBytes) →
        readByte m a = readByte s.mem a)

/-- 43_parser_rx.md R190, R202: `PARSE_ALL` completes without error whatever the backends answer; entries from
`N` on and every byte outside the first `N` payload windows stay. -/
def Obligations.ParseAllSubchannels : Prop :=
  ∀ s : State, s.status.busy = false → s.status.cellv = true → s.status.poolv = true →
    s.pool.nsubch.toNat ≤ 20 → Memory.wf s.mem = true →
    (let n := s.pool.nsubch.toNat
     Answered (8 * n) s.backends.equalize → Answered (4 * n) s.backends.decodeControl →
     Answered (4 * n) s.backends.validSpan → Answered (4 * n) s.backends.decodeData →
     hostWrite cmdWord 0x00000033 s = exec .parseAll s ∧
     ∃ t, exec .parseAll s = .next t ∧
      t.err = 0 ∧ t.errInfo = 0 ∧
      t.status = { s.status with errv := false, busy := false, done := true } ∧
      (∀ j, n ≤ j → drAt t j = drAt s j) ∧ (∀ j, j < n → DrConsistent (drAt t j)) ∧
      (∀ a, (∀ j, j < n →
          ¬(byteAddr (rxtbBase j) ≤ a ∧ a < byteAddr (rxtbBase j) + tbBytes)) →
        readByte t.mem a = readByte s.mem a) ∧
      { t with
        err := s.err, errInfo := s.errInfo, status := s.status, dr := s.dr, mem := s.mem
        chestCfg := s.chestCfg, psIdx := s.psIdx, psShift := s.psShift, backends := s.backends
        out := s.out } = s)

/-- 43_parser_rx.md R202: the result of `PARSE_ALL` equals that of `PARSE_SUBCH 0` to `PARSE_SUBCH N-1` in
order, whatever the backends answer, but for the completion pulses in between. -/
def Obligations.ParseAllIsEachInOrder : Prop :=
  ∀ s t : State, s.status.busy = false → s.status.cellv = true → s.status.poolv = true →
    1 ≤ s.pool.nsubch.toNat → exec .parseAll s = .next t → t.status.busy = false →
    ∃ o, ((List.range s.pool.nsubch.toNat).map Instr.parseSubch).foldl execAfter (.next s) =
        .next { t with out := o } ∧ withoutDone o = withoutDone t.out

/-- 43_parser_rx.md R194 to R199: a sub-channel whose control message decodes at exactly one shift `k`: every
word of its DecodeResult entry by the places of the fields in the received word, for a RIV that is the
encoding of a valid pair; the payload stored whole; and every call of the scan, in order, the control region
sought at `idx × w` where `POOL_ADJ = 1`, else at `idx × 2`, at each of the four shifts. -/
def Obligations.ScanRecordsOneMessage : Prop :=
  ∀ (s : State) (idx k st l v : Nat) (bits : ControlBits) (crc : CrcBits) (p : Payload) (eqs : Fin 5 → Grid)
    (qe : List (Answer Grid)) (qd : List (Answer (Option (ControlBits × CrcBits)))) (qv : List (Answer Nat))
    (qp : List (Answer (Option Payload))),
    s.status.busy = false → s.status.cellv = true → s.status.poolv = true →
    s.pool.nsubch.toNat ≤ 20 → idx < s.pool.nsubch.toNat → k < 4 → Memory.wf s.mem = true →
    s.backends.equalize = (List.ofFn fun j => .reply (eqs j)) ++ qe →
    s.backends.decodeControl =
      List.replicate k (.reply none) ++ .reply (some (bits, crc)) ::
        (List.replicate (3 - k) (.reply none) ++ qd) →
    s.backends.validSpan = .reply v :: qv → s.backends.decodeData = .reply (some p) :: qp →
    (let n := s.pool.nsubch.toNat
     let w := s.pool.width.toNat
     let b := bits.toNat
     let r := wRiv n
     let resv := b / 2 ^ 25 % 16
     let retx : BitVec 1 := BitVec.ofNat 1 (b / 2 ^ (15 - r))
     1 ≤ l → st + l ≤ n → b / 2 ^ (25 - r) % 2 ^ r = rivEncode n st l →
     0 < v → v ≤ (st + l) * w + s.pool.startPrb.toNat - (idx * w + 2) →
     ∃ t, exec (.parseSubch idx) s = .next t ∧
      drAt t idx =
        { ctrl := true, ok := true
          ctrlMask := BitVec.ofNat 4 (2 ^ k), okMask := BitVec.ofNat 4 (2 ^ k)
          prio := BitVec.ofNat 3 (b / 2 ^ 29)
          resv := BitVec.ofNat 4 resv
          interval := BitVec.ofNat 16 (if resv = 12 then 20 else if resv = 11 then 50 else resv * 100)
          riv := BitVec.ofNat 8 (rivEncode n st l)
          tgap := BitVec.ofNat 4 (b / 2 ^ (21 - r))
          mcs := BitVec.ofNat 5 (b / 2 ^ (16 - r))
          retx := retx
          txfmt := BitVec.ofNat 1 (b / 2 ^ (14 - r))
          start := BitVec.ofNat 5 st
          len := BitVec.ofNat 5 l
          dataStart := BitVec.ofNat 8 (idx * w + 2)
          dataNprb := BitVec.ofNat 8 v
          scrid := BitVec.ofNat 32 crc.toNat
          rv := if retx = 1 then 1 else 0
          shift := BitVec.ofNat 4 (3 * k) } ∧
      (∀ j < tbBytes, readByte t.mem (byteAddr (rxtbBase idx) + j) = readByte p j) ∧
      (let off := if s.pool.adj = 1 then idx * w else idx * 2
       let sought := fun (j : Nat) (eq : Grid) => [Out.call (.decodeControl eq off),
        .call (.estimateAndEqualize s.rxgrid), .call (.setConfig (.control off (3 * j)))]
       let sf := s.rxSfidx.toNat % 10
       let asked := [Out.call (.decodeData (eqs (Fin.ofNat 5 (k + 1)))
          { prbStart := idx * w + 2, nofPrb := v, scramblingId := BitVec.ofNat 32 crc.toNat
            mcs := BitVec.ofNat 5 (b / 2 ^ (16 - r)), redundancyVersion := retx, subframe := sf }),
        .call (.estimateAndEqualize s.rxgrid),
        .call (.setConfig (.data (BitVec.ofNat 32 crc.toNat) sf (idx * w + 2) v)),
        .call (.getValidResourceSpan ((st + l) * w + s.pool.startPrb.toNat - (idx * w + 2)))]
       t.out = .pulse .evDone ::
        ((((List.range 4).drop (k + 1)).reverse.flatMap fun j => sought j (eqs (Fin.ofNat 5 (j + 1)))) ++
          asked ++ ((List.range (k + 1)).reverse.flatMap fun j => sought j (eqs (Fin.ofNat 5 j)))) ++ s.out))

/-- 43_parser_rx.md R203, the loop-back law: a frame placed by `FR_CTRL` and `FR_DATA`, copied by `RX_LOOP` and
parsed by `PARSE_SUBCH start` with faithful backends (the control decode at shift 0 gives back the word and
the CRC bits, the later shifts hear nothing, the data decode gives back the first `m` bytes of `TXTB`) is
recovered: start, length, scrambling identifier, span, `OK`, and those bytes; the data decode is asked for
with the very configuration of the data encode, on the grid as the framer left it. -/
def Obligations.LoopBackRecoversTheFrame : Prop :=
  ∀ (s : State) (g1 g2 g3 g4 e1 e2 e3 e4 e5 : Grid) (crc : CrcBits) (v m : Nat) (p : Payload)
    (qec : List (Answer (Option (Grid × CrcBits)))) (qi qq : List (Answer Grid)) (qv : List (Answer Nat))
    (qed : List (Answer (Option Grid))) (qdc : List (Answer (Option (ControlBits × CrcBits))))
    (qdd : List (Answer (Option Payload))),
    s.status.busy = false → s.status.cellv = true → s.status.poolv = true → s.status.frfail = false →
    s.frState = .empty → s.pool.nsubch.toNat ≤ 20 →
    s.pool.nsubch.toNat * s.pool.width.toNat ≤ s.cell.nprb.toNat → 1 ≤ s.frIn.len.toNat →
    s.frIn.start.toNat + s.frIn.len.toNat ≤ s.pool.nsubch.toNat → Memory.wf s.mem = true →
    s.sci.fmt = 1 → s.pool.startPrb = 0 → (s.pool.adj = 1 ∨ s.frIn.start = 0) →
    s.rxSfidx.toNat % 10 = s.frIn.sfidx.toNat % 10 →
    0 < v → v ≤ s.frIn.len.toNat * s.pool.width.toNat - 2 →
    s.backends.encodeControl = .reply (some (g1, crc)) :: qec →
    s.backends.insertRef = .reply g2 :: .reply g4 :: qi →
    s.backends.validSpan = .reply v :: .reply v :: qv →
    s.backends.encodeData = .reply (some g3) :: qed →
    s.backends.equalize = .reply e1 :: .reply e2 :: .reply e3 :: .reply e4 :: .reply e5 :: qq →
    s.backends.decodeControl =
      .reply (some (sentWord s, crc)) :: .reply none :: .reply none :: .reply none :: qdc →
    s.backends.decodeData = .reply (some p) :: qdd →
    m ≤ tbBytes → (∀ j < m, readByte p j = readByte s.mem (byteAddr txtbBase + j)) →
    ∃ t cfg, [Instr.frCtrl, .frData, .rxLoop, .parseSubch s.frIn.start.toNat].foldl execAfter (.next s) =
        .next t ∧
      (let e := drAt t s.frIn.start.toNat
       e.start = s.frIn.start ∧ e.len = s.frIn.len ∧ e.scrid = t.frOut.scrid ∧
       e.scrid.toNat = crc.toNat ∧ e.dataNprb = t.frOut.dataNprb ∧ e.dataNprb.toNat = v ∧
       e.dataStart = t.frOut.dataStart ∧ e.ok = true ∧ e.okMask = 1 ∧ e.shift = 0) ∧
      t.rxgrid = g4 ∧ t.err = 0 ∧
      (∀ j < m, readByte t.mem (byteAddr (rxtbBase s.frIn.start.toNat) + j) =
        readByte s.mem (byteAddr txtbBase + j)) ∧
      Out.call (.encodeData (takePayload s.mem txtbBase) cfg g2) ∈ t.out ∧
      Out.call (.estimateAndEqualize g4) ∈ t.out ∧ Out.call (.decodeData e2 cfg) ∈ t.out

/-! ### Scheduler -/

/-- 44_scheduler.md R221, R222: `RADIO_OPEN` with every call answered `ok` and the rate taken as asked, and
`RADIO_CLOSE`. That no handle is held after `close` is the model's (log entry 13). -/
def Obligations.RadioOpenAndClose : Prop :=
  ∀ s : State, s.status.busy = false →
    (∀ (h : Handle) qo qf qg qr, s.status.radio = false → s.sched.srate ≠ 0 →
      s.sched.srate.toNat % 1000 = 0 →
      s.backends.radioOpen = .reply (some h) :: qo → s.backends.setFreq = .reply true :: qf →
      s.backends.setGain = .reply true :: qg →
      s.backends.setRate = .reply (some s.sched.srate.toNat) :: qr →
      hostWrite cmdWord 0x00000040 s = exec .radioOpen s ∧
      exec .radioOpen s = .next (afterOk
        { s with
          handle := some h
          status := { s.status with radio := true }
          backends := { s.backends with radioOpen := qo, setFreq := qf, setGain := qg, setRate := qr }
          out := .call (.setSampleRate (some h) s.sched.srate.toNat) ::
            .call (.setGain (some h) Config.txGain) :: .call (.setFreq (some h) Config.centerFreq) ::
            .call (.radioOpen Config.radioArgs) :: s.out })) ∧
    (s.status.radio = true →
      hostWrite cmdWord 0x00000041 s = exec .radioClose s ∧
      exec .radioClose s = .next (afterOk
        { s with
          handle := none
          status := { s.status with radio := false }
          out := .call (.radioClose s.handle) :: s.out }))

/-- 44_scheduler.md R221, 60_exceptions.md R271, R275: each way `RADIO_OPEN` fails: `RADIO` stays 0, the handle
that was opened is closed, and the sub-code says which call failed. -/
def Obligations.RadioOpenFailures : Prop :=
  ∀ s : State, s.status.busy = false → s.status.radio = false →
    (let sr := s.sched.srate.toNat
     (sr = 0 ∨ sr % 1000 ≠ 0 → exec .radioOpen s = .next (afterError 1 5 s)) ∧
     (sr ≠ 0 → sr % 1000 = 0 →
      (∀ qo, s.backends.radioOpen = .reply none :: qo →
        exec .radioOpen s = .next (afterError 5 1
          { s with
            backends := { s.backends with radioOpen := qo }
            out := .call (.radioOpen Config.radioArgs) :: s.out })) ∧
      ∀ (h : Handle) qo, s.backends.radioOpen = .reply (some h) :: qo →
        (∀ qf, s.backends.setFreq = .reply false :: qf →
          exec .radioOpen s = .next (afterError 5 2
            { s with
              handle := none
              backends := { s.backends with radioOpen := qo, setFreq := qf }
              out := .call (.radioClose (some h)) :: .call (.setFreq (some h) Config.centerFreq) ::
                .call (.radioOpen Config.radioArgs) :: s.out })) ∧
        (∀ qf qg, s.backends.setFreq = .reply true :: qf → s.backends.setGain = .reply false :: qg →
          exec .radioOpen s = .next (afterError 5 3
            { s with
              handle := none
              backends := { s.backends with radioOpen := qo, setFreq := qf, setGain := qg }
              out := .call (.radioClose (some h)) :: .call (.setGain (some h) Config.txGain) ::
                .call (.setFreq (some h) Config.centerFreq) ::
                .call (.radioOpen Config.radioArgs) :: s.out })) ∧
        (∀ (r : Option Nat) qf qg qr, r ≠ some sr → s.backends.setFreq = .reply true :: qf →
          s.backends.setGain = .reply true :: qg → s.backends.setRate = .reply r :: qr →
          exec .radioOpen s = .next (afterError 5 4
            { s with
              handle := none
              backends := { s.backends with
                radioOpen := qo, setFreq := qf, setGain := qg, setRate := qr }
              out := .call (.radioClose (some h)) :: .call (.setSampleRate (some h) sr) ::
                .call (.setGain (some h) Config.txGain) :: .call (.setFreq (some h) Config.centerFreq) ::
                .call (.radioOpen Config.radioArgs) :: s.out }))))

/-- 44_scheduler.md R223, R224, R236: `SCH_START`: a step that does not divide 1000 is refused; else the
counters and offsets are zero, the epoch is the clock read aligned down to a millisecond plus 3 ms, and the
command stays in execution with `SCH_STATE = SCHEDULED`; an epoch of `2^32` seconds terminates it. -/
def Obligations.SchedulerStart : Prop :=
  ∀ s : State, s.status.busy = false → s.status.radio = true → s.status.frfail = false →
    s.frState = .ready →
    hostWrite cmdWord 0x00000042 s = exec .schStart s ∧
    (let step := s.sched.stepMs.toNat
     (step = 0 ∨ 1000 % step ≠ 0 → exec .schStart s = .next (afterError 1 6 s)) ∧
     ∀ (sec frac : Nat) q, step ≠ 0 → 1000 % step = 0 → sec < 2 ^ 32 → frac < 1000000000 →
      s.backends.getTime = .reply ⟨sec, frac⟩ :: q →
      (let f := frac / 1000000 * 1000000 + 3000000
       let es := sec + f / 1000000000
       let ef := f % 1000000000
       let zeroed := { s.sched with ticks := 0, slips := 0, sendFails := 0, lastRet := 0 }
       (es < 2 ^ 32 → exec .schStart s = .next
        { s with
          status := { s.status with busy := true, done := false, cancel := s.inCancel }
          schState := .scheduled
          sched := { zeroed with
            epochSec := BitVec.ofNat 32 es, epochFrac := BitVec.ofNat 30 ef, secOff := 0, msecOff := 0 }
          backends := { s.backends with getTime := q }
          out := .call (.getTime s.handle) :: s.out }) ∧
       (2 ^ 32 ≤ es → exec .schStart s = .next (afterError 5 5 (released
        { s with
          sched := zeroed
          backends := { s.backends with getTime := q }
          out := .call (.getTime s.handle) :: s.out })))))

/-- 44_scheduler.md R231: `SCH_CANCEL`, accepted always: busy or not. -/
def Obligations.SchedulerCancelCommand : Prop :=
  ∀ s : State,
    hostWrite cmdWord 0x00000043 s = exec .schCancel s ∧
    (s.status.busy = true →
      exec .schCancel s = .next { s with status := { s.status with cancel := true } }) ∧
    (s.status.busy = false →
      exec .schCancel s = .next (afterOk { s with status := { s.status with cancel := true } }))

/-- 44_scheduler.md R225, R226, R227, R229, R230, R235: a tick that is not cancelled and does not slip: the
transmit time is the epoch plus the offsets, one clock read, one whole burst of the sample buffer at that
time, a negative return reported, the offsets advanced by the step. That `SCH_SEC_OFF` wraps to 0 at `2^32 - 1`
and the loop goes on is the model's choice (log entry 33). -/
def Obligations.TickSends : Prop :=
  ∀ (s : State) (nowSec nowFrac : Nat) (ret : Word) (qt : List (Answer HwTime)) (qs : List (Answer Word)),
    s.schState = .scheduled → s.hung = false → s.inRst = false → s.status.cancel = false →
    s.inCancel = false → nowSec < 2 ^ 32 → nowFrac < 1000000000 →
    s.backends.getTime = .reply ⟨nowSec, nowFrac⟩ :: qt → s.backends.sendTimed = .reply ret :: qs →
    (let units := (s.sched.epochSec.toNat + s.sched.secOff.toNat) * 1000000000
        + s.sched.epochFrac.toNat + s.sched.msecOff.toNat * 1000000
     let sec := units / 1000000000
     let frac := units % 1000000000
     let sr := s.sched.srate.toNat
     let m := s.sched.msecOff.toNat + s.sched.stepMs.toNat
     sec < 2 ^ 32 → sampleUnits nowSec nowFrac sr ≤ sampleUnits sec frac sr →
     makeMove .engine s = .next
      { s with
        sched := { s.sched with
          ticks := s.sched.ticks + 1
          txSec := BitVec.ofNat 32 sec
          txFrac := BitVec.ofNat 30 frac
          lastRet := ret
          sendFails := if ret.toInt < 0 then s.sched.sendFails + 1 else s.sched.sendFails
          secOff := if 1000 ≤ m then s.sched.secOff + 1 else s.sched.secOff
          msecOff := if 1000 ≤ m then 0 else BitVec.ofNat 10 m }
        flags := { s.flags with sendfail := s.flags.sendfail || decide (ret.toInt < 0) }
        backends := { s.backends with getTime := qt, sendTimed := qs }
        out := (if ret.toInt < 0 then [.pulse .evSendfail] else []) ++
          .call (.sendTimed s.handle s.txsamp (sr / 1000) sec frac true true) ::
          .call (.getTime s.handle) :: s.out })

/-- 44_scheduler.md R225, R227, R228: a tick whose transmit time has passed: the slip is reported, nothing is
sent, the epoch is derived afresh from a second clock read and both offsets are zero; a fresh epoch of `2^32`
seconds or more ends the loop with HardwareFailure(5) after the report, epoch and offsets as they were (R236 as
log entry 26 reads it). -/
def Obligations.TickSlips : Prop :=
  ∀ (s : State) (nowSec nowFrac againSec againFrac : Nat) (q : List (Answer HwTime)),
    s.schState = .scheduled → s.hung = false → s.inRst = false → s.status.cancel = false →
    s.inCancel = false → nowSec < 2 ^ 32 → nowFrac < 1000000000 → againSec < 2 ^ 32 →
    againFrac < 1000000000 →
    s.backends.getTime = .reply ⟨nowSec, nowFrac⟩ :: .reply ⟨againSec, againFrac⟩ :: q →
    (let units := (s.sched.epochSec.toNat + s.sched.secOff.toNat) * 1000000000
        + s.sched.epochFrac.toNat + s.sched.msecOff.toNat * 1000000
     let sec := units / 1000000000
     let frac := units % 1000000000
     let sr := s.sched.srate.toNat
     let f := againFrac / 1000000 * 1000000 + 3000000
     let es := againSec + f / 1000000000
     let slipped := { s with
       sched := { s.sched with
         ticks := s.sched.ticks + 1
         txSec := BitVec.ofNat 32 sec
         txFrac := BitVec.ofNat 30 frac
         slips := s.sched.slips + 1 }
       flags := { s.flags with slip := true }
       backends := { s.backends with getTime := q }
       out := .call (.getTime s.handle) :: .pulse .evSlip :: .call (.getTime s.handle) :: s.out }
     sec < 2 ^ 32 → sampleUnits sec frac sr < sampleUnits nowSec nowFrac sr →
     (es < 2 ^ 32 → makeMove .engine s = .next
      { slipped with
        sched := { slipped.sched with
          epochSec := BitVec.ofNat 32 es
          epochFrac := BitVec.ofNat 30 (f % 1000000000)
          secOff := 0
          msecOff := 0 } }) ∧
     (2 ^ 32 ≤ es → makeMove .engine s = .next (afterError 5 5 (released slipped))))

/-- 44_scheduler.md R225, R232, R236: the tick that finds the latch or the input `cancel` at 1 releases the
radio and the frame and completes `SCH_START` with `ERR = 0`; a transmit time of `2^32` seconds does the same
with HardwareFailure(5). The latch is log entry 14's, the
overflow as log entry 26 reads R236. -/
def Obligations.TickTerminates : Prop :=
  ∀ s : State, s.schState = .scheduled → s.hung = false → s.inRst = false →
    (s.status.cancel = true ∨ s.inCancel = true →
      makeMove .engine s = .next (afterOk (released s))) ∧
    (s.status.cancel = false → s.inCancel = false →
      2 ^ 32 ≤ ((s.sched.epochSec.toNat + s.sched.secOff.toNat) * 1000000000
        + s.sched.epochFrac.toNat + s.sched.msecOff.toNat * 1000000) / 1000000000 →
      makeMove .engine s = .next (afterError 5 5 (released
        { s with sched := { s.sched with ticks := s.sched.ticks + 1 } })))

/-- 44_scheduler.md R230, R238: ten consecutive ticks that do not slip, with a 100 ms step: the transmit times
grow by exactly 100 ms each, and after the tenth tick the seconds offset has grown by one and the milliseconds
offset is 0 again; the epoch stays. -/
def Obligations.TenTicksAdvanceOneSecond : Prop :=
  ∀ (s : State) (now : Fin 10 → Nat × Nat) (ret : Fin 10 → Word) (qt : List (Answer HwTime))
    (qs : List (Answer Word)),
    s.schState = .scheduled → s.hung = false → s.inRst = false → s.status.cancel = false →
    s.inCancel = false → s.moves = [] → s.sched.stepMs = 100 → s.sched.msecOff = 0 →
    (∀ i, (now i).1 < 2 ^ 32 ∧ (now i).2 < 1000000000) →
    s.backends.getTime = (List.ofFn fun i => .reply ⟨(now i).1, (now i).2⟩) ++ qt →
    s.backends.sendTimed = (List.ofFn fun i => .reply (ret i)) ++ qs →
    (let start := (s.sched.epochSec.toNat + s.sched.secOff.toNat) * 1000000000 + s.sched.epochFrac.toNat
     (start + 900000000) / 1000000000 < 2 ^ 32 →
     s.sched.secOff.toNat + 1 < 2 ^ 32 →
     (∀ i : Fin 10, sampleUnits (now i).1 (now i).2 s.sched.srate.toNat ≤
       sampleUnits ((start + i.val * 100000000) / 1000000000) ((start + i.val * 100000000) % 1000000000)
         s.sched.srate.toNat) →
     (∀ i : Fin 10, ∃ t : State, Host.Core.run Sys2Proof.core (i.val + 1) s = .next t ∧
       t.sched.txSec.toNat * 1000000000 + t.sched.txFrac.toNat = start + i.val * 100000000 ∧
       t.sched.ticks = s.sched.ticks + BitVec.ofNat 32 (i.val + 1) ∧ t.sched.slips = s.sched.slips) ∧
     ∃ t : State, Host.Core.run Sys2Proof.core 10 s = .next t ∧
       t.sched.secOff.toNat = s.sched.secOff.toNat + 1 ∧ t.sched.msecOff = 0 ∧
       t.sched.epochSec = s.sched.epochSec ∧ t.sched.epochFrac = s.sched.epochFrac ∧
       t.schState = .scheduled ∧ t.status = s.status)

/-! ### The whole machine -/

/-- 42_framer_tx.md R160: over any step of the machine `FR_STATE` stays, goes forward along the linear order
or goes to `EMPTY`; `MODULATED` is never entered between steps; and it goes forward only in a step that
issues a framer command. -/
def Obligations.FrameStateIsLinear : Prop :=
  ∀ s t : State, step s = .next t →
    t.frState = s.frState ∨ t.frState = .empty ∨
    ((s.frState, t.frState) ∈
        [(FrState.empty, FrState.controlPlaced), (.empty, .dataPlaced), (.empty, .ready),
          (.controlPlaced, .dataPlaced), (.dataPlaced, .ready)] ∧
      s.status.busy = false ∧ s.status.cellv = true ∧ s.status.frfail = false ∧
      ∃ i rest, i ∈ [Instr.frBuild, .frCtrl, .frData, .frMod] ∧
        s.moves = .hostWrite cmdWord (encode i) :: rest)

/-- 10_state.md R36, 40_pool.md R121, R122: over any step `CELLV` goes from 0 to 1 only in `CELL_SET`, and `POOLV`
only in `POOL_DEFAULT` or `POOL_CHECK`; `RADIO` only in `RADIO_OPEN`. -/
def Obligations.ValidityIsEarned : Prop :=
  ∀ s t : State, step s = .next t →
    (t.status.cellv = true → s.status.cellv = true ∨
      ∃ rest, s.moves = .hostWrite cmdWord 0x00000001 :: rest) ∧
    (t.status.poolv = true → s.status.poolv = true ∨
      ∃ rest, s.moves = .hostWrite cmdWord 0x00000002 :: rest ∨
        s.moves = .hostWrite cmdWord 0x00000003 :: rest) ∧
    (t.status.radio = true → s.status.radio = true ∨
      ∃ rest, s.moves = .hostWrite cmdWord 0x00000040 :: rest)

/-- 00_scope.md R8, 93_implementation_defined.md U2: a block whose backend call is never answered stays busy
for ever: no step but `rst` leaves that state, and nothing but the inputs, the latch, `FLAGS.OVR` and the
ports changes. -/
def Obligations.OnlyRstLeavesAnUnansweredCall : Prop :=
  ∀ s t : State, s.hung = true → s.status.busy = true → step s = .next t →
    (∀ rest, s.moves ≠ .rstIn true :: rest) →
    t.hung = true ∧ t.status = { s.status with cancel := t.status.cancel } ∧
    t.flags = { s.flags with ovr := t.flags.ovr } ∧
    { t with
      status := s.status, flags := s.flags, inCancel := s.inCancel, inRst := s.inRst, inRx := s.inRx
      moves := s.moves, out := s.out } = s

/-- The invariant of Safety.lean holds after reset. The rules it collects are named at its clauses; its
clauses about `inRst` and about `hung` are the model's (log entries 3 and 14). -/
def Obligations.InvariantHoldsAtReset : Prop := State.reset.Inv

/-- Every step keeps the invariant of Safety.lean, from any state that meets it, whatever the host, the inputs
and the collaborators do. -/
def Obligations.EveryStepKeepsTheInvariant : Prop :=
  ∀ s t : State, s.Inv → step s = .next t → t.Inv

end Statements
end

