-- ==== Sys2Proof/Laws/Config.lean ====
section
/-! SUPPORT. The value of each configuration field that 00_scope.md R9 gives a default, so that no proof unfolds
the configuration. -/

namespace Sys2Proof

theorem Config.maxSubch_eq : Config.maxSubch = 20 := rfl
theorem Config.ccw_eq : Config.ccw = 2 := rfl
theorem Config.shifts_eq : Config.shifts = [0, 3, 6, 9] := rfl
theorem Config.txCs_eq : Config.txCs = 0 := rfl
theorem Config.wPrio_eq : Config.wPrio = 3 := rfl
theorem Config.wResv_eq : Config.wResv = 4 := rfl
theorem Config.wTgap_eq : Config.wTgap = 4 := rfl
theorem Config.wMcs_eq : Config.wMcs = 5 := rfl
/-- `W_RIV(N)` as a search for the least width (41_sci_codec.md R134). -/
theorem Config.wRiv_eq (n : Nat) : Config.wRiv n = leastWidth (rivCount n) (rivCount n) 0 := rfl
theorem Config.sciLen_eq : Config.sciLen = 32 := rfl
theorem Config.crcLen_eq : Config.crcLen = 16 := rfl
theorem Config.bitstrMax_eq : Config.bitstrMax = 32 := rfl
theorem Config.guardMs_eq : Config.guardMs = 3 := rfl
theorem Config.fracUnits_eq : Config.fracUnits = 1000000000 := rfl
theorem Config.ms_eq : Config.ms = 1000000 := rfl
theorem Config.subframeMs_eq : Config.subframeMs = 1 := rfl
theorem Config.supportedNprb_eq : Config.supportedNprb = [50, 100] := rfl

/-- `POOL_DEFAULT` by its table (40_pool.md R123). -/
theorem Config.poolDefault_eq (n : Nat) : Config.poolDefault n =
    if n = 50 then some ⟨10, 5, 0, 1⟩ else if n = 100 then some ⟨20, 5, 0, 1⟩ else none := rfl

/-- The configuration of this block and its registers agree (10_state.md R23, R42, R43). -/
theorem Config.params_fitsRegisters : Config.params.FitsRegisters :=
  ⟨by decide, by decide, rfl, by decide, by decide⟩

/-- The CRC bits of a control message as a number (60_exceptions.md R292). -/
theorem CrcBits.toNat_lt (crc : CrcBits) : crc.toNat < 65536 := crc.isLt

/-- The bits of a control message as a number (60_exceptions.md R292). -/
theorem ControlBits.toNat_lt (bits : ControlBits) : bits.toNat < 4294967296 := bits.isLt

end Sys2Proof
end

