-- ==== Sys2Proof/Laws/Bits.lean ====
section
/-! SUPPORT. Bit strings as numbers: lengths, the value of a string of bits, of a concatenation and of a
substring, and what a register pair holds after a string was stored in it (00_scope.md R12, R13). -/

namespace Sys2Proof.Machine

@[simp] theorem length_bitsOf (n v : Nat) : (bitsOf n v).length = n := by
  induction n with
  | zero => rfl
  | succ n ih => simp [bitsOf, ih]

@[simp] theorem length_zeros (n : Nat) : (zeros n).length = n := by simp [zeros]

@[simp] theorem val_nil : val [] = 0 := rfl

/-- The value of a concatenation. -/
theorem val_append (a b : Bits) : val (a ++ b) = val a * 2 ^ b.length + val b := by
  induction a with
  | nil => simp [val]
  | cons x rest ih =>
    simp only [List.cons_append, val, ih, List.length_append, pow_add]
    ring

/-- The value of `n` bits is below `2^n`. -/
theorem val_lt (b : Bits) : val b < 2 ^ b.length := by
  induction b with
  | nil => simp [val]
  | cons x rest ih =>
    simp only [val, List.length_cons, pow_succ]
    have : x.toNat ≤ 1 := by cases x <;> simp
    nlinarith

@[simp] theorem val_zeros (n : Nat) : val (zeros n) = 0 := by
  induction n with
  | zero => rfl
  | succ n ih =>
    have : zeros (n + 1) = false :: zeros n := by simp [zeros, List.replicate_succ]
    rw [this]
    simp [val, ih]

/-- The value of the `n`-bit string of `v` is `v mod 2^n` (00_scope.md R12). -/
@[simp] theorem val_bitsOf (n v : Nat) : val (bitsOf n v) = v % 2 ^ n := by
  induction n with
  | zero => simp [bitsOf, Nat.mod_one]
  | succ n ih =>
    simp only [bitsOf, val, ih, length_bitsOf]
    rw [Nat.mod_pow_succ, Nat.testBit_eq_decide_div_mod_eq]
    rcases Nat.mod_two_eq_zero_or_one (v / 2 ^ n) with h | h
    · simp [h]
    · simp [h, Nat.add_comm]

/-- A string is the bits of its value. -/
theorem bitsOf_val (b : Bits) : bitsOf b.length (val b) = b := by
  induction b with
  | nil => rfl
  | cons x rest ih =>
    simp only [List.length_cons, bitsOf, val]
    have hlt := val_lt rest
    congr 1
    · cases x with
      | false => simpa using Nat.testBit_lt_two_pow hlt
      | true => simp [Nat.testBit_two_pow_add_eq, Nat.testBit_lt_two_pow hlt]
    · have hmod : ∀ n ≤ rest.length,
          bitsOf n (x.toNat * 2 ^ rest.length + val rest) = bitsOf n (val rest) := by
        intro n hn
        induction n with
        | zero => rfl
        | succ n ihn =>
          simp only [bitsOf]
          rw [ihn (by omega), Nat.mul_comm, Nat.testBit_two_pow_mul_add _ hlt, if_pos (by omega)]
      rw [hmod _ le_rfl, ih]

/-- The first `k` bits of an `n`-bit string. -/
theorem take_bitsOf {k n : Nat} (v : Nat) (h : k ≤ n) :
    (bitsOf n v).take k = bitsOf k (v / 2 ^ (n - k)) := by
  induction n generalizing k with
  | zero =>
    obtain rfl : k = 0 := by omega
    rfl
  | succ n ih =>
    cases k with
    | zero => rfl
    | succ k =>
      simp only [bitsOf, List.take_succ_cons]
      rw [ih (by omega), Nat.testBit_div_two_pow]
      congr 2
      · omega
      · rw [Nat.add_sub_add_right]

/-- The last `k` bits of an `n`-bit string. -/
theorem drop_bitsOf {k n : Nat} (v : Nat) (h : k ≤ n) : (bitsOf n v).drop (n - k) = bitsOf k v := by
  induction n with
  | zero =>
    obtain rfl : k = 0 := by omega
    rfl
  | succ n ih =>
    by_cases hk : k = n + 1
    · subst hk
      simp
    · rw [Nat.succ_sub (by omega)]
      simp only [bitsOf, Nat.succ_eq_add_one, List.drop_succ_cons]
      exact ih (by omega)

/-- The value of the field of `w` bits from position `p` of an `n`-bit string. -/
theorem fieldAt_bitsOf {n p w : Nat} (v : Nat) (h : p + w ≤ n) :
    val (substr (bitsOf n v) p (p + w)) = v / 2 ^ (n - (p + w)) % 2 ^ w := by
  have hp : (bitsOf n v).drop p = bitsOf (n - p) v := by
    have := drop_bitsOf (k := n - p) (n := n) v (by omega)
    rwa [Nat.sub_sub_self (by omega)] at this
  rw [substr, hp, Nat.add_sub_cancel_left, take_bitsOf v (by omega), val_bitsOf]
  congr 3
  omega

/-- A string stored in a pair and read back (00_scope.md R13). -/
theorem strOf_pairOf {b : Bits} (h : b.length ≤ 32) : strOf (pairOf b) = b := by
  have hl : (b ++ zeros (32 - b.length)).length = 32 := by simp; omega
  have hv : val (b ++ zeros (32 - b.length)) < 2 ^ 32 := by
    have := val_lt (b ++ zeros (32 - b.length))
    rwa [hl] at this
  have hb := bitsOf_val (b ++ zeros (32 - b.length))
  rw [hl] at hb
  simp only [strOf, pairOf, Config.bitstrMax_eq, BitVec.toNat_ofNat]
  rw [Nat.mod_eq_of_lt hv, hb, Nat.mod_eq_of_lt (by omega)]
  simp

/-- The string a pair of stated length `n` holds: the `n` highest bits. -/
theorem strOf_eq {p : BitPair} (h : p.nbits.toNat ≤ 32) :
    strOf p = bitsOf p.nbits.toNat (p.bits.toNat / 2 ^ (32 - p.nbits.toNat)) :=
  take_bitsOf _ h

end Sys2Proof.Machine
end

