-- ==== Sys2Proof/Laws/Codec.lean ====
section
/-! SUPPORT. The codec's shared functions, once each: the RIV field width, the packed control word by its
fields' places, and the fields of an unpacked string by their places (41_sci_codec.md R134, R139 to R142). -/

namespace Sys2Proof.Machine

theorem countInRange_iff (n : Nat) : countInRange n = true ↔ 1 ≤ n ∧ n ≤ 20 := by
  simp only [countInRange, Bool.and_eq_true, decide_eq_true_eq]
  simp only [Config.maxSubch_eq]
  omega

/-- The pool invariant in numbers (10_state.md R35). -/
theorem poolInvariant_iff (n w nprb : Nat) :
    poolInvariant n w nprb = true ↔ 1 ≤ n ∧ n ≤ 20 ∧ 1 ≤ w ∧ n * w ≤ nprb := by
  simp only [poolInvariant, Bool.and_eq_true, decide_eq_true_eq]
  simp only [Config.maxSubch_eq]
  tauto

/-- For at most 20 sub-channels the RIV field has at most 8 bits (41_sci_codec.md R134). -/
theorem wRiv_le_eight {n : Nat} (h : n ≤ 20) : wRiv n ≤ 8 := by
  interval_cases n <;> decide

/-- A pair of at most 20 sub-channels has a RIV that fits its field and its register
(41_sci_codec.md R134, R135). -/
theorem rivEncode_fits {n s l : Nat} (hn : n ≤ 20) (h1 : 1 ≤ l) (h2 : s + l ≤ n) :
    rivEncode n s l < 2 ^ wRiv n ∧ rivEncode n s l < 256 := by
  have table : ((List.range 21).all fun n' => (List.range 20).all fun s' => (List.range 21).all fun l' =>
      decide (l' = 0) || decide (n' < s' + l') ||
        (decide (rivEncode n' s' l' < 2 ^ wRiv n') && decide (rivEncode n' s' l' < 256))) = true := by
    decide +kernel
  simp only [List.all_eq_true, List.mem_range, Bool.or_eq_true, Bool.and_eq_true, decide_eq_true_eq] at table
  rcases table n (by omega) s (by omega) l (by omega) with (h | h) | h
  · omega
  · omega
  · exact h

/-- What `pack` gives a ControlInfo whose RIV fits: 32 bits whose value is `controlWord`
(41_sci_codec.md R139, R140). -/
theorem pack_val {c : Sci} {n : Nat} (hn : n ≤ 20) (hr : c.riv.toNat < 2 ^ wRiv n) :
    ∃ b, pack c n = some b ∧ b.length = 32 ∧ val b = controlWord c n ∧ controlWord c n < 2 ^ 32 := by
  have hw := wRiv_le_eight hn
  have hl : (packBody c n).length ≤ 26 := by
    unfold packBody
    split <;> simp [Config.wPrio_eq, Config.wResv_eq, Config.wTgap_eq, Config.wMcs_eq] <;> omega
  have h1 := c.prio.isLt
  have h2 := c.resv.isLt
  have h3 := c.tgap.isLt
  have h4 := c.mcs.isLt
  have h5 := c.retx.isLt
  have h6 := c.txfmt.isLt
  refine ⟨_, by rw [pack, if_neg (by omega)], ?_, ?_, ?_⟩
  · simp [Config.sciLen_eq]; omega
  · rw [val_append, val_zeros]
    unfold packBody controlWord
    generalize wRiv n = w at *
    interval_cases w <;> split <;>
      simp [val_append, Config.wPrio_eq, Config.wResv_eq, Config.wTgap_eq, Config.wMcs_eq, Config.sciLen_eq, *,
        Nat.mod_eq_of_lt h1, Nat.mod_eq_of_lt h2, Nat.mod_eq_of_lt h3, Nat.mod_eq_of_lt h4,
        Nat.mod_eq_of_lt h5, Nat.mod_eq_of_lt h6] <;> omega
  · unfold controlWord
    generalize wRiv n = w at *
    interval_cases w <;> split <;> omega

theorem fieldAt_of_bits {n p w v : Nat} (h : p + w ≤ n) :
    fieldAt (bitsOf n v) p w = v / 2 ^ (n - (p + w)) % 2 ^ w := fieldAt_bitsOf v h

theorem ofNat_mod_two_pow (w x : Nat) : BitVec.ofNat w (x % 2 ^ w) = BitVec.ofNat w x := by
  apply BitVec.eq_of_toNat_eq
  simp

/-- `unpack` with the places of its fields in numbers (41_sci_codec.md R142). -/
theorem unpack_places (b : Bits) (f : BitVec 1) (n : Nat) :
    unpack b f n = if b.length < sciLength f n then none else some
      { fmt := f
        prio := BitVec.ofNat 3 (fieldAt b 0 3)
        resv := BitVec.ofNat 4 (fieldAt b 3 4)
        riv := BitVec.ofNat 8 (fieldAt b 7 (wRiv n))
        tgap := BitVec.ofNat 4 (fieldAt b (7 + wRiv n) 4)
        mcs := BitVec.ofNat 5 (fieldAt b (11 + wRiv n) 5)
        retx := BitVec.ofNat 1 (fieldAt b (16 + wRiv n) 1)
        txfmt := if f = 1 then BitVec.ofNat 1 (fieldAt b (17 + wRiv n) 1) else 0 } := by
  rw [show 17 + wRiv n = 7 + wRiv n + 4 + 5 + 1 by omega, show 16 + wRiv n = 7 + wRiv n + 4 + 5 by omega,
    show 11 + wRiv n = 7 + wRiv n + 4 by omega]
  rfl

/-- What `unpack` reads from the `k`-bit string of `v`, when it is long enough (41_sci_codec.md R142). -/
theorem unpack_bitsOf {k v n : Nat} {f : BitVec 1}
    (hk : 17 + wRiv n + (if f = 1 then 1 else 0) ≤ k) :
    unpack (bitsOf k v) f n = some
      { fmt := f
        prio := BitVec.ofNat 3 (v / 2 ^ (k - 3))
        resv := BitVec.ofNat 4 (v / 2 ^ (k - 7))
        riv := BitVec.ofNat 8 (v / 2 ^ (k - (7 + wRiv n)) % 2 ^ wRiv n)
        tgap := BitVec.ofNat 4 (v / 2 ^ (k - (11 + wRiv n)))
        mcs := BitVec.ofNat 5 (v / 2 ^ (k - (16 + wRiv n)))
        retx := BitVec.ofNat 1 (v / 2 ^ (k - (17 + wRiv n)))
        txfmt := if f = 1 then BitVec.ofNat 1 (v / 2 ^ (k - (18 + wRiv n))) else 0 } := by
  rw [unpack_places]
  have hl : sciLength f n = 17 + wRiv n + (if f = 1 then 1 else 0) := by
    simp [sciLength, Config.wPrio_eq, Config.wResv_eq, Config.wTgap_eq, Config.wMcs_eq]
    omega
  simp only [length_bitsOf, hl]
  rw [if_neg (by omega)]
  have hk' : 17 + wRiv n ≤ k := by omega
  rw [fieldAt_of_bits (by omega), fieldAt_of_bits (by omega), fieldAt_of_bits (by omega),
    fieldAt_of_bits (by omega), fieldAt_of_bits (by omega), fieldAt_of_bits (by omega)]
  congr 1
  simp only [ofNat_mod_two_pow]
  have e1 : 7 + wRiv n + 4 = 11 + wRiv n := by omega
  have e2 : 11 + wRiv n + 5 = 16 + wRiv n := by omega
  have e3 : 16 + wRiv n + 1 = 17 + wRiv n := by omega
  rw [e1, e2, e3]
  congr 1
  split
  · rename_i hf
    simp only [hf, if_true] at hk
    rw [fieldAt_of_bits (by omega), ofNat_mod_two_pow]
    have e4 : 17 + wRiv n + 1 = 18 + wRiv n := by omega
    rw [e4]
  · rfl

/-- A string too short for its format is refused (41_sci_codec.md R142). -/
theorem unpack_short {b : Bits} {n : Nat} {f : BitVec 1}
    (h : b.length < 17 + wRiv n + (if f = 1 then 1 else 0)) : unpack b f n = none := by
  have hl : sciLength f n = 17 + wRiv n + (if f = 1 then 1 else 0) := by
    simp [sciLength, Config.wPrio_eq, Config.wResv_eq, Config.wTgap_eq, Config.wMcs_eq]
    omega
  rw [unpack_places, if_pos (by rw [hl]; exact h)]

end Sys2Proof.Machine
end

