-- ==== Sys2Proof/Laws/State.lean ====
section
/-! SUPPORT. What each named update of State leaves in each field: one lemma per field per update, so that no
later proof unfolds a record update. -/

namespace Sys2Proof.Machine

variable (s : State)

/-! `emit` -/

@[simp] theorem emit_status (o : Out) : (emit o s).status = s.status := rfl
@[simp] theorem emit_frState (o : Out) : (emit o s).frState = s.frState := rfl
@[simp] theorem emit_schState (o : Out) : (emit o s).schState = s.schState := rfl
@[simp] theorem emit_err (o : Out) : (emit o s).err = s.err := rfl
@[simp] theorem emit_errInfo (o : Out) : (emit o s).errInfo = s.errInfo := rfl
@[simp] theorem emit_flags (o : Out) : (emit o s).flags = s.flags := rfl
@[simp] theorem emit_cell (o : Out) : (emit o s).cell = s.cell := rfl
@[simp] theorem emit_pool (o : Out) : (emit o s).pool = s.pool := rfl
@[simp] theorem emit_sci (o : Out) : (emit o s).sci = s.sci := rfl
@[simp] theorem emit_opr (o : Out) : (emit o s).opr = s.opr := rfl
@[simp] theorem emit_sciBits (o : Out) : (emit o s).sciBits = s.sciBits := rfl
@[simp] theorem emit_crcBits (o : Out) : (emit o s).crcBits = s.crcBits := rfl
@[simp] theorem emit_frIn (o : Out) : (emit o s).frIn = s.frIn := rfl
@[simp] theorem emit_frOut (o : Out) : (emit o s).frOut = s.frOut := rfl
@[simp] theorem emit_sched (o : Out) : (emit o s).sched = s.sched := rfl
@[simp] theorem emit_rxSfidx (o : Out) : (emit o s).rxSfidx = s.rxSfidx := rfl
@[simp] theorem emit_dr (o : Out) : (emit o s).dr = s.dr := rfl
@[simp] theorem emit_mem (o : Out) : (emit o s).mem = s.mem := rfl
@[simp] theorem emit_txgrid (o : Out) : (emit o s).txgrid = s.txgrid := rfl
@[simp] theorem emit_rxgrid (o : Out) : (emit o s).rxgrid = s.rxgrid := rfl
@[simp] theorem emit_txsamp (o : Out) : (emit o s).txsamp = s.txsamp := rfl
@[simp] theorem emit_rxsamp (o : Out) : (emit o s).rxsamp = s.rxsamp := rfl
@[simp] theorem emit_handle (o : Out) : (emit o s).handle = s.handle := rfl
@[simp] theorem emit_chestCfg (o : Out) : (emit o s).chestCfg = s.chestCfg := rfl
@[simp] theorem emit_backendCell (o : Out) : (emit o s).backendCell = s.backendCell := rfl
@[simp] theorem emit_psIdx (o : Out) : (emit o s).psIdx = s.psIdx := rfl
@[simp] theorem emit_psShift (o : Out) : (emit o s).psShift = s.psShift := rfl
@[simp] theorem emit_hung (o : Out) : (emit o s).hung = s.hung := rfl
@[simp] theorem emit_inCancel (o : Out) : (emit o s).inCancel = s.inCancel := rfl
@[simp] theorem emit_inRst (o : Out) : (emit o s).inRst = s.inRst := rfl
@[simp] theorem emit_inRx (o : Out) : (emit o s).inRx = s.inRx := rfl
@[simp] theorem emit_moves (o : Out) : (emit o s).moves = s.moves := rfl
@[simp] theorem emit_backends (o : Out) : (emit o s).backends = s.backends := rfl
@[simp] theorem emit_draws (o : Out) : (emit o s).draws = s.draws := rfl
@[simp] theorem emit_out (o : Out) : (emit o s).out = o :: s.out := rfl

/-! `accept` -/

@[simp] theorem accept_status : (accept s).status = { s.status with done := false, busy := true } := rfl
@[simp] theorem accept_frState : (accept s).frState = s.frState := rfl
@[simp] theorem accept_schState : (accept s).schState = s.schState := rfl
@[simp] theorem accept_err : (accept s).err = s.err := rfl
@[simp] theorem accept_errInfo : (accept s).errInfo = s.errInfo := rfl
@[simp] theorem accept_flags : (accept s).flags = s.flags := rfl
@[simp] theorem accept_cell : (accept s).cell = s.cell := rfl
@[simp] theorem accept_pool : (accept s).pool = s.pool := rfl
@[simp] theorem accept_sci : (accept s).sci = s.sci := rfl
@[simp] theorem accept_opr : (accept s).opr = s.opr := rfl
@[simp] theorem accept_sciBits : (accept s).sciBits = s.sciBits := rfl
@[simp] theorem accept_crcBits : (accept s).crcBits = s.crcBits := rfl
@[simp] theorem accept_frIn : (accept s).frIn = s.frIn := rfl
@[simp] theorem accept_frOut : (accept s).frOut = s.frOut := rfl
@[simp] theorem accept_sched : (accept s).sched = s.sched := rfl
@[simp] theorem accept_rxSfidx : (accept s).rxSfidx = s.rxSfidx := rfl
@[simp] theorem accept_dr : (accept s).dr = s.dr := rfl
@[simp] theorem accept_mem : (accept s).mem = s.mem := rfl
@[simp] theorem accept_txgrid : (accept s).txgrid = s.txgrid := rfl
@[simp] theorem accept_rxgrid : (accept s).rxgrid = s.rxgrid := rfl
@[simp] theorem accept_txsamp : (accept s).txsamp = s.txsamp := rfl
@[simp] theorem accept_rxsamp : (accept s).rxsamp = s.rxsamp := rfl
@[simp] theorem accept_handle : (accept s).handle = s.handle := rfl
@[simp] theorem accept_chestCfg : (accept s).chestCfg = s.chestCfg := rfl
@[simp] theorem accept_backendCell : (accept s).backendCell = s.backendCell := rfl
@[simp] theorem accept_psIdx : (accept s).psIdx = s.psIdx := rfl
@[simp] theorem accept_psShift : (accept s).psShift = s.psShift := rfl
@[simp] theorem accept_hung : (accept s).hung = s.hung := rfl
@[simp] theorem accept_inCancel : (accept s).inCancel = s.inCancel := rfl
@[simp] theorem accept_inRst : (accept s).inRst = s.inRst := rfl
@[simp] theorem accept_inRx : (accept s).inRx = s.inRx := rfl
@[simp] theorem accept_moves : (accept s).moves = s.moves := rfl
@[simp] theorem accept_backends : (accept s).backends = s.backends := rfl
@[simp] theorem accept_draws : (accept s).draws = s.draws := rfl
@[simp] theorem accept_out : (accept s).out = s.out := rfl

/-! `complete` -/

@[simp] theorem complete_status (e : BitVec 8) (i : Word) : (complete e i s).status = { s.status with errv := decide (e ≠ 0), busy := false, done := true } := rfl
@[simp] theorem complete_frState (e : BitVec 8) (i : Word) : (complete e i s).frState = s.frState := rfl
@[simp] theorem complete_schState (e : BitVec 8) (i : Word) : (complete e i s).schState = s.schState := rfl
@[simp] theorem complete_err (e : BitVec 8) (i : Word) : (complete e i s).err = e := rfl
@[simp] theorem complete_errInfo (e : BitVec 8) (i : Word) : (complete e i s).errInfo = i := rfl
@[simp] theorem complete_flags (e : BitVec 8) (i : Word) : (complete e i s).flags = s.flags := rfl
@[simp] theorem complete_cell (e : BitVec 8) (i : Word) : (complete e i s).cell = s.cell := rfl
@[simp] theorem complete_pool (e : BitVec 8) (i : Word) : (complete e i s).pool = s.pool := rfl
@[simp] theorem complete_sci (e : BitVec 8) (i : Word) : (complete e i s).sci = s.sci := rfl
@[simp] theorem complete_opr (e : BitVec 8) (i : Word) : (complete e i s).opr = s.opr := rfl
@[simp] theorem complete_sciBits (e : BitVec 8) (i : Word) : (complete e i s).sciBits = s.sciBits := rfl
@[simp] theorem complete_crcBits (e : BitVec 8) (i : Word) : (complete e i s).crcBits = s.crcBits := rfl
@[simp] theorem complete_frIn (e : BitVec 8) (i : Word) : (complete e i s).frIn = s.frIn := rfl
@[simp] theorem complete_frOut (e : BitVec 8) (i : Word) : (complete e i s).frOut = s.frOut := rfl
@[simp] theorem complete_sched (e : BitVec 8) (i : Word) : (complete e i s).sched = s.sched := rfl
@[simp] theorem complete_rxSfidx (e : BitVec 8) (i : Word) : (complete e i s).rxSfidx = s.rxSfidx := rfl
@[simp] theorem complete_dr (e : BitVec 8) (i : Word) : (complete e i s).dr = s.dr := rfl
@[simp] theorem complete_mem (e : BitVec 8) (i : Word) : (complete e i s).mem = s.mem := rfl
@[simp] theorem complete_txgrid (e : BitVec 8) (i : Word) : (complete e i s).txgrid = s.txgrid := rfl
@[simp] theorem complete_rxgrid (e : BitVec 8) (i : Word) : (complete e i s).rxgrid = s.rxgrid := rfl
@[simp] theorem complete_txsamp (e : BitVec 8) (i : Word) : (complete e i s).txsamp = s.txsamp := rfl
@[simp] theorem complete_rxsamp (e : BitVec 8) (i : Word) : (complete e i s).rxsamp = s.rxsamp := rfl
@[simp] theorem complete_handle (e : BitVec 8) (i : Word) : (complete e i s).handle = s.handle := rfl
@[simp] theorem complete_chestCfg (e : BitVec 8) (i : Word) : (complete e i s).chestCfg = s.chestCfg := rfl
@[simp] theorem complete_backendCell (e : BitVec 8) (i : Word) : (complete e i s).backendCell = s.backendCell := rfl
@[simp] theorem complete_psIdx (e : BitVec 8) (i : Word) : (complete e i s).psIdx = s.psIdx := rfl
@[simp] theorem complete_psShift (e : BitVec 8) (i : Word) : (complete e i s).psShift = s.psShift := rfl
@[simp] theorem complete_hung (e : BitVec 8) (i : Word) : (complete e i s).hung = s.hung := rfl
@[simp] theorem complete_inCancel (e : BitVec 8) (i : Word) : (complete e i s).inCancel = s.inCancel := rfl
@[simp] theorem complete_inRst (e : BitVec 8) (i : Word) : (complete e i s).inRst = s.inRst := rfl
@[simp] theorem complete_inRx (e : BitVec 8) (i : Word) : (complete e i s).inRx = s.inRx := rfl
@[simp] theorem complete_moves (e : BitVec 8) (i : Word) : (complete e i s).moves = s.moves := rfl
@[simp] theorem complete_backends (e : BitVec 8) (i : Word) : (complete e i s).backends = s.backends := rfl
@[simp] theorem complete_draws (e : BitVec 8) (i : Word) : (complete e i s).draws = s.draws := rfl
@[simp] theorem complete_out (e : BitVec 8) (i : Word) : (complete e i s).out = completionPulses e ++ s.out := rfl

/-! `hang` -/

@[simp] theorem hang_status : (hang s).status = s.status := rfl
@[simp] theorem hang_frState : (hang s).frState = s.frState := rfl
@[simp] theorem hang_schState : (hang s).schState = s.schState := rfl
@[simp] theorem hang_err : (hang s).err = s.err := rfl
@[simp] theorem hang_errInfo : (hang s).errInfo = s.errInfo := rfl
@[simp] theorem hang_flags : (hang s).flags = s.flags := rfl
@[simp] theorem hang_cell : (hang s).cell = s.cell := rfl
@[simp] theorem hang_pool : (hang s).pool = s.pool := rfl
@[simp] theorem hang_sci : (hang s).sci = s.sci := rfl
@[simp] theorem hang_opr : (hang s).opr = s.opr := rfl
@[simp] theorem hang_sciBits : (hang s).sciBits = s.sciBits := rfl
@[simp] theorem hang_crcBits : (hang s).crcBits = s.crcBits := rfl
@[simp] theorem hang_frIn : (hang s).frIn = s.frIn := rfl
@[simp] theorem hang_frOut : (hang s).frOut = s.frOut := rfl
@[simp] theorem hang_sched : (hang s).sched = s.sched := rfl
@[simp] theorem hang_rxSfidx : (hang s).rxSfidx = s.rxSfidx := rfl
@[simp] theorem hang_dr : (hang s).dr = s.dr := rfl
@[simp] theorem hang_mem : (hang s).mem = s.mem := rfl
@[simp] theorem hang_txgrid : (hang s).txgrid = s.txgrid := rfl
@[simp] theorem hang_rxgrid : (hang s).rxgrid = s.rxgrid := rfl
@[simp] theorem hang_txsamp : (hang s).txsamp = s.txsamp := rfl
@[simp] theorem hang_rxsamp : (hang s).rxsamp = s.rxsamp := rfl
@[simp] theorem hang_handle : (hang s).handle = s.handle := rfl
@[simp] theorem hang_chestCfg : (hang s).chestCfg = s.chestCfg := rfl
@[simp] theorem hang_backendCell : (hang s).backendCell = s.backendCell := rfl
@[simp] theorem hang_psIdx : (hang s).psIdx = s.psIdx := rfl
@[simp] theorem hang_psShift : (hang s).psShift = s.psShift := rfl
@[simp] theorem hang_hung : (hang s).hung = true := rfl
@[simp] theorem hang_inCancel : (hang s).inCancel = s.inCancel := rfl
@[simp] theorem hang_inRst : (hang s).inRst = s.inRst := rfl
@[simp] theorem hang_inRx : (hang s).inRx = s.inRx := rfl
@[simp] theorem hang_moves : (hang s).moves = s.moves := rfl
@[simp] theorem hang_backends : (hang s).backends = s.backends := rfl
@[simp] theorem hang_draws : (hang s).draws = s.draws := rfl
@[simp] theorem hang_out : (hang s).out = s.out := rfl

/-! `setOvr` -/

@[simp] theorem setOvr_status : (setOvr s).status = s.status := rfl
@[simp] theorem setOvr_frState : (setOvr s).frState = s.frState := rfl
@[simp] theorem setOvr_schState : (setOvr s).schState = s.schState := rfl
@[simp] theorem setOvr_err : (setOvr s).err = s.err := rfl
@[simp] theorem setOvr_errInfo : (setOvr s).errInfo = s.errInfo := rfl
@[simp] theorem setOvr_flags : (setOvr s).flags = { s.flags with ovr := true } := rfl
@[simp] theorem setOvr_cell : (setOvr s).cell = s.cell := rfl
@[simp] theorem setOvr_pool : (setOvr s).pool = s.pool := rfl
@[simp] theorem setOvr_sci : (setOvr s).sci = s.sci := rfl
@[simp] theorem setOvr_opr : (setOvr s).opr = s.opr := rfl
@[simp] theorem setOvr_sciBits : (setOvr s).sciBits = s.sciBits := rfl
@[simp] theorem setOvr_crcBits : (setOvr s).crcBits = s.crcBits := rfl
@[simp] theorem setOvr_frIn : (setOvr s).frIn = s.frIn := rfl
@[simp] theorem setOvr_frOut : (setOvr s).frOut = s.frOut := rfl
@[simp] theorem setOvr_sched : (setOvr s).sched = s.sched := rfl
@[simp] theorem setOvr_rxSfidx : (setOvr s).rxSfidx = s.rxSfidx := rfl
@[simp] theorem setOvr_dr : (setOvr s).dr = s.dr := rfl
@[simp] theorem setOvr_mem : (setOvr s).mem = s.mem := rfl
@[simp] theorem setOvr_txgrid : (setOvr s).txgrid = s.txgrid := rfl
@[simp] theorem setOvr_rxgrid : (setOvr s).rxgrid = s.rxgrid := rfl
@[simp] theorem setOvr_txsamp : (setOvr s).txsamp = s.txsamp := rfl
@[simp] theorem setOvr_rxsamp : (setOvr s).rxsamp = s.rxsamp := rfl
@[simp] theorem setOvr_handle : (setOvr s).handle = s.handle := rfl
@[simp] theorem setOvr_chestCfg : (setOvr s).chestCfg = s.chestCfg := rfl
@[simp] theorem setOvr_backendCell : (setOvr s).backendCell = s.backendCell := rfl
@[simp] theorem setOvr_psIdx : (setOvr s).psIdx = s.psIdx := rfl
@[simp] theorem setOvr_psShift : (setOvr s).psShift = s.psShift := rfl
@[simp] theorem setOvr_hung : (setOvr s).hung = s.hung := rfl
@[simp] theorem setOvr_inCancel : (setOvr s).inCancel = s.inCancel := rfl
@[simp] theorem setOvr_inRst : (setOvr s).inRst = s.inRst := rfl
@[simp] theorem setOvr_inRx : (setOvr s).inRx = s.inRx := rfl
@[simp] theorem setOvr_moves : (setOvr s).moves = s.moves := rfl
@[simp] theorem setOvr_backends : (setOvr s).backends = s.backends := rfl
@[simp] theorem setOvr_draws : (setOvr s).draws = s.draws := rfl
@[simp] theorem setOvr_out : (setOvr s).out = s.out := rfl

/-! `setCancel` -/

@[simp] theorem setCancel_status : (setCancel s).status = { s.status with cancel := true } := rfl
@[simp] theorem setCancel_frState : (setCancel s).frState = s.frState := rfl
@[simp] theorem setCancel_schState : (setCancel s).schState = s.schState := rfl
@[simp] theorem setCancel_err : (setCancel s).err = s.err := rfl
@[simp] theorem setCancel_errInfo : (setCancel s).errInfo = s.errInfo := rfl
@[simp] theorem setCancel_flags : (setCancel s).flags = s.flags := rfl
@[simp] theorem setCancel_cell : (setCancel s).cell = s.cell := rfl
@[simp] theorem setCancel_pool : (setCancel s).pool = s.pool := rfl
@[simp] theorem setCancel_sci : (setCancel s).sci = s.sci := rfl
@[simp] theorem setCancel_opr : (setCancel s).opr = s.opr := rfl
@[simp] theorem setCancel_sciBits : (setCancel s).sciBits = s.sciBits := rfl
@[simp] theorem setCancel_crcBits : (setCancel s).crcBits = s.crcBits := rfl
@[simp] theorem setCancel_frIn : (setCancel s).frIn = s.frIn := rfl
@[simp] theorem setCancel_frOut : (setCancel s).frOut = s.frOut := rfl
@[simp] theorem setCancel_sched : (setCancel s).sched = s.sched := rfl
@[simp] theorem setCancel_rxSfidx : (setCancel s).rxSfidx = s.rxSfidx := rfl
@[simp] theorem setCancel_dr : (setCancel s).dr = s.dr := rfl
@[simp] theorem setCancel_mem : (setCancel s).mem = s.mem := rfl
@[simp] theorem setCancel_txgrid : (setCancel s).txgrid = s.txgrid := rfl
@[simp] theorem setCancel_rxgrid : (setCancel s).rxgrid = s.rxgrid := rfl
@[simp] theorem setCancel_txsamp : (setCancel s).txsamp = s.txsamp := rfl
@[simp] theorem setCancel_rxsamp : (setCancel s).rxsamp = s.rxsamp := rfl
@[simp] theorem setCancel_handle : (setCancel s).handle = s.handle := rfl
@[simp] theorem setCancel_chestCfg : (setCancel s).chestCfg = s.chestCfg := rfl
@[simp] theorem setCancel_backendCell : (setCancel s).backendCell = s.backendCell := rfl
@[simp] theorem setCancel_psIdx : (setCancel s).psIdx = s.psIdx := rfl
@[simp] theorem setCancel_psShift : (setCancel s).psShift = s.psShift := rfl
@[simp] theorem setCancel_hung : (setCancel s).hung = s.hung := rfl
@[simp] theorem setCancel_inCancel : (setCancel s).inCancel = s.inCancel := rfl
@[simp] theorem setCancel_inRst : (setCancel s).inRst = s.inRst := rfl
@[simp] theorem setCancel_inRx : (setCancel s).inRx = s.inRx := rfl
@[simp] theorem setCancel_moves : (setCancel s).moves = s.moves := rfl
@[simp] theorem setCancel_backends : (setCancel s).backends = s.backends := rfl
@[simp] theorem setCancel_draws : (setCancel s).draws = s.draws := rfl
@[simp] theorem setCancel_out : (setCancel s).out = s.out := rfl

/-! `clearCancel` -/

@[simp] theorem clearCancel_status : (clearCancel s).status = { s.status with cancel := s.inCancel } := rfl
@[simp] theorem clearCancel_frState : (clearCancel s).frState = s.frState := rfl
@[simp] theorem clearCancel_schState : (clearCancel s).schState = s.schState := rfl
@[simp] theorem clearCancel_err : (clearCancel s).err = s.err := rfl
@[simp] theorem clearCancel_errInfo : (clearCancel s).errInfo = s.errInfo := rfl
@[simp] theorem clearCancel_flags : (clearCancel s).flags = s.flags := rfl
@[simp] theorem clearCancel_cell : (clearCancel s).cell = s.cell := rfl
@[simp] theorem clearCancel_pool : (clearCancel s).pool = s.pool := rfl
@[simp] theorem clearCancel_sci : (clearCancel s).sci = s.sci := rfl
@[simp] theorem clearCancel_opr : (clearCancel s).opr = s.opr := rfl
@[simp] theorem clearCancel_sciBits : (clearCancel s).sciBits = s.sciBits := rfl
@[simp] theorem clearCancel_crcBits : (clearCancel s).crcBits = s.crcBits := rfl
@[simp] theorem clearCancel_frIn : (clearCancel s).frIn = s.frIn := rfl
@[simp] theorem clearCancel_frOut : (clearCancel s).frOut = s.frOut := rfl
@[simp] theorem clearCancel_sched : (clearCancel s).sched = s.sched := rfl
@[simp] theorem clearCancel_rxSfidx : (clearCancel s).rxSfidx = s.rxSfidx := rfl
@[simp] theorem clearCancel_dr : (clearCancel s).dr = s.dr := rfl
@[simp] theorem clearCancel_mem : (clearCancel s).mem = s.mem := rfl
@[simp] theorem clearCancel_txgrid : (clearCancel s).txgrid = s.txgrid := rfl
@[simp] theorem clearCancel_rxgrid : (clearCancel s).rxgrid = s.rxgrid := rfl
@[simp] theorem clearCancel_txsamp : (clearCancel s).txsamp = s.txsamp := rfl
@[simp] theorem clearCancel_rxsamp : (clearCancel s).rxsamp = s.rxsamp := rfl
@[simp] theorem clearCancel_handle : (clearCancel s).handle = s.handle := rfl
@[simp] theorem clearCancel_chestCfg : (clearCancel s).chestCfg = s.chestCfg := rfl
@[simp] theorem clearCancel_backendCell : (clearCancel s).backendCell = s.backendCell := rfl
@[simp] theorem clearCancel_psIdx : (clearCancel s).psIdx = s.psIdx := rfl
@[simp] theorem clearCancel_psShift : (clearCancel s).psShift = s.psShift := rfl
@[simp] theorem clearCancel_hung : (clearCancel s).hung = s.hung := rfl
@[simp] theorem clearCancel_inCancel : (clearCancel s).inCancel = s.inCancel := rfl
@[simp] theorem clearCancel_inRst : (clearCancel s).inRst = s.inRst := rfl
@[simp] theorem clearCancel_inRx : (clearCancel s).inRx = s.inRx := rfl
@[simp] theorem clearCancel_moves : (clearCancel s).moves = s.moves := rfl
@[simp] theorem clearCancel_backends : (clearCancel s).backends = s.backends := rfl
@[simp] theorem clearCancel_draws : (clearCancel s).draws = s.draws := rfl
@[simp] theorem clearCancel_out : (clearCancel s).out = s.out := rfl

/-! `putDr` -/

@[simp] theorem putDr_status (i : Nat) (e : DrEntry) : (putDr s i e).status = s.status := rfl
@[simp] theorem putDr_frState (i : Nat) (e : DrEntry) : (putDr s i e).frState = s.frState := rfl
@[simp] theorem putDr_schState (i : Nat) (e : DrEntry) : (putDr s i e).schState = s.schState := rfl
@[simp] theorem putDr_err (i : Nat) (e : DrEntry) : (putDr s i e).err = s.err := rfl
@[simp] theorem putDr_errInfo (i : Nat) (e : DrEntry) : (putDr s i e).errInfo = s.errInfo := rfl
@[simp] theorem putDr_flags (i : Nat) (e : DrEntry) : (putDr s i e).flags = s.flags := rfl
@[simp] theorem putDr_cell (i : Nat) (e : DrEntry) : (putDr s i e).cell = s.cell := rfl
@[simp] theorem putDr_pool (i : Nat) (e : DrEntry) : (putDr s i e).pool = s.pool := rfl
@[simp] theorem putDr_sci (i : Nat) (e : DrEntry) : (putDr s i e).sci = s.sci := rfl
@[simp] theorem putDr_opr (i : Nat) (e : DrEntry) : (putDr s i e).opr = s.opr := rfl
@[simp] theorem putDr_sciBits (i : Nat) (e : DrEntry) : (putDr s i e).sciBits = s.sciBits := rfl
@[simp] theorem putDr_crcBits (i : Nat) (e : DrEntry) : (putDr s i e).crcBits = s.crcBits := rfl
@[simp] theorem putDr_frIn (i : Nat) (e : DrEntry) : (putDr s i e).frIn = s.frIn := rfl
@[simp] theorem putDr_frOut (i : Nat) (e : DrEntry) : (putDr s i e).frOut = s.frOut := rfl
@[simp] theorem putDr_sched (i : Nat) (e : DrEntry) : (putDr s i e).sched = s.sched := rfl
@[simp] theorem putDr_rxSfidx (i : Nat) (e : DrEntry) : (putDr s i e).rxSfidx = s.rxSfidx := rfl
@[simp] theorem putDr_dr (i : Nat) (e : DrEntry) : (putDr s i e).dr = s.dr.setIfInBounds i e := rfl
@[simp] theorem putDr_mem (i : Nat) (e : DrEntry) : (putDr s i e).mem = s.mem := rfl
@[simp] theorem putDr_txgrid (i : Nat) (e : DrEntry) : (putDr s i e).txgrid = s.txgrid := rfl
@[simp] theorem putDr_rxgrid (i : Nat) (e : DrEntry) : (putDr s i e).rxgrid = s.rxgrid := rfl
@[simp] theorem putDr_txsamp (i : Nat) (e : DrEntry) : (putDr s i e).txsamp = s.txsamp := rfl
@[simp] theorem putDr_rxsamp (i : Nat) (e : DrEntry) : (putDr s i e).rxsamp = s.rxsamp := rfl
@[simp] theorem putDr_handle (i : Nat) (e : DrEntry) : (putDr s i e).handle = s.handle := rfl
@[simp] theorem putDr_chestCfg (i : Nat) (e : DrEntry) : (putDr s i e).chestCfg = s.chestCfg := rfl
@[simp] theorem putDr_backendCell (i : Nat) (e : DrEntry) : (putDr s i e).backendCell = s.backendCell := rfl
@[simp] theorem putDr_psIdx (i : Nat) (e : DrEntry) : (putDr s i e).psIdx = s.psIdx := rfl
@[simp] theorem putDr_psShift (i : Nat) (e : DrEntry) : (putDr s i e).psShift = s.psShift := rfl
@[simp] theorem putDr_hung (i : Nat) (e : DrEntry) : (putDr s i e).hung = s.hung := rfl
@[simp] theorem putDr_inCancel (i : Nat) (e : DrEntry) : (putDr s i e).inCancel = s.inCancel := rfl
@[simp] theorem putDr_inRst (i : Nat) (e : DrEntry) : (putDr s i e).inRst = s.inRst := rfl
@[simp] theorem putDr_inRx (i : Nat) (e : DrEntry) : (putDr s i e).inRx = s.inRx := rfl
@[simp] theorem putDr_moves (i : Nat) (e : DrEntry) : (putDr s i e).moves = s.moves := rfl
@[simp] theorem putDr_backends (i : Nat) (e : DrEntry) : (putDr s i e).backends = s.backends := rfl
@[simp] theorem putDr_draws (i : Nat) (e : DrEntry) : (putDr s i e).draws = s.draws := rfl
@[simp] theorem putDr_out (i : Nat) (e : DrEntry) : (putDr s i e).out = s.out := rfl

/-! `clearRx` -/

@[simp] theorem clearRx_status : (clearRx s).status = s.status := rfl
@[simp] theorem clearRx_frState : (clearRx s).frState = s.frState := rfl
@[simp] theorem clearRx_schState : (clearRx s).schState = s.schState := rfl
@[simp] theorem clearRx_err : (clearRx s).err = s.err := rfl
@[simp] theorem clearRx_errInfo : (clearRx s).errInfo = s.errInfo := rfl
@[simp] theorem clearRx_flags : (clearRx s).flags = s.flags := rfl
@[simp] theorem clearRx_cell : (clearRx s).cell = s.cell := rfl
@[simp] theorem clearRx_pool : (clearRx s).pool = s.pool := rfl
@[simp] theorem clearRx_sci : (clearRx s).sci = s.sci := rfl
@[simp] theorem clearRx_opr : (clearRx s).opr = s.opr := rfl
@[simp] theorem clearRx_sciBits : (clearRx s).sciBits = s.sciBits := rfl
@[simp] theorem clearRx_crcBits : (clearRx s).crcBits = s.crcBits := rfl
@[simp] theorem clearRx_frIn : (clearRx s).frIn = s.frIn := rfl
@[simp] theorem clearRx_frOut : (clearRx s).frOut = s.frOut := rfl
@[simp] theorem clearRx_sched : (clearRx s).sched = s.sched := rfl
@[simp] theorem clearRx_rxSfidx : (clearRx s).rxSfidx = s.rxSfidx := rfl
@[simp] theorem clearRx_dr : (clearRx s).dr = Vector.replicate Config.maxSubch {} := rfl
@[simp] theorem clearRx_mem : (clearRx s).mem = clearRxtb s.mem := rfl
@[simp] theorem clearRx_txgrid : (clearRx s).txgrid = s.txgrid := rfl
@[simp] theorem clearRx_rxgrid : (clearRx s).rxgrid = s.rxgrid := rfl
@[simp] theorem clearRx_txsamp : (clearRx s).txsamp = s.txsamp := rfl
@[simp] theorem clearRx_rxsamp : (clearRx s).rxsamp = s.rxsamp := rfl
@[simp] theorem clearRx_handle : (clearRx s).handle = s.handle := rfl
@[simp] theorem clearRx_chestCfg : (clearRx s).chestCfg = s.chestCfg := rfl
@[simp] theorem clearRx_backendCell : (clearRx s).backendCell = s.backendCell := rfl
@[simp] theorem clearRx_psIdx : (clearRx s).psIdx = s.psIdx := rfl
@[simp] theorem clearRx_psShift : (clearRx s).psShift = s.psShift := rfl
@[simp] theorem clearRx_hung : (clearRx s).hung = s.hung := rfl
@[simp] theorem clearRx_inCancel : (clearRx s).inCancel = s.inCancel := rfl
@[simp] theorem clearRx_inRst : (clearRx s).inRst = s.inRst := rfl
@[simp] theorem clearRx_inRx : (clearRx s).inRx = s.inRx := rfl
@[simp] theorem clearRx_moves : (clearRx s).moves = s.moves := rfl
@[simp] theorem clearRx_backends : (clearRx s).backends = s.backends := rfl
@[simp] theorem clearRx_draws : (clearRx s).draws = s.draws := rfl
@[simp] theorem clearRx_out : (clearRx s).out = s.out := rfl

end Sys2Proof.Machine
end

