-- ==== Sys2Proof/Laws/Ops.lean ====
section
/-! SUPPORT. One lemma for each shared operation of Machine/Ops.lean: what a run can end in, what a call on a
collaborator can do, what issue, completion and rejection answer. Later proofs cite these and unfold none of
the operations. -/

namespace Sys2Proof.Machine

/-! ### Runs -/

@[simp] theorem Run.next_value {α β : Type} (a : α) (s : State) (f : α → State → Run β) :
    (Run.value a s).next f = f a s := rfl

@[simp] theorem Run.next_raised {α β : Type} (k : ErrKind) (i : Word) (s : State) (f : α → State → Run β) :
    (Run.raised k i s).next f = .raised k i s := rfl

@[simp] theorem Run.next_hung {α β : Type} (s : State) (f : α → State → Run β) :
    (Run.hung s : Run α).next f = .hung s := rfl

/-- Pieces of pseudocode compose in one order only. -/
theorem Run.next_assoc {α β γ : Type} (r : Run α) (f : α → State → Run β) (g : β → State → Run γ) :
    (r.next f).next g = r.next fun a s => (f a s).next g := by
  cases r <;> rfl

/-- What holds of the state a run ends in: `V` at a value, `R` at a raise, `H` inside an unanswered call. -/
def Run.Post {α : Type} (V : α → State → Prop) (R : ErrKind → Word → State → Prop) (H : State → Prop) :
    Run α → Prop
  | .value a s => V a s
  | .raised k i s => R k i s
  | .hung s => H s

@[simp] theorem Run.post_value {α : Type} {V : α → State → Prop} {R : ErrKind → Word → State → Prop}
    {H : State → Prop} (a : α) (s : State) : (Run.value a s).Post V R H ↔ V a s := Iff.rfl

@[simp] theorem Run.post_raised {α : Type} {V : α → State → Prop} {R : ErrKind → Word → State → Prop}
    {H : State → Prop} (k : ErrKind) (i : Word) (s : State) :
    (Run.raised k i s : Run α).Post V R H ↔ R k i s := Iff.rfl

@[simp] theorem Run.post_hung {α : Type} {V : α → State → Prop} {R : ErrKind → Word → State → Prop}
    {H : State → Prop} (s : State) : (Run.hung s : Run α).Post V R H ↔ H s := Iff.rfl

@[simp] theorem Run.post_done {V : Unit → State → Prop} {R : ErrKind → Word → State → Prop}
    {H : State → Prop} (s : State) : (done s).Post V R H ↔ V () s := Iff.rfl

/-- The rule of sequence for `Run.Post`. -/
theorem Run.Post.next {α β : Type} {V : α → State → Prop} {W : β → State → Prop}
    {R : ErrKind → Word → State → Prop} {H : State → Prop} {r : Run α} {f : α → State → Run β}
    (h : r.Post V R H) (hf : ∀ a s, V a s → (f a s).Post W R H) : (r.next f).Post W R H := by
  cases r with
  | value a s => exact hf a s h
  | raised k i s => exact h
  | hung s => exact h

/-- The rule of consequence for `Run.Post`. -/
theorem Run.Post.mono {α : Type} {V V' : α → State → Prop} {R R' : ErrKind → Word → State → Prop}
    {H H' : State → Prop} {r : Run α} (h : r.Post V R H) (hV : ∀ a s, V a s → V' a s)
    (hR : ∀ k i s, R k i s → R' k i s) (hH : ∀ s, H s → H' s) : r.Post V' R' H' := by
  cases r with
  | value a s => exact hV a s h
  | raised k i s => exact hR k i s h
  | hung s => exact hH s h

/-! ### Calls -/

/-- All that one call with an answer changes: the call goes out, answers and draws are used up. -/
def CallLeaves (c : Call) (s t : State) : Prop :=
  ∃ b d, t = { s with out := .call c :: s.out, backends := b, draws := d }

/-- A call with an answer ends with a value or hangs, and changes only what `CallLeaves` says. -/
theorem ask_post {α : Type} (c : Call) (listed : List (Answer α))
    (rest : List (Answer α) → Backends → Backends) (free : Answer α) (s : State) :
    (ask c listed rest free s).Post (fun _ t => CallLeaves c s t) (fun _ _ _ => False)
      (fun t => CallLeaves c s t) := by
  unfold ask
  split
  · exact ⟨_, _, rfl⟩
  · exact ⟨_, _, rfl⟩
  · split
    · exact ⟨_, _, rfl⟩
    · exact ⟨_, _, rfl⟩

/-- A call whose next answer is listed. -/
@[simp] theorem ask_reply {α : Type} (c : Call) (a : α) (q : List (Answer α))
    (rest : List (Answer α) → Backends → Backends) (free : Answer α) (s : State) :
    ask c (.reply a :: q) rest free s =
      .value a { emit (.call c) s with backends := rest q s.backends } := rfl

/-- A call that is listed as never answered. -/
@[simp] theorem ask_never {α : Type} (c : Call) (q : List (Answer α))
    (rest : List (Answer α) → Backends → Backends) (free : Answer α) (s : State) :
    ask c (.never :: q) rest free s = .hung { emit (.call c) s with backends := rest q s.backends } := rfl

/-- The span a backend answers is at most the span asked for (60_exceptions.md R292). -/
theorem askValidSpan_post (req : Nat) (s : State) :
    (askValidSpan req s).Post (fun v t => v ≤ req ∧ CallLeaves (.getValidResourceSpan req) s t)
      (fun _ _ _ => False) (fun t => CallLeaves (.getValidResourceSpan req) s t) :=
  (ask_post _ _ _ _ _).next fun v _ h => ⟨Nat.min_le_right v req, h⟩

/-- A clock read is below `2^32` seconds with a fraction below `FRAC_UNITS` (60_exceptions.md R295). -/
theorem askTime_post (s : State) :
    (askTime s).Post
      (fun x t => x.sec < 2 ^ 32 ∧ x.frac < Config.fracUnits ∧ CallLeaves (.getTime s.handle) s t)
      (fun _ _ _ => False) (fun t => CallLeaves (.getTime s.handle) s t) :=
  (ask_post _ _ _ _ _).next fun x _ h => by
    refine ⟨?_, ?_, h⟩
    · simp only [clockContract]
      omega
    · simp only [clockContract, Config.fracUnits_eq]
      omega

/-! ### The default span oracle (93_implementation_defined.md U9) -/

/-- Taking a factor out loses nothing but powers of it. -/
theorem withoutFactor_dvd (p fuel m : Nat) : ∃ k, m = p ^ k * withoutFactor p fuel m := by
  induction fuel generalizing m with
  | zero => exact ⟨0, by simp [withoutFactor]⟩
  | succ fuel ih =>
    unfold withoutFactor
    split
    · rename_i h
      obtain ⟨k, hk⟩ := ih (m / p)
      refine ⟨k + 1, ?_⟩
      rw [pow_succ', mul_assoc, ← hk, Nat.mul_div_cancel' (Nat.dvd_of_mod_eq_zero h)]
    · exact ⟨0, by simp⟩

/-- Every factor `p` is taken out, given enough divisions. -/
theorem withoutFactor_pow {p k fuel r : Nat} (hp : 2 ≤ p) (hf : k ≤ fuel) (hr : r % p ≠ 0) :
    withoutFactor p fuel (p ^ k * r) = r := by
  induction k generalizing fuel with
  | zero => cases fuel <;> simp [withoutFactor, hr]
  | succ k ih =>
    cases fuel with
    | zero => omega
    | succ fuel =>
      have h : p ^ (k + 1) * r = p * (p ^ k * r) := by rw [pow_succ', mul_assoc]
      rw [h, withoutFactor, if_pos (Nat.mul_mod_right p _), Nat.mul_div_cancel_left _ (by omega)]
      exact ih (by omega)

/-- The sizes of U9 are those of the form `2^a × 3^b × 5^c`. -/
theorem isValidSize_iff (m : Nat) : isValidSize m = true ↔ ∃ a b c, m = 2 ^ a * 3 ^ b * 5 ^ c := by
  simp only [isValidSize, Bool.and_eq_true, decide_eq_true_eq]
  constructor
  · rintro ⟨-, h⟩
    obtain ⟨a, ha⟩ := withoutFactor_dvd 2 m m
    obtain ⟨b, hb⟩ := withoutFactor_dvd 3 m (withoutFactor 2 m m)
    obtain ⟨c, hc⟩ := withoutFactor_dvd 5 m (withoutFactor 3 m (withoutFactor 2 m m))
    rw [h, mul_one] at hc
    exact ⟨a, b, c, by rw [mul_assoc, ← hc, ← hb, ← ha]⟩
  · rintro ⟨a, b, c, rfl⟩
    have h0 : 0 < 2 ^ a * 3 ^ b * 5 ^ c := by positivity
    have ha : a ≤ 2 ^ a * 3 ^ b * 5 ^ c := a.lt_two_pow_self.le.trans
      ((Nat.le_mul_of_pos_right _ (by positivity)).trans (Nat.le_mul_of_pos_right _ (by positivity)))
    have hb : b ≤ 2 ^ a * 3 ^ b * 5 ^ c := (b.lt_pow_self (by omega)).le.trans
      ((Nat.le_mul_of_pos_left _ (by positivity)).trans (Nat.le_mul_of_pos_right _ (by positivity)))
    have hc : c ≤ 2 ^ a * 3 ^ b * 5 ^ c := (c.lt_pow_self (by omega)).le.trans
      (Nat.le_mul_of_pos_left _ (by positivity))
    refine ⟨h0.ne', ?_⟩
    generalize hm : 2 ^ a * 3 ^ b * 5 ^ c = m at *
    have h3 : 3 ^ b * 5 ^ c % 2 ≠ 0 := fun h => by
      rcases Nat.prime_two.dvd_mul.mp (Nat.dvd_of_mod_eq_zero h) with h | h <;>
        exact absurd (Nat.prime_two.dvd_of_dvd_pow h) (by decide)
    have h5 : 5 ^ c % 3 ≠ 0 := fun h =>
      absurd (Nat.prime_three.dvd_of_dvd_pow (Nat.dvd_of_mod_eq_zero h)) (by decide)
    have e2 := withoutFactor_pow (by decide) ha h3
    rw [← mul_assoc, hm] at e2
    have e5 := withoutFactor_pow (p := 5) (r := 1) (by decide) hc (by decide)
    rw [mul_one] at e5
    rw [e2, withoutFactor_pow (by decide) hb h5, e5]

/-- The default answer keeps the contract (60_exceptions.md R292). -/
theorem spanDefault_le (req : Nat) : spanDefault req ≤ req := by
  induction req with
  | zero => exact Nat.le_refl 0
  | succ n ih =>
    unfold spanDefault
    split <;> omega

/-- No valid size within the request is larger than the default answer. -/
theorem spanDefault_largest {m req : Nat} (hm : isValidSize m = true) (h : m ≤ req) :
    m ≤ spanDefault req := by
  induction req with
  | zero => omega
  | succ n ih =>
    unfold spanDefault
    split
    · exact h
    · rename_i hn
      exact ih (by rcases Nat.lt_or_eq_of_le h with h | rfl; omega; exact absurd hm hn)

/-- For a request of 1 or more the default answer is a valid size, so it is never 0. -/
theorem isValidSize_spanDefault {req : Nat} (h : 1 ≤ req) : isValidSize (spanDefault req) = true := by
  induction req with
  | zero => omega
  | succ n ih =>
    unfold spanDefault
    split
    · assumption
    · rename_i hn
      rcases Nat.eq_zero_or_pos n with rfl | hp
      · exact absurd (by decide) hn
      · exact ih hp
/-! ### Issue, completion, rejection -/

theorem issue_busy {i : Instr} {rule : State → State} {s : State} (h : s.status.busy = true) :
    issue i rule s = setOvr s := by
  simp [issue, h]

theorem issue_illegal {i : Instr} {rule : State → State} {s : State} (h : s.status.busy = false)
    (hi : indexLegal i s = false) : issue i rule s = reject .illegalCommand (encode i) s := by
  simp [issue, h, hi]

theorem issue_sequence {i : Instr} {rule : State → State} {s : State} (h : s.status.busy = false)
    (hi : indexLegal i s = true) (ha : acceptable i s = false) :
    issue i rule s = reject .sequenceError (encode i) s := by
  simp [issue, h, hi, ha]

theorem issue_accepted {i : Instr} {rule : State → State} {s : State} (h : s.status.busy = false)
    (hi : indexLegal i s = true) (ha : acceptable i s = true) : issue i rule s = rule (accept s) := by
  simp [issue, h, hi, ha]

/-- Everything the issue of a command can do. -/
theorem issue_cases (i : Instr) (rule : State → State) (s : State) :
    (s.status.busy = true ∧ issue i rule s = setOvr s) ∨
      (s.status.busy = false ∧ indexLegal i s = false ∧
        issue i rule s = reject .illegalCommand (encode i) s) ∨
      (s.status.busy = false ∧ indexLegal i s = true ∧ acceptable i s = false ∧
        issue i rule s = reject .sequenceError (encode i) s) ∨
      (s.status.busy = false ∧ indexLegal i s = true ∧ acceptable i s = true ∧
        issue i rule s = rule (accept s)) := by
  cases hb : s.status.busy with
  | true => exact .inl ⟨rfl, issue_busy hb⟩
  | false =>
    cases hi : indexLegal i s with
    | false => exact .inr (.inl ⟨rfl, rfl, issue_illegal hb hi⟩)
    | true =>
      cases ha : acceptable i s with
      | false => exact .inr (.inr (.inl ⟨rfl, rfl, rfl, issue_sequence hb hi ha⟩))
      | true => exact .inr (.inr (.inr ⟨rfl, rfl, rfl, issue_accepted hb hi ha⟩))

@[simp] theorem finish_value (u : Unit) (s : State) : finish (.value u s) = completeOk s := rfl
@[simp] theorem finish_raised (k : ErrKind) (i : Word) (s : State) :
    finish (.raised k i s) = takeError k i s := rfl
@[simp] theorem finish_hung (s : State) : finish (.hung s) = hang s := rfl
@[simp] theorem finish_done (s : State) : finish (done s) = completeOk s := rfl

/-- A completion without error writes these fields and no other (60_exceptions.md R276). -/
theorem completeOk_eq (s : State) :
    completeOk s =
      { s with
        err := 0
        errInfo := 0
        status := { s.status with errv := false, busy := false, done := true }
        out := .pulse .evDone :: s.out } := rfl

/-- A completion with an error writes these fields and no other (60_exceptions.md R276). -/
theorem takeError_eq (k : ErrKind) (i : Word) (s : State) :
    takeError k i s =
      { s with
        err := k.code
        errInfo := i
        status := { s.status with errv := true, busy := false, done := true }
        out := .pulse .evErr :: .pulse .evDone :: s.out } := by
  cases k <;> rfl

/-- Acceptance writes these fields and no other (60_exceptions.md R276). -/
theorem accept_eq (s : State) :
    accept s = { s with status := { s.status with done := false, busy := true } } := rfl

end Sys2Proof.Machine
end

