-- ==== Sys2Proof/Laws/Exec.lean ====
section
/-! SUPPORT. One lemma for each command: a command issued while the block is not busy, in a state that
accepts it, is its rule run on the accepted state (30_encoding.md R105, R109). Proofs about a command start
from its lemma here and never unfold the issue. -/

namespace Sys2Proof.Machine

theorem exec_nop {s : State} (h : s.status.busy = false) :
    exec .nop s = .next (completeOk (accept s)) :=
  congrArg _ (issue_accepted h rfl rfl)

theorem exec_cellSet {s : State} (h : s.status.busy = false) :
    exec .cellSet s = .next (finish (ruleCellSet (accept s))) :=
  congrArg _ (issue_accepted h rfl rfl)

theorem exec_poolDefault {s : State} (h : s.status.busy = false) :
    exec .poolDefault s = .next (finish (rulePoolDefault (accept s))) :=
  congrArg _ (issue_accepted h rfl rfl)

theorem exec_poolCheck {s : State} (h : s.status.busy = false) :
    exec .poolCheck s = .next (finish (rulePoolCheck (accept s))) :=
  congrArg _ (issue_accepted h rfl rfl)

theorem exec_resv2code {s : State} (h : s.status.busy = false) :
    exec .resv2code s = .next (finish (ruleResv2code (accept s))) :=
  congrArg _ (issue_accepted h rfl rfl)

theorem exec_code2resv {s : State} (h : s.status.busy = false) :
    exec .code2resv s = .next (finish (ruleCode2resv (accept s))) :=
  congrArg _ (issue_accepted h rfl rfl)

theorem exec_rivEnc {s : State} (h : s.status.busy = false) :
    exec .rivEnc s = .next (finish (ruleRivEnc (accept s))) :=
  congrArg _ (issue_accepted h rfl rfl)

theorem exec_rivDec {s : State} (h : s.status.busy = false) :
    exec .rivDec s = .next (finish (ruleRivDec (accept s))) :=
  congrArg _ (issue_accepted h rfl rfl)

theorem exec_sciPack {s : State} (h : s.status.busy = false) :
    exec .sciPack s = .next (finish (ruleSciPack (accept s))) :=
  congrArg _ (issue_accepted h rfl rfl)

theorem exec_sciUnpack {s : State} (h : s.status.busy = false) :
    exec .sciUnpack s = .next (finish (ruleSciUnpack (accept s))) :=
  congrArg _ (issue_accepted h rfl rfl)

theorem exec_crc2id {s : State} (h : s.status.busy = false) :
    exec .crc2id s = .next (finish (ruleCrc2id (accept s))) :=
  congrArg _ (issue_accepted h rfl rfl)

theorem exec_frBuild {s : State} (h : s.status.busy = false) (hc : s.status.cellv = true)
    (hp : s.status.poolv = true) (hf : s.status.frfail = false) (he : s.frState = .empty) :
    exec .frBuild s = .next (finishFramer (ruleFrBuild (accept s))) :=
  congrArg _ (issue_accepted h rfl (by simp [acceptable, hc, hp, hf, he]))

theorem exec_frCtrl {s : State} (h : s.status.busy = false) (hc : s.status.cellv = true)
    (hp : s.status.poolv = true) (hf : s.status.frfail = false) (he : s.frState = .empty) :
    exec .frCtrl s = .next (finishFramer (ruleFrCtrl (accept s))) :=
  congrArg _ (issue_accepted h rfl (by simp [acceptable, hc, hp, hf, he]))

theorem exec_frData {s : State} (h : s.status.busy = false) (hc : s.status.cellv = true)
    (hp : s.status.poolv = true) (hf : s.status.frfail = false) (he : s.frState = .controlPlaced) :
    exec .frData s = .next (finishFramer (ruleFrData (accept s))) :=
  congrArg _ (issue_accepted h rfl (by simp [acceptable, hc, hp, hf, he]))

theorem exec_frMod {s : State} (h : s.status.busy = false) (hc : s.status.cellv = true)
    (hf : s.status.frfail = false) (he : s.frState = .dataPlaced) :
    exec .frMod s = .next (finishFramer (frStep6 (accept s))) :=
  congrArg _ (issue_accepted h rfl (by simp [acceptable, hc, hf, he]))

theorem exec_frClear {s : State} (h : s.status.busy = false) :
    exec .frClear s = .next (finish (ruleFrClear (accept s))) :=
  congrArg _ (issue_accepted h rfl rfl)

theorem exec_rxDemod {s : State} (h : s.status.busy = false) (hc : s.status.cellv = true) :
    exec .rxDemod s = .next (finish (ruleRxDemod (accept s))) :=
  congrArg _ (issue_accepted h rfl (by simp [acceptable, hc]))

theorem exec_rxLoop {s : State} (h : s.status.busy = false) (hc : s.status.cellv = true)
    (hf : s.status.frfail = false) :
    exec .rxLoop s = .next (completeOk { accept s with rxgrid := s.txgrid }) :=
  congrArg _ (issue_accepted h rfl (by simp [acceptable, hc, hf]))

theorem exec_parseSubch {idx : Nat} {s : State} (h : s.status.busy = false) (hi : idx < opN s)
    (hc : s.status.cellv = true) (hp : s.status.poolv = true) :
    exec (.parseSubch idx) s = .next (finish (scan idx (accept s))) :=
  congrArg _ (issue_accepted h (by simp [indexLegal, hi]) (by simp [acceptable, hc, hp]))

theorem exec_parseAll {s : State} (h : s.status.busy = false) (hc : s.status.cellv = true)
    (hp : s.status.poolv = true) :
    exec .parseAll s = .next (finish (scanList (List.range (opN s)) (accept s))) :=
  congrArg _ (issue_accepted h rfl (by simp [acceptable, hc, hp]))

theorem exec_rxClear {s : State} (h : s.status.busy = false) :
    exec .rxClear s = .next (completeOk (clearRx (accept s))) :=
  congrArg _ (issue_accepted h rfl rfl)

theorem exec_radioOpen {s : State} (h : s.status.busy = false) (hr : s.status.radio = false) :
    exec .radioOpen s = .next (finish (ruleRadioOpen (accept s))) :=
  congrArg _ (issue_accepted h rfl (by simp [acceptable, hr]))

theorem exec_radioClose {s : State} (h : s.status.busy = false) (hr : s.status.radio = true) :
    exec .radioClose s = .next (completeOk { callRadioClose (accept s) with status.radio := false }) :=
  congrArg _ (issue_accepted h rfl (by simp [acceptable, hr]))

theorem exec_schCancel {s : State} (h : s.status.busy = false) :
    exec .schCancel s = .next (completeOk (setCancel (accept s))) := by
  simp only [exec, execSchCancel, h, Bool.false_eq_true, if_false]
  exact congrArg _ (issue_accepted h rfl rfl)

theorem exec_clrFlags {s : State} (h : s.status.busy = false) :
    exec .clrFlags s = .next (completeOk { accept s with flags := {} }) :=
  congrArg _ (issue_accepted h rfl rfl)

theorem exec_softReset {s : State} (h : s.status.busy = false) :
    exec .softReset s = .next (finish (ruleSoftReset (accept s))) :=
  congrArg _ (issue_accepted h rfl rfl)

theorem exec_schStart {s : State} (h : s.status.busy = false) (hr : s.status.radio = true)
    (hf : s.status.frfail = false) (he : s.frState = .ready) :
    exec .schStart s = .next
      (if stepLegal (opStep s) then runScheduler (ruleSchStart (accept s))
        else takeError .invalidConfiguration 6 (accept s)) :=
  congrArg _ (issue_accepted h rfl (by simp [acceptable, hr, hf, he]))

/-! What a completion leaves, in the words of the statements (Safety.lean). -/

theorem completeOk_afterOk (s : State) : completeOk s = afterOk s := rfl

theorem takeError_afterError (k : ErrKind) (i : Word) (s : State) :
    takeError k i s = afterError k.code i s := takeError_eq k i s

theorem accept_inExecution (s : State) : accept s = inExecution s := rfl

/-- A framer command's failure, in the words of the statements. -/
theorem finishFramer_raised (k : ErrKind) (i : Word) (s : State) :
    finishFramer (.raised k i s) = afterError k.code i (frameDiscarded s) := takeError_eq k i _

@[simp] theorem finishFramer_value (u : Unit) (s : State) : finishFramer (.value u s) = afterOk s := rfl

@[simp] theorem finishFramer_hung (s : State) : finishFramer (.hung s) = hang s := rfl

/-- Termination but for the completion, in the words of the statements. -/
theorem terminate_released (s : State) : terminate s = released s := rfl

end Sys2Proof.Machine
end

