-- ==== Sys2Proof/Laws/Framer.lean ====
section
/-! SUPPORT. Everything each step of the framer can do, once (42_framer_tx.md R162 to R167): where it ends,
which fields it has written by then, and that what it puts on the ports are calls. -/

namespace Sys2Proof.Machine

/-- `o'` is `o` with some calls put before it. -/
def CallsBefore (o o' : List Out) : Prop := ∃ l : List Call, o' = l.map Out.call ++ o

theorem CallsBefore.refl (o : List Out) : CallsBefore o o := ⟨[], rfl⟩

theorem CallsBefore.cons {o o' : List Out} (c : Call) (h : CallsBefore o o') :
    CallsBefore o (.call c :: o') := by
  obtain ⟨l, rfl⟩ := h
  exact ⟨c :: l, rfl⟩

theorem CallsBefore.trans {o o' o'' : List Out} (h : CallsBefore o o') (h' : CallsBefore o' o'') :
    CallsBefore o o'' := by
  obtain ⟨l, rfl⟩ := h
  obtain ⟨l', rfl⟩ := h'
  exact ⟨l' ++ l, by simp⟩

/-- A call puts itself on the ports. -/
theorem CallLeaves.callsBefore {c : Call} {s t : State} (h : CallLeaves c s t) :
    CallsBefore s.out t.out := by
  obtain ⟨b, d, rfl⟩ := h
  exact (CallsBefore.refl s.out).cons c

/-- Step 1 raises before any write, or writes `SCI_RIV` only (42_framer_tx.md R162). -/
theorem frStep1_post (s : State) :
    (frStep1 s).Post
      (fun _ t => (1 ≤ opLen s ∧ opStart s + opLen s ≤ opN s) ∧
        t = { s with sci.riv := BitVec.ofNat 8 (rivEncode (opN s) (opStart s) (opLen s)) })
      (fun k i t => k = .malformedControlInfo ∧ i = 4 ∧ t = s) (fun _ => False) := by
  unfold frStep1
  split
  · exact ⟨rfl, rfl, rfl⟩
  · exact ⟨by omega, rfl⟩

/-- Step 2: what it has written where it ends (42_framer_tx.md R163). -/
theorem frStep2_post (s : State) :
    (frStep2 s).Post
      (fun _ t => ∃ bits g cfg b d o, CallsBefore s.out o ∧
        t = { s with
              sciBits := bits, txgrid := g, chestCfg := cfg, frState := .controlPlaced, backends := b
              draws := d, out := o, frOut.ctrlOff := BitVec.ofNat 8 (opStart s * opW s) })
      (fun k _ t => (k = .malformedControlInfo ∨ k = .backendFailure) ∧ ∃ bits b d o,
        CallsBefore s.out o ∧ t = { s with sciBits := bits, backends := b, draws := d, out := o })
      (fun t => ∃ bits g cfg off b d o, CallsBefore s.out o ∧
        t = { s with
              sciBits := bits, txgrid := g, chestCfg := cfg, backends := b, draws := d, out := o
              frOut.ctrlOff := off }) := by
  unfold frStep2
  split
  · exact ⟨.inl rfl, s.sciBits, s.backends, s.draws, s.out, .refl _, rfl⟩
  · refine ((ask_post _ _ _ _ _).mono (fun _ _ h => h) (fun _ _ _ h => h.elim)
      (fun t h => ?_)).next fun r t h => ?_
    · have ho := h.callsBefore
      obtain ⟨b, d, rfl⟩ := h
      exact ⟨_, s.txgrid, s.chestCfg, s.frOut.ctrlOff, b, d, _, ho, rfl⟩
    · have ho := h.callsBefore
      obtain ⟨b, d, rfl⟩ := h
      cases r with
      | none => exact ⟨.inr rfl, _, b, d, _, ho, rfl⟩
      | some p =>
        refine ((ask_post _ _ _ _ _).mono (fun _ _ h => h) (fun _ _ _ h => h.elim)
          (fun t h => ?_)).next fun r t h => ?_
        · have ho' := h.callsBefore
          obtain ⟨b', d', rfl⟩ := h
          exact ⟨_, _, _, _, b', d', _, ho.trans ((CallsBefore.refl _).cons _ |>.trans ho'), rfl⟩
        · have ho' := h.callsBefore
          obtain ⟨b', d', rfl⟩ := h
          exact ⟨_, r, _, b', d', _, ho.trans ((CallsBefore.refl _).cons _ |>.trans ho'), rfl⟩

/-- Step 4: the span granted is neither 0 nor more than was asked for (42_framer_tx.md R165). -/
theorem frStep4_post (s : State) :
    (frStep4 s).Post
      (fun _ t => ∃ v b d o, 0 < v ∧ v ≤ frReq s ∧ CallsBefore s.out o ∧
        t = { s with backends := b, draws := d, out := o, frOut.dataNprb := BitVec.ofNat 8 v })
      (fun k i t => k = .noValidDataResources ∧ i = BitVec.ofNat 32 (frReq s) ∧ ∃ b d o,
        CallsBefore s.out o ∧ t = { s with backends := b, draws := d, out := o })
      (fun t => ∃ b d o, CallsBefore s.out o ∧ t = { s with backends := b, draws := d, out := o }) := by
  unfold frStep4
  simp only
  split
  · exact ⟨rfl, rfl, s.backends, s.draws, s.out, .refl _, rfl⟩
  · refine ((askValidSpan_post _ _).mono (fun _ _ h => h) (fun _ _ _ h => h.elim)
      (fun t h => ?_)).next fun v t h => ?_
    · have ho := h.callsBefore
      obtain ⟨b, d, rfl⟩ := h
      exact ⟨b, d, _, ho, rfl⟩
    · obtain ⟨hv, h⟩ := h
      have ho := h.callsBefore
      obtain ⟨b, d, rfl⟩ := h
      simp only
      split
      · exact ⟨rfl, rfl, b, d, _, ho, rfl⟩
      · exact ⟨v, b, d, _, by omega, hv, ho, rfl⟩

/-- Step 5: what it has written where it ends (42_framer_tx.md R166). -/
theorem frStep5_post (s : State) :
    (frStep5 s).Post
      (fun _ t => ∃ rv g cfg b d o, CallsBefore s.out o ∧
        t = { s with
              txgrid := g, chestCfg := cfg, frState := .dataPlaced, backends := b, draws := d, out := o
              frOut.dataStart := BitVec.ofNat 8 (frDataStart s), frOut.rv := rv })
      (fun k _ t => k = .backendFailure ∧ ∃ rv b d o, CallsBefore s.out o ∧
        t = { s with
              backends := b, draws := d, out := o
              frOut.dataStart := BitVec.ofNat 8 (frDataStart s), frOut.rv := rv })
      (fun t => ∃ rv g cfg b d o, CallsBefore s.out o ∧
        t = { s with
              txgrid := g, chestCfg := cfg, backends := b, draws := d, out := o
              frOut.dataStart := BitVec.ofNat 8 (frDataStart s), frOut.rv := rv }) := by
  unfold frStep5
  refine ((ask_post _ _ _ _ _).mono (fun _ _ h => h) (fun _ _ _ h => h.elim)
    (fun t h => ?_)).next fun r t h => ?_
  · have ho := h.callsBefore
    obtain ⟨b, d, rfl⟩ := h
    exact ⟨_, s.txgrid, s.chestCfg, b, d, _, ho, rfl⟩
  · have ho := h.callsBefore
    obtain ⟨b, d, rfl⟩ := h
    cases r with
    | none => exact ⟨rfl, _, b, d, _, ho, rfl⟩
    | some g =>
      refine ((ask_post _ _ _ _ _).mono (fun _ _ h => h) (fun _ _ _ h => h.elim)
        (fun t h => ?_)).next fun r t h => ?_
      · have ho' := h.callsBefore
        obtain ⟨b', d', rfl⟩ := h
        exact ⟨_, g, _, b', d', _, ho.trans ((CallsBefore.refl _).cons _ |>.trans ho'), rfl⟩
      · have ho' := h.callsBefore
        obtain ⟨b', d', rfl⟩ := h
        exact ⟨_, r, _, b', d', _, ho.trans ((CallsBefore.refl _).cons _ |>.trans ho'), rfl⟩

/-- Step 6 cannot fail (42_framer_tx.md R167). -/
theorem frStep6_post (s : State) :
    (frStep6 s).Post
      (fun _ t => ∃ x b d o, CallsBefore s.out o ∧
        t = { s with
              txsamp := x, txgrid := zeroGrid s, frState := .ready, backends := b, draws := d, out := o })
      (fun _ _ _ => False)
      (fun t => ∃ b d o, CallsBefore s.out o ∧ t = { s with backends := b, draws := d, out := o }) := by
  unfold frStep6
  refine ((ask_post _ _ _ _ _).mono (fun _ _ h => h) (fun _ _ _ h => h.elim)
    (fun t h => ?_)).next fun r t h => ?_
  · have ho := h.callsBefore
    obtain ⟨b, d, rfl⟩ := h
    exact ⟨b, d, _, ho, rfl⟩
  · have ho := h.callsBefore
    obtain ⟨b, d, rfl⟩ := h
    exact ⟨r, b, d, _, ho, rfl⟩

/-! ### The three commands' rules -/

/-- `FR_CTRL`'s rule, steps 1 to 3 (42_framer_tx.md R169). -/
theorem ruleFrCtrl_post (s : State) :
    (ruleFrCtrl s).Post
      (fun _ t => (1 ≤ opLen s ∧ opStart s + opLen s ≤ opN s) ∧
        ∃ riv bits crc id g cfg b d o, CallsBefore s.out o ∧
          t = { s with
                sci.riv := riv, sciBits := bits, crcBits := crc, txgrid := g, chestCfg := cfg
                frState := .controlPlaced, backends := b, draws := d, out := o
                frOut.ctrlOff := BitVec.ofNat 8 (opStart s * opW s), frOut.scrid := id })
      (fun k _ t => (k = .malformedControlInfo ∨ k = .backendFailure) ∧ ∃ riv bits b d o,
        CallsBefore s.out o ∧
        t = { s with sci.riv := riv, sciBits := bits, backends := b, draws := d, out := o })
      (fun t => ∃ riv bits g cfg off b d o, CallsBefore s.out o ∧
        t = { s with
              sci.riv := riv, sciBits := bits, txgrid := g, chestCfg := cfg, backends := b, draws := d
              out := o, frOut.ctrlOff := off }) := by
  unfold ruleFrCtrl
  refine ((frStep1_post s).mono (fun _ _ h => h) (fun k i t h => ?_) (fun _ h => h.elim)).next
    fun _ t h => ?_
  · obtain ⟨rfl, -, rfl⟩ := h
    exact ⟨.inl rfl, t.sci.riv, t.sciBits, t.backends, t.draws, t.out, .refl _, rfl⟩
  · obtain ⟨hv, rfl⟩ := h
    refine ((frStep2_post _).mono (fun _ _ h => h) (fun k i t h => ?_) (fun t h => ?_)).next
      fun cw t h => ?_
    · obtain ⟨hk, bits, b, d, o, ho, rfl⟩ := h
      exact ⟨hk, _, bits, b, d, o, ho, rfl⟩
    · obtain ⟨bits, g, cfg, off, b, d, o, ho, rfl⟩ := h
      exact ⟨_, bits, g, cfg, off, b, d, o, ho, rfl⟩
    · obtain ⟨bits, g, cfg, b, d, o, ho, rfl⟩ := h
      exact ⟨hv, _, bits, _, _, g, cfg, b, d, o, ho, rfl⟩

/-- `FR_DATA`'s rule, steps 4 and 5 (42_framer_tx.md R170). -/
theorem ruleFrData_post (s : State) :
    (ruleFrData s).Post
      (fun _ t => ∃ v rv g cfg b d o, 0 < v ∧ v ≤ frReq s ∧ CallsBefore s.out o ∧
        t = { s with
              txgrid := g, chestCfg := cfg, frState := .dataPlaced, backends := b, draws := d, out := o
              frOut.dataNprb := BitVec.ofNat 8 v
              frOut.dataStart := BitVec.ofNat 8 (frDataStart s), frOut.rv := rv })
      (fun k _ t => (k = .noValidDataResources ∨ k = .backendFailure) ∧ ∃ fo b d o,
        CallsBefore s.out o ∧ t = { s with frOut := fo, backends := b, draws := d, out := o })
      (fun t => ∃ fo g cfg b d o, CallsBefore s.out o ∧
        t = { s with
              frOut := fo, txgrid := g, chestCfg := cfg, backends := b, draws := d, out := o }) := by
  unfold ruleFrData
  refine ((frStep4_post s).mono (fun _ _ h => h) (fun k i t h => ?_) (fun t h => ?_)).next
    fun _ t h => ?_
  · obtain ⟨rfl, -, b, d, o, ho, rfl⟩ := h
    exact ⟨.inl rfl, s.frOut, b, d, o, ho, rfl⟩
  · obtain ⟨b, d, o, ho, rfl⟩ := h
    exact ⟨s.frOut, s.txgrid, s.chestCfg, b, d, o, ho, rfl⟩
  · obtain ⟨v, b, d, o, hv, hr, ho, rfl⟩ := h
    refine (frStep5_post _).mono (fun _ t h => ?_) (fun k i t h => ?_) (fun t h => ?_)
    · obtain ⟨rv, g, cfg, b', d', o', ho', rfl⟩ := h
      exact ⟨v, rv, g, cfg, b', d', o', hv, hr, ho.trans ho', rfl⟩
    · obtain ⟨rfl, rv, b', d', o', ho', rfl⟩ := h
      exact ⟨.inr rfl, _, b', d', o', ho.trans ho', rfl⟩
    · obtain ⟨rv, g, cfg, b', d', o', ho', rfl⟩ := h
      exact ⟨_, g, cfg, b', d', o', ho.trans ho', rfl⟩

/-- The framer's own fields after a command of the framer, all others as before. -/
def FramerLeaves (fr : FrState) (s t : State) : Prop :=
  ∃ riv bits crc fo g x cfg b d o, CallsBefore s.out o ∧
    t = { s with
          sci.riv := riv, sciBits := bits, crcBits := crc, frOut := fo, txgrid := g, txsamp := x
          chestCfg := cfg, frState := fr, backends := b, draws := d, out := o }

/-- `FR_BUILD`'s rule, steps 1 to 6 (42_framer_tx.md R168): on success the frame is `READY` with the
placements of R174; a raise or an unanswered call leaves it before `READY` and `TXSAMP` as it was. -/
theorem ruleFrBuild_post (s : State) :
    (ruleFrBuild s).Post
      (fun _ t => FramerLeaves .ready s t ∧ (1 ≤ opLen s ∧ opStart s + opLen s ≤ opN s) ∧
        t.frOut.ctrlOff = BitVec.ofNat 8 (opStart s * opW s) ∧
        t.frOut.dataStart = BitVec.ofNat 8 (frDataStart s) ∧
        ∃ v, 0 < v ∧ v ≤ frReq s ∧ t.frOut.dataNprb = BitVec.ofNat 8 v)
      (fun k _ t => (k = .malformedControlInfo ∨ k = .backendFailure ∨ k = .noValidDataResources) ∧
        t.txsamp = s.txsamp ∧ (FramerLeaves s.frState s t ∨ FramerLeaves .controlPlaced s t))
      (fun t => t.txsamp = s.txsamp ∧
        (FramerLeaves s.frState s t ∨ FramerLeaves .controlPlaced s t ∨ FramerLeaves .dataPlaced s t)) := by
  unfold ruleFrBuild
  refine ((ruleFrCtrl_post s).mono (fun _ _ h => h) (fun k i t h => ?_) (fun t h => ?_)).next
    fun _ t h => ?_
  · obtain ⟨hk, riv, bits, b, d, o, ho, rfl⟩ := h
    exact ⟨hk.imp_right .inl, rfl, .inl ⟨riv, bits, s.crcBits, s.frOut, s.txgrid, s.txsamp, s.chestCfg, b, d, o,
      ho, rfl⟩⟩
  · obtain ⟨riv, bits, g, cfg, off, b, d, o, ho, rfl⟩ := h
    exact ⟨rfl, .inl ⟨riv, bits, s.crcBits, _, g, s.txsamp, cfg, b, d, o, ho, rfl⟩⟩
  · obtain ⟨hv, riv, bits, crc, id, g, cfg, b, d, o, ho, rfl⟩ := h
    refine ((ruleFrData_post _).mono (fun _ _ h => h) (fun k i t h => ?_) (fun t h => ?_)).next
      fun _ t h => ?_
    · obtain ⟨hk, fo, b', d', o', ho', rfl⟩ := h
      exact ⟨hk.elim (fun h => .inr (.inr h)) (fun h => .inr (.inl h)), rfl,
        .inr ⟨riv, bits, crc, fo, g, s.txsamp, cfg, b', d', o', ho.trans ho', rfl⟩⟩
    · obtain ⟨fo, g', cfg', b', d', o', ho', rfl⟩ := h
      exact ⟨rfl, .inr (.inl ⟨riv, bits, crc, fo, g', s.txsamp, cfg', b', d', o', ho.trans ho', rfl⟩)⟩
    · obtain ⟨v, rv, g', cfg', b', d', o', h0, hr, ho', rfl⟩ := h
      refine (frStep6_post _).mono (fun _ t h => ?_) (fun _ _ _ h => h.elim) (fun t h => ?_)
      · obtain ⟨x, b'', d'', o'', ho'', rfl⟩ := h
        exact ⟨⟨riv, bits, crc, _, _, x, cfg', b'', d'', o'', (ho.trans ho').trans ho'', rfl⟩, hv, rfl, rfl,
          v, h0, hr, rfl⟩
      · obtain ⟨b'', d'', o'', ho'', rfl⟩ := h
        exact ⟨rfl, .inr (.inr ⟨riv, bits, crc, _, g', s.txsamp, cfg', b'', d'', o'',
          (ho.trans ho').trans ho'', rfl⟩)⟩

end Sys2Proof.Machine
end

