-- ==== Sys2Proof/Laws/Memory.lean ====
section
/-! SUPPORT. The payload memory: reads after writes, and that every operation keeps the canonical form. -/

namespace Sys2Proof.Machine

theorem canonicalFrom_weaken {m : List Host.Cell} {lo lo' : Nat} (h : canonicalFrom lo m = true)
    (hl : lo' ≤ lo) : canonicalFrom lo' m = true := by
  cases m with
  | nil => rfl
  | cons c rest =>
    simp only [canonicalFrom, Bool.and_eq_true, decide_eq_true_eq] at h ⊢
    exact ⟨⟨le_trans hl h.1.1, h.1.2⟩, h.2⟩

theorem canonicalFrom_cons {lo a : Nat} {v : Byte} {rest : List Host.Cell} :
    canonicalFrom lo ((a, v) :: rest) = true ↔
      lo ≤ a ∧ v ≠ unlistedByte ∧ canonicalFrom (a + 1) rest = true := by
  simp [canonicalFrom, and_assoc]

/-- Below the first listed address everything reads as unlisted. -/
theorem readByte_below {m : List Host.Cell} {lo a : Nat} (h : canonicalFrom lo m = true) (ha : a < lo) :
    readByte m a = unlistedByte := by
  induction m generalizing lo with
  | nil => rfl
  | cons c rest ih =>
    obtain ⟨b, w⟩ := c
    obtain ⟨h1, -, h3⟩ := canonicalFrom_cons.mp h
    simp only [readByte]
    rw [if_neg (by omega)]
    exact ih h3 (by omega)

/-- A byte write keeps the canonical form. -/
theorem canonicalFrom_writeByte {m : List Host.Cell} {lo a : Nat} (v : Byte)
    (h : canonicalFrom lo m = true) (ha : lo ≤ a) : canonicalFrom lo (writeByte m a v) = true := by
  induction m generalizing lo with
  | nil =>
    simp only [writeByte]
    split
    · rfl
    · rename_i hv
      exact canonicalFrom_cons.mpr ⟨ha, hv, rfl⟩
  | cons c rest ih =>
    obtain ⟨b, w⟩ := c
    obtain ⟨h1, h2, h3⟩ := canonicalFrom_cons.mp h
    simp only [writeByte]
    split
    · split
      · exact h
      · rename_i hab hv
        exact canonicalFrom_cons.mpr ⟨ha, hv, canonicalFrom_cons.mpr ⟨by omega, h2, h3⟩⟩
    · split
      · split
        · exact canonicalFrom_weaken h3 (by omega)
        · rename_i hab heq hv
          exact canonicalFrom_cons.mpr ⟨ha, hv, heq ▸ h3⟩
      · exact canonicalFrom_cons.mpr ⟨h1, h2, ih h3 (by omega)⟩

/-- Reading after a byte write: the byte written there, every other byte as before. -/
theorem readByte_writeByte {m : List Host.Cell} {lo : Nat} (a : Nat) (v : Byte)
    (h : canonicalFrom lo m = true) (x : Nat) :
    readByte (writeByte m a v) x = if x = a then v else readByte m x := by
  induction m generalizing lo with
  | nil =>
    simp only [writeByte]
    split
    · rename_i hv
      simp [readByte, hv]
    · simp [readByte, eq_comm]
  | cons c rest ih =>
    obtain ⟨b, w⟩ := c
    obtain ⟨h1, h2, h3⟩ := canonicalFrom_cons.mp h
    simp only [writeByte]
    split
    · rename_i hab
      split
      · rename_i hv
        by_cases hx : x = a
        · subst hx
          simp only [readByte, if_true, hv]
          rw [if_neg (by omega)]
          exact readByte_below h3 (by omega)
        · simp [hx]
      · by_cases hx : x = a
        · subst hx; simp [readByte]
        · simp [readByte, Ne.symm hx, hx]
    · split
      · rename_i hab heq
        subst heq
        split
        · rename_i hv
          by_cases hx : x = a
          · subst hx
            simp only [if_true, hv]
            exact readByte_below h3 (by omega)
          · simp [readByte, Ne.symm hx, hx]
        · by_cases hx : x = a
          · subst hx; simp [readByte]
          · simp [readByte, Ne.symm hx, hx]
      · rename_i hab hne
        simp only [readByte]
        by_cases hx : b = x
        · subst hx
          simp [Ne.symm hne]
        · simp only [hx, if_false]
          exact ih h3

theorem canonicalFrom_filter {m : List Host.Cell} {lo : Nat} (p : Host.Cell → Bool)
    (h : canonicalFrom lo m = true) : canonicalFrom lo (m.filter p) = true := by
  induction m generalizing lo with
  | nil => rfl
  | cons c rest ih =>
    obtain ⟨b, w⟩ := c
    obtain ⟨h1, h2, h3⟩ := canonicalFrom_cons.mp h
    rw [List.filter_cons]
    split
    · exact canonicalFrom_cons.mpr ⟨h1, h2, ih h3⟩
    · exact canonicalFrom_weaken (ih h3) (by omega)

/-- Clearing a range keeps the canonical form. -/
theorem canonicalFrom_clearBytes {m : List Host.Cell} {lo : Nat} (a b : Nat)
    (h : canonicalFrom lo m = true) : canonicalFrom lo (clearBytes m a b) = true :=
  canonicalFrom_filter _ h

/-- Reading after a range was cleared. -/
theorem readByte_clearBytes (m : List Host.Cell) (lo hi x : Nat) :
    readByte (clearBytes m lo hi) x = if lo ≤ x ∧ x < hi then unlistedByte else readByte m x := by
  induction m with
  | nil => simp [clearBytes, readByte]
  | cons c rest ih =>
    obtain ⟨b, w⟩ := c
    simp only [clearBytes, List.filter_cons] at ih ⊢
    by_cases hb : lo ≤ b ∧ b < hi
    · simp only [hb.1, hb.2, decide_true, Bool.and_self, Bool.not_true, Bool.false_eq_true, if_false, ih,
        readByte]
      by_cases hx : lo ≤ x ∧ x < hi
      · simp [hx]
      · have hne : b ≠ x := by rintro rfl; exact hx hb
        simp [hx, hne]
    · have hb' : (!(decide (lo ≤ b) && decide (b < hi))) = true := by
        simp only [Bool.not_eq_true', Bool.and_eq_false_iff, decide_eq_false_iff_not]
        by_cases h1 : lo ≤ b
        · exact Or.inr fun h2 => hb ⟨h1, h2⟩
        · exact Or.inl h1
      simp only [hb', if_true, readByte, ih]
      by_cases hx : b = x
      · subst hx; simp [hb]
      · simp [hx]

theorem wf_writeByte {m : List Host.Cell} (a : Nat) (v : Byte) (h : Memory.wf m = true) :
    Memory.wf (writeByte m a v) = true :=
  canonicalFrom_writeByte v h (Nat.zero_le a)

theorem wf_clearBytes {m : List Host.Cell} (a b : Nat) (h : Memory.wf m = true) :
    Memory.wf (clearBytes m a b) = true :=
  canonicalFrom_clearBytes a b h

theorem wf_clearRxtb {m : List Host.Cell} (h : Memory.wf m = true) : Memory.wf (clearRxtb m) = true :=
  wf_clearBytes _ _ h

/-- The payload memory after reset is canonical. -/
theorem wf_reset : Memory.wf State.reset.mem = true := rfl

/-- A word write keeps the canonical form. -/
theorem wf_writeWord {m : List Host.Cell} (a : Nat) (v : Word) (h : Memory.wf m = true) :
    Memory.wf (writeWord m a v) = true :=
  wf_writeByte _ _ (wf_writeByte _ _ (wf_writeByte _ _ (wf_writeByte _ _ h)))

/-- Storing a payload keeps the canonical form. -/
theorem wf_putPayload {m : List Host.Cell} (base : Nat) (p : Payload) (h : Memory.wf m = true) :
    Memory.wf (putPayload m base p) = true := by
  unfold putPayload
  induction p with
  | nil => exact wf_clearBytes _ _ h
  | cons c rest ih =>
    rw [List.foldr_cons]
    split
    · exact wf_writeByte _ _ ih
    · exact ih

/-- Reading after a payload was stored: inside the buffer the payload's byte, elsewhere as before. -/
theorem readByte_putPayload {m : List Host.Cell} (base : Nat) (p : Payload) (h : Memory.wf m = true)
    (x : Nat) :
    readByte (putPayload m base p) x =
      if byteAddr base ≤ x ∧ x < byteAddr base + tbBytes then readByte p (x - byteAddr base)
      else readByte m x := by
  induction p with
  | nil => simp [putPayload, readByte_clearBytes, readByte]
  | cons c rest ih =>
    obtain ⟨o, w⟩ := c
    have hw : Memory.wf (putPayload m base rest) = true := wf_putPayload base rest h
    simp only [putPayload, List.foldr_cons] at ih hw ⊢
    by_cases ho : o < tbBytes
    · rw [if_pos ho, readByte_writeByte _ _ hw, ih]
      simp only [readByte]
      by_cases hx : x = byteAddr base + o
      · subst hx
        simp [ho]
      · rw [if_neg hx]
        by_cases hr : byteAddr base ≤ x ∧ x < byteAddr base + tbBytes
        · rw [if_pos hr, if_pos hr, if_neg (by omega)]
        · rw [if_neg hr, if_neg hr]
    · rw [if_neg ho, ih]
      simp only [readByte]
      by_cases hr : byteAddr base ≤ x ∧ x < byteAddr base + tbBytes
      · rw [if_pos hr, if_pos hr, if_neg (by omega)]
      · rw [if_neg hr, if_neg hr]

/-- Reading after a word write: each of its four bytes, every other byte as before. -/
theorem readByte_writeWord {m : List Host.Cell} (a : Nat) (v : Word) (h : Memory.wf m = true) (x : Nat) :
    readByte (writeWord m a v) x =
      if byteAddr a ≤ x ∧ x < byteAddr a + 4 then wordByte v (x - byteAddr a) else readByte m x := by
  have h1 := wf_writeByte (byteAddr a) (wordByte v 0) h
  have h2 := wf_writeByte (byteAddr a + 1) (wordByte v 1) h1
  have h3 := wf_writeByte (byteAddr a + 2) (wordByte v 2) h2
  unfold writeWord
  rw [readByte_writeByte _ _ h3, readByte_writeByte _ _ h2, readByte_writeByte _ _ h1,
    readByte_writeByte _ _ h]
  by_cases hr : byteAddr a ≤ x ∧ x < byteAddr a + 4
  · rw [if_pos hr]
    obtain ⟨k, hk⟩ : ∃ k, x = byteAddr a + k := ⟨x - byteAddr a, by omega⟩
    subst hk
    have hk4 : k < 4 := by omega
    have hs : byteAddr a + k - byteAddr a = k := by omega
    rw [hs]
    interval_cases k <;> simp
  · rw [if_neg hr, if_neg (by omega), if_neg (by omega), if_neg (by omega), if_neg (by omega)]

/-- The four bytes of a word, in order, are the word. -/
theorem wordByte_append (v : Word) :
    wordByte v 0 ++ wordByte v 1 ++ wordByte v 2 ++ wordByte v 3 = v := by
  apply BitVec.eq_of_getLsbD_eq
  intro i hi
  simp only [wordByte, BitVec.getLsbD_append, BitVec.getLsbD_extractLsb']
  interval_cases i <;> simp

theorem readWord_writeWord_same {m : List Host.Cell} (a : Nat) (v : Word) (h : Memory.wf m = true) :
    readWord (writeWord m a v) a = v := by
  unfold readWord
  simp only [readByte_writeWord a v h]
  have e0 : byteAddr a - byteAddr a = 0 := by omega
  have e1 : byteAddr a + 1 - byteAddr a = 1 := by omega
  have e2 : byteAddr a + 2 - byteAddr a = 2 := by omega
  have e3 : byteAddr a + 3 - byteAddr a = 3 := by omega
  simp only [e0, e1, e2, e3]
  rw [if_pos (by omega), if_pos (by omega), if_pos (by omega), if_pos (by omega)]
  exact wordByte_append v

theorem readWord_writeWord_other {m : List Host.Cell} {a b : Nat} (v : Word) (h : Memory.wf m = true)
    (hab : b ≠ a) : readWord (writeWord m a v) b = readWord m b := by
  unfold readWord
  simp only [readByte_writeWord a v h]
  unfold byteAddr
  rw [if_neg (by omega), if_neg (by omega), if_neg (by omega), if_neg (by omega)]

/-- Equal reads, equal memories: the canonical form is one list for one content. -/
theorem canonical_ext {m m' : List Host.Cell} {lo lo' : Nat} (h : canonicalFrom lo m = true)
    (h' : canonicalFrom lo' m' = true) (hr : ∀ a, readByte m a = readByte m' a) : m = m' := by
  induction m generalizing lo lo' m' with
  | nil =>
    cases m' with
    | nil => rfl
    | cons c rest =>
      obtain ⟨b, w⟩ := c
      obtain ⟨-, h2, -⟩ := canonicalFrom_cons.mp h'
      exact absurd (hr b).symm (by simpa [readByte] using h2)
  | cons c rest ih =>
    obtain ⟨b, w⟩ := c
    obtain ⟨h1, h2, h3⟩ := canonicalFrom_cons.mp h
    cases m' with
    | nil => exact absurd (hr b) (by simpa [readByte] using h2)
    | cons c' rest' =>
      obtain ⟨b', w'⟩ := c'
      obtain ⟨h1', h2', h3'⟩ := canonicalFrom_cons.mp h'
      have hb : b = b' := by
        rcases Nat.lt_trichotomy b b' with hlt | heq | hgt
        · have := hr b
          simp only [readByte, if_true] at this
          rw [if_neg (by omega), readByte_below h3' (by omega)] at this
          exact absurd this h2
        · exact heq
        · have := hr b'
          simp only [readByte, if_true] at this
          rw [if_neg (by omega), readByte_below h3 (by omega)] at this
          exact absurd this.symm h2'
      subst hb
      have hw : w = w' := by simpa [readByte] using hr b
      subst hw
      have : rest = rest' := ih h3 h3' fun a => by
        by_cases ha : a = b
        · subst ha
          rw [readByte_below h3 (by omega), readByte_below h3' (by omega)]
        · have := hr a
          simpa [readByte, Ne.symm ha] using this
      rw [this]

/-! ### What a memory lists after an operation -/

theorem mem_writeByte {m : List Host.Cell} {a : Nat} {v : Byte} {c : Host.Cell} (h : c ∈ writeByte m a v) :
    c ∈ m ∨ c.1 = a := by
  induction m with
  | nil =>
    simp only [writeByte] at h
    split at h
    · cases h
    · simp only [List.mem_singleton] at h
      exact .inr (by rw [h])
  | cons x rest ih =>
    obtain ⟨b, w⟩ := x
    simp only [writeByte] at h
    split at h
    · split at h
      · exact .inl h
      · rcases List.mem_cons.mp h with rfl | h'
        · exact .inr rfl
        · exact .inl h'
    · split at h
      · split at h
        · exact .inl (List.mem_cons_of_mem _ h)
        · rcases List.mem_cons.mp h with rfl | h'
          · exact .inr rfl
          · exact .inl (List.mem_cons_of_mem _ h')
      · rcases List.mem_cons.mp h with rfl | h'
        · exact .inl List.mem_cons_self
        · rcases ih h' with h'' | h''
          · exact .inl (List.mem_cons_of_mem _ h'')
          · exact .inr h''

theorem mem_clearBytes {m : List Host.Cell} {lo hi : Nat} {c : Host.Cell} (h : c ∈ clearBytes m lo hi) :
    c ∈ m ∧ ¬(lo ≤ c.1 ∧ c.1 < hi) := by
  simp only [clearBytes, List.mem_filter] at h
  refine ⟨h.1, fun hc => ?_⟩
  simp [hc.1, hc.2] at h

/-- A word write lists no byte outside its word that was not listed. -/
theorem mem_writeWord {m : List Host.Cell} {a : Nat} {v : Word} {c : Host.Cell} (h : c ∈ writeWord m a v) :
    c ∈ m ∨ (byteAddr a ≤ c.1 ∧ c.1 < byteAddr a + 4) := by
  unfold writeWord at h
  rcases mem_writeByte h with h | h
  · rcases mem_writeByte h with h | h
    · rcases mem_writeByte h with h | h
      · rcases mem_writeByte h with h | h
        · exact .inl h
        · exact .inr (by omega)
      · exact .inr (by omega)
    · exact .inr (by omega)
  · exact .inr (by omega)

/-- A payload stored lists no byte outside its window that was not listed. -/
theorem mem_putPayload {m : List Host.Cell} {base : Nat} {p : Payload} {c : Host.Cell}
    (h : c ∈ putPayload m base p) :
    c ∈ m ∨ (byteAddr base ≤ c.1 ∧ c.1 < byteAddr base + tbBytes) := by
  unfold putPayload at h
  induction p with
  | nil => exact .inl (mem_clearBytes h).1
  | cons x rest ih =>
    rw [List.foldr_cons] at h
    split at h
    · rename_i hx
      rcases mem_writeByte h with h | h
      · exact ih h
      · exact .inr (by omega)
    · exact ih h

/-- A payload taken from a window reads as the window's bytes. -/
theorem readByte_takePayload (m : List Host.Cell) (base : Nat) {p : Nat} (h : p < tbBytes) :
    readByte (takePayload m base) p = readByte m (byteAddr base + p) := by
  induction m with
  | nil => rfl
  | cons x rest ih =>
    obtain ⟨b, w⟩ := x
    simp only [takePayload, List.filter_cons] at ih ⊢
    by_cases hb : byteAddr base ≤ b ∧ b < byteAddr base + tbBytes
    · simp only [hb.1, hb.2, decide_true, Bool.and_self, if_true, List.map_cons, readByte, ih]
      by_cases hx : b = byteAddr base + p
      · rw [if_pos (by omega), if_pos hx]
      · rw [if_neg (by omega), if_neg hx]
    · have hb' : (decide (byteAddr base ≤ b) && decide (b < byteAddr base + tbBytes)) = false := by
        rw [Bool.and_eq_false_iff, decide_eq_false_iff_not, decide_eq_false_iff_not]
        omega
      simp only [hb', Bool.false_eq_true, if_false, ih, readByte]
      rw [if_neg (by omega)]

end Sys2Proof.Machine
end

