-- ==== Sys2Proof/Laws/Parser.lean ====
section
/-! SUPPORT. The DecodeResult file as an array, and everything a scan can do, once (43_parser_rx.md R190,
R194 to R200): it never raises, it writes its own entry and its own payload window, and it keeps an entry
consistent. -/

namespace Sys2Proof.Machine

theorem drAt_putDr (s : State) (i j : Nat) (e : DrEntry) :
    drAt (putDr s i e) j = if j = i ∧ i < 20 then e else drAt s j := by
  rw [← Config.maxSubch_eq]
  unfold drAt putDr
  simp only [Vector.getElem?_setIfInBounds]
  by_cases h : i = j
  · subst h
    by_cases hi : i < Config.maxSubch <;> simp [hi]
  · have h' : ¬j = i := fun h'' => h h''.symm
    simp [h, h']

theorem drAt_putDr_same (s : State) {i : Nat} (e : DrEntry) (h : i < 20) : drAt (putDr s i e) i = e := by
  simp [drAt_putDr, h]

@[simp] theorem putDr_putDr (s : State) (i : Nat) (e e' : DrEntry) :
    putDr (putDr s i e) i e' = putDr s i e' := by
  have : (s.dr.setIfInBounds i e).setIfInBounds i e' = s.dr.setIfInBounds i e' := by
    ext j hj
    simp only [Vector.getElem_setIfInBounds]
    split <;> rfl
  simp [putDr, this]

/-- Writing back an entry as it is changes nothing. -/
theorem putDr_drAt (s : State) (i : Nat) : putDr s i (drAt s i) = s := by
  have : s.dr.setIfInBounds i (drAt s i) = s.dr := by
    ext j hj
    simp only [Vector.getElem_setIfInBounds, drAt]
    split
    · rename_i h
      subst h
      simp [hj]
    · rfl
  simp [putDr, this]

/-- Every entry of a cleared file is an entry of zeros (10_state.md R42, 43_parser_rx.md R193). -/
theorem drAt_cleared (s : State) (i : Nat) :
    drAt { s with dr := Vector.replicate Config.maxSubch {} } i = {} := by
  by_cases h : i < Config.maxSubch <;> simp [drAt, h]

/-- `m'` is `m` after some payloads were stored in the window of sub-channel `idx`. -/
inductive PayloadsStored (idx : Nat) (m : List Host.Cell) : List Host.Cell → Prop where
  | refl : PayloadsStored idx m m
  | store {m' : List Host.Cell} (p : Payload) (h : PayloadsStored idx m m') :
      PayloadsStored idx m (putPayload m' (rxtbBase idx) p)

theorem PayloadsStored.trans {idx : Nat} {m m' m'' : List Host.Cell} (h : PayloadsStored idx m m')
    (h' : PayloadsStored idx m' m'') : PayloadsStored idx m m'' := by
  induction h' with
  | refl => exact h
  | store p _ ih => exact .store p ih

theorem PayloadsStored.wf {idx : Nat} {m m' : List Host.Cell} (h : PayloadsStored idx m m')
    (hm : Memory.wf m = true) : Memory.wf m' = true := by
  induction h with
  | refl => exact hm
  | store p _ ih => exact wf_putPayload _ p ih

/-- Outside its window a sub-channel's payloads change no byte. -/
theorem PayloadsStored.outside {idx : Nat} {m m' : List Host.Cell} (h : PayloadsStored idx m m')
    (hm : Memory.wf m = true) {a : Nat}
    (ha : ¬(byteAddr (rxtbBase idx) ≤ a ∧ a < byteAddr (rxtbBase idx) + tbBytes)) :
    readByte m' a = readByte m a := by
  induction h with
  | refl => rfl
  | store p h ih => rw [readByte_putPayload _ p (h.wf hm), if_neg ha, ih]

/-- What a scan of sub-channel `idx` leaves of an entry `e` it found. -/
structure EntryAfter (e e' : DrEntry) (m m' : List Host.Cell) : Prop where
  consistent : DrConsistent e → DrConsistent e'
  silent : e'.ok = false → e.ok = false ∧ m' = m

/-- Everything a scan of sub-channel `idx` can have changed. -/
def ScanLeaves (idx : Nat) (s t : State) : Prop :=
  ∃ e m p k c b d o, PayloadsStored idx s.mem m ∧ CallsBefore s.out o ∧ EntryAfter (drAt s idx) e s.mem m ∧
    t = { putDr s idx e with
          mem := m, psIdx := p, psShift := k, chestCfg := c, backends := b, draws := d, out := o }

theorem ScanLeaves.refl (idx : Nat) (s : State) : ScanLeaves idx s s :=
  ⟨drAt s idx, s.mem, s.psIdx, s.psShift, s.chestCfg, s.backends, s.draws, s.out, .refl, .refl _,
    ⟨id, fun h => ⟨h, rfl⟩⟩, by rw [putDr_drAt]⟩

theorem ScanLeaves.trans {idx : Nat} {s t u : State} (hi : idx < 20) (h : ScanLeaves idx s t)
    (h' : ScanLeaves idx t u) : ScanLeaves idx s u := by
  obtain ⟨e, m, p, k, c, b, d, o, hm, ho, he, rfl⟩ := h
  obtain ⟨e', m', p', k', c', b', d', o', hm', ho', he', rfl⟩ := h'
  have hd : drAt { putDr s idx e with
      mem := m, psIdx := p, psShift := k, chestCfg := c, backends := b, draws := d, out := o } idx = e :=
    drAt_putDr_same s e hi
  rw [hd] at he'
  refine ⟨e', m', p', k', c', b', d', o', hm.trans hm', ho.trans ho',
    ⟨fun h => he'.consistent (he.consistent h), fun h => ?_⟩, ?_⟩
  · obtain ⟨h1, h2⟩ := he'.silent h
    obtain ⟨h3, h4⟩ := he.silent h1
    exact ⟨h3, h2.trans h4⟩
  · have := putDr_putDr s idx e e'
    simp only [putDr, State.mk.injEq] at this ⊢
    simp [this]

/-- A call made during a scan. -/
theorem ScanLeaves.call {idx : Nat} {s t u : State} {c : Call} (h : ScanLeaves idx s t)
    (h' : CallLeaves c t u) : ScanLeaves idx s u := by
  obtain ⟨e, m, p, k, cf, b, d, o, hm, ho, he, rfl⟩ := h
  obtain ⟨b', d', rfl⟩ := h'
  exact ⟨e, m, p, k, cf, b', d', _, hm, ho.cons c, he, rfl⟩

/-- The channel-estimation backend configured during a scan. -/
theorem ScanLeaves.config {idx : Nat} {s t : State} (p : ChestParams) (h : ScanLeaves idx s t) :
    ScanLeaves idx s (callSetConfig p t) := by
  obtain ⟨e, m, pi, k, cf, b, d, o, hm, ho, he, rfl⟩ := h
  exact ⟨e, m, pi, k, some p, b, d, _, hm, ho.cons _, he, rfl⟩

/-- An entry written during a scan, the payload memory as it was. -/
theorem ScanLeaves.entry {idx : Nat} {s t : State} (hi : idx < 20) (h : ScanLeaves idx s t) (e' : DrEntry)
    (hc : DrConsistent (drAt t idx) → DrConsistent e') (hs : e'.ok = (drAt t idx).ok) :
    ScanLeaves idx s (putDr t idx e') :=
  h.trans hi ⟨e', t.mem, t.psIdx, t.psShift, t.chestCfg, t.backends, t.draws, t.out, .refl, .refl _,
    ⟨hc, fun h => ⟨hs ▸ h, rfl⟩⟩, rfl⟩

theorem drConsistent_zero : DrConsistent {} :=
  ⟨by decide, by decide, by decide, by decide, by decide, by decide, by decide⟩

/-- A recorded message and its span basis keep an entry consistent (43_parser_rx.md R197, R198). -/
theorem DrConsistent.record {e : DrEntry} (h : DrConsistent e) (c : Sci) (crc : CrcBits)
    (st l k cs ds : Nat) (hk : k < 4) (hcs : cs ∈ Config.shifts) :
    DrConsistent (recordSpanBasis (recordControl e c st l k cs) c crc ds) := by
  have hbit : BitVec.ofNat 4 (2 ^ k) ≠ 0 := by interval_cases k <;> decide
  refine ⟨h.ok_iff, ?_, ?_, rfl, ?_, ?_, ?_⟩
  · simp only [recordSpanBasis, recordControl, true_iff]
    intro h0
    apply hbit
    have := BitVec.or_eq_zero_iff.mp h0
    exact this.2
  · simp only [recordSpanBasis, recordControl]
    have := h.ok_subset
    rw [BitVec.and_or_distrib_left, this]
    apply BitVec.eq_of_getLsbD_eq
    intro i hi
    simp only [BitVec.getLsbD_or, BitVec.getLsbD_and]
    cases e.okMask.getLsbD i <;> simp
  · simp only [recordSpanBasis, recordControl]
    have := c.retx.isLt
    rcases (by omega : c.retx.toNat = 0 ∨ c.retx.toNat = 1) with h | h
    · have h' : c.retx = 0 := BitVec.eq_of_toNat_eq h
      rw [h']
      rfl
    · have h' : c.retx = 1 := BitVec.eq_of_toNat_eq h
      rw [h']
      rfl
  · simp only [recordSpanBasis, recordControl, Config.shifts_eq, List.mem_cons, List.not_mem_nil,
      or_false] at hcs ⊢
    rcases hcs with rfl | rfl | rfl | rfl <;> simp
  · simp only [recordSpanBasis, recordControl, scramblingId, val_bitsOf, Config.crcLen_eq, BitVec.toNat_ofNat]
    have := crc.isLt
    omega

/-- A data decode at a shift whose control decode is recorded keeps an entry consistent
(43_parser_rx.md R199, R200). -/
theorem DrConsistent.heard {e : DrEntry} (h : DrConsistent e) {k : Nat} (hk : k < 4)
    (hb : e.ctrlMask.getLsbD k = true) :
    DrConsistent { e with ok := true, okMask := e.okMask ||| BitVec.ofNat 4 (2 ^ k) } := by
  have hbit : BitVec.ofNat 4 (2 ^ k) ≠ 0 := by interval_cases k <;> decide
  have hsub : BitVec.ofNat 4 (2 ^ k) &&& e.ctrlMask = BitVec.ofNat 4 (2 ^ k) := by
    apply BitVec.eq_of_getLsbD_eq
    intro i hi
    rw [BitVec.getLsbD_and]
    by_cases hik : i = k
    · subst hik
      simp [hb]
    · have : (BitVec.ofNat 4 (2 ^ k)).getLsbD i = false := by
        interval_cases k <;> interval_cases i <;> simp_all
      rw [this, Bool.false_and]
  refine ⟨?_, h.ctrl_iff, ?_, h.interval, h.rv, h.shift, h.scrid⟩
  · simp only [true_iff]
    intro h0
    exact hbit (BitVec.or_eq_zero_iff.mp h0).2
  · have h1 := h.ok_subset
    simp only
    apply BitVec.eq_of_getLsbD_eq
    intro i hi
    have e1 := congrArg (fun x => x.getLsbD i) h1
    have e2 := congrArg (fun x => x.getLsbD i) hsub
    simp only [BitVec.getLsbD_and, BitVec.getLsbD_or] at e1 e2 ⊢
    rw [Bool.and_or_distrib_right, e1, e2]

/-! ### The steps of a scan, from any state a scan has reached -/

theorem rxStep5_post {idx k v : Nat} (c : Sci) {s0 s : State} (hi : idx < 20) (hk : k < 4)
    (h : ScanLeaves idx s0 s) (hb : (drAt s idx).ctrlMask.getLsbD k = true) :
    (rxStep5 idx k v c s).Post (fun _ t => ScanLeaves idx s0 t) (fun _ _ _ => False)
      (fun t => ScanLeaves idx s0 t) := by
  unfold rxStep5
  simp only
  refine ((ask_post _ _ _ _ _).mono (fun _ _ h => h) (fun _ _ _ h => h.elim)
    (fun t ht => (h.config _).call ht)).next fun eq t ht => ?_
  have hdt : drAt t idx = drAt s idx := by
    obtain ⟨b, d, rfl⟩ := ht
    rfl
  have h1 := (h.config _).call ht
  refine ((ask_post _ _ _ _ _).mono (fun _ _ h => h) (fun _ _ _ h => h.elim)
    (fun u hu => h1.call hu)).next fun r u hu => ?_
  have hdu : drAt u idx = drAt s idx := by
    obtain ⟨b, d, rfl⟩ := hu
    exact hdt
  have h2 := h1.call hu
  cases r with
  | none => exact h2
  | some p =>
    refine h2.trans hi ⟨_, _, u.psIdx, u.psShift, u.chestCfg, u.backends, u.draws, u.out,
      .store p .refl, .refl _, ⟨fun hc => hc.heard hk (hdu ▸ hb), fun hf => ?_⟩, rfl⟩
    exact absurd hf (by simp)

theorem rxStep4_post {idx k st l : Nat} (c : Sci) (crc : CrcBits) {s0 s : State} (hi : idx < 20)
    (hk : k < 4) (h : ScanLeaves idx s0 (putDr s idx (recordSpanBasis (drAt s idx) c crc
      (rxDataStart idx s)))) (hb : (drAt s idx).ctrlMask.getLsbD k = true) :
    (rxStep4 idx k st l c crc s).Post (fun _ t => ScanLeaves idx s0 t) (fun _ _ _ => False)
      (fun t => ScanLeaves idx s0 t) := by
  unfold rxStep4
  simp only
  have hn : ∀ (t : State) (x : BitVec 8), ScanLeaves idx s0 t →
      ScanLeaves idx s0 (putDr t idx { drAt t idx with dataNprb := x }) := fun t x ht =>
    ht.entry hi _ (fun hc => ⟨hc.ok_iff, hc.ctrl_iff, hc.ok_subset, hc.interval, hc.rv, hc.shift, hc.scrid⟩)
      rfl
  split
  · exact hn _ 0 h
  · refine ((askValidSpan_post _ _).mono (fun _ _ h => h) (fun _ _ _ h => h.elim)
      (fun t ht => h.call ht)).next fun v t ht => ?_
    have hdt : drAt t idx = recordSpanBasis (drAt s idx) c crc (rxDataStart idx s) := by
      obtain ⟨b, d, rfl⟩ := ht.2
      exact drAt_putDr_same s _ hi
    have h1 := hn t (BitVec.ofNat 8 v) (h.call ht.2)
    split
    · exact h1
    · refine rxStep5_post c hi hk h1 ?_
      rw [drAt_putDr_same _ _ hi, hdt]
      exact hb

theorem rxStep3_post {idx k cs : Nat} (bits : ControlBits) (crc : CrcBits) {s0 s : State} (hi : idx < 20)
    (hk : k < 4) (hcs : cs ∈ Config.shifts) (h : ScanLeaves idx s0 s) :
    (rxStep3 idx k cs bits crc s).Post (fun _ t => ScanLeaves idx s0 t) (fun _ _ _ => False)
      (fun t => ScanLeaves idx s0 t) := by
  unfold rxStep3
  split
  · exact h
  · rename_i c hc
    split
    · exact h
    · rename_i st l hr
      refine rxStep4_post c crc hi hk ?_ ?_
      · rw [drAt_putDr_same _ _ hi, putDr_putDr]
        exact h.entry hi _ (fun hd => hd.record c crc st l k cs _ hk hcs) rfl
      · rw [drAt_putDr_same _ _ hi]
        simp only [recordControl, BitVec.getLsbD_or]
        have hkk : (BitVec.ofNat 4 (2 ^ k)).getLsbD k = true := by interval_cases k <;> decide
        rw [hkk, Bool.or_true]

theorem scanShift_post {idx k cs : Nat} {s0 s : State} (hi : idx < 20) (hk : k < 4)
    (hcs : cs ∈ Config.shifts) (h : ScanLeaves idx s0 s) :
    (scanShift idx k cs s).Post (fun _ t => ScanLeaves idx s0 t) (fun _ _ _ => False)
      (fun t => ScanLeaves idx s0 t) := by
  unfold scanShift
  simp only
  have h0 : ScanLeaves idx s0 { s with psShift := BitVec.ofNat 2 k } := by
    obtain ⟨e, m, pi, ks, cf, b, d, o, hm, ho, he, rfl⟩ := h
    exact ⟨e, m, pi, _, cf, b, d, o, hm, ho, he, rfl⟩
  refine ((ask_post _ _ _ _ _).mono (fun _ _ h => h) (fun _ _ _ h => h.elim)
    (fun t ht => (h0.config _).call ht)).next fun eq t ht => ?_
  have h1 := (h0.config _).call ht
  refine ((ask_post _ _ _ _ _).mono (fun _ _ h => h) (fun _ _ _ h => h.elim)
    (fun u hu => h1.call hu)).next fun r u hu => ?_
  have h2 := h1.call hu
  cases r with
  | none => exact h2
  | some p => exact rxStep3_post p.1 p.2 hi hk hcs h2

theorem scanShifts_post {idx : Nat} {s0 : State} (hi : idx < 20) (l : List Nat) :
    ∀ (k : Nat) (s : State), k + l.length ≤ 4 → (∀ cs ∈ l, cs ∈ Config.shifts) → ScanLeaves idx s0 s →
      (scanShifts idx k l s).Post (fun _ t => ScanLeaves idx s0 t) (fun _ _ _ => False)
        (fun t => ScanLeaves idx s0 t) := by
  induction l with
  | nil => exact fun k s _ _ h => h
  | cons cs rest ih =>
    intro k s hk hcs h
    simp only [List.length_cons] at hk
    exact (scanShift_post hi (by omega) (hcs cs (by simp)) h).next fun _ t ht =>
      ih (k + 1) t (by omega) (fun x hx => hcs x (by simp [hx])) ht

/-- Everything a scan of one sub-channel can do: it ends with a value or inside an unanswered call, it has
written what `ScanLeaves` says, and its entry is consistent (43_parser_rx.md R190, R194, R200). -/
theorem scan_post {idx : Nat} (s : State) (hi : idx < 20) :
    (scan idx s).Post (fun _ t => ScanLeaves idx (putDr s idx {}) t) (fun _ _ _ => False)
      (fun t => ScanLeaves idx (putDr s idx {}) t) := by
  refine scanShifts_post hi _ 0 _ (by decide) (fun _ h => h) ?_
  exact ⟨{}, s.mem, BitVec.ofNat 5 idx, s.psShift, s.chestCfg, s.backends, s.draws, s.out, .refl, .refl _,
    ⟨fun _ => drConsistent_zero, fun _ => ⟨by rw [drAt_putDr_same _ _ hi], rfl⟩⟩, by rw [putDr_putDr]; rfl⟩

end Sys2Proof.Machine
end

