-- ==== Sys2Proof/Laws/PerInstr.lean ====
section
/-! SUPPORT. The family `MatchesRow`: the word of every well-formed command matches its own row of
spec/opcode_table.json (30_encoding.md R103). -/

namespace Sys2Proof.Laws.MatchesRow

/-- The word of the command, masked with its row's mask, is its row's match. -/
def Statement (i : Instr) : Prop := i.WellFormed → encode i &&& rowMask i = rowMatch i

theorem nop : Statement .nop := fun _ => by decide
theorem cellSet : Statement .cellSet := fun _ => by decide
theorem poolDefault : Statement .poolDefault := fun _ => by decide
theorem poolCheck : Statement .poolCheck := fun _ => by decide
theorem resv2code : Statement .resv2code := fun _ => by decide
theorem code2resv : Statement .code2resv := fun _ => by decide
theorem rivEnc : Statement .rivEnc := fun _ => by decide
theorem rivDec : Statement .rivDec := fun _ => by decide
theorem sciPack : Statement .sciPack := fun _ => by decide
theorem sciUnpack : Statement .sciUnpack := fun _ => by decide
theorem crc2id : Statement .crc2id := fun _ => by decide
theorem frBuild : Statement .frBuild := fun _ => by decide
theorem frCtrl : Statement .frCtrl := fun _ => by decide
theorem frData : Statement .frData := fun _ => by decide
theorem frMod : Statement .frMod := fun _ => by decide
theorem frClear : Statement .frClear := fun _ => by decide
theorem rxDemod : Statement .rxDemod := fun _ => by decide
theorem rxLoop : Statement .rxLoop := fun _ => by decide
theorem parseSubch (idx : Nat) : Statement (.parseSubch idx) := fun h => by
  have hi : idx < 256 := by simpa [Instr.WellFormed, Instr.wellFormed] using h
  apply BitVec.eq_of_toNat_eq
  simp only [encode, rowMask, rowMatch, opcodeOf, immOf, BitVec.toNat_and, BitVec.toNat_ofNat]
  interval_cases idx <;> rfl
theorem parseAll : Statement .parseAll := fun _ => by decide
theorem rxClear : Statement .rxClear := fun _ => by decide
theorem radioOpen : Statement .radioOpen := fun _ => by decide
theorem radioClose : Statement .radioClose := fun _ => by decide
theorem schStart : Statement .schStart := fun _ => by decide
theorem schCancel : Statement .schCancel := fun _ => by decide
theorem clrFlags : Statement .clrFlags := fun _ => by decide
theorem softReset : Statement .softReset := fun _ => by decide

end Sys2Proof.Laws.MatchesRow
end

