-- ==== Sys2Proof/Laws/Scheduler.lean ====
section
/-! SUPPORT. Everything the scheduler's pieces can do, once (44_scheduler.md R221 to R230): the bring-up of the
radio, the derivation of the epoch, the start and the tick. -/

namespace Sys2Proof.Machine

theorem normTime_frac (a f : Nat) : (normTime a f).frac < Config.fracUnits :=
  Nat.mod_lt _ (by decide)

/-- Whole milliseconds stay whole milliseconds under `norm`. -/
theorem normTime_frac_ms (a f : Nat) (h : f % Config.ms = 0) : (normTime a f).frac % Config.ms = 0 := by
  simp only [normTime, Config.ms_eq, Config.fracUnits_eq] at *
  omega

/-- The bring-up of the radio: `RADIO = 1` with a handle held, or a raise with no handle held that was opened
here (44_scheduler.md R221). -/
theorem ruleRadioOpen_post (s : State) :
    (ruleRadioOpen s).Post
      (fun _ t => ∃ h b d o, CallsBefore s.out o ∧
        t = { s with handle := some h, status.radio := true, backends := b, draws := d, out := o })
      (fun k i t => ((k = .invalidConfiguration ∧ i = 5 ∧ t = s) ∨ k = .hardwareFailure) ∧
        ∃ h b d o, CallsBefore s.out o ∧ t = { s with handle := h, backends := b, draws := d, out := o })
      (fun t => ∃ h b d o, CallsBefore s.out o ∧
        t = { s with handle := h, backends := b, draws := d, out := o }) := by
  unfold ruleRadioOpen
  split
  · exact ⟨.inl ⟨rfl, rfl, rfl⟩, s.handle, s.backends, s.draws, s.out, .refl _, rfl⟩
  refine ((ask_post _ _ _ _ _).mono (fun _ _ h => h) (fun _ _ _ h => h.elim)
    (fun t h => ?_)).next fun r t h => ?_
  · have ho := h.callsBefore
    obtain ⟨b, d, rfl⟩ := h
    exact ⟨s.handle, b, d, _, ho, rfl⟩
  have ho := h.callsBefore
  obtain ⟨b, d, rfl⟩ := h
  cases r with
  | none => exact ⟨.inr rfl, s.handle, b, d, _, ho, rfl⟩
  | some hd =>
    refine ((ask_post _ _ _ _ _).mono (fun _ _ h => h) (fun _ _ _ h => h.elim)
      (fun t h => ?_)).next fun ok t h => ?_
    · have ho' := h.callsBefore
      obtain ⟨b, d, rfl⟩ := h
      exact ⟨_, b, d, _, ho.trans ho', rfl⟩
    have ho := ho.trans h.callsBefore
    obtain ⟨b, d, rfl⟩ := h
    split
    · exact ⟨.inr rfl, none, b, d, _, ho.cons _, rfl⟩
    refine ((ask_post _ _ _ _ _).mono (fun _ _ h => h) (fun _ _ _ h => h.elim)
      (fun t h => ?_)).next fun ok t h => ?_
    · have ho' := h.callsBefore
      obtain ⟨b, d, rfl⟩ := h
      exact ⟨_, b, d, _, ho.trans ho', rfl⟩
    have ho := ho.trans h.callsBefore
    obtain ⟨b, d, rfl⟩ := h
    split
    · exact ⟨.inr rfl, none, b, d, _, ho.cons _, rfl⟩
    refine ((ask_post _ _ _ _ _).mono (fun _ _ h => h) (fun _ _ _ h => h.elim)
      (fun t h => ?_)).next fun a t h => ?_
    · have ho' := h.callsBefore
      obtain ⟨b, d, rfl⟩ := h
      exact ⟨_, b, d, _, ho.trans ho', rfl⟩
    have ho := ho.trans h.callsBefore
    obtain ⟨b, d, rfl⟩ := h
    split
    · exact ⟨_, b, d, _, ho, rfl⟩
    · exact ⟨.inr rfl, none, b, d, _, ho.cons _, rfl⟩

/-- The epoch derived is a whole number of milliseconds below one second; an epoch of `2^32` seconds is
raised (44_scheduler.md R224, R236). -/
theorem deriveEpoch_post (s : State) :
    (deriveEpoch s).Post
      (fun _ t => ∃ es ef b d o, ef < Config.fracUnits ∧ ef % Config.ms = 0 ∧ CallsBefore s.out o ∧
        t = { s with
              sched.epochSec := BitVec.ofNat 32 es, sched.epochFrac := BitVec.ofNat 30 ef
              backends := b, draws := d, out := o })
      (fun k i t => k = .hardwareFailure ∧ i = 5 ∧ ∃ b d o, CallsBefore s.out o ∧
        t = { s with backends := b, draws := d, out := o })
      (fun t => ∃ b d o, CallsBefore s.out o ∧ t = { s with backends := b, draws := d, out := o }) := by
  unfold deriveEpoch
  refine ((askTime_post s).mono (fun _ _ h => h) (fun _ _ _ h => h.elim)
    (fun t h => ?_)).next fun x t h => ?_
  · have ho := h.callsBefore
    obtain ⟨b, d, rfl⟩ := h
    exact ⟨b, d, _, ho, rfl⟩
  · obtain ⟨-, -, h⟩ := h
    have ho := h.callsBefore
    obtain ⟨b, d, rfl⟩ := h
    simp only
    split
    · exact ⟨rfl, rfl, b, d, _, ho, rfl⟩
    · refine ⟨_, _, b, d, _, normTime_frac _ _, normTime_frac_ms _ _ ?_, ho, rfl⟩
      simp only [Config.ms_eq, Config.guardMs_eq]
      omega

/-- A derived fraction of a second fits its register. -/
theorem ofNat_frac {f : Nat} (h : f < Config.fracUnits) : (BitVec.ofNat 30 f).toNat = f := by
  simp only [Config.fracUnits_eq] at h
  rw [BitVec.toNat_ofNat]
  omega

/-- `SCH_START`'s rule: the loop entered, or a raise or an unanswered call in `AWAIT_START`
(44_scheduler.md R223). -/
theorem ruleSchStart_post (s : State) :
    (ruleSchStart s).Post
      (fun _ t => ∃ es ef b d o, ef < Config.fracUnits ∧ ef % Config.ms = 0 ∧ CallsBefore s.out o ∧
        t = { s with
              status.cancel := s.inCancel, schState := .scheduled, backends := b, draws := d, out := o
              sched := { s.sched with
                ticks := 0, slips := 0, sendFails := 0, lastRet := 0, secOff := 0, msecOff := 0
                epochSec := BitVec.ofNat 32 es, epochFrac := BitVec.ofNat 30 ef } })
      (fun k i t => k = .hardwareFailure ∧ i = 5 ∧ ∃ b d o, CallsBefore s.out o ∧
        t = { s with
              status.cancel := s.inCancel, schState := .awaitStart, backends := b, draws := d, out := o
              sched := { s.sched with ticks := 0, slips := 0, sendFails := 0, lastRet := 0 } })
      (fun t => ∃ b d o, CallsBefore s.out o ∧
        t = { s with
              status.cancel := s.inCancel, schState := .awaitStart, backends := b, draws := d, out := o
              sched := { s.sched with ticks := 0, slips := 0, sendFails := 0, lastRet := 0 } }) := by
  unfold ruleSchStart
  simp only
  refine ((deriveEpoch_post _).mono (fun _ _ h => h) (fun k i t h => ?_) (fun t h => ?_)).next
    fun _ t h => ?_
  · obtain ⟨rfl, rfl, b, d, o, ho, rfl⟩ := h
    exact ⟨rfl, rfl, b, d, o, ho, rfl⟩
  · obtain ⟨b, d, o, ho, rfl⟩ := h
    exact ⟨b, d, o, ho, rfl⟩
  · obtain ⟨es, ef, b, d, o, h1, h2, ho, rfl⟩ := h
    exact ⟨es, ef, b, d, o, h1, h2, ho, rfl⟩

/-- The fields a tick writes, all others as before. -/
def TickLeaves (st : SchState) (s t : State) : Prop :=
  ∃ sc fl b d o,
    t = { s with schState := st, sched := sc, flags := fl, backends := b, draws := d, out := o } ∧
    (s.sched.epochFrac.toNat < Config.fracUnits ∧ s.sched.epochFrac.toNat % Config.ms = 0 →
      sc.epochFrac.toNat < Config.fracUnits ∧ sc.epochFrac.toNat % Config.ms = 0) ∧
    (s.sched.epochFrac.toNat % Config.ms = 0 →
      s.sched.txFrac.toNat < Config.fracUnits ∧ s.sched.txFrac.toNat % Config.ms = 0 →
      sc.txFrac.toNat < Config.fracUnits ∧ sc.txFrac.toNat % Config.ms = 0) ∧
    (s.sched.msecOff.toNat < 1000 → sc.msecOff.toNat < 1000) ∧
    sc.stepMs = s.sched.stepMs ∧ sc.srate = s.sched.srate

/-- `TickLeaves` from its parts, the fields found by unification. -/
theorem TickLeaves.intro {st : SchState} {s t : State} {sc : Sched} {fl : Flags} {b : Backends} {d : Nat}
    {o : List Out}
    (h : t = { s with schState := st, sched := sc, flags := fl, backends := b, draws := d, out := o })
    (h1 : s.sched.epochFrac.toNat < Config.fracUnits ∧ s.sched.epochFrac.toNat % Config.ms = 0 →
      sc.epochFrac.toNat < Config.fracUnits ∧ sc.epochFrac.toNat % Config.ms = 0)
    (h2 : s.sched.epochFrac.toNat % Config.ms = 0 →
      s.sched.txFrac.toNat < Config.fracUnits ∧ s.sched.txFrac.toNat % Config.ms = 0 →
      sc.txFrac.toNat < Config.fracUnits ∧ sc.txFrac.toNat % Config.ms = 0)
    (h3 : s.sched.msecOff.toNat < 1000 → sc.msecOff.toNat < 1000) (h4 : sc.stepMs = s.sched.stepMs)
    (h5 : sc.srate = s.sched.srate) : TickLeaves st s t :=
  ⟨sc, fl, b, d, o, h, h1, h2, h3, h4, h5⟩

/-- The transmit time's fraction is a whole number of milliseconds below one second when the epoch's is. -/
theorem txTimeOf_frac (u : State) (he : u.sched.epochFrac.toNat % Config.ms = 0) :
    (BitVec.ofNat 30 (txTimeOf u).frac).toNat < Config.fracUnits ∧
      (BitVec.ofNat 30 (txTimeOf u).frac).toNat % Config.ms = 0 := by
  unfold txTimeOf
  rw [ofNat_frac (normTime_frac _ _)]
  refine ⟨normTime_frac _ _, normTime_frac_ms _ _ ?_⟩
  rw [Nat.add_mod, he, Nat.mul_mod_left]
  rfl

/-- The advance writes the two offsets; the milliseconds stay below 1000 (44_scheduler.md R230). -/
theorem advance_eq (u : State) :
    ∃ so mo, advance u = { u with sched := { u.sched with secOff := so, msecOff := mo } } ∧
      (u.sched.msecOff.toNat < 1000 → mo.toNat < 1000) := by
  unfold advance
  simp only
  split
  · exact ⟨_, 0, rfl, fun _ => by decide⟩
  · rename_i hlt
    refine ⟨u.sched.secOff, _, rfl, fun hu => ?_⟩
    simp only [BitVec.toNat_ofNat]
    omega

/-- The timed send writes the return value and reports (44_scheduler.md R229). -/
theorem sendBurst_post (tx : HwTime) (s : State) :
    (sendBurst tx s).Post
      (fun _ t => ∃ ret n fl b d o,
        t = { s with
              sched := { s.sched with lastRet := ret, sendFails := n }
              flags := fl, backends := b, draws := d, out := o })
      (fun _ _ _ => False) (fun t => ∃ b d o, t = { s with backends := b, draws := d, out := o }) := by
  unfold sendBurst
  refine ((ask_post _ _ _ _ _).mono (fun _ _ h => h) (fun _ _ _ h => h.elim)
    (fun t h => ?_)).next fun r t h => ?_
  · obtain ⟨b, d, rfl⟩ := h
    exact ⟨b, d, _, rfl⟩
  · obtain ⟨b, d, rfl⟩ := h
    simp only
    split
    · exact ⟨r, _, _, b, d, _, rfl⟩
    · exact ⟨r, s.sched.sendFails, s.flags, b, d, _, rfl⟩

/-- A slipped tick derives a fresh epoch and zeroes the offsets (44_scheduler.md R228). -/
theorem lateReset_post (s : State) :
    (lateReset s).Post
      (fun _ t => ∃ es ef n fl b d o, ef < Config.fracUnits ∧ ef % Config.ms = 0 ∧
        t = { s with
              schState := .scheduled, flags := fl, backends := b, draws := d, out := o
              sched := { s.sched with
                slips := n, secOff := 0, msecOff := 0
                epochSec := BitVec.ofNat 32 es, epochFrac := BitVec.ofNat 30 ef } })
      (fun k i t => k = .hardwareFailure ∧ i = 5 ∧ ∃ n fl b d o,
        t = { s with
              schState := .lateReset, flags := fl, backends := b, draws := d, out := o
              sched := { s.sched with slips := n } })
      (fun t => ∃ n fl b d o,
        t = { s with
              schState := .lateReset, flags := fl, backends := b, draws := d, out := o
              sched := { s.sched with slips := n } }) := by
  unfold lateReset
  refine ((deriveEpoch_post _).mono (fun _ _ h => h) (fun k i t h => ?_) (fun t h => ?_)).next
    fun _ t h => ?_
  · obtain ⟨rfl, rfl, b, d, o, -, rfl⟩ := h
    exact ⟨rfl, rfl, _, _, b, d, o, rfl⟩
  · obtain ⟨b, d, o, -, rfl⟩ := h
    exact ⟨_, _, b, d, o, rfl⟩
  · obtain ⟨es, ef, b, d, o, h1, h2, -, rfl⟩ := h
    exact ⟨es, ef, _, _, b, d, o, h1, h2, rfl⟩

/-- The transmit time is bounded and recorded, or raised (44_scheduler.md R226, R236). -/
theorem takeTxTime_post (s : State) :
    (takeTxTime s).Post
      (fun tx t => tx = txTimeOf s ∧ tx.sec < 2 ^ 32 ∧
        t = { s with sched.txSec := BitVec.ofNat 32 tx.sec, sched.txFrac := BitVec.ofNat 30 tx.frac })
      (fun k i t => k = .hardwareFailure ∧ i = 5 ∧ t = s ∧ 2 ^ 32 ≤ (txTimeOf s).sec) (fun _ => False) := by
  by_cases h : 2 ^ 32 ≤ (txTimeOf s).sec
  · have e : takeTxTime s = .raised .hardwareFailure 5 s := if_pos h
    rw [e]
    exact ⟨rfl, rfl, rfl, h⟩
  · have e : takeTxTime s = .value (txTimeOf s) { s with
        sched.txSec := BitVec.ofNat 32 (txTimeOf s).sec
        sched.txFrac := BitVec.ofNat 30 (txTimeOf s).frac } := if_neg h
    rw [e]
    exact ⟨rfl, Nat.lt_of_not_le h, rfl⟩

/-- The part of a tick after its cancel check: it goes on in `SCHEDULED`, or raises HardwareFailure(5), or waits
in an unanswered call (44_scheduler.md R225 to R230, R236). -/
theorem ruleTick_post (s : State) (hs : s.schState = .scheduled) :
    (ruleTick s).Post (fun _ t => TickLeaves s.schState s t)
      (fun k i t => k = .hardwareFailure ∧ i = 5 ∧
        (TickLeaves s.schState s t ∨ TickLeaves .lateReset s t))
      (fun t => TickLeaves s.schState s t ∨ TickLeaves .lateReset s t) := by
  unfold ruleTick
  refine ((takeTxTime_post _).mono (fun _ _ h => h) (fun k i t h => ?_) (fun _ h => h.elim)).next
    fun tx t h => ?_
  · obtain ⟨rfl, rfl, rfl, -⟩ := h
    exact ⟨rfl, rfl, .inl ⟨_, s.flags, s.backends, s.draws, s.out, rfl, id, fun _ => id, id, rfl, rfl⟩⟩
  obtain ⟨htx, -, rfl⟩ := h
  replace htx := htx ▸ txTimeOf_frac { s with sched.ticks := s.sched.ticks + 1 }
  simp only at htx
  refine ((askTime_post _).mono (fun _ _ h => h) (fun _ _ _ h => h.elim)
    (fun t h => ?_)).next fun x t h => ?_
  · obtain ⟨b, d, rfl⟩ := h
    exact .inl ⟨_, s.flags, b, d, _, rfl, id, fun he _ => htx he, id, rfl, rfl⟩
  obtain ⟨-, -, b, d, rfl⟩ := h
  split
  · refine (lateReset_post _).mono (fun _ t h => ?_) (fun k i t h => ?_) (fun t h => ?_)
    · obtain ⟨es, ef, n, fl, b, d, o, h1, h2, rfl⟩ := h
      have hef : (BitVec.ofNat 30 ef).toNat < Config.fracUnits ∧ (BitVec.ofNat 30 ef).toNat % Config.ms = 0 := by
        rw [ofNat_frac h1]
        exact ⟨h1, h2⟩
      have hzero : (0 : BitVec 10).toNat < 1000 := by decide
      rw [hs]
      exact .intro rfl (fun _ => hef) (fun he _ => htx he) (fun _ => hzero) rfl rfl
    · obtain ⟨rfl, rfl, n, fl, b, d, o, rfl⟩ := h
      exact ⟨rfl, rfl, .inr ⟨_, fl, b, d, o, rfl, id, fun he _ => htx he, id, rfl, rfl⟩⟩
    · obtain ⟨n, fl, b, d, o, rfl⟩ := h
      exact .inr ⟨_, fl, b, d, o, rfl, id, fun he _ => htx he, id, rfl, rfl⟩
  · refine ((sendBurst_post _ _).mono (fun _ _ h => h) (fun _ _ _ h => h.elim)
      (fun t h => ?_)).next fun _ u hu => ?_
    · obtain ⟨b, d, o, rfl⟩ := h
      exact .inl ⟨_, s.flags, b, d, o, rfl, id, fun he _ => htx he, id, rfl, rfl⟩
    · obtain ⟨so, mo, ha, hm⟩ := advance_eq u
      obtain ⟨ret, n, fl, b, d, o, rfl⟩ := hu
      rw [Run.post_done, ha]
      exact ⟨_, fl, b, d, o, rfl, id, fun he _ => htx he, hm, rfl, rfl⟩

end Sys2Proof.Machine
end

