-- ==== Sys2Proof/Tests/Slice0.lean ====
section
/-! SUPPORT. Tests. Expected values come from the opcode map of 30_encoding.md R103 and from the worked
vectors of 95_test_vectors.md (L1 to L8, V1 to V10, P1 to P4), named at each theorem. The theorems
`witness_<Statement>` show a concrete state and operands that meet the hypotheses of that statement, clause
by clause, at boundary values. -/

namespace Sys2Proof.Tests

open Sys2Proof.Machine

/-! ### Decoding: one word of each command, written out from the opcode map -/

theorem test_decode_nop : decode 0x00000000#32 = .ok .nop := by decide
theorem test_decode_pool :
    decode 0b00000001#32 = .ok .cellSet ∧ decode 0b00000010#32 = .ok .poolDefault ∧
    decode 0b00000011#32 = .ok .poolCheck := by decide
theorem test_decode_codec :
    decode 0b00010000#32 = .ok .resv2code ∧ decode 0b00010001#32 = .ok .code2resv ∧
    decode 0b00010010#32 = .ok .rivEnc ∧ decode 0b00010011#32 = .ok .rivDec ∧
    decode 0b00010100#32 = .ok .sciPack ∧ decode 0b00010101#32 = .ok .sciUnpack ∧
    decode 0b00010110#32 = .ok .crc2id := by decide
theorem test_decode_framer :
    decode 0b00100000#32 = .ok .frBuild ∧ decode 0b00100001#32 = .ok .frCtrl ∧
    decode 0b00100010#32 = .ok .frData ∧ decode 0b00100011#32 = .ok .frMod ∧
    decode 0b00100100#32 = .ok .frClear := by decide
theorem test_decode_parser :
    decode 0b00110000#32 = .ok .rxDemod ∧ decode 0b00110001#32 = .ok .rxLoop ∧
    decode 0b0001001100110010#32 = .ok (.parseSubch 19) ∧ decode 0b00110010#32 = .ok (.parseSubch 0) ∧
    decode 0b00110011#32 = .ok .parseAll ∧ decode 0b00110100#32 = .ok .rxClear := by decide
theorem test_decode_scheduler :
    decode 0b01000000#32 = .ok .radioOpen ∧ decode 0b01000001#32 = .ok .radioClose ∧
    decode 0b01000010#32 = .ok .schStart ∧ decode 0b01000011#32 = .ok .schCancel := by decide
theorem test_decode_system :
    decode 0b01111110#32 = .ok .clrFlags ∧ decode 0b01111111#32 = .ok .softReset := by decide
theorem test_decode_refuses :
    decode 0x00010000#32 = .error .upperBitsNotZero ∧ decode 0x00000044#32 = .error .opcodeNotListed ∧
    decode 0x00000100#32 = .error .immediateNotZero ∧ decode 0x80000032#32 = .error .upperBitsNotZero := by
  decide

/-! ### Well-formedness: the one check refuses an ill-formed term -/

theorem test_index_too_wide : ¬ (Instr.parseSubch 256).WellFormed := by decide
theorem test_index_widest : (Instr.parseSubch 255).WellFormed := by decide

/-! ### States for the tests -/

/-- The state an outcome answers, or the reset state. -/
def after (o : Host.Outcome State Fault Refusal) : State :=
  match o with
  | .next t => t
  | .refused _ => State.reset

/-- A grid of one hundred blocks with content `n`. -/
def gr (n : Nat) : Grid := { blocks := 100, content := n }

/-- Reset, with a cell of `n` resource blocks not committed. -/
def celled (n : BitVec 8) : State := { State.reset with cell := { tm := 0, id := 1, nprb := n, cp := 0 } }

/-- Reset, with `OPA`, `OPB`, `OPC`. -/
def operands (a b c : Word) : State := { State.reset with opr := { opa := a, opb := b, opc := c } }

/-- Reset, with a pool of `n` sub-channels of width `w`. -/
def counted (n : BitVec 5) (w : BitVec 8) : State := { celled 100 with pool := { nsubch := n, width := w } }

/-- The 20 by 5 pool of L5 and P2, the control message of the first row of V4, one allocation. -/
def pooled : State :=
  { celled 100 with
    pool := { nsubch := 20, width := 5, startPrb := 0, adj := 1 }
    status := { State.reset.status with cellv := true, poolv := true }
    sci := { fmt := 1, prio := 3, resv := 1, riv := 0, tgap := 0, mcs := 5, retx := 0, txfmt := 0 }
    frIn := { start := 0, len := 2, sfidx := 27 } }

/-- Backends that answer one frame's calls, and one scan's (P2). -/
def answers : Backends :=
  { encodeControl := [.reply (some (gr 1, 0xBEEF))]
    insertRef := [.reply (gr 2), .reply (gr 4)]
    validSpan := [.reply 8, .reply 8]
    encodeData := [.reply (some (gr 3))]
    modulate := [.reply ⟨15360, 9⟩]
    demodulate := [.reply (gr 5)]
    equalize := [.reply (gr 6), .reply (gr 7), .reply (gr 6), .reply (gr 6), .reply (gr 6)]
    decodeControl := [.reply (some (0x62280500, 0xBEEF)), .reply none, .reply none, .reply none]
    decodeData := [.reply (some [])] }

/-- `pooled` with those backends. -/
def framing : State := { pooled with backends := answers }

/-- A frame in `DATA_PLACED`. -/
def dataPlaced : State := { framing with frState := .dataPlaced, txgrid := gr 4 }

/-- A frame in `CONTROL_PLACED`, the identifier 0xBEEF. -/
def controlPlaced : State :=
  { framing with
    frState := .controlPlaced
    frOut := { ctrlOff := 0, dataStart := 0, dataNprb := 0, scrid := 0xBEEF, rv := 0 } }

/-- Enough `err` answers for a scan of twenty sub-channels. -/
def silent : Backends :=
  { equalize := List.replicate 160 (.reply (gr 6))
    decodeControl := List.replicate 80 (.reply none)
    validSpan := List.replicate 80 (.reply 1)
    decodeData := List.replicate 80 (.reply none) }

/-- A radio open on handle 77, a frame `READY`, the clock about to answer (P3). -/
def radioReady : State :=
  { pooled with
    status := { pooled.status with radio := true }
    handle := some 77
    frState := .ready
    txsamp := ⟨15360, 9⟩
    sched := { pooled.sched with srate := 15360000 }
    backends :=
      { getTime := [.reply ⟨100, 123456700⟩, .reply ⟨100, 124000000⟩]
        sendTimed := [.reply 15360] } }

/-- The loop running, epoch (100, 126 000 000), the clock before it (P3, tick 1). -/
def ticking : State :=
  { radioReady with
    status := { radioReady.status with busy := true }
    schState := .scheduled
    sched := { radioReady.sched with epochSec := 100, epochFrac := 126000000 }
    backends := { getTime := [.reply ⟨100, 124000000⟩], sendTimed := [.reply 0xFFFFFFFF] } }

/-- The same with the clock one sample late, and a second clock read (P3, tick 4: 300 ms on). -/
def late : State :=
  { ticking with
    sched := { ticking.sched with msecOff := 300 }
    backends := { getTime := [.reply ⟨100, 426000100⟩, .reply ⟨100, 426500000⟩] } }

/-- The clock and the sends of ten ticks (L7). -/
def tenTicks : State :=
  { ticking with
    backends :=
      { getTime := List.replicate 10 (.reply ⟨0, 0⟩), sendTimed := List.replicate 10 (.reply 15360) } }

/-! ### Single steps, one or two for each command (95_test_vectors.md) -/

/-- P4: a legal command completes. -/
theorem test_nop : hostRead 0x0002 (after (exec .nop State.reset)) = 0x00000002 := by decide
/-- V1. -/
theorem test_cell_set : hostRead 0x0002 (after (exec .cellSet (celled 100))) = 0x0000000A := by decide
/-- V1: no resource block. -/
theorem test_cell_set_zero :
    hostRead 0x0002 (after (exec .cellSet (celled 0))) = 0x00000006 ∧
    (after (exec .cellSet (celled 0))).errInfo = 1 := by decide
/-- V1. -/
theorem test_pool_default :
    (after (exec .poolDefault (celled 50))).pool = { nsubch := 10, width := 5, startPrb := 0, adj := 1 } := by
  decide
/-- V1: 75 is not a supported count. -/
theorem test_pool_default_unsupported :
    (after (exec .poolDefault (celled 75))).err = 1 ∧ (after (exec .poolDefault (celled 75))).errInfo = 2 := by
  decide
/-- V1: the product equals the count. -/
theorem test_pool_check : (after (exec .poolCheck (counted 20 5))).status.poolv = true := by decide
/-- V1: more than `MAX_SUBCH`. -/
theorem test_pool_check_refuses : (after (exec .poolCheck (counted 21 1))).errInfo = 3 := by decide
/-- L2. -/
theorem test_resv2code : (after (exec .resv2code (operands 50 0 0))).opr.res0 = 11 := by decide
/-- L2: 30 is not an interval. -/
theorem test_resv2code_fails :
    (after (exec .resv2code (operands 30 0 0))).err = 2 ∧
    (after (exec .resv2code (operands 30 0 0))).errInfo = 30 := by decide
/-- V2: the product wraps modulo 2^32. -/
theorem test_code2resv_wraps : (after (exec .code2resv (operands 0xFFFFFFFF 0 0))).opr.res0 = 0xFFFFFF9C := by
  decide
/-- V2. -/
theorem test_code2resv : (after (exec .code2resv (operands 12 0 0))).opr.res0 = 20 := by decide
/-- V3: second branch. -/
theorem test_riv_enc : (after (exec .rivEnc (operands 20 8 12))).opr.res0 = 191 := by decide
/-- V3: the sum does not wrap. -/
theorem test_riv_enc_fails : (after (exec .rivEnc (operands 20 0xFFFFFFFF 1))).err = 3 := by decide
/-- V3. -/
theorem test_riv_dec :
    (after (exec .rivDec (operands 191 20 0))).opr.res0 = 8 ∧
    (after (exec .rivDec (operands 191 20 0))).opr.res1 = 12 := by decide
/-- V3: the first value that fails. -/
theorem test_riv_dec_fails : (after (exec .rivDec (operands 420 20 0))).errInfo = 5 := by decide
/-- V4, fourth row: every field at a large value. -/
theorem test_sci_pack :
    (after (exec .sciPack { counted 20 5 with
      sci := { fmt := 1, prio := 7, resv := 12, riv := 209, tgap := 15, mcs := 31, retx := 1, txfmt := 1 } })
      ).sciBits = { bits := 0xF9A3FFC0, nbits := 32 } := by decide
/-- V4: 16 needs five bits. -/
theorem test_sci_pack_fails :
    (after (exec .sciPack { counted 5 5 with sci := { fmt := 1, riv := 16 } })).errInfo = 1 := by decide
/-- V4: the bits below `LEN(B, 20)` are ignored. -/
theorem test_sci_unpack :
    (after (exec .sciUnpack { counted 20 5 with
      sci := { fmt := 1 }, sciBits := { bits := 0x6228053F, nbits := 26 } })).sci =
      { fmt := 1, prio := 3, resv := 1, riv := 20, tgap := 0, mcs := 5, retx := 0, txfmt := 0 } := by decide
/-- V4: one bit short. -/
theorem test_sci_unpack_short :
    (after (exec .sciUnpack { counted 20 5 with
      sci := { fmt := 1 }, sciBits := { bits := 0x62280500, nbits := 25 } })).errInfo = 2 := by decide
/-- L4. -/
theorem test_crc2id :
    (after (exec .crc2id { State.reset with crcBits := { bits := 0xA0000000, nbits := 3 } })).opr.res0 = 5 := by
  decide
/-- V5: longer than a pair. -/
theorem test_crc2id_fails :
    (after (exec .crc2id { State.reset with crcBits := { bits := 0, nbits := 33 } })).errInfo = 3 := by decide
/-- V6, first row. -/
theorem test_fr_build :
    (after (exec .frBuild framing)).frOut =
      { ctrlOff := 0, dataStart := 2, dataNprb := 8, scrid := 0xBEEF, rv := 0 } ∧
    (after (exec .frBuild framing)).frState = .ready := by decide
/-- V6, failures: the length 0. -/
theorem test_fr_build_fails :
    (after (exec .frBuild { framing with frIn := { start := 0, len := 0, sfidx := 0 } })).status.frfail = true
    := by decide
/-- P2: the packed word of the first row of V4, the CRC bits left-aligned. -/
theorem test_fr_ctrl :
    (after (exec .frCtrl framing)).sciBits.bits = 0x62280500 ∧
    (after (exec .frCtrl framing)).crcBits = { bits := 0xBEEF0000, nbits := 16 } := by decide
/-- P2. -/
theorem test_fr_data :
    (after (exec .frData controlPlaced)).frOut =
      { ctrlOff := 0, dataStart := 2, dataNprb := 8, scrid := 0xBEEF, rv := 0 } := by decide
/-- V6, stepping: refused in `EMPTY`. -/
theorem test_fr_data_refused :
    (after (exec .frData framing)).err = 9 ∧ (after (exec .frData framing)).errInfo = 0x22 := by decide
/-- V6, stepping. -/
theorem test_fr_mod :
    (after (exec .frMod dataPlaced)).txsamp = ⟨15360, 9⟩ ∧
    (after (exec .frMod dataPlaced)).txgrid = Grid.zero 100 := by decide
/-- V6. -/
theorem test_fr_clear :
    (after (exec .frClear radioReady)).frState = .empty ∧
    (after (exec .frClear radioReady)).txsamp = Samples.empty := by decide
/-- 43_parser_rx.md R191. -/
theorem test_rx_demod : (after (exec .rxDemod framing)).rxgrid = gr 5 := by decide
/-- P2. -/
theorem test_rx_loop : (after (exec .rxLoop dataPlaced)).rxgrid = gr 4 := by decide
/-- P2: the entry words of sub-channel 0. -/
theorem test_parse_subch :
    (List.range 16).map (fun k => drWord (drAt (after (exec (.parseSubch 0) framing)) 0) k) =
      [0x113, 3, 1, 100, 20, 0, 5, 0, 0, 0, 2, 2, 8, 0xBEEF, 0, 0] := by decide
/-- P4: the index is not below `POOL_NSUBCH`. -/
theorem test_parse_subch_illegal :
    (after (exec (.parseSubch 20) framing)).err = 8 ∧
    (after (exec (.parseSubch 20) framing)).errInfo = 0x1432 := by decide
/-- V7: nothing heard leaves a zero entry. -/
theorem test_parse_all :
    drAt (after (exec .parseAll
      { pooled with pool := { nsubch := 2, width := 5 }, backends := silent })) 1 = {} := by decide
/-- 93_implementation_defined.md U9: the examples of the default span oracle. -/
theorem test_span_default :
    [1, 7, 8, 11, 13, 14, 17, 19, 23, 26, 29, 48, 98].map spanDefault =
      [1, 6, 8, 10, 12, 12, 16, 18, 20, 25, 27, 48, 96] := by decide
/-- 43_parser_rx.md R193. -/
theorem test_rx_clear :
    drAt (after (exec .rxClear { State.reset with dr := Vector.replicate 20 { ctrl := true } })) 19 = {} := by
  decide
/-- P3: a step that the radio answers `ok`. -/
theorem test_radio_open :
    (after (exec .radioOpen { State.reset with
      sched := { srate := 15360000 }
      backends :=
        { radioOpen := [.reply (some 77)], setFreq := [.reply true], setGain := [.reply true]
          setRate := [.reply (some 15360000)] } })).handle = some 77 := by decide
/-- 44_scheduler.md R221: another rate than asked for. -/
theorem test_radio_open_fails :
    (after (exec .radioOpen { State.reset with
      sched := { srate := 15360000 }
      backends :=
        { radioOpen := [.reply (some 77)], setFreq := [.reply true], setGain := [.reply true]
          setRate := [.reply (some 15360001)] } })).errInfo = 4 := by decide
/-- 44_scheduler.md R222. -/
theorem test_radio_close : (after (exec .radioClose radioReady)).handle = none := by decide
/-- P3: the epoch of (100, 123 456 700). -/
theorem test_sch_start :
    (after (exec .schStart radioReady)).sched.epochSec = 100 ∧
    (after (exec .schStart radioReady)).sched.epochFrac = 126000000 := by decide
/-- P3: accepted while busy. -/
theorem test_sch_cancel :
    (after (hostWrite cmdWord 0x43 ticking)).status.cancel = true ∧
    (after (hostWrite cmdWord 0x43 ticking)).flags.ovr = false := by decide
/-- P3: the flags cleared. -/
theorem test_clr_flags :
    hostRead 0x0005 (after (exec .clrFlags { State.reset with flags := { slip := true } })) = 0 := by decide
/-- P4: only `DONE` is left. -/
theorem test_soft_reset :
    hostRead 0x0002 (after (exec .softReset pooled)) = 2 ∧
    hostRead 0x000C (after (exec .softReset pooled)) = 0 := by decide
/-- P3, tick 1: the transmit time; a negative return is reported. -/
theorem test_tick :
    (after (step ticking)).sched.txFrac = 126000000 ∧
    (after (step ticking)).sched.sendFails = 1 := by decide
/-- L6, P3 tick 4: one sample late; the fresh epoch. -/
theorem test_tick_slips :
    (after (step late)).sched.epochFrac = 429000000 ∧ (after (step late)).sched.msecOff = 0 := by decide
/-- `withFetchWord` at the reset state: the next step runs the command. -/
theorem test_fetch : (after (step (State.reset.withFetchWord 32 0x7E))).status.done = true := by decide

/-! ### Witnesses: the hypotheses of each statement, met -/

theorem witness_decodeOfEncodedCommand :
    (Instr.parseSubch 255).WellFormed ∧ (Instr.parseSubch 0).WellFormed ∧ Instr.nop.WellFormed := by decide

theorem witness_encodeOfDecodedWord : decode 0x0000FF32#32 = .ok (.parseSubch 255) := by decide

theorem witness_stepRunsDecodedCommand :
    let s := State.reset.withFetchWord 32 0x1332
    s.moves = .hostWrite cmdWord 0x1332 :: [] ∧ s.inRst = false ∧ decode 0x1332#32 = .ok (.parseSubch 19) := by
  decide

/-- Every other move, `rst` at 0 and at 1, an engine with nothing to run and one that waits for ever. -/
theorem witness_stepRunsDecodedCommand_moves :
    (let u := { State.reset with inRst := true, moves := [.hostWrite 0x18 7] }
     u.moves = .hostWrite 0x18 7 :: [] ∧ u.inRst = true) ∧
    ({ State.reset with moves := [.cancelIn true] } : State).moves = .cancelIn true :: [] ∧
    ({ State.reset with moves := [.cancelIn false], inRst := true } : State).inRst = true ∧
    State.reset.moves = [] ∧ State.reset.inRst = false ∧ State.reset.schState ≠ .scheduled ∧
    ({ ticking with hung := true } : State).hung = true := by decide

/-- Each range of words that match no row, at its ends, and the index at the bound. -/
theorem witness_illegalWordsAreRejected :
    State.reset.status.busy = false ∧ pooled.status.busy = false ∧
    65536 ≤ (0x10000#32).toNat ∧ 65536 ≤ (0xFFFFFFFF#32).toNat ∧
    (∀ op ∈ [0x04, 0x0F], 0x04 ≤ op ∧ op ≤ 0x0F) ∧ (∀ op ∈ [0x17, 0x1F], 0x17 ≤ op ∧ op ≤ 0x1F) ∧
    (∀ op ∈ [0x25, 0x2F], 0x25 ≤ op ∧ op ≤ 0x2F) ∧ (∀ op ∈ [0x35, 0x3F], 0x35 ≤ op ∧ op ≤ 0x3F) ∧
    (∀ op ∈ [0x44, 0x7D], 0x44 ≤ op ∧ op ≤ 0x7D) ∧ (∀ op ∈ [0x80, 0xFF], 0x80 ≤ op ∧ op < 256) ∧
    (0x0100#32).toNat % 256 ≠ 0x32 ∧ (0x0100#32).toNat / 256 % 256 ≠ 0 ∧
    (0x1432#32).toNat % 256 = 0x32 ∧ pooled.pool.nsubch.toNat ≤ (0x1432#32).toNat / 256 % 256 := by decide

/-- Each state condition failing, one term of it at a time. -/
theorem witness_wrongStateIsRejected :
    State.reset.status.busy = false ∧ framing.status.busy = false ∧ controlPlaced.status.busy = false ∧
    radioReady.status.busy = false ∧
    ¬(State.reset.status.cellv = true ∧ State.reset.status.poolv = true ∧
      State.reset.status.frfail = false ∧ State.reset.frState = .empty) ∧
    ¬(controlPlaced.status.cellv = true ∧ controlPlaced.status.poolv = true ∧
      controlPlaced.status.frfail = false ∧ controlPlaced.frState = .empty) ∧
    ¬(framing.status.cellv = true ∧ framing.status.poolv = true ∧
      framing.status.frfail = false ∧ framing.frState = .controlPlaced) ∧
    ¬(framing.status.cellv = true ∧ framing.status.frfail = false ∧ framing.frState = .dataPlaced) ∧
    State.reset.status.cellv = false ∧
    ¬(State.reset.status.cellv = true ∧ State.reset.status.frfail = false) ∧
    ¬((counted 20 5).status.cellv = true ∧ (counted 20 5).status.poolv = true) ∧
    19 < (counted 20 5).pool.nsubch.toNat ∧
    radioReady.status.radio = true ∧ State.reset.status.radio = false ∧
    ¬(framing.status.radio = true ∧ framing.status.frfail = false ∧ framing.frState = .ready) := by decide

theorem witness_everyCommandCompletesOrRuns :
    radioReady.status.busy = false ∧ radioReady.hung = false ∧ radioReady.schState = .idle := by decide

theorem witness_busyIgnoresHostWrites :
    ticking.status.busy = true ∧ ¬((0x0001 : WordNo) = 0x0001 ∧ (0x42 : Word) = 0x00000043) ∧
    ¬((0x0400 : WordNo) = 0x0001 ∧ (0x43 : Word) = 0x00000043) := by decide

theorem witness_idle :
    State.reset.status.busy = false ∧ radioReady.status.busy = false ∧ radioReady.status.radio = true := by
  decide

/-- The narrowest and the widest register, and one of each validity group. -/
theorem witness_registerWrites :
    pooled.status.busy = false ∧ ((0x000B : WordNo).toNat, 1) ∈ rwRegisters ∧
    ((0x0008 : WordNo).toNat, 8) ∈ rwRegisters ∧ ((0x000C : WordNo).toNat, 5) ∈ rwRegisters ∧
    ((0x000F : WordNo).toNat, 1) ∈ rwRegisters ∧ ((0x003C : WordNo).toNat, 32) ∈ rwRegisters := by decide

theorem witness_readOnlyAndUnmappedWords :
    pooled.status.busy = false ∧ (0x003B : WordNo).toNat ∈ roRegisters ∧
    (0x100 ≤ (0x023F : WordNo).toNat ∧ (0x023F : WordNo).toNat < 0x240) ∧
    (0x8000 ≤ (0xCFFF : WordNo).toNat ∧ (0xCFFF : WordNo).toNat < 0xD000) ∧
    Unmapped (0xFFFF : WordNo).toNat ∧ Unmapped (0x0006 : WordNo).toNat := by
  refine ⟨by decide, by decide, by decide, by decide, ?_, ?_⟩
  · right; right; right; right; right; right; decide
  · left; decide

theorem witness_windowsExist : 0 < Config.tbWords ∧ 4 ≤ tbBytes ∧ Memory.wf pooled.mem = true := by
  refine ⟨Nat.succ_pos _, ?_, by decide⟩
  unfold tbBytes Config.tbWords
  omega

/-- The last word of the `TXTB` window is one of its words, too. -/
theorem witness_txtbWindowWrites :
    pooled.status.busy = false ∧ Memory.wf pooled.mem = true ∧ Config.tbWords - 1 < Config.tbWords :=
  ⟨by decide, by decide, Nat.sub_lt (Nat.succ_pos _) Nat.one_pos⟩

theorem witness_receiveWindowsRead : (19 : Nat) < 20 ∧ 0 < Config.tbWords ∧ (31 : Nat) < 32 ∧ (15 : Nat) < 16 :=
  ⟨by decide, Nat.succ_pos _, by decide, by decide⟩

theorem witness_cellSet :
    (celled 0).status.busy = false ∧ (celled 0).cell.nprb = 0 ∧ (celled 1).status.busy = false ∧
    (celled 1).cell.nprb ≠ 0 := by decide

theorem witness_poolDefault :
    (celled 50).status.busy = false ∧ (celled 50).cell.nprb = 50 ∧ (celled 100).cell.nprb = 100 ∧
    ((celled 75).cell.nprb ≠ 50 ∧ (celled 75).cell.nprb ≠ 100) := by decide

theorem witness_poolCheck :
    (counted 20 5).status.busy = false ∧
    (let bad := fun s : State => s.pool.nsubch.toNat = 0 ∨ 20 < s.pool.nsubch.toNat ∨
       s.pool.width.toNat = 0 ∨ s.cell.nprb.toNat < s.pool.nsubch.toNat * s.pool.width.toNat
     bad (counted 0 5) ∧ bad (counted 21 1) ∧ bad (counted 5 0) ∧ bad (counted 17 6) ∧
     ¬ bad (counted 20 5) ∧ ¬ bad (counted 1 100)) := by decide

theorem witness_reservationToCode :
    (operands 20 0 0).status.busy = false ∧ (operands 20 0 0).opr.opa.toNat = 20 ∧
    (operands 50 0 0).opr.opa.toNat = 50 ∧ (operands 100 0 0).opr.opa.toNat = 100 * 1 ∧
    (operands 1000 0 0).opr.opa.toNat = 100 * 10 ∧
    ((operands 1100 0 0).opr.opa.toNat ≠ 20 ∧ (operands 1100 0 0).opr.opa.toNat ≠ 50 ∧
      ∀ k, 1 ≤ k → k ≤ 10 → (operands 1100 0 0).opr.opa.toNat ≠ 100 * k) := by
  refine ⟨by decide, by decide, by decide, by decide, by decide, by decide, by decide, ?_⟩
  intro k _ _ h
  have : (operands 1100 0 0).opr.opa.toNat = 1100 := by decide
  omega

theorem witness_reservationRoundTrip :
    (operands 50 0 0).status.busy = false ∧
    exec .resv2code (operands 50 0 0) = .next (after (exec .resv2code (operands 50 0 0))) ∧
    (after (exec .resv2code (operands 50 0 0))).err = 0 := ⟨by decide, rfl, by decide⟩

theorem witness_rivEncodeBijection :
    (1 ≤ 20 ∧ 1 ≤ 20 ∧ 0 + 20 ≤ 20 ∧ 209 < 20 * (20 + 1) / 2) ∧ rivEncode 20 9 11 = 209 ∧
    (1 ≤ 1 ∧ 0 + 1 ≤ 1 ∧ rivEncode 1 0 1 = 0) := by decide

/-- Each clause of `RIV_ENC` at its boundary; no operands fall under two of them. -/
theorem witness_rivEncodeCommand :
    (operands 20 0 20).status.busy = false ∧
    ((operands 0 0 1).opr.opa.toNat = 0 ∨ 20 < (operands 0 0 1).opr.opa.toNat) ∧
    ((operands 21 0 1).opr.opa.toNat = 0 ∨ 20 < (operands 21 0 1).opr.opa.toNat) ∧
    (1 ≤ (operands 20 0 0).opr.opa.toNat ∧ (operands 20 0 0).opr.opa.toNat ≤ 20 ∧
      (operands 20 0 0).opr.opc.toNat = 0) ∧
    (1 ≤ (operands 20 19 2).opr.opa.toNat ∧ (operands 20 19 2).opr.opa.toNat ≤ 20 ∧
      (operands 20 19 2).opr.opa.toNat <
        (operands 20 19 2).opr.opb.toNat + (operands 20 19 2).opr.opc.toNat) ∧
    (1 ≤ (operands 20 0 20).opr.opc.toNat ∧
      (operands 20 0 20).opr.opb.toNat + (operands 20 0 20).opr.opc.toNat ≤
        (operands 20 0 20).opr.opa.toNat) := by decide

theorem witness_rivDecodeLaws :
    1 ≤ 20 ∧ rivDecode 419 20 = some (0, 1) ∧ rivDecode 420 20 = none ∧ 20 * (20 + 1) / 2 ≤ 210 ∧
    210 < 20 * (20 + 1) ∧ 1 ≤ 11 ∧ 9 + 11 ≤ 20 := by decide

/-- Each clause of `RIV_DEC` at its boundary. -/
theorem witness_rivDecodeCommand :
    (operands 5 0 0).status.busy = false ∧ (operands 5 0 0).opr.opb.toNat = 0 ∧
    20 < (operands 5 21 0).opr.opb.toNat ∧
    20 * (20 + 1) ≤ (operands 420 20 0).opr.opa.toNat ∧ (operands 419 20 0).opr.opa.toNat < 20 * (20 + 1) ∧
    (operands 209 20 0).opr.opa.toNat / 20 + 1 + (operands 209 20 0).opr.opa.toNat % 20 ≤ 20 ∧
    20 < (operands 419 20 0).opr.opa.toNat / 20 + 1 + (operands 419 20 0).opr.opa.toNat % 20 := by decide

theorem witness_sciPack :
    (counted 20 5).status.busy = false ∧ (counted 0 5).pool.nsubch.toNat = 0 ∧
    20 < (counted 21 5).pool.nsubch.toNat ∧ 1 ≤ (counted 20 5).pool.nsubch.toNat ∧
    (counted 20 5).pool.nsubch.toNat ≤ 20 ∧
    2 ^ wRiv (counted 5 5).pool.nsubch.toNat ≤ ({ counted 5 5 with sci := { riv := 16 } } : State).sci.riv.toNat ∧
    ({ counted 20 5 with sci := { riv := 255 } } : State).sci.riv.toNat < 2 ^ wRiv 20 ∧
    ({ counted 1 5 with sci := { riv := 0 } } : State).sci.riv.toNat < 2 ^ wRiv 1 := by decide

theorem witness_sciUnpack :
    (counted 20 5).status.busy = false ∧ (counted 0 5).pool.nsubch.toNat = 0 ∧
    20 < (counted 21 5).pool.nsubch.toNat ∧ 1 ≤ (counted 20 5).pool.nsubch.toNat ∧
    (counted 20 5).pool.nsubch.toNat ≤ 20 ∧ 32 < (33#6).toNat ∧ (32#6).toNat ≤ 32 ∧
    17 + wRiv 20 + 1 ≤ (26#6).toNat ∧ (25#6).toNat < 17 + wRiv 20 + 1 ∧
    17 + wRiv 20 + 0 ≤ (25#6).toNat ∧ (24#6).toNat < 17 + wRiv 20 + 0 := by decide

theorem witness_packUnpackRoundTrip :
    (let c : Sci := { fmt := 0, prio := 7, resv := 12, riv := 209, tgap := 15, mcs := 31, retx := 1, txfmt := 0 }
     1 ≤ 20 ∧ 20 ≤ 20 ∧ c.riv.toNat < 2 ^ wRiv 20 ∧ (c.fmt = 0 → c.txfmt = 0)) ∧
    (let c : Sci := { fmt := 1, prio := 5, resv := 10, riv := 0, tgap := 9, mcs := 17, retx := 1, txfmt := 1 }
     c.riv.toNat < 2 ^ wRiv 1 ∧ (c.fmt = 0 → c.txfmt = 0)) := by decide

theorem witness_crcToId :
    State.reset.status.busy = false ∧ 32 < (33#6).toNat ∧ (32#6).toNat ≤ 32 ∧ (0#6).toNat ≤ 32 := by decide

theorem witness_framerControlSteps :
    framing.status.busy = false ∧ framing.status.cellv = true ∧ framing.status.poolv = true ∧
    framing.status.frfail = false ∧ framing.frState = .empty ∧ framing.pool.nsubch.toNat ≤ 20 ∧
    1 ≤ framing.frIn.len.toNat ∧
    framing.frIn.start.toNat + framing.frIn.len.toNat ≤ framing.pool.nsubch.toNat ∧
    framing.backends.encodeControl = .reply (some (gr 1, 0xBEEF)) :: [] ∧
    framing.backends.insertRef = .reply (gr 2) :: [.reply (gr 4)] := by decide

theorem witness_framerDataSteps :
    let s := controlPlaced
    s.status.busy = false ∧ s.status.cellv = true ∧ s.status.poolv = true ∧ s.status.frfail = false ∧
    s.frState = .controlPlaced ∧ 0 < 8 ∧ 8 ≤ s.frIn.len.toNat * s.pool.width.toNat - 2 ∧
    s.backends.validSpan = .reply 8 :: [.reply 8] ∧ s.backends.encodeData = .reply (some (gr 3)) :: [] ∧
    s.backends.insertRef = .reply (gr 2) :: [.reply (gr 4)] := by decide

theorem witness_framerBuild :
    let s := framing
    s.status.busy = false ∧ s.status.cellv = true ∧ s.status.poolv = true ∧ s.status.frfail = false ∧
    s.frState = .empty ∧ s.pool.nsubch.toNat ≤ 20 ∧ 1 ≤ s.frIn.len.toNat ∧
    s.frIn.start.toNat + s.frIn.len.toNat ≤ s.pool.nsubch.toNat ∧
    0 < 8 ∧ 8 ≤ s.frIn.len.toNat * s.pool.width.toNat - 2 ∧
    s.backends.encodeControl = .reply (some (gr 1, 0xBEEF)) :: [] ∧
    s.backends.insertRef = .reply (gr 2) :: .reply (gr 4) :: [] ∧
    s.backends.validSpan = .reply 8 :: [.reply 8] ∧ s.backends.encodeData = .reply (some (gr 3)) :: [] ∧
    s.backends.modulate = .reply ⟨15360, 9⟩ :: [] := by decide

theorem witness_buildEqualsThreeSteps :
    let a := after (exec .frCtrl framing)
    let b := after (exec .frData a)
    let c := after (exec .frMod b)
    framing.status.busy = false ∧ exec .frCtrl framing = .next a ∧ a.status.busy = false ∧ a.err = 0 ∧
    exec .frData a = .next b ∧ b.status.busy = false ∧ b.err = 0 ∧
    exec .frMod b = .next c ∧ c.status.busy = false ∧ c.err = 0 :=
  ⟨by decide, rfl, by decide, by decide, rfl, by decide, by decide, rfl, by decide, by decide⟩

/-- An empty allocation, one past the pool, a control encode that fails; a pool too narrow for data, a span of
zero, a data encode that fails. -/
theorem witness_framerStepErrors :
    (framing.status.busy = false ∧ framing.status.cellv = true ∧ framing.status.poolv = true ∧
      framing.status.frfail = false ∧ framing.frState = .empty) ∧
    ({ framing with frIn := { start := 0, len := 0 } } : State).frIn.len = 0 ∧
    framing.pool.nsubch.toNat <
      ({ framing with frIn := { start := 19, len := 2 } } : State).frIn.start.toNat + 2 ∧
    ({ framing with backends := { encodeControl := [.reply none] } } : State).backends.encodeControl =
      .reply none :: [] ∧
    controlPlaced.frState = .controlPlaced ∧
    ({ controlPlaced with frIn := { len := 1 }, pool := { nsubch := 20, width := 2 } } : State).frIn.len.toNat * 2
      - 2 = 0 ∧
    controlPlaced.frIn.len.toNat * controlPlaced.pool.width.toNat - 2 ≠ 0 ∧
    ({ controlPlaced with backends := { validSpan := [.reply 0] } } : State).backends.validSpan =
      .reply 0 :: [] ∧
    ({ controlPlaced with backends := { encodeData := [.reply none] } } : State).backends.encodeData =
      .reply none :: [] := by decide

/-- `FR_BUILD` in step 4, not asking and asking, and in step 5. -/
theorem witness_framerStepErrors_build :
    (let s := { framing with
       backends := { answers with validSpan := [.reply 0], encodeData := [.reply none] } }
     s.frState = .empty ∧ s.backends.encodeControl = .reply (some (gr 1, 0xBEEF)) :: [] ∧
     s.backends.insertRef = .reply (gr 2) :: [.reply (gr 4)] ∧ s.pool.nsubch.toNat ≤ 20 ∧
     1 ≤ s.frIn.len.toNat ∧ s.frIn.start.toNat + s.frIn.len.toNat ≤ s.pool.nsubch.toNat ∧
     s.frIn.len.toNat * s.pool.width.toNat - 2 ≠ 0 ∧ s.backends.validSpan = .reply 0 :: [] ∧
     s.backends.encodeData = .reply none :: []) ∧
    (let s := { framing with frIn := { len := 1 }, pool := { nsubch := 20, width := 2 } }
     s.frIn.len.toNat * s.pool.width.toNat - 2 = 0) ∧
    0 < 8 ∧ 8 ≤ framing.frIn.len.toNat * framing.pool.width.toNat - 2 ∧
    framing.backends.validSpan = .reply 8 :: [.reply 8] := by decide

theorem witness_failedFrameIsDiscarded :
    let s := { framing with frIn := { start := 0, len := 0 } }
    let t := after (exec .frBuild s)
    Instr.frBuild ∈ [Instr.frBuild, .frCtrl, .frData, .frMod] ∧ s.status.busy = false ∧
    acceptable .frBuild s = true ∧ exec .frBuild s = .next t ∧ t.status.busy = false ∧ t.err ≠ 0 ∧
    Instr.schStart ∈ [Instr.frBuild, .frCtrl, .frData, .frMod, .rxLoop, .schStart] ∧
    t.status.frfail = true :=
  ⟨by decide, by decide, by decide, rfl, by decide, by decide, by decide, by decide⟩

theorem witness_framerModulationAndClear :
    dataPlaced.status.busy = false ∧ dataPlaced.status.cellv = true ∧ dataPlaced.status.frfail = false ∧
    dataPlaced.frState = .dataPlaced ∧ dataPlaced.backends.modulate = .reply ⟨15360, 9⟩ :: [] := by decide

theorem witness_placementsLieInTheGrid :
    let t := after (exec .frBuild framing)
    framing.status.busy = false ∧ framing.frState = .empty ∧
    framing.pool.nsubch.toNat * framing.pool.width.toNat ≤ framing.cell.nprb.toNat ∧
    exec .frBuild framing = .next t ∧ t.frState = .ready :=
  ⟨by decide, by decide, by decide, rfl, by decide⟩

theorem witness_receiveGridCommands :
    framing.status.busy = false ∧ framing.status.cellv = true ∧ framing.status.frfail = false ∧
    framing.backends.demodulate = .reply (gr 5) :: [] := by decide

/-- The replies of a list that holds no `never`. -/
theorem answered_replicate {α : Type} (n m : Nat) (a : α) (h : n ≤ m) :
    Answered n (List.replicate m (Answer.reply a)) :=
  ⟨by simpa using h, fun x hx => ⟨a, List.eq_of_mem_replicate (List.mem_of_mem_take hx)⟩⟩

theorem witness_parseSubchannel :
    let s := { pooled with backends := silent }
    s.status.busy = false ∧ s.status.cellv = true ∧ s.status.poolv = true ∧ s.pool.nsubch.toNat ≤ 20 ∧
    19 < s.pool.nsubch.toNat ∧ Memory.wf s.mem = true ∧ Answered 8 s.backends.equalize ∧
    Answered 4 s.backends.decodeControl ∧ Answered 4 s.backends.validSpan ∧
    Answered 4 s.backends.decodeData :=
  ⟨by decide, by decide, by decide, by decide, by decide, by decide,
    answered_replicate _ _ _ (by decide), answered_replicate _ _ _ (by decide),
    answered_replicate _ _ _ (by decide), answered_replicate _ _ _ (by decide)⟩

/-- Nothing heard; a RIV that no pair encodes to, the span refused; a data decode that fails; a message. -/
def fourShifts : List Heard :=
  [{ eq := gr 6, control := none },
   { eq := gr 6, control := some (0x63FF8500, 0xBEEF) },
   { eq := gr 7, control := some (0x62280500, 0x1234), span := 8, eqData := gr 8 },
   { eq := gr 6, control := some (0x62280500, 0xBEEF), span := 6, eqData := gr 9, data := some [(0, 0xFF)] }]

/-- The backends that answer those four shifts of a scan of sub-channel 0. -/
def scanning : State :=
  { pooled with
    backends :=
      { equalize := [.reply (gr 6), .reply (gr 6), .reply (gr 7), .reply (gr 8), .reply (gr 6), .reply (gr 9)]
        decodeControl := [.reply none, .reply (some (0x63FF8500, 0xBEEF)), .reply (some (0x62280500, 0x1234)),
          .reply (some (0x62280500, 0xBEEF))]
        validSpan := [.reply 0, .reply 8, .reply 6]
        decodeData := [.reply none, .reply (some [(0, 0xFF)])] } }

theorem witness_parseSubchannel_shifts :
    let s := scanning
    s.status.busy = false ∧ s.status.cellv = true ∧ s.status.poolv = true ∧ s.pool.nsubch.toNat ≤ 20 ∧
    0 < s.pool.nsubch.toNat ∧ Memory.wf s.mem = true ∧ fourShifts.length = 4 ∧
    20 * (20 + 1) / 2 ≤ heardRiv 20 0x63FF8500 ∧
    s.backends.equalize = (fourShifts.flatMap fun h =>
      .reply h.eq :: if h.asksData s 0 then [.reply h.eqData] else []) ++ [] ∧
    s.backends.decodeControl = (fourShifts.map fun h => .reply h.control) ++ [] ∧
    s.backends.validSpan = ((fourShifts.filter (·.asksSpan s 0)).map fun h => .reply h.span) ++ [] ∧
    s.backends.decodeData = ((fourShifts.filter (·.asksData s 0)).map fun h => .reply h.data) ++ [] := by
  decide

/-- The spans of those shifts are within what was asked for. -/
theorem witness_parseSubchannel_spans :
    ∀ h ∈ fourShifts, ∀ bits crc, h.control = some (bits, crc) → h.span ≤ heardReq scanning 0 bits := by
  intro h hh bits crc hc
  simp only [fourShifts, List.mem_cons, List.not_mem_nil, or_false] at hh
  rcases hh with rfl | rfl | rfl | rfl <;> simp_all <;> obtain ⟨rfl, -⟩ := hc <;> decide

theorem witness_parseAllSubchannels :
    let s := { pooled with backends := silent }
    s.status.busy = false ∧ s.status.cellv = true ∧ s.status.poolv = true ∧ s.pool.nsubch.toNat ≤ 20 ∧
    Memory.wf s.mem = true ∧ Answered (8 * s.pool.nsubch.toNat) s.backends.equalize ∧
    Answered (4 * s.pool.nsubch.toNat) s.backends.decodeControl ∧
    Answered (4 * s.pool.nsubch.toNat) s.backends.validSpan ∧
    Answered (4 * s.pool.nsubch.toNat) s.backends.decodeData :=
  ⟨by decide, by decide, by decide, by decide, by decide,
    answered_replicate _ _ _ (by decide), answered_replicate _ _ _ (by decide),
    answered_replicate _ _ _ (by decide), answered_replicate _ _ _ (by decide)⟩

theorem witness_parseAllIsEachInOrder :
    let s := { pooled with pool := { nsubch := 2, width := 5 }, backends := silent }
    let t := after (exec .parseAll s)
    s.status.busy = false ∧ s.status.cellv = true ∧ s.status.poolv = true ∧ 1 ≤ s.pool.nsubch.toNat ∧
    exec .parseAll s = .next t ∧ t.status.busy = false :=
  ⟨by decide, by decide, by decide, by decide, rfl, by decide⟩

/-- The message of V4 heard at the first shift and at the last one. -/
theorem witness_scanRecordsOneMessage :
    (let s := framing
     s.status.busy = false ∧ s.status.cellv = true ∧ s.status.poolv = true ∧ s.pool.nsubch.toNat ≤ 20 ∧
     0 < s.pool.nsubch.toNat ∧ 0 < 4 ∧ 3 < 4 ∧ Memory.wf s.mem = true ∧
     s.backends.decodeControl =
       List.replicate 0 (.reply none) ++ .reply (some (0x62280500, 0xBEEF)) ::
         (List.replicate (3 - 0) (.reply none) ++ []) ∧
     s.backends.validSpan = .reply 8 :: [.reply 8] ∧ s.backends.decodeData = .reply (some []) :: [] ∧
     1 ≤ 2 ∧ 0 + 2 ≤ s.pool.nsubch.toNat ∧
     (0x62280500#32).toNat / 2 ^ (25 - wRiv 20) % 2 ^ wRiv 20 = rivEncode 20 0 2 ∧ 0 < 8 ∧
     8 ≤ (0 + 2) * s.pool.width.toNat + s.pool.startPrb.toNat - (0 * s.pool.width.toNat + 2)) ∧
    ([.reply none, .reply none, .reply none, .reply (some (0x62280500, 0xBEEF))] :
        List (Answer (Option (ControlBits × CrcBits)))) =
      List.replicate 3 (.reply none) ++ .reply (some (0x62280500, 0xBEEF)) ::
        (List.replicate (3 - 3) (.reply none) ++ []) := by decide

theorem witness_scanRecordsOneMessage_grids :
    framing.backends.equalize =
      (List.ofFn fun j : Fin 5 => .reply (if j = 1 then gr 7 else gr 6)) ++ [] := by decide

/-- One frame sent and parsed, eight bits of payload set (P2). -/
def looping : State :=
  { framing with
    mem := [(0x1000, 0xFF)]
    rxSfidx := 7
    backends := { answers with decodeData := [.reply (some [(0, 0xFF)])] } }

theorem witness_loopBackRecoversTheFrame :
    4 ≤ tbBytes ∧
    (let s := looping
     s.status.busy = false ∧ s.status.cellv = true ∧ s.status.poolv = true ∧ s.status.frfail = false ∧
    s.frState = .empty ∧ s.pool.nsubch.toNat ≤ 20 ∧
    s.pool.nsubch.toNat * s.pool.width.toNat ≤ s.cell.nprb.toNat ∧ 1 ≤ s.frIn.len.toNat ∧
    s.frIn.start.toNat + s.frIn.len.toNat ≤ s.pool.nsubch.toNat ∧ Memory.wf s.mem = true ∧
    s.sci.fmt = 1 ∧ s.pool.startPrb = 0 ∧ (s.pool.adj = 1 ∨ s.frIn.start = 0) ∧
    s.rxSfidx.toNat % 10 = s.frIn.sfidx.toNat % 10) ∧
    let s := looping
    0 < 8 ∧ 8 ≤ s.frIn.len.toNat * s.pool.width.toNat - 2 ∧
    s.backends.encodeControl = .reply (some (gr 1, 0xBEEF)) :: [] ∧
    s.backends.insertRef = .reply (gr 2) :: .reply (gr 4) :: [] ∧
    s.backends.validSpan = .reply 8 :: .reply 8 :: [] ∧
    s.backends.encodeData = .reply (some (gr 3)) :: [] ∧
    s.backends.equalize =
      .reply (gr 6) :: .reply (gr 7) :: .reply (gr 6) :: .reply (gr 6) :: .reply (gr 6) :: [] ∧
    s.backends.decodeControl =
      .reply (some (sentWord s, 0xBEEF)) :: .reply none :: .reply none :: .reply none :: [] ∧
    s.backends.decodeData = .reply (some [(0, 0xFF)]) :: [] ∧
    ∀ j < 4, readByte [(0, 0xFF)] j = readByte s.mem (byteAddr txtbBase + j) :=
  ⟨witness_windowsExist.2.1, by decide, by decide⟩

theorem witness_radioOpenAndClose :
    let s := { State.reset with
      sched := { srate := 15360000 }
      backends :=
        { radioOpen := [.reply (some 77)], setFreq := [.reply true], setGain := [.reply true]
          setRate := [.reply (some 15360000)] } }
    s.status.busy = false ∧ s.status.radio = false ∧ s.sched.srate ≠ 0 ∧ s.sched.srate.toNat % 1000 = 0 ∧
    s.backends.radioOpen = .reply (some 77) :: [] ∧ s.backends.setFreq = .reply true :: [] ∧
    s.backends.setGain = .reply true :: [] ∧
    s.backends.setRate = .reply (some s.sched.srate.toNat) :: [] ∧
    radioReady.status.busy = false ∧ radioReady.status.radio = true := by decide

theorem witness_radioOpenFailures :
    State.reset.status.busy = false ∧ State.reset.status.radio = false ∧ State.reset.sched.srate.toNat = 0 ∧
    (15360001#32).toNat % 1000 ≠ 0 ∧ (1000#32).toNat ≠ 0 ∧ (1000#32).toNat % 1000 = 0 ∧
    ({ State.reset with backends := { radioOpen := [.reply none] } } : State).backends.radioOpen =
      .reply none :: [] ∧
    (some 999 : Option Nat) ≠ some (1000#32).toNat ∧ (none : Option Nat) ≠ some (1000#32).toNat := by decide

/-- A legal step, a step that does not divide 1000, an epoch at the end of the seconds. -/
theorem witness_schedulerStart :
    radioReady.status.busy = false ∧ radioReady.status.radio = true ∧ radioReady.status.frfail = false ∧
    radioReady.frState = .ready ∧ radioReady.sched.stepMs.toNat ≠ 0 ∧
    1000 % radioReady.sched.stepMs.toNat = 0 ∧ 1000 % (300#10).toNat ≠ 0 ∧ (0#10).toNat = 0 ∧
    100 < 2 ^ 32 ∧ 123456700 < 1000000000 ∧
    radioReady.backends.getTime = .reply ⟨100, 123456700⟩ :: [.reply ⟨100, 124000000⟩] ∧
    100 + (123456700 / 1000000 * 1000000 + 3000000) / 1000000000 < 2 ^ 32 ∧
    2 ^ 32 ≤ (2 ^ 32 - 1) + (999999999 / 1000000 * 1000000 + 3000000) / 1000000000 := by decide

theorem witness_schedulerCancelCommand :
    ticking.status.busy = true ∧ State.reset.status.busy = false := by decide

theorem witness_tickSends :
    let s := ticking
    let units := (s.sched.epochSec.toNat + s.sched.secOff.toNat) * 1000000000
      + s.sched.epochFrac.toNat + s.sched.msecOff.toNat * 1000000
    s.schState = .scheduled ∧ s.hung = false ∧ s.inRst = false ∧ s.status.cancel = false ∧
    s.inCancel = false ∧ 100 < 2 ^ 32 ∧ 124000000 < 1000000000 ∧
    s.backends.getTime = .reply ⟨100, 124000000⟩ :: [] ∧ s.backends.sendTimed = .reply 0xFFFFFFFF :: [] ∧
    units / 1000000000 < 2 ^ 32 ∧
    sampleUnits 100 124000000 s.sched.srate.toNat ≤
      sampleUnits (units / 1000000000) (units % 1000000000) s.sched.srate.toNat := by decide

theorem witness_tickSlips :
    let s := late
    let units := (s.sched.epochSec.toNat + s.sched.secOff.toNat) * 1000000000
      + s.sched.epochFrac.toNat + s.sched.msecOff.toNat * 1000000
    s.schState = .scheduled ∧ s.hung = false ∧ s.inRst = false ∧ s.status.cancel = false ∧
    s.inCancel = false ∧
    s.backends.getTime = .reply ⟨100, 426000100⟩ :: .reply ⟨100, 426500000⟩ :: [] ∧
    units / 1000000000 < 2 ^ 32 ∧
    sampleUnits (units / 1000000000) (units % 1000000000) s.sched.srate.toNat <
      sampleUnits 100 426000100 s.sched.srate.toNat ∧
    100 + (426500000 / 1000000 * 1000000 + 3000000) / 1000000000 < 2 ^ 32 := by decide

/-- The same with the second clock read at the end of the seconds. -/
theorem witness_tickSlips_overflow :
    let s := { late with
      backends := { getTime := [.reply ⟨100, 426000100⟩, .reply ⟨4294967295, 999999999⟩] } }
    s.schState = .scheduled ∧ s.hung = false ∧ s.inRst = false ∧ s.status.cancel = false ∧
    s.backends.getTime = .reply ⟨100, 426000100⟩ :: .reply ⟨4294967295, 999999999⟩ :: [] ∧
    4294967295 < 2 ^ 32 ∧ 999999999 < 1000000000 ∧
    2 ^ 32 ≤ 4294967295 + (999999999 / 1000000 * 1000000 + 3000000) / 1000000000 := by decide

theorem witness_tickTerminates :
    (let s := { ticking with status := { ticking.status with cancel := true } }
     s.schState = .scheduled ∧ s.hung = false ∧ s.inRst = false ∧ s.status.cancel = true) ∧
    ({ ticking with inCancel := true } : State).inCancel = true ∧
    (let s := { ticking with
       sched := { ticking.sched with epochSec := 0xFFFFFFFF, epochFrac := 999000000, msecOff := 1 } }
     s.schState = .scheduled ∧ s.hung = false ∧ s.inRst = false ∧ s.status.cancel = false ∧
     s.inCancel = false ∧
     2 ^ 32 ≤ ((s.sched.epochSec.toNat + s.sched.secOff.toNat) * 1000000000
       + s.sched.epochFrac.toNat + s.sched.msecOff.toNat * 1000000) / 1000000000) := by decide

theorem witness_tenTicksAdvanceOneSecond :
    let s := tenTicks
    let start := (s.sched.epochSec.toNat + s.sched.secOff.toNat) * 1000000000 + s.sched.epochFrac.toNat
    s.schState = .scheduled ∧ s.hung = false ∧ s.inRst = false ∧ s.status.cancel = false ∧
    s.inCancel = false ∧ s.moves = [] ∧ s.sched.stepMs = 100 ∧ s.sched.msecOff = 0 ∧
    s.backends.getTime =
      (List.ofFn fun i : Fin 10 => .reply (HwTime.mk ((fun _ => (0, 0)) i : Nat × Nat).1 0)) ++ [] ∧
    s.backends.sendTimed = (List.ofFn fun _ : Fin 10 => .reply 15360) ++ [] ∧
    (start + 900000000) / 1000000000 < 2 ^ 32 ∧ s.sched.secOff.toNat + 1 < 2 ^ 32 ∧
    ∀ i : Fin 10, sampleUnits 0 0 s.sched.srate.toNat ≤
      sampleUnits ((start + i.val * 100000000) / 1000000000) ((start + i.val * 100000000) % 1000000000)
        s.sched.srate.toNat := by decide

theorem witness_frameStateIsLinear :
    step (framing.withFetchWord 32 0x21) = .next (after (step (framing.withFetchWord 32 0x21))) ∧
    (after (step (framing.withFetchWord 32 0x21))).frState = .controlPlaced := ⟨rfl, by decide⟩

theorem witness_validityIsEarned :
    step ((celled 100).withFetchWord 32 1) = .next (after (step ((celled 100).withFetchWord 32 1))) ∧
    (after (step ((celled 100).withFetchWord 32 1))).status.cellv = true := ⟨rfl, by decide⟩

theorem witness_onlyRstLeavesAnUnansweredCall :
    let s := { pooled with hung := true, status := { pooled.status with busy := true } }
    s.hung = true ∧ s.status.busy = true ∧ step s = .next (after (step s)) ∧
    ∀ rest, s.moves ≠ .rstIn true :: rest :=
  ⟨rfl, rfl, rfl, fun _ h => nomatch h⟩

theorem consistent_zero : DrConsistent {} where
  ok_iff := by decide
  ctrl_iff := by decide
  ok_subset := by decide
  interval := by decide
  rv := by decide
  shift := by decide
  scrid := by decide

/-- A state other than the reset state that meets the invariant. -/
theorem witness_everyStepKeepsTheInvariant : (celled 100).Inv where
  mem_wf := by decide
  mem_mapped := fun _ h => nomatch h
  err_code := by decide
  errv := by decide
  errInfo := by decide
  busy := by decide
  busy_done := by decide
  scheduled := by decide
  running := by decide
  not_modulated := by decide
  failed_not_ready := by decide
  cellv := by decide
  poolv := by decide
  radio := by decide
  epoch := by decide
  txFrac := by decide
  msecOff := by decide
  cancel := by decide
  held := by decide
  dr i := by
    rw [show drAt (celled 100) i = {} from drAt_cleared (celled 100) i]
    exact consistent_zero

end Sys2Proof.Tests
end

section
/-! PROOF. 00_scope.md R8, 93_implementation_defined.md U2: once a backend call is never answered, only `rst`
leaves that state. What a busy block makes of a host write comes first, then what a hung block makes of each
move. -/

namespace Sys2Proof.Machine

variable {s t : State}

/-! ### Host writes to a busy block (20_memory.md R77) -/

/-- Every command but `SCH_CANCEL` is ignored while the block is busy. -/
theorem exec_busy {i : Instr} (h : s.status.busy = true) (hi : i ≠ .schCancel) :
    exec i s = .next (setOvr s) := by
  cases i with
  | schCancel => exact absurd rfl hi
  | _ => exact congrArg _ (issue_busy h)

/-- `SCH_CANCEL` is accepted while the block is busy (44_scheduler.md R231). -/
theorem exec_schCancel_busy (h : s.status.busy = true) : exec .schCancel s = .next (setCancel s) :=
  if_pos h

/-- A command word written to a busy block sets `FLAGS.OVR` or the cancel latch. -/
theorem issueWord_busy (c : Word) (h : s.status.busy = true) :
    issueWord c s = .next (setOvr s) ∨ issueWord c s = .next (setCancel s) := by
  unfold issueWord
  cases decode c with
  | error e => exact .inl (congrArg _ (if_pos h))
  | ok i =>
    by_cases hi : i = .schCancel
    · subst hi
      exact .inr (exec_schCancel_busy h)
    · exact .inl (exec_busy h hi)

/-- Any host write to a busy block sets `FLAGS.OVR` or the cancel latch. -/
theorem hostWrite_busy (a : WordNo) (v : Word) (h : s.status.busy = true) :
    hostWrite a v s = .next (setOvr s) ∨ hostWrite a v s = .next (setCancel s) := by
  by_cases ha : a = cmdWord
  · simpa only [hostWrite, if_pos ha] using issueWord_busy v h
  · exact .inl (by simp only [hostWrite, if_neg ha, if_pos h])

/-- With `rst` at 0 a host write reaches the host port. -/
theorem makeMove_hostWrite {a : WordNo} {v : Word} (h : s.inRst = false) :
    makeMove (.hostWrite a v) s = hostWrite a v s := by
  simp only [makeMove, h, Bool.false_eq_true, if_false]

/-- While `rst` is 1 a host write is ignored (70_reset_and_hazards.md R310). -/
theorem makeMove_hostWrite_held {a : WordNo} {v : Word} (h : s.inRst = true) :
    makeMove (.hostWrite a v) s = .next s := by
  simp only [makeMove, h, if_true]

/-! ### A block that waits for a call that is never answered (log entry 3) -/

/-- All that may change while the block waits for such a call: the cancel latch, `FLAGS.OVR`, the inputs, the
list of moves and the ports. -/
def WaitLeaves (s t : State) : Prop :=
  ∃ latch ovr inCancel inRst inRx moves out,
    t = { s with
      status.cancel := latch, flags.ovr := ovr, inCancel := inCancel, inRst := inRst, inRx := inRx
      moves := moves, out := out }

theorem WaitLeaves.refl (s : State) : WaitLeaves s s := ⟨_, _, _, _, _, _, _, rfl⟩

theorem waitLeaves_setOvr (s : State) : WaitLeaves s (setOvr s) := ⟨_, _, _, _, _, _, _, rfl⟩

theorem waitLeaves_setCancel (s : State) : WaitLeaves s (setCancel s) := ⟨_, _, _, _, _, _, _, rfl⟩

/-- Taking a move off the list is no change to what waits. -/
theorem WaitLeaves.of_moves {moves : List Move} (h : WaitLeaves { s with moves := moves } t) :
    WaitLeaves s t := by
  obtain ⟨_, _, _, _, _, _, _, rfl⟩ := h
  exact ⟨_, _, _, _, _, _, _, rfl⟩

/-- An engine inside a call that is never answered takes no turn (93_implementation_defined.md U2). -/
theorem engineTurn_hung (h : s.hung = true) : engineTurn s = s := by
  simp [engineTurn, h]

/-- No move but `rst` going to 1 ends the wait. -/
theorem makeMove_waitLeaves {m : Move} (hung : s.hung = true) (busy : s.status.busy = true)
    (hm : m ≠ .rstIn true) (h : makeMove m s = .next t) : WaitLeaves s t := by
  cases m with
  | hostWrite a v =>
    cases hr : s.inRst with
    | true =>
      rw [makeMove_hostWrite_held hr] at h
      cases h
      exact .refl s
    | false =>
      rw [makeMove_hostWrite hr] at h
      rcases hostWrite_busy a v busy with hw | hw
      · cases hw.symm.trans h
        exact waitLeaves_setOvr s
      · cases hw.symm.trans h
        exact waitLeaves_setCancel s
  | hostRead a =>
    cases h
    exact ⟨_, _, _, _, _, _, _, rfl⟩
  | cancelIn level =>
    cases h
    exact ⟨_, _, _, _, _, _, _, rfl⟩
  | rstIn level =>
    cases level with
    | true => exact absurd rfl hm
    | false =>
      cases h
      exact ⟨_, _, _, _, _, _, _, rfl⟩
  | rxIn x =>
    cases h
    exact ⟨_, _, _, _, _, _, _, rfl⟩
  | engine =>
    cases h
    rw [engineTurn_hung hung, ite_self]
    exact .refl s

/-- No step but `rst` going to 1 ends the wait. -/
theorem step_waitLeaves (hung : s.hung = true) (busy : s.status.busy = true) (h : step s = .next t)
    (hm : ∀ rest, s.moves ≠ .rstIn true :: rest) : WaitLeaves s t := by
  unfold step at h
  split at h
  next => exact makeMove_waitLeaves hung busy (by nofun) h
  next m rest hs =>
    have hne : m ≠ .rstIn true := fun e => hm rest (e ▸ hs)
    exact (makeMove_waitLeaves (s := { s with moves := rest }) hung busy hne h).of_moves

end Sys2Proof.Machine

namespace Sys2Proof

open Machine

/-- Settles O58: what a step of a waiting block leaves (`step_waitLeaves`), read off field by field. -/
theorem onlyRstLeavesAnUnansweredCall : Obligations.OnlyRstLeavesAnUnansweredCall := by
  intro s t hung busy h hm
  obtain ⟨_, _, _, _, _, _, _, rfl⟩ := step_waitLeaves hung busy h hm
  exact ⟨hung, rfl, rfl, rfl⟩

end Sys2Proof
end

section
/-! PROOF. 30_encoding.md R105, 20_memory.md R74: what the issue of a command comes down to while the block is not
busy, and what a host write of a register can change. -/

namespace Sys2Proof.Machine

variable {s : State}

/-! ### The rule of each command -/

/-- What a command does once it is accepted: the rule its arm of `exec` hands to the issue. -/
def commandRule : Instr → State → State
  | .nop, s => finish (done s)
  | .cellSet, s => finish (ruleCellSet s)
  | .poolDefault, s => finish (rulePoolDefault s)
  | .poolCheck, s => finish (rulePoolCheck s)
  | .resv2code, s => finish (ruleResv2code s)
  | .code2resv, s => finish (ruleCode2resv s)
  | .rivEnc, s => finish (ruleRivEnc s)
  | .rivDec, s => finish (ruleRivDec s)
  | .sciPack, s => finish (ruleSciPack s)
  | .sciUnpack, s => finish (ruleSciUnpack s)
  | .crc2id, s => finish (ruleCrc2id s)
  | .frBuild, s => finishFramer (ruleFrBuild s)
  | .frCtrl, s => finishFramer (ruleFrCtrl s)
  | .frData, s => finishFramer (ruleFrData s)
  | .frMod, s => finishFramer (frStep6 s)
  | .frClear, s => finish (ruleFrClear s)
  | .rxDemod, s => finish (ruleRxDemod s)
  | .rxLoop, s => finish (done { s with rxgrid := s.txgrid })
  | .parseSubch idx, s => finish (scan idx s)
  | .parseAll, s => finish (scanList (List.range (opN s)) s)
  | .rxClear, s => finish (done (clearRx s))
  | .radioOpen, s => finish (ruleRadioOpen s)
  | .radioClose, s => finish (done { callRadioClose s with status.radio := false })
  | .schStart, s =>
    if stepLegal (opStep s) then runScheduler (ruleSchStart s) else takeError .invalidConfiguration 6 s
  | .schCancel, s => finish (done (setCancel s))
  | .clrFlags, s => finish (done { s with flags := {} })
  | .softReset, s => finish (ruleSoftReset s)

/-- While the block is not busy every command is issued with its rule (30_encoding.md R105). -/
theorem exec_idle (i : Instr) (h : s.status.busy = false) :
    exec i s = .next (issue i (commandRule i) s) := by
  cases i with
  | schCancel => exact if_neg (by simp [h])
  | _ => rfl

/-- A word that decodes is issued as its command (30_encoding.md R105). -/
theorem issueWord_of_decode {c : Word} {i : Instr} (s : State) (h : decode c = .ok i) :
    issueWord c s = exec i s := by
  rw [issueWord, h]

/-- A word that decodes to nothing is rejected while the block is not busy (30_encoding.md R104). -/
theorem issueWord_of_error {c : Word} {e : DecodeReject} (hb : s.status.busy = false)
    (h : decode c = .error e) : issueWord c s = .next (takeError .illegalCommand c s) := by
  rw [issueWord, h]
  simp only [hb, Bool.false_eq_true, if_false, reject]

/-- Everything a command word can do while the block is not busy. -/
theorem issueWord_idle_cases (c : Word) (hb : s.status.busy = false) :
    (∃ k w, k ≠ .scheduleSlip ∧ issueWord c s = .next (takeError k w s)) ∨
      ∃ i, decode c = .ok i ∧ indexLegal i s = true ∧ acceptable i s = true ∧
        issueWord c s = .next (commandRule i (accept s)) := by
  cases hd : decode c with
  | error e => exact .inl ⟨.illegalCommand, c, nofun, issueWord_of_error hb hd⟩
  | ok i =>
    rw [issueWord_of_decode s hd, exec_idle i hb]
    rcases issue_cases i (commandRule i) s with ⟨h, -⟩ | ⟨-, -, h⟩ | ⟨-, -, -, h⟩ | ⟨-, hi, ha, h⟩
    · exact absurd h (by simp [hb])
    · exact .inl ⟨.illegalCommand, _, nofun, congrArg _ h⟩
    · exact .inl ⟨.sequenceError, _, nofun, congrArg _ h⟩
    · exact .inr ⟨i, rfl, hi, ha, congrArg _ h⟩

/-! ### What the rules leave (41_sci_codec.md, 40_pool.md, 42_framer_tx.md) -/

/-- All that a codec command can change. -/
def CodecLeaves (s t : State) : Prop :=
  ∃ opr sci sb, t = { s with opr := opr, sci := sci, sciBits := sb }

/-- How a codec command ends: with its results, or with an error that leaves the registers alone. -/
def CodecRun (s : State) (r : Run Unit) : Prop :=
  r.Post (fun _ t => CodecLeaves s t) (fun k _ t => k ≠ .scheduleSlip ∧ t = s) fun _ => False

theorem ruleResv2code_codecRun (s : State) : CodecRun s (ruleResv2code s) := by
  unfold ruleResv2code
  split
  · exact ⟨nofun, rfl⟩
  · exact ⟨_, _, _, rfl⟩

theorem ruleCode2resv_codecRun (s : State) : CodecRun s (ruleCode2resv s) := ⟨_, _, _, rfl⟩

theorem ruleRivEnc_codecRun (s : State) : CodecRun s (ruleRivEnc s) := by
  unfold ruleRivEnc
  simp only
  split
  · exact ⟨nofun, rfl⟩
  split
  · exact ⟨nofun, rfl⟩
  · exact ⟨_, _, _, rfl⟩

theorem ruleRivDec_codecRun (s : State) : CodecRun s (ruleRivDec s) := by
  unfold ruleRivDec
  simp only
  split
  · exact ⟨nofun, rfl⟩
  split
  · exact ⟨nofun, rfl⟩
  · exact ⟨_, _, _, rfl⟩

theorem ruleSciPack_codecRun (s : State) : CodecRun s (ruleSciPack s) := by
  unfold ruleSciPack
  split
  · exact ⟨nofun, rfl⟩
  split
  · exact ⟨nofun, rfl⟩
  · exact ⟨_, _, _, rfl⟩

theorem ruleSciUnpack_codecRun (s : State) : CodecRun s (ruleSciUnpack s) := by
  unfold ruleSciUnpack
  split
  · exact ⟨nofun, rfl⟩
  split
  · exact ⟨nofun, rfl⟩
  split
  · exact ⟨nofun, rfl⟩
  · exact ⟨_, _, _, rfl⟩

theorem ruleCrc2id_codecRun (s : State) : CodecRun s (ruleCrc2id s) := by
  unfold ruleCrc2id
  split
  · exact ⟨nofun, rfl⟩
  · exact ⟨_, _, _, rfl⟩

/-- A cell is committed only with resource blocks; nothing is written otherwise (40_pool.md R120). -/
theorem ruleCellSet_post (s : State) :
    (ruleCellSet s).Post
      (fun _ t => s.cell.nprb ≠ 0 ∧ ∃ tg rg ts fo bc o,
        t = { clearRx s with
          status := { s.status with cellv := true, frfail := false }
          frState := .empty, txgrid := tg, rxgrid := rg, txsamp := ts, frOut := fo
          backendCell := bc, out := o })
      (fun k _ t => k = .invalidConfiguration ∧ t = s) fun _ => False := by
  unfold ruleCellSet
  split
  · exact ⟨rfl, rfl⟩
  next h => exact ⟨fun h0 => h (by simp [opNprb, h0]), _, _, _, _, _, _, rfl⟩

/-- A pool meets the pool invariant for a cell of `nprb` resource blocks (10_state.md R35). -/
def PoolFits (p : Pool) (nprb : Nat) : Prop :=
  1 ≤ p.nsubch.toNat ∧ p.nsubch.toNat ≤ Config.maxSubch ∧ 1 ≤ p.width.toNat ∧
    p.nsubch.toNat * p.width.toNat ≤ nprb

/-- How a pool command ends: with a valid pool and `POOLV = 1`, or with an error and `POOLV = 0`. -/
def PoolRun (s : State) (r : Run Unit) : Prop :=
  r.Post (fun _ t => ∃ p, PoolFits p (opNprb s) ∧ t = { s with pool := p, status.poolv := true })
    (fun k _ t => k = .invalidConfiguration ∧ t = { s with status.poolv := false }) fun _ => False

/-- Each row of the default pool table fits its cell (40_pool.md R123). -/
theorem poolFits_of_defaultPool {n : Nat} {row : PoolRow} (h : defaultPool n = some row) :
    PoolFits
      { nsubch := BitVec.ofNat 5 row.count, width := BitVec.ofNat 8 row.width
        startPrb := BitVec.ofNat 8 row.start, adj := BitVec.ofNat 1 row.adjacency } n := by
  rw [defaultPool, Config.poolDefault_eq] at h
  split at h
  next =>
    split at h
    next hn => cases h; subst hn; unfold PoolFits; decide
    next =>
      split at h
      next hn => cases h; subst hn; unfold PoolFits; decide
      next => cases h
  next => cases h

theorem rulePoolDefault_poolRun (s : State) : PoolRun s (rulePoolDefault s) := by
  unfold rulePoolDefault
  split
  next => exact ⟨rfl, rfl⟩
  next row hrow => exact ⟨_, poolFits_of_defaultPool hrow, rfl⟩

theorem rulePoolCheck_poolRun (s : State) : PoolRun s (rulePoolCheck s) := by
  unfold rulePoolCheck
  split
  next h => exact ⟨s.pool, (poolInvariant_iff _ _ _).mp h, rfl⟩
  next => exact ⟨rfl, rfl⟩

/-- The framer's own fields, the frame not got to `READY`. -/
def FrameUnfinished (s t : State) : Prop :=
  FramerLeaves s.frState s t ∨ FramerLeaves .controlPlaced s t ∨ FramerLeaves .dataPlaced s t

/-- How a framer command ends: at one of the three states it makes visible, or, after a raise or inside an
unanswered call, before `READY` (42_framer_tx.md R160, R173). -/
def FramerRun (s : State) (r : Run Unit) : Prop :=
  r.Post (fun _ t => ∃ fr, (fr = .controlPlaced ∨ fr = .dataPlaced ∨ fr = .ready) ∧ FramerLeaves fr s t)
    (fun k _ t => k ≠ .scheduleSlip ∧ FrameUnfinished s t) (FrameUnfinished s)

theorem ruleFrCtrl_framerRun (s : State) : FramerRun s (ruleFrCtrl s) := by
  refine (ruleFrCtrl_post s).mono (fun _ t h => ?_) (fun k _ t h => ?_) (fun t h => ?_)
  · obtain ⟨-, riv, bits, crc, id, g, cfg, b, d, o, ho, rfl⟩ := h
    exact ⟨_, .inl rfl, riv, bits, crc, _, g, s.txsamp, cfg, b, d, o, ho, rfl⟩
  · obtain ⟨hk, riv, bits, b, d, o, ho, rfl⟩ := h
    exact ⟨by rcases hk with rfl | rfl <;> nofun,
      .inl ⟨riv, bits, s.crcBits, s.frOut, s.txgrid, s.txsamp, s.chestCfg, b, d, o, ho, rfl⟩⟩
  · obtain ⟨riv, bits, g, cfg, off, b, d, o, ho, rfl⟩ := h
    exact .inl ⟨riv, bits, s.crcBits, _, g, s.txsamp, cfg, b, d, o, ho, rfl⟩

theorem ruleFrData_framerRun (s : State) : FramerRun s (ruleFrData s) := by
  refine (ruleFrData_post s).mono (fun _ t h => ?_) (fun k _ t h => ?_) (fun t h => ?_)
  · obtain ⟨v, rv, g, cfg, b, d, o, -, -, ho, rfl⟩ := h
    exact ⟨_, .inr (.inl rfl), s.sci.riv, s.sciBits, s.crcBits, _, g, s.txsamp, cfg, b, d, o, ho, rfl⟩
  · obtain ⟨hk, fo, b, d, o, ho, rfl⟩ := h
    exact ⟨by rcases hk with rfl | rfl <;> nofun,
      .inl ⟨s.sci.riv, s.sciBits, s.crcBits, fo, s.txgrid, s.txsamp, s.chestCfg, b, d, o, ho, rfl⟩⟩
  · obtain ⟨fo, g, cfg, b, d, o, ho, rfl⟩ := h
    exact .inl ⟨s.sci.riv, s.sciBits, s.crcBits, fo, g, s.txsamp, cfg, b, d, o, ho, rfl⟩

theorem frStep6_framerRun (s : State) : FramerRun s (frStep6 s) := by
  refine (frStep6_post s).mono (fun _ t h => ?_) (fun _ _ _ h => h.elim) (fun t h => ?_)
  · obtain ⟨x, b, d, o, ho, rfl⟩ := h
    exact ⟨_, .inr (.inr rfl), s.sci.riv, s.sciBits, s.crcBits, s.frOut, _, x, s.chestCfg, b, d, o, ho, rfl⟩
  · obtain ⟨b, d, o, ho, rfl⟩ := h
    exact .inl ⟨s.sci.riv, s.sciBits, s.crcBits, s.frOut, s.txgrid, s.txsamp, s.chestCfg, b, d, o, ho, rfl⟩

theorem ruleFrBuild_framerRun (s : State) : FramerRun s (ruleFrBuild s) := by
  refine (ruleFrBuild_post s).mono (fun _ t h => ?_) (fun k _ t h => ?_) (fun t h => ?_)
  · exact ⟨_, .inr (.inr rfl), h.1⟩
  · obtain ⟨hk, -, hl⟩ := h
    exact ⟨by rcases hk with rfl | rfl | rfl <;> nofun, hl.imp_right .inl⟩
  · exact h.2

/-- `RX_DEMOD` writes the receive buffers (43_parser_rx.md R191). -/
theorem ruleRxDemod_post (s : State) :
    (ruleRxDemod s).Post
      (fun _ t => ∃ g x b d o, t = { s with rxgrid := g, rxsamp := x, backends := b, draws := d, out := o })
      (fun _ _ _ => False)
      (fun t => ∃ x b d o, t = { s with rxsamp := x, backends := b, draws := d, out := o }) := by
  unfold ruleRxDemod
  refine ((ask_post _ _ _ _ _).mono (fun _ _ h => h) (fun _ _ _ h => h.elim)
    (fun t h => ?_)).next fun g t h => ?_
  · obtain ⟨b, d, rfl⟩ := h
    exact ⟨_, b, d, _, rfl⟩
  · obtain ⟨b, d, rfl⟩ := h
    exact ⟨g, _, b, d, _, rfl⟩

/-! ### The address map (20_memory.md R75) -/

/-- The word number of a register (10_state.md R57). -/
def regAddr : Reg → Nat
  | .id => 0x00 | .cmd => 0x01 | .status => 0x02 | .err => 0x03 | .errInfo => 0x04 | .flags => 0x05
  | .cellTm => 0x08 | .cellId => 0x09 | .cellNprb => 0x0A | .cellCp => 0x0B
  | .poolNsubch => 0x0C | .poolSubchW => 0x0D | .poolStartPrb => 0x0E | .poolAdj => 0x0F
  | .sciFmt => 0x10 | .sciPrio => 0x11 | .sciResv => 0x12 | .sciRiv => 0x13 | .sciTgap => 0x14
  | .sciMcs => 0x15 | .sciRetx => 0x16 | .sciTxfmt => 0x17
  | .opa => 0x18 | .opb => 0x19 | .opc => 0x1A | .res0 => 0x1B | .res1 => 0x1C
  | .sciBits => 0x20 | .sciNbits => 0x21 | .crcBits => 0x22 | .crcNbits => 0x23
  | .frStart => 0x28 | .frLen => 0x29 | .frSfidx => 0x2A | .frCtrlOff => 0x2B | .frDataStart => 0x2C
  | .frDataNprb => 0x2D | .frScrid => 0x2E | .frRv => 0x2F
  | .schSrate => 0x30 | .schStepMs => 0x31 | .schEpochSec => 0x32 | .schEpochFrac => 0x33
  | .schSecOff => 0x34 | .schMsecOff => 0x35 | .schTxSec => 0x36 | .schTxFrac => 0x37 | .schTicks => 0x38
  | .schSlips => 0x39 | .schSendfails => 0x3A | .schLastRet => 0x3B | .rxSfidx => 0x3C

/-- The register map names each register at its word number and nothing else. -/
theorem regAt_eq_some_iff {n : Nat} {r : Reg} : regAt n = some r ↔ n = regAddr r := by
  constructor
  · intro h
    unfold regAt at h
    split at h
    case h_53 => cases h
    all_goals cases h; rfl
  · rintro rfl
    cases r <;> rfl

theorem regAddr_lt (r : Reg) : regAddr r < 0x40 := by
  cases r <;> decide

/-- A register's word number names the register. -/
theorem locate_eq_reg {a : WordNo} {r : Reg} (h : a.toNat = regAddr r) : locate a = .reg r := by
  simp only [locate, if_pos (h ▸ regAddr_lt r), regAt_eq_some_iff.mpr h]

/-- A word number names at most the register that lies there. -/
theorem regAddr_of_locate {a : WordNo} {r : Reg} (h : locate a = .reg r) : a.toNat = regAddr r := by
  simp only [locate] at h
  split at h
  · split at h
    next r' hr =>
      cases h
      exact regAt_eq_some_iff.mp hr
    next => cases h
  · repeat' split at h
    all_goals cases h

/-- The words of the `TXTB` window are the mapped ones. -/
theorem lt_tbWords_of_locate {a : WordNo} {k : Nat} (h : locate a = .txtb k) : k < Config.tbWords := by
  simp only [locate] at h
  split at h
  · split at h <;> cases h
  split at h
  · cases h
  split at h
  · split at h
    next hk => exact HostLoc.txtb.inj h ▸ hk
    next => cases h
  · repeat' split at h
    all_goals cases h

/-! ### Host writes of registers (20_memory.md R74) -/

/-- All that the host write of a register that validates nothing can change. -/
def OperandsWritten (s t : State) : Prop :=
  ∃ sci opr sb cb fi sr st rx,
    t = { s with
      sci := sci, opr := opr, sciBits := sb, crcBits := cb, frIn := fi, rxSfidx := rx
      sched := { s.sched with srate := sr, stepMs := st } }

/-- Everything the host write of a register can do: a cell register takes both validity flags down, a pool
register `POOLV`, any other leaves `STATUS` as it is. -/
theorem writeReg_cases (r : Reg) (v : Word) (s : State) :
    (∃ c, writeReg r v s = invalidateCell { s with cell := c }) ∨
      (∃ p, writeReg r v s = invalidatePool { s with pool := p }) ∨ OperandsWritten s (writeReg r v s) := by
  cases r with
  | cellTm | cellId | cellNprb | cellCp => exact .inl ⟨_, rfl⟩
  | poolNsubch | poolSubchW | poolStartPrb | poolAdj => exact .inr (.inl ⟨_, rfl⟩)
  | _ => exact .inr (.inr ⟨_, _, _, _, _, _, _, _, rfl⟩)

/-- Everything a host write other than of `CMD` can do to a block that is not busy. -/
theorem storeWord_cases (a : WordNo) (v : Word) (s : State) :
    (∃ r, storeWord a v s = writeReg r v s) ∨
      (∃ k, k < Config.tbWords ∧ storeWord a v s = { s with mem := writeWord s.mem (txtbBase + k) v }) ∨
      storeWord a v s = s := by
  unfold storeWord
  cases hl : locate a with
  | reg r => exact .inl ⟨r, rfl⟩
  | txtb k => exact .inr (.inl ⟨k, lt_tbWords_of_locate hl, rfl⟩)
  | _ => exact .inr (.inr rfl)

end Sys2Proof.Machine
end

section
/-! PROOF. 10_state.md R20 to R58, 60_exceptions.md R276: the invariant of a safe run is kept by every step. The
clauses of `State.Inv` that hold at every line of a command's body come first, then what each command's rule
makes of them, then the moves of the agents. -/

namespace Sys2Proof.Machine

variable {s t : State}

/-! ### The clauses that hold inside a command -/

/-- The clauses of `State.Inv` but for those that say what `BUSY` and `rst` mean: they hold at every line of a
command's body, between acceptance and completion. -/
structure State.BodyInv (s : State) : Prop where
  mem_wf : Memory.wf s.mem = true
  mem_mapped : ∀ c ∈ s.mem, payloadAddr c.1
  err_code : s.err.toNat ≤ 9 ∧ s.err ≠ 6
  errv : s.status.errv = decide (s.err ≠ 0)
  errInfo : s.err = 0 → s.errInfo = 0
  running : s.schState ≠ .idle →
    s.status.radio = true ∧ s.frState = .ready ∧ s.status.frfail = false ∧
      stepLegal s.sched.stepMs.toNat = true
  not_modulated : s.frState ≠ .modulated
  failed_not_ready : s.status.frfail = true → s.frState ≠ .ready
  cellv : s.status.cellv = true → s.cell.nprb ≠ 0
  poolv : s.status.poolv = true →
    1 ≤ s.pool.nsubch.toNat ∧ s.pool.nsubch.toNat ≤ Config.maxSubch ∧ 1 ≤ s.pool.width.toNat ∧
      s.pool.nsubch.toNat * s.pool.width.toNat ≤ s.cell.nprb.toNat
  radio : s.status.radio = true → s.handle.isSome = true
  epoch : s.sched.epochFrac.toNat < Config.fracUnits ∧ s.sched.epochFrac.toNat % Config.ms = 0
  txFrac : s.sched.txFrac.toNat < Config.fracUnits ∧ s.sched.txFrac.toNat % Config.ms = 0
  msecOff : s.sched.msecOff.toNat < 1000
  cancel : s.inCancel = true → s.status.cancel = true
  dr : ∀ i, DrConsistent (drAt s i)

theorem State.Inv.body (h : s.Inv) : s.BodyInv := { h with }

/-- A command can be completed: the scheduler does not run, no call is waited for, `rst` is 0. -/
structure State.Completable (s : State) : Prop extends s.BodyInv where
  idle : s.schState = .idle
  awake : s.hung = false
  released : s.inRst = false

/-- A call is in flight, inside which the block may stay (00_scope.md R8). -/
structure State.Waiting (s : State) : Prop extends s.BodyInv where
  busy : s.status.busy = true
  fresh : s.status.done = false
  released : s.inRst = false

/-- A command was accepted and runs (60_exceptions.md R276). -/
structure State.Accepted (s : State) : Prop extends s.Completable where
  busy : s.status.busy = true
  fresh : s.status.done = false

theorem State.Accepted.waiting (h : s.Accepted) : s.Waiting := { h with }

/-- No clause reads these fields. -/
theorem State.Accepted.free {fl opr sci sb cb fi fo rx tg rg ts rs cc bc pi ps ix mv b d o}
    (h : s.Accepted) :
    State.Accepted { s with
      flags := fl, opr := opr, sci := sci, sciBits := sb, crcBits := cb, frIn := fi, frOut := fo
      rxSfidx := rx, txgrid := tg, rxgrid := rg, txsamp := ts, rxsamp := rs, chestCfg := cc
      backendCell := bc, psIdx := pi, psShift := ps, inRx := ix
      moves := mv, backends := b, draws := d, out := o } :=
  { h with }

/-! ### Acceptance and completion (60_exceptions.md R276) -/

/-- A block that is not busy runs no scheduler and waits for no call. -/
theorem State.Inv.idle_awake (h : s.Inv) (hb : s.status.busy = false) :
    s.schState = .idle ∧ s.hung = false := by
  simpa [hb] using h.busy

theorem State.Inv.accept (h : s.Inv) (hb : s.status.busy = false) (hr : s.inRst = false) :
    (accept s).Accepted :=
  { h with
    idle := (h.idle_awake hb).1
    awake := (h.idle_awake hb).2
    released := hr
    busy := rfl
    fresh := rfl }

/-- A completion with a legal code makes the whole invariant hold again. -/
theorem State.Completable.complete (h : s.Completable) {e : BitVec 8} {i : Word}
    (he : e.toNat ≤ 9 ∧ e ≠ 6) (hi : e = 0 → i = 0) : (complete e i s).Inv :=
  { h with
    err_code := he
    errv := rfl
    errInfo := hi
    busy := by simp [Machine.complete, h.idle, h.awake]
    busy_done := by simp [Machine.complete]
    scheduled := fun hs => absurd h.idle hs
    held := fun hr => absurd h.released (by simp [show s.inRst = true from hr]) }

theorem State.Completable.completeOk (h : s.Completable) : (completeOk s).Inv :=
  h.complete (by decide) fun _ => rfl

/-- Every error kind but `ScheduleSlip` has a code that `ERR` may hold (60_exceptions.md R270, R277). -/
theorem State.Completable.takeError (h : s.Completable) {k : ErrKind} (i : Word) (hk : k ≠ .scheduleSlip) :
    (takeError k i s).Inv := by
  refine h.complete ?_ fun h0 => ?_
  · cases k with
    | scheduleSlip => exact absurd rfl hk
    | _ => decide
  · cases k <;> exact absurd h0 (by decide)

/-- An unanswered call leaves the block busy for ever (00_scope.md R8). -/
theorem State.Waiting.hang (h : s.Waiting) : (hang s).Inv :=
  { h with
    busy := by simp [h.busy]
    busy_done := by simp [h.fresh]
    scheduled := nofun
    held := fun hr => absurd h.released (by simp [show s.inRst = true from hr]) }

/-- How a command's rule may end so that the invariant holds after it. -/
def SafeRun (r : Run Unit) : Prop :=
  r.Post (fun _ t => t.Completable) (fun k _ t => k ≠ .scheduleSlip ∧ t.Completable) State.Waiting

theorem SafeRun.finish {r : Run Unit} (h : SafeRun r) : (finish r).Inv := by
  cases r with
  | value u t => exact h.completeOk
  | raised k i t => exact h.2.takeError i h.1
  | hung t => exact h.hang

/-! ### Codec and pool commands -/

theorem CodecRun.safe {r : Run Unit} (h : s.Accepted) (hr : CodecRun s r) : SafeRun r := by
  refine hr.mono (fun _ t ht => ?_) (fun k _ t ht => ?_) fun _ ht => ht.elim
  · obtain ⟨opr, sci, sb, rfl⟩ := ht
    exact h.free.toCompletable
  · obtain ⟨hk, rfl⟩ := ht
    exact ⟨hk, h.toCompletable⟩

theorem PoolRun.safe {r : Run Unit} (h : s.Accepted) (hr : PoolRun s r) : SafeRun r := by
  refine hr.mono (fun _ t ht => ?_) (fun k _ t ht => ?_) fun _ ht => ht.elim
  · obtain ⟨p, hp, rfl⟩ := ht
    exact { h with poolv := fun _ => hp }
  · obtain ⟨rfl, rfl⟩ := ht
    exact ⟨nofun, { h with poolv := nofun }⟩

/-- A cleared range leaves the payload memory mapped. -/
theorem State.BodyInv.mapped_clearBytes (h : s.BodyInv) (lo hi : Nat) :
    ∀ c ∈ clearBytes s.mem lo hi, payloadAddr c.1 :=
  fun c hc => h.mem_mapped c (mem_clearBytes hc).1

theorem State.Accepted.clearRx (h : s.Accepted) : (clearRx s).Accepted :=
  { h with
    mem_wf := wf_clearRxtb h.mem_wf
    mem_mapped := h.mapped_clearBytes _ _
    dr := fun i => by
      rw [show drAt (Machine.clearRx s) i = {} from drAt_cleared s i]
      exact drConsistent_zero }

theorem ruleCellSet_safe (h : s.Accepted) : SafeRun (ruleCellSet s) := by
  refine (ruleCellSet_post s).mono (fun _ t ht => ?_) (fun k _ t ht => ?_) fun _ ht => ht.elim
  · obtain ⟨hn, tg, rg, ts, fo, bc, o, rfl⟩ := ht
    exact { h.clearRx with
      running := fun hs => absurd h.idle hs
      not_modulated := nofun
      failed_not_ready := nofun
      cellv := fun _ => hn }
  · obtain ⟨rfl, rfl⟩ := ht
    exact ⟨nofun, h.toCompletable⟩

/-! ### Framer commands -/

/-- A framer command keeps what every command keeps, wherever in its steps it ends. -/
theorem State.Accepted.framerLeaves {fr : FrState} (h : s.Accepted) (hf : s.status.frfail = false)
    (hm : fr ≠ .modulated) (ht : FramerLeaves fr s t) : t.Accepted ∧ t.frState = fr := by
  obtain ⟨riv, bits, crc, fo, g, x, cfg, b, d, o, -, rfl⟩ := ht
  refine ⟨{ h with
    running := fun hs => absurd h.idle hs
    not_modulated := hm
    failed_not_ready := fun hr => absurd hf (by simp [show s.status.frfail = true from hr]) }, rfl⟩

theorem State.Accepted.frameUnfinished (h : s.Accepted) (hf : s.status.frfail = false)
    (hr : s.frState ≠ .ready) (ht : FrameUnfinished s t) : t.Accepted ∧ t.frState ≠ .ready := by
  rcases ht with ht | ht | ht
  · obtain ⟨ha, hs⟩ := h.framerLeaves hf h.not_modulated ht
    exact ⟨ha, hs ▸ hr⟩
  · obtain ⟨ha, hs⟩ := h.framerLeaves (fr := .controlPlaced) hf nofun ht
    exact ⟨ha, hs ▸ nofun⟩
  · obtain ⟨ha, hs⟩ := h.framerLeaves (fr := .dataPlaced) hf nofun ht
    exact ⟨ha, hs ▸ nofun⟩

/-- A failed framer command leaves a frame that is not `READY` (42_framer_tx.md R173). -/
theorem FramerRun.finishFramer {r : Run Unit} (h : s.Accepted) (hf : s.status.frfail = false)
    (hr : s.frState ≠ .ready) (hrun : FramerRun s r) : (finishFramer r).Inv := by
  cases r with
  | value u t =>
    obtain ⟨fr, hfr, ht⟩ := hrun
    have hm : fr ≠ .modulated := by rcases hfr with rfl | rfl | rfl <;> nofun
    exact (h.framerLeaves hf hm ht).1.completeOk
  | raised k i t =>
    obtain ⟨hk, ht⟩ := hrun
    obtain ⟨ha, hs⟩ := h.frameUnfinished hf hr ht
    have hd : (frameDiscarded t).Completable :=
      { ha with
        running := fun hn => absurd ha.idle hn
        failed_not_ready := fun _ => hs }
    exact hd.takeError i hk
  | hung t => exact (h.frameUnfinished hf hr hrun).1.waiting.hang

theorem ruleFrClear_safe (h : s.Accepted) : SafeRun (ruleFrClear s) :=
  State.Completable.mk
    { h with
      running := fun hs => absurd h.idle hs
      not_modulated := nofun
      failed_not_ready := nofun }
    h.idle h.awake h.released

/-! ### Parser commands -/

theorem ruleRxDemod_safe (h : s.Accepted) : SafeRun (ruleRxDemod s) := by
  refine (ruleRxDemod_post s).mono (fun _ t ht => ?_) (fun _ _ _ ht => ht.elim) (fun t ht => ?_)
  · obtain ⟨g, x, b, d, o, rfl⟩ := ht
    exact h.free.toCompletable
  · obtain ⟨x, b, d, o, rfl⟩ := ht
    exact h.free.waiting

/-- Payloads stored in a window list mapped bytes only. -/
theorem PayloadsStored.mapped {idx : Nat} {m m' : List Host.Cell} (h : PayloadsStored idx m m')
    (hi : idx < Config.maxSubch) (hm : ∀ c ∈ m, payloadAddr c.1) : ∀ c ∈ m', payloadAddr c.1 := by
  induction h with
  | refl => exact hm
  | store p _ ih =>
    intro c hc
    rcases mem_putPayload hc with hc | hc
    · exact ih c hc
    · exact .inr ⟨idx, hi, hc⟩

/-- An entry replaced by a consistent one leaves the file consistent. -/
theorem dr_putDr {i : Nat} {e : DrEntry} (h : ∀ j, DrConsistent (drAt s j)) (he : DrConsistent e) (j : Nat) :
    DrConsistent (drAt (putDr s i e) j) := by
  rw [drAt_putDr]
  split
  · exact he
  · exact h j

theorem State.Accepted.putDr (h : s.Accepted) (i : Nat) {e : DrEntry} (he : DrConsistent e) :
    (putDr s i e).Accepted :=
  { h with dr := dr_putDr h.dr he }

theorem State.Accepted.scanLeaves {idx : Nat} (h : s.Accepted) (hi : idx < Config.maxSubch)
    (ht : ScanLeaves idx s t) : t.Accepted := by
  obtain ⟨e, m, p, k, c, b, d, o, hm, -, he, rfl⟩ := ht
  exact { h.putDr idx (he.consistent (h.dr idx)) with
    mem_wf := hm.wf h.mem_wf
    mem_mapped := hm.mapped hi h.mem_mapped }

/-- A scan leaves its command in execution, or waits inside a call (43_parser_rx.md R194). -/
theorem scan_accepted {idx : Nat} (h : s.Accepted) (hi : idx < Config.maxSubch) :
    (scan idx s).Post (fun _ t => t.Accepted) (fun _ _ _ => False) State.Waiting := by
  have hz := h.putDr idx drConsistent_zero
  exact (scan_post s hi).mono (fun _ t ht => hz.scanLeaves hi ht) (fun _ _ _ ht => ht)
    fun t ht => (hz.scanLeaves hi ht).waiting

theorem scanList_accepted (l : List Nat) (hl : ∀ idx ∈ l, idx < Config.maxSubch) :
    ∀ {s : State}, s.Accepted →
      (scanList l s).Post (fun _ t => t.Accepted) (fun _ _ _ => False) State.Waiting := by
  induction l with
  | nil => exact fun h => h
  | cons idx rest ih =>
    exact fun h => (scan_accepted h (hl idx List.mem_cons_self)).next fun _ t ht =>
      ih (fun j hj => hl j (List.mem_cons_of_mem _ hj)) ht

/-- A run that ends in execution or waits is safe. -/
theorem safeRun_of_accepted {r : Run Unit}
    (h : r.Post (fun _ t => t.Accepted) (fun _ _ _ => False) State.Waiting) : SafeRun r :=
  h.mono (fun _ _ ht => ht.toCompletable) (fun _ _ _ ht => ht.elim) fun _ ht => ht

/-! ### Radio, scheduler and system commands -/

theorem ruleRadioOpen_safe (h : s.Accepted) (hr : s.status.radio = false) : SafeRun (ruleRadioOpen s) := by
  have handle_free : ∀ hd b d o,
      State.Accepted { s with handle := hd, backends := b, draws := d, out := o } := fun hd b d o =>
    { h with radio := fun ho => absurd hr (by simp [show s.status.radio = true from ho]) }
  refine (ruleRadioOpen_post s).mono (fun _ t ht => ?_) (fun k _ t ht => ?_) (fun t ht => ?_)
  · obtain ⟨hd, b, d, o, -, rfl⟩ := ht
    exact { h with
      running := fun hs => absurd h.idle hs
      radio := fun _ => rfl }
  · obtain ⟨hk, hd, b, d, o, -, rfl⟩ := ht
    exact ⟨by rcases hk with ⟨rfl, -⟩ | rfl <;> nofun, (handle_free hd b d o).toCompletable⟩
  · obtain ⟨hd, b, d, o, -, rfl⟩ := ht
    exact (handle_free hd b d o).waiting

theorem radioClosed_completable (h : s.Accepted) :
    State.Completable { callRadioClose s with status.radio := false } :=
  { h with
    running := fun hs => absurd h.idle hs
    radio := nofun }

/-- What termination of the scheduler releases leaves a command that can be completed (44_scheduler.md R232). -/
theorem State.BodyInv.terminate (h : s.BodyInv) (awake : s.hung = false) (released : s.inRst = false) :
    (terminate s).Completable :=
  { h with
    running := fun hs => absurd rfl hs
    not_modulated := nofun
    failed_not_ready := nofun
    radio := nofun
    cancel := id
    idle := rfl
    awake := awake
    released := released }

/-- How a pass of the scheduler may end so that the invariant holds after it. -/
def SafePass (r : Run Unit) : Prop :=
  r.Post (fun _ t => t.Inv) (fun k _ t => k ≠ .scheduleSlip ∧ (terminate t).Completable) State.Waiting

theorem SafePass.runScheduler {r : Run Unit} (h : SafePass r) : (runScheduler r).Inv := by
  cases r with
  | value u t => exact h
  | raised k i t => exact h.2.takeError i h.1
  | hung t => exact h.hang

/-- The scheduler's loop between two ticks (44_scheduler.md R220). -/
theorem State.Waiting.looping (h : s.Waiting) (hs : s.schState = .scheduled) : s.Inv :=
  { h with
    busy := by simp [h.busy, hs]
    busy_done := by simp [h.fresh]
    scheduled := fun _ _ => hs
    held := fun hr => absurd h.released (by simp [hr]) }

theorem ruleSchStart_safe (h : s.Accepted) (hr : s.status.radio = true) (hf : s.status.frfail = false)
    (hfr : s.frState = .ready) (hstep : stepLegal (opStep s) = true) : SafePass (ruleSchStart s) := by
  have hwait : ∀ b d o, State.Waiting { s with
      status.cancel := s.inCancel, schState := .awaitStart, backends := b, draws := d, out := o
      sched := { s.sched with ticks := 0, slips := 0, sendFails := 0, lastRet := 0 } } := fun b d o =>
    { h with
      running := fun _ => ⟨hr, hfr, hf, hstep⟩
      cancel := id }
  refine (ruleSchStart_post s).mono (fun _ t ht => ?_) (fun k _ t ht => ?_) (fun t ht => ?_)
  · obtain ⟨es, ef, b, d, o, h1, h2, -, rfl⟩ := ht
    refine State.Waiting.looping ?_ rfl
    exact { h with
      running := fun _ => ⟨hr, hfr, hf, hstep⟩
      epoch := by rw [ofNat_frac h1]; exact ⟨h1, h2⟩
      msecOff := show (0 : BitVec 10).toNat < 1000 by decide
      cancel := id }
  · obtain ⟨rfl, -, b, d, o, -, rfl⟩ := ht
    exact ⟨nofun, (hwait b d o).terminate h.awake h.released⟩
  · obtain ⟨b, d, o, -, rfl⟩ := ht
    exact hwait b d o

theorem zeroFrac_whole :
    (0 : BitVec 30).toNat < Config.fracUnits ∧ (0 : BitVec 30).toNat % Config.ms = 0 := by decide

/-- The reset state meets every clause but that about the level of `cancel`, which it meets by that level. -/
theorem resetBlock_inv (s : State) : (resetBlock s).Inv where
  mem_wf := wf_reset
  mem_mapped := nofun
  err_code := show (0 : BitVec 8).toNat ≤ 9 ∧ (0 : BitVec 8) ≠ 6 by decide
  errv := rfl
  errInfo := fun _ => rfl
  busy := rfl
  busy_done := fun h => absurd h.1 Bool.false_ne_true
  scheduled := fun h => absurd rfl h
  running := fun h => absurd rfl h
  not_modulated := nofun
  failed_not_ready := nofun
  cellv := nofun
  poolv := nofun
  radio := nofun
  epoch := zeroFrac_whole
  txFrac := zeroFrac_whole
  msecOff := show (0 : BitVec 10).toNat < 1000 by decide
  cancel := id
  held := fun _ => rfl
  dr := fun i => by
    rw [show drAt (resetBlock s) i = {} from drAt_cleared s i]
    exact drConsistent_zero

theorem ruleSoftReset_safe (h : s.Accepted) : SafeRun (ruleSoftReset s) := by
  have hc : ∀ u : State, u.inRst = false → (resetBlock u).Completable := fun u hu =>
    { (resetBlock_inv u).body with
      idle := rfl
      awake := rfl
      released := hu }
  unfold ruleSoftReset
  split
  · exact hc _ h.released
  · exact hc _ h.released

/-! ### All commands -/

theorem acceptable_accept (i : Instr) (s : State) : acceptable i (accept s) = acceptable i s := by
  cases i <;> rfl

theorem indexLegal_accept (i : Instr) (s : State) : indexLegal i (accept s) = indexLegal i s := by
  cases i <;> rfl

/-- The rule of every accepted command leaves the invariant. -/
theorem commandRule_inv {i : Instr} (h : s.Accepted) (hi : indexLegal i s = true)
    (ha : acceptable i s = true) : (commandRule i s).Inv := by
  cases i with
  | nop => exact h.completeOk
  | cellSet => exact (ruleCellSet_safe h).finish
  | poolDefault => exact ((rulePoolDefault_poolRun s).safe h).finish
  | poolCheck => exact ((rulePoolCheck_poolRun s).safe h).finish
  | resv2code => exact ((ruleResv2code_codecRun s).safe h).finish
  | code2resv => exact ((ruleCode2resv_codecRun s).safe h).finish
  | rivEnc => exact ((ruleRivEnc_codecRun s).safe h).finish
  | rivDec => exact ((ruleRivDec_codecRun s).safe h).finish
  | sciPack => exact ((ruleSciPack_codecRun s).safe h).finish
  | sciUnpack => exact ((ruleSciUnpack_codecRun s).safe h).finish
  | crc2id => exact ((ruleCrc2id_codecRun s).safe h).finish
  | frBuild =>
    obtain ⟨hf, hfr⟩ : s.status.frfail = false ∧ s.frState = .empty := by simp_all [acceptable]
    exact (ruleFrBuild_framerRun s).finishFramer h hf (hfr ▸ nofun)
  | frCtrl =>
    obtain ⟨hf, hfr⟩ : s.status.frfail = false ∧ s.frState = .empty := by simp_all [acceptable]
    exact (ruleFrCtrl_framerRun s).finishFramer h hf (hfr ▸ nofun)
  | frData =>
    obtain ⟨hf, hfr⟩ : s.status.frfail = false ∧ s.frState = .controlPlaced := by simp_all [acceptable]
    exact (ruleFrData_framerRun s).finishFramer h hf (hfr ▸ nofun)
  | frMod =>
    obtain ⟨hf, hfr⟩ : s.status.frfail = false ∧ s.frState = .dataPlaced := by simp_all [acceptable]
    exact (frStep6_framerRun s).finishFramer h hf (hfr ▸ nofun)
  | frClear => exact (ruleFrClear_safe h).finish
  | rxDemod => exact (ruleRxDemod_safe h).finish
  | rxLoop => exact h.free.completeOk
  | parseSubch idx =>
    have hp : s.status.poolv = true := by simp_all [acceptable]
    have hidx : idx < opN s := by simpa [indexLegal] using hi
    exact (safeRun_of_accepted (scan_accepted h (hidx.trans_le (h.poolv hp).2.1))).finish
  | parseAll =>
    have hp : s.status.poolv = true := by simp_all [acceptable]
    have hl : ∀ idx ∈ List.range (opN s), idx < Config.maxSubch := fun idx hidx =>
      (List.mem_range.mp hidx).trans_le (h.poolv hp).2.1
    exact (safeRun_of_accepted (scanList_accepted _ hl h)).finish
  | rxClear => exact h.clearRx.completeOk
  | radioOpen =>
    have hr : s.status.radio = false := by simpa [acceptable] using ha
    exact (ruleRadioOpen_safe h hr).finish
  | radioClose => exact (radioClosed_completable h).completeOk
  | schStart =>
    obtain ⟨⟨hr, hf⟩, hfr⟩ :
        (s.status.radio = true ∧ s.status.frfail = false) ∧ s.frState = .ready := by
      simpa [acceptable] using ha
    simp only [commandRule]
    split
    next hstep => exact (ruleSchStart_safe h hr hf hfr hstep).runScheduler
    next => exact h.takeError 6 nofun
  | schCancel =>
    have hc : (setCancel s).Completable := { h with cancel := fun _ => rfl }
    exact hc.completeOk
  | clrFlags => exact h.free.completeOk
  | softReset => exact (ruleSoftReset_safe h).finish

/-! ### The moves of the agents -/

theorem State.Inv.setOvr (h : s.Inv) (hr : s.inRst = false) : (setOvr s).Inv :=
  { h with held := fun hn => absurd hr (by simp [show s.inRst = true from hn]) }

theorem State.Inv.setCancel (h : s.Inv) (hr : s.inRst = false) : (setCancel s).Inv :=
  { h with
    cancel := fun _ => rfl
    held := fun hn => absurd hr (by simp [show s.inRst = true from hn]) }

/-- A register written while the block is not busy. -/
theorem State.Inv.writeReg (h : s.Inv) (hb : s.status.busy = false) (hr : s.inRst = false) (r : Reg)
    (v : Word) : (writeReg r v s).Inv := by
  obtain ⟨idle, -⟩ := h.idle_awake hb
  have held : s.inRst = true → ∀ {p : Prop}, p := fun hn => absurd hr (by simp [hn])
  rcases writeReg_cases r v s with ⟨c, e⟩ | ⟨p, e⟩ | ⟨sci, opr, sb, cb, fi, sr, st, rx, e⟩
  · rw [e]
    exact { h with cellv := nofun, poolv := nofun, held := fun hn => held hn }
  · rw [e]
    exact { h with poolv := nofun, held := fun hn => held hn }
  · rw [e]
    exact { h with running := fun hs => absurd idle hs, held := fun hn => held hn }

/-- A word of `TXTB` written. -/
theorem State.Inv.writeTxtb (h : s.Inv) (hr : s.inRst = false) {k : Nat} (hk : k < Config.tbWords)
    (v : Word) : State.Inv { s with mem := writeWord s.mem (txtbBase + k) v } :=
  { h with
    mem_wf := wf_writeWord _ _ h.mem_wf
    mem_mapped := fun c hc => by
      rcases mem_writeWord hc with hc | hc
      · exact h.mem_mapped c hc
      · refine .inl ?_
        unfold byteAddr tbBytes at *
        omega
    held := fun hn => absurd hr (by simp [show s.inRst = true from hn]) }

theorem State.Inv.storeWord (h : s.Inv) (hb : s.status.busy = false) (hr : s.inRst = false) (a : WordNo)
    (v : Word) : (storeWord a v s).Inv := by
  rcases storeWord_cases a v s with ⟨r, e⟩ | ⟨k, hk, e⟩ | e
  · rw [e]
    exact h.writeReg hb hr r v
  · rw [e]
    exact h.writeTxtb hr hk v
  · rw [e]
    exact h

theorem State.Inv.issueWord (h : s.Inv) (hb : s.status.busy = false) (hr : s.inRst = false) {c : Word}
    (ht : issueWord c s = .next t) : t.Inv := by
  have ha := h.accept hb hr
  rcases issueWord_idle_cases c hb with ⟨k, w, hk, e⟩ | ⟨i, -, hi, hacc, e⟩
  · cases e.symm.trans ht
    have hc : s.Completable :=
      { h.body with idle := (h.idle_awake hb).1, awake := (h.idle_awake hb).2, released := hr }
    exact hc.takeError w hk
  · cases e.symm.trans ht
    exact commandRule_inv ha ((indexLegal_accept i s).trans hi) ((acceptable_accept i s).trans hacc)

theorem State.Inv.hostWrite (h : s.Inv) (hr : s.inRst = false) {a : WordNo} {v : Word}
    (ht : hostWrite a v s = .next t) : t.Inv := by
  cases hb : s.status.busy with
  | true =>
    rcases hostWrite_busy a v hb with e | e
    · cases e.symm.trans ht
      exact h.setOvr hr
    · cases e.symm.trans ht
      exact h.setCancel hr
  | false =>
    unfold Machine.hostWrite at ht
    split at ht
    next => exact h.issueWord hb hr ht
    next =>
      rw [hb] at ht
      cases ht
      exact h.storeWord hb hr a v

/-- What a tick has written where it ends keeps every clause of a running command (44_scheduler.md R225). -/
theorem State.Waiting.tickLeaves {st : SchState} (h : s.Waiting) (hs : s.schState = .scheduled)
    (ht : TickLeaves st s t) : t.Waiting ∧ t.schState = st ∧ t.hung = s.hung := by
  obtain ⟨sc, fl, b, d, o, rfl, he, htx, hm, hstep, -⟩ := ht
  refine ⟨{ h with
    running := fun _ => ?_
    epoch := he h.epoch
    txFrac := htx h.epoch.2 h.txFrac
    msecOff := hm h.msecOff }, rfl, rfl⟩
  rw [hstep]
  exact h.running (by simp [hs])

theorem ruleTick_safe (h : s.Waiting) (hs : s.schState = .scheduled) (awake : s.hung = false) :
    SafePass (ruleTick s) := by
  have hleft : ∀ t, TickLeaves s.schState s t ∨ TickLeaves .lateReset s t →
      t.Waiting ∧ t.hung = false := by
    rintro t (ht | ht)
    · obtain ⟨hw, -, hh⟩ := h.tickLeaves hs ht
      exact ⟨hw, hh.trans awake⟩
    · obtain ⟨hw, -, hh⟩ := h.tickLeaves hs ht
      exact ⟨hw, hh.trans awake⟩
  refine (ruleTick_post s hs).mono (fun _ t ht => ?_) (fun k _ t ht => ?_) fun t ht => (hleft t ht).1
  · obtain ⟨hw, hst, -⟩ := h.tickLeaves hs ht
    exact hw.looping (hst.trans hs)
  · obtain ⟨rfl, -, ht⟩ := ht
    obtain ⟨hw, hh⟩ := hleft t ht
    exact ⟨nofun, hw.terminate hh hw.released⟩

theorem State.Inv.engineTurn (h : s.Inv) (hr : s.inRst = false) : (engineTurn s).Inv := by
  unfold Machine.engineTurn
  split
  next hrun =>
    obtain ⟨hs, awake⟩ : s.schState = .scheduled ∧ s.hung = false := by simpa using hrun
    have busy : s.status.busy = true := by simp [h.busy, hs]
    have hw : s.Waiting :=
      { h.body with busy := busy, fresh := by simpa [busy] using h.busy_done, released := hr }
    unfold tick
    split
    · exact (hw.terminate awake hr).completeOk
    · exact (ruleTick_safe hw hs awake).runScheduler
  next => exact h

/-- Each move of an agent keeps the invariant. -/
theorem makeMove_inv {m : Move} (h : s.Inv) (ht : makeMove m s = .next t) : t.Inv := by
  cases m with
  | hostWrite a v =>
    cases hr : s.inRst with
    | true =>
      rw [makeMove_hostWrite_held hr] at ht
      cases ht
      exact h
    | false =>
      rw [makeMove_hostWrite hr] at ht
      exact h.hostWrite hr ht
  | hostRead a =>
    cases ht
    exact { h with held := fun hr => congrArg (emit _) (h.held hr) }
  | cancelIn level =>
    cases ht
    exact { h with
      cancel := fun hl => by
        cases hr : s.inRst <;> simp [show level = true from hl]
      held := fun hr => by
        rw [if_pos (show s.inRst = true from hr)]
        exact congrArg (fun u : State => { u with inCancel := level, status.cancel := level }) (h.held hr) }
  | rstIn level =>
    cases level with
    | true =>
      cases ht
      exact resetBlock_inv _
    | false =>
      cases ht
      exact { h with held := nofun }
  | rxIn x =>
    cases ht
    exact { h with held := fun hr => congrArg (fun u : State => { u with inRx := x }) (h.held hr) }
  | engine =>
    cases ht
    split
    next => exact h
    next hr => exact h.engineTurn (by simpa using hr)

/-- Taking a move off the list keeps the invariant. -/
theorem State.Inv.of_moves (h : s.Inv) (moves : List Move) : State.Inv { s with moves := moves } :=
  { h with held := fun hr => congrArg (fun u : State => { u with moves := moves }) (h.held hr) }

theorem step_inv (h : s.Inv) (ht : step s = .next t) : t.Inv := by
  unfold step at ht
  split at ht
  next => exact makeMove_inv h ht
  next m rest _ => exact makeMove_inv (h.of_moves rest) ht

end Sys2Proof.Machine

namespace Sys2Proof

open Machine

/-- Settles O60: each step is a move of an agent, and each move keeps the invariant (`makeMove_inv`). -/
theorem everyStepKeepsTheInvariant : Obligations.EveryStepKeepsTheInvariant :=
  fun _ _ h ht => step_inv h ht

/-- Settles O59: the reset state is what the reset event leaves of it. -/
theorem invariantHoldsAtReset : Obligations.InvariantHoldsAtReset :=
  resetBlock_inv State.reset

end Sys2Proof
end

section
/-! PROOF. 10_state.md R36: where `CELLV`, `POOLV` and `RADIO` can become 1. Each rule is followed to where it
ends; the word written is then the one word that decodes to the command (30_encoding.md R103). -/

namespace Sys2Proof.Machine

variable {s t u : State} {cmd : Option Instr}

/-! ### What may raise a flag -/

/-- From `s` to `t` a flag became 1 only if the command run between them, if any, is one that earns it. -/
structure EarnedBy (cmd : Option Instr) (s t : State) : Prop where
  cellv : t.status.cellv = true → s.status.cellv = true ∨ cmd = some .cellSet
  poolv : t.status.poolv = true → s.status.poolv = true ∨ cmd = some .poolDefault ∨ cmd = some .poolCheck
  radio : t.status.radio = true → s.status.radio = true ∨ cmd = some .radioOpen

theorem EarnedBy.of_status (h : t.status = s.status) : EarnedBy cmd s t :=
  ⟨fun ht => .inl (h ▸ ht), fun ht => .inl (h ▸ ht), fun ht => .inl (h ▸ ht)⟩

/-- The three flags are all that counts of the state before. -/
theorem EarnedBy.congr_left (h : EarnedBy cmd s t) (hc : s.status.cellv = u.status.cellv)
    (hp : s.status.poolv = u.status.poolv) (hr : s.status.radio = u.status.radio) : EarnedBy cmd u t :=
  ⟨hc ▸ h.cellv, hp ▸ h.poolv, hr ▸ h.radio⟩

/-- After a reset event none of the flags is 1 (10_state.md R58). -/
theorem EarnedBy.resetBlock (u : State) : EarnedBy cmd s (resetBlock u) := ⟨nofun, nofun, nofun⟩

/-- A run whose end raised a flag only as `EarnedBy` says. -/
def EarningRun (cmd : Option Instr) (s : State) (r : Run Unit) : Prop :=
  r.Post (fun _ t => EarnedBy cmd s t) (fun _ _ t => EarnedBy cmd s t) (EarnedBy cmd s)

/-- No completion raises a flag (60_exceptions.md R276). -/
theorem EarnedBy.complete (h : EarnedBy cmd s t) (e : BitVec 8) (i : Word) :
    EarnedBy cmd s (complete e i t) := { h with }

theorem EarningRun.finish {r : Run Unit} (h : EarningRun cmd s r) : EarnedBy cmd s (finish r) := by
  cases r with
  | value u t => exact EarnedBy.complete h _ _
  | raised k i t => exact EarnedBy.complete h _ _
  | hung t => exact { (h : EarnedBy cmd s t) with }

/-- A command that ends with a value at once. -/
theorem EarnedBy.finish_done (h : EarnedBy cmd s t) : EarnedBy cmd s (finish (done t)) := h.complete _ _

theorem EarningRun.finishFramer {r : Run Unit} (h : EarningRun cmd s r) :
    EarnedBy cmd s (finishFramer r) := by
  cases r with
  | value u t => exact EarnedBy.complete h _ _
  | raised k i t => exact EarnedBy.complete (t := frameDiscarded t) { (h : EarnedBy cmd s t) with } _ _
  | hung t => exact { (h : EarnedBy cmd s t) with }

/-- Termination takes `RADIO` down (44_scheduler.md R232). -/
theorem EarnedBy.terminate (h : EarnedBy cmd s t) : EarnedBy cmd s (terminate t) := { h with radio := nofun }

theorem EarningRun.runScheduler {r : Run Unit} (h : EarningRun cmd s r) :
    EarnedBy cmd s (runScheduler r) := by
  cases r with
  | value u t => exact h
  | raised k i t => exact (EarnedBy.terminate h).complete _ _
  | hung t => exact { (h : EarnedBy cmd s t) with }

/-! ### Rules that leave `STATUS` alone -/

/-- Wherever the run ends, `STATUS` but for the two state fields is as in `s`. -/
def StatusKept {α : Type} (s : State) (r : Run α) : Prop :=
  r.Post (fun _ t => t.status = s.status) (fun _ _ t => t.status = s.status) fun t => t.status = s.status

theorem StatusKept.earning {r : Run Unit} (h : StatusKept s r) : EarningRun cmd s r :=
  h.mono (fun _ _ => .of_status) (fun _ _ _ => .of_status) fun _ => .of_status

theorem StatusKept.next {α β : Type} {r : Run α} {f : α → State → Run β} (h : StatusKept s r)
    (hf : ∀ a t, t.status = s.status → StatusKept s (f a t)) : StatusKept s (r.next f) :=
  Run.Post.next h hf

/-- A call on a collaborator leaves `STATUS` alone. -/
theorem CallLeaves.status {c : Call} (h : CallLeaves c s t) : t.status = s.status := by
  obtain ⟨_, _, rfl⟩ := h
  rfl

theorem ask_statusKept {α : Type} {c : Call} {listed : List (Answer α)}
    {rest : List (Answer α) → Backends → Backends} {free : Answer α} (h : t.status = s.status) :
    StatusKept s (ask c listed rest free t) :=
  (ask_post c listed rest free t).mono (fun _ _ hu => hu.status.trans h) (fun _ _ _ hu => hu.elim)
    fun _ hu => hu.status.trans h

theorem askValidSpan_statusKept (req : Nat) (h : t.status = s.status) :
    StatusKept s (askValidSpan req t) :=
  .next (ask_statusKept h) fun _ _ h => h

theorem rxStep5_statusKept (idx k v : Nat) (c : Sci) (h : t.status = s.status) :
    StatusKept s (rxStep5 idx k v c t) := by
  unfold rxStep5
  refine .next (ask_statusKept h) fun _ _ h => .next (ask_statusKept h) fun r _ h => ?_
  cases r with
  | none => exact h
  | some p => exact h

theorem rxStep4_statusKept (idx k st l : Nat) (c : Sci) (crc : CrcBits) (h : t.status = s.status) :
    StatusKept s (rxStep4 idx k st l c crc t) := by
  unfold rxStep4
  simp only
  split
  · exact h
  · refine .next (askValidSpan_statusKept _ h) fun v _ h => ?_
    split
    · exact h
    · exact rxStep5_statusKept idx k v c h

theorem rxStep3_statusKept (idx k cs : Nat) (bits : ControlBits) (crc : CrcBits)
    (h : t.status = s.status) : StatusKept s (rxStep3 idx k cs bits crc t) := by
  unfold rxStep3
  split
  · exact h
  split
  · exact h
  · exact rxStep4_statusKept _ _ _ _ _ _ h

theorem scanShift_statusKept (idx k cs : Nat) (h : t.status = s.status) :
    StatusKept s (scanShift idx k cs t) := by
  unfold scanShift
  refine .next (ask_statusKept h) fun _ _ h => .next (ask_statusKept h) fun r _ h => ?_
  cases r with
  | none => exact h
  | some p => exact rxStep3_statusKept idx k cs p.1 p.2 h

theorem scanShifts_statusKept (idx : Nat) (l : List Nat) :
    ∀ (k : Nat) {t : State}, t.status = s.status → StatusKept s (scanShifts idx k l t) := by
  induction l with
  | nil => exact fun _ _ h => h
  | cons cs rest ih =>
    exact fun k _ h => (scanShift_statusKept idx k cs h).next fun _ _ h => ih (k + 1) h

/-- A scan leaves `STATUS` alone, whatever the sub-channel (43_parser_rx.md R194). -/
theorem scan_statusKept (idx : Nat) (h : t.status = s.status) : StatusKept s (scan idx t) :=
  scanShifts_statusKept idx _ 0 h

theorem scanList_statusKept (l : List Nat) :
    ∀ {t : State}, t.status = s.status → StatusKept s (scanList l t) := by
  induction l with
  | nil => exact fun h => h
  | cons idx rest ih => exact fun h => (scan_statusKept idx h).next fun _ _ h => ih h

theorem CodecRun.statusKept {r : Run Unit} (h : CodecRun s r) : StatusKept s r := by
  refine h.mono (fun _ t ht => ?_) (fun k _ t ht => ?_) fun _ ht => ht.elim
  · obtain ⟨_, _, _, rfl⟩ := ht
    rfl
  · exact ht.2 ▸ rfl

theorem FramerLeaves.status {fr : FrState} (h : FramerLeaves fr s t) : t.status = s.status := by
  obtain ⟨_, _, _, _, _, _, _, _, _, _, -, rfl⟩ := h
  rfl

theorem FrameUnfinished.status (h : FrameUnfinished s t) : t.status = s.status := by
  rcases h with h | h | h <;> exact h.status

theorem FramerRun.statusKept {r : Run Unit} (h : FramerRun s r) : StatusKept s r := by
  refine h.mono (fun _ t ht => ?_) (fun k _ t ht => ht.2.status) fun _ ht => ht.status
  obtain ⟨_, -, ht⟩ := ht
  exact ht.status

theorem ruleRxDemod_statusKept (s : State) : StatusKept s (ruleRxDemod s) :=
  (ask_statusKept rfl).next fun _ _ h => h

/-- A pass of the scheduler leaves `STATUS` alone (44_scheduler.md R225). -/
theorem ruleTick_statusKept (hs : s.schState = .scheduled) : StatusKept s (ruleTick s) := by
  have hl : ∀ {st t}, TickLeaves st s t → t.status = s.status := by
    rintro st t ⟨_, _, _, _, _, rfl, -⟩
    rfl
  exact (ruleTick_post s hs).mono (fun _ _ ht => hl ht) (fun _ _ _ ht => ht.2.2.elim hl hl)
    fun _ ht => ht.elim hl hl

/-! ### Rules that write `STATUS` -/

theorem ruleCellSet_earning (s : State) : EarningRun (some .cellSet) s (ruleCellSet s) := by
  refine (ruleCellSet_post s).mono (fun _ t ht => ?_) (fun k _ t ht => ?_) fun _ ht => ht.elim
  · obtain ⟨-, _, _, _, _, _, _, rfl⟩ := ht
    exact ⟨fun _ => .inr rfl, .inl, .inl⟩
  · exact .of_status (ht.2 ▸ rfl)

/-- A pool command raises `POOLV` only (40_pool.md R121, R122). -/
theorem PoolRun.earning {r : Run Unit} {i : Instr} (hi : i = .poolDefault ∨ i = .poolCheck)
    (h : PoolRun s r) : EarningRun (some i) s r := by
  refine h.mono (fun _ t ht => ?_) (fun k _ t ht => ?_) fun _ ht => ht.elim
  · obtain ⟨_, -, rfl⟩ := ht
    exact ⟨.inl, fun _ => .inr (hi.imp (congrArg some) (congrArg some)), .inl⟩
  · obtain ⟨-, rfl⟩ := ht
    exact ⟨.inl, nofun, .inl⟩

theorem ruleRadioOpen_earning (s : State) : EarningRun (some .radioOpen) s (ruleRadioOpen s) := by
  refine (ruleRadioOpen_post s).mono (fun _ t ht => ?_) (fun k _ t ht => ?_) fun t ht => ?_
  · obtain ⟨_, _, _, _, -, rfl⟩ := ht
    exact ⟨.inl, .inl, fun _ => .inr rfl⟩
  · obtain ⟨-, _, _, _, _, -, rfl⟩ := ht
    exact .of_status rfl
  · obtain ⟨_, _, _, _, -, rfl⟩ := ht
    exact .of_status rfl

theorem ruleSchStart_earning (s : State) : EarningRun cmd s (ruleSchStart s) := by
  refine (ruleSchStart_post s).mono (fun _ t ht => ?_) (fun k _ t ht => ?_) fun t ht => ?_
  · obtain ⟨_, _, _, _, _, -, -, -, rfl⟩ := ht
    exact ⟨.inl, .inl, .inl⟩
  · obtain ⟨-, -, _, _, _, -, rfl⟩ := ht
    exact ⟨.inl, .inl, .inl⟩
  · obtain ⟨_, _, _, -, rfl⟩ := ht
    exact ⟨.inl, .inl, .inl⟩

/-- Each command raises only the flag it earns. -/
theorem commandRule_earned (i : Instr) (s : State) : EarnedBy (some i) s (commandRule i s) := by
  cases i with
  | nop => exact .finish_done (.of_status rfl)
  | cellSet => exact (ruleCellSet_earning s).finish
  | poolDefault => exact ((rulePoolDefault_poolRun s).earning (.inl rfl)).finish
  | poolCheck => exact ((rulePoolCheck_poolRun s).earning (.inr rfl)).finish
  | resv2code => exact (ruleResv2code_codecRun s).statusKept.earning.finish
  | code2resv => exact (ruleCode2resv_codecRun s).statusKept.earning.finish
  | rivEnc => exact (ruleRivEnc_codecRun s).statusKept.earning.finish
  | rivDec => exact (ruleRivDec_codecRun s).statusKept.earning.finish
  | sciPack => exact (ruleSciPack_codecRun s).statusKept.earning.finish
  | sciUnpack => exact (ruleSciUnpack_codecRun s).statusKept.earning.finish
  | crc2id => exact (ruleCrc2id_codecRun s).statusKept.earning.finish
  | frBuild => exact (ruleFrBuild_framerRun s).statusKept.earning.finishFramer
  | frCtrl => exact (ruleFrCtrl_framerRun s).statusKept.earning.finishFramer
  | frData => exact (ruleFrData_framerRun s).statusKept.earning.finishFramer
  | frMod => exact (frStep6_framerRun s).statusKept.earning.finishFramer
  | frClear => exact .finish_done ⟨.inl, .inl, .inl⟩
  | rxDemod => exact (ruleRxDemod_statusKept s).earning.finish
  | rxLoop => exact .finish_done (.of_status rfl)
  | parseSubch idx => exact (scan_statusKept idx rfl).earning.finish
  | parseAll => exact (scanList_statusKept _ rfl).earning.finish
  | rxClear => exact .finish_done (.of_status rfl)
  | radioOpen => exact (ruleRadioOpen_earning s).finish
  | radioClose => exact .finish_done ⟨.inl, .inl, nofun⟩
  | schStart =>
    simp only [commandRule]
    split
    · exact (ruleSchStart_earning s).runScheduler
    · exact .complete (.of_status rfl) _ _
  | schCancel => exact .finish_done ⟨.inl, .inl, .inl⟩
  | clrFlags => exact .finish_done (.of_status rfl)
  | softReset => exact .finish_done (.resetBlock _)

/-! ### Host writes and moves -/

theorem EarnedBy.setOvr (s : State) : EarnedBy cmd s (setOvr s) := .of_status rfl

theorem EarnedBy.setCancel (s : State) : EarnedBy cmd s (setCancel s) := ⟨.inl, .inl, .inl⟩

/-- No host write of a register or of payload raises a flag (20_memory.md R74). -/
theorem storeWord_earned (a : WordNo) (v : Word) (s : State) : EarnedBy cmd s (storeWord a v s) := by
  rcases storeWord_cases a v s with ⟨r, e⟩ | ⟨k, -, e⟩ | e
  · rw [e]
    rcases writeReg_cases r v s with ⟨c, e⟩ | ⟨p, e⟩ | ⟨_, _, _, _, _, _, _, _, e⟩
    · exact e ▸ ⟨nofun, nofun, .inl⟩
    · exact e ▸ ⟨.inl, nofun, .inl⟩
    · exact e ▸ .of_status rfl
  · exact e ▸ .of_status rfl
  · exact .of_status (congrArg State.status e)

/-- A host write raises a flag only if it writes a command's word to `CMD`. -/
theorem hostWrite_earned {a : WordNo} {v : Word} (h : hostWrite a v s = .next t) :
    EarnedBy none s t ∨ ∃ i, a = cmdWord ∧ decode v = .ok i ∧ EarnedBy (some i) s t := by
  cases hb : s.status.busy with
  | true =>
    rcases hostWrite_busy a v hb with e | e
    · cases e.symm.trans h
      exact .inl (.setOvr s)
    · cases e.symm.trans h
      exact .inl (.setCancel s)
  | false =>
    by_cases ha : a = cmdWord
    · rw [hostWrite, if_pos ha] at h
      rcases issueWord_idle_cases v hb with ⟨k, w, -, e⟩ | ⟨i, hd, -, -, e⟩
      · cases e.symm.trans h
        exact .inl (.complete (.of_status rfl) _ _)
      · cases e.symm.trans h
        exact .inr ⟨i, ha, hd, (commandRule_earned i (accept s)).congr_left rfl rfl rfl⟩
    · simp only [hostWrite, if_neg ha, hb, Bool.false_eq_true, if_false] at h
      cases h
      exact .inl (storeWord_earned a v s)

theorem engineTurn_earned (s : State) : EarnedBy cmd s (engineTurn s) := by
  unfold engineTurn
  split
  next hrun =>
    have hs : s.schState = .scheduled := by simp_all
    unfold tick
    split
    · exact (EarnedBy.terminate (.of_status rfl)).complete _ _
    · exact (ruleTick_statusKept hs).earning.runScheduler
  next => exact .of_status rfl

/-- A move raises a flag only if it writes a command's word to `CMD`. -/
theorem makeMove_earned {m : Move} (h : makeMove m s = .next t) :
    EarnedBy none s t ∨
      ∃ c i, m = .hostWrite cmdWord c ∧ decode c = .ok i ∧ EarnedBy (some i) s t := by
  cases m with
  | hostWrite a v =>
    cases hr : s.inRst with
    | true =>
      rw [makeMove_hostWrite_held hr] at h
      cases h
      exact .inl (.of_status rfl)
    | false =>
      rw [makeMove_hostWrite hr] at h
      refine (hostWrite_earned h).imp_right ?_
      rintro ⟨i, rfl, hd, he⟩
      exact ⟨v, i, rfl, hd, he⟩
  | hostRead a =>
    cases h
    exact .inl (.of_status rfl)
  | cancelIn level =>
    cases h
    exact .inl ⟨.inl, .inl, .inl⟩
  | rstIn level =>
    cases level with
    | true =>
      cases h
      exact .inl (.resetBlock _)
    | false =>
      cases h
      exact .inl (.of_status rfl)
  | rxIn x =>
    cases h
    exact .inl (.of_status rfl)
  | engine =>
    cases h
    split
    next => exact .inl (.of_status rfl)
    next => exact .inl (engineTurn_earned s)

/-- A step raises a flag only if its move writes a command's word to `CMD`. -/
theorem step_earned (h : step s = .next t) :
    EarnedBy none s t ∨
      ∃ c i rest, s.moves = .hostWrite cmdWord c :: rest ∧ decode c = .ok i ∧ EarnedBy (some i) s t := by
  unfold step at h
  split at h
  next =>
    refine (makeMove_earned h).imp_right ?_
    rintro ⟨c, i, hm, -⟩
    cases hm
  next m rest hs =>
    refine (makeMove_earned h).imp (fun he => he.congr_left rfl rfl rfl) ?_
    rintro ⟨c, i, rfl, hd, he⟩
    exact ⟨c, i, rest, hs, hd, he.congr_left rfl rfl rfl⟩

/-! ### The word of a command (30_encoding.md R103) -/

/-- The opcode and the immediate of the command an opcode names. -/
theorem opcode_imm_of_ofOpcode {op imm : Nat} {i : Instr} (h : ofOpcode op imm = some i) :
    opcodeOf i = op ∧ immOf i = if op = 0x32 then imm else 0 := by
  unfold ofOpcode at h
  split at h
  case h_28 => cases h
  all_goals
    cases h
    exact ⟨rfl, rfl⟩

/-- The three fields of a command word as numbers (30_encoding.md R100). -/
theorem toNat_fields (c : Word) :
    (opcodeField c).toNat = c.toNat % 256 ∧ (immField c).toNat = c.toNat / 256 % 256 ∧
      (zeroField c).toNat = c.toNat / 65536 % 65536 := by
  simp [opcodeField, immField, zeroField, Nat.shiftRight_eq_div_pow]

/-- Only a command's own word decodes to it. -/
theorem eq_encode_of_decode {c : Word} {i : Instr} (h : decode c = .ok i) : c = encode i := by
  obtain ⟨hop, himm, hzero⟩ := toNat_fields c
  unfold decode at h
  split at h
  · cases h
  rename_i hz
  split at h
  · cases h
  rename_i j hj
  split at h
  · cases h
  rename_i hi
  cases h
  obtain ⟨hopcode, himmediate⟩ := opcode_imm_of_ofOpcode hj
  have zero : (zeroField c).toNat = 0 := by rw [not_not.mp hz]; rfl
  apply BitVec.eq_of_toNat_eq
  rw [encode, hopcode, himmediate, BitVec.toNat_ofNat]
  split
  · omega
  · have imm : (immField c).toNat = 0 := by rw [show immField c = 0 by tauto]; rfl
    omega

end Sys2Proof.Machine

namespace Sys2Proof

open Machine

/-- Settles O57: a step that raises a flag writes the word of a command that earns it (`step_earned`), and each
command has one word. -/
theorem validityIsEarned : Obligations.ValidityIsEarned := by
  intro s t h
  rcases step_earned h with he | ⟨c, i, rest, hm, hd, he⟩
  · exact ⟨fun hc => .inl ((he.cellv hc).resolve_right nofun),
      fun hp => .inl ((he.poolv hp).resolve_right nofun),
      fun hr => .inl ((he.radio hr).resolve_right nofun)⟩
  · obtain rfl := eq_encode_of_decode hd
    refine ⟨fun hc => (he.cellv hc).imp_right ?_, fun hp => (he.poolv hp).imp_right ?_,
      fun hr => (he.radio hr).imp_right ?_⟩
    · rintro ⟨⟩
      exact ⟨rest, hm⟩
    · rintro (⟨⟨⟩⟩ | ⟨⟨⟩⟩)
      · exact ⟨rest, .inl hm⟩
      · exact ⟨rest, .inr hm⟩
    · rintro ⟨⟩
      exact ⟨rest, hm⟩

end Sys2Proof
end

section
/-! PROOF. 10_state.md R21, R25 to R29, R57, R58, 20_memory.md R74: what the host reads of the registers,
after a write of one of them and after reset. -/

namespace Sys2Proof.Machine

variable {s : State}

/-! ### `STATUS` and `FLAGS` bit by bit (10_state.md R25 to R29) -/

/-- A concatenation as a number: the left part above the right. -/
theorem toNat_append_eq_add {m n : Nat} (x : BitVec m) (y : BitVec n) :
    (x ++ y).toNat = x.toNat * 2 ^ n + y.toNat := by
  rw [BitVec.toNat_append, ← Nat.shiftLeft_add_eq_or_of_lt y.isLt, Nat.shiftLeft_eq]

theorem toNat_bit (b : Bool) : (bit b).toNat = b.toNat := by
  cases b <;> rfl

theorem toNat_statusWord (s : State) :
    (statusWord s).toNat =
      s.status.busy.toNat + 2 * s.status.done.toNat + 4 * s.status.errv.toNat + 8 * s.status.cellv.toNat
        + 16 * s.status.poolv.toNat + 32 * s.status.radio.toNat + 64 * s.status.cancel.toNat
        + 128 * s.status.frfail.toNat + 256 * s.frState.code.toNat + 4096 * s.schState.code.toNat := by
  simp only [statusWord, toNat_append_eq_add, toNat_bit, BitVec.ofNat_eq_ofNat, BitVec.toNat_ofNat]
  omega

theorem toNat_flagsWord (f : Flags) :
    (flagsWord f).toNat = f.slip.toNat + 2 * f.sendfail.toNat + 4 * f.ovr.toNat := by
  simp only [flagsWord, toNat_append_eq_add, toNat_bit, BitVec.ofNat_eq_ofNat, BitVec.toNat_ofNat]
  omega

/-! ### What the host reads -/

/-- A register's word reads as the register (20_memory.md R75). -/
theorem hostRead_reg {a : WordNo} {r : Reg} (h : a.toNat = regAddr r) (s : State) :
    hostRead a s = readReg r s := by
  rw [hostRead, locate_eq_reg h]

/-- The width of a register that the host may write (10_state.md R57); 0 for the others. -/
def regWidth : Reg → Nat
  | .cellTm | .cellNprb | .poolSubchW | .poolStartPrb | .sciRiv => 8
  | .cellId => 16
  | .cellCp | .poolAdj | .sciFmt | .sciRetx | .sciTxfmt => 1
  | .poolNsubch | .sciMcs | .frStart | .frLen => 5
  | .sciPrio => 3
  | .sciResv | .sciTgap => 4
  | .sciNbits | .crcNbits => 6
  | .schStepMs => 10
  | .opa | .opb | .opc | .sciBits | .crcBits | .frSfidx | .schSrate | .rxSfidx => 32
  | _ => 0

/-- The table of the statements names the host-writable registers with their widths. -/
theorem exists_reg_of_mem_rwRegisters {n w : Nat} (h : (n, w) ∈ rwRegisters) :
    ∃ r, hostWritable r = true ∧ n = regAddr r ∧ w = regWidth r := by
  have table : ∀ p ∈ rwRegisters,
      ((regAt p.1).any fun r => hostWritable r && decide (p.2 = regWidth r)) = true := by decide
  have hp := table _ h
  simp only [Option.any_eq_true, Bool.and_eq_true, decide_eq_true_eq] at hp
  obtain ⟨r, hr, hw, hwidth⟩ := hp
  exact ⟨r, hw, regAt_eq_some_iff.mp hr, hwidth⟩

/-- After a host write the register reads as the value's low bits (10_state.md R21), every other register but
`STATUS` as before. -/
theorem readReg_writeReg {r r' : Reg} (hw : hostWritable r = true) (hst : r' ≠ .status) (v : Word) (s : State) :
    readReg r' (writeReg r v s) =
      if r' = r then (v.setWidth (regWidth r)).setWidth 32 else readReg r' s := by
  cases r with
  | id | cmd | status | err | errInfo | flags | res0 | res1 | frCtrlOff | frDataStart | frDataNprb | frScrid | frRv
  | schEpochSec | schEpochFrac | schSecOff | schMsecOff | schTxSec | schTxFrac | schTicks | schSlips
  | schSendfails | schLastRet => cases hw
  | _ =>
    cases r' with
    | status => exact absurd rfl hst
    | _ => rfl

/-- A host write of a register clears the validity flags as 20_memory.md R74 says. -/
theorem writeReg_status (r : Reg) (v : Word) (s : State) :
    (writeReg r v s).status =
      if 0x08 ≤ regAddr r ∧ regAddr r ≤ 0x0B then { s.status with cellv := false, poolv := false }
      else if 0x0C ≤ regAddr r ∧ regAddr r ≤ 0x0F then { s.status with poolv := false }
      else s.status := by
  cases r <;> rfl

/-- A host write of a register changes nothing that the host cannot read, and of the rest only these fields. -/
theorem writeReg_frame (r : Reg) (v : Word) (s : State) :
    { writeReg r v s with
      status := s.status, cell := s.cell, pool := s.pool, sci := s.sci, opr := s.opr
      sciBits := s.sciBits, crcBits := s.crcBits, frIn := s.frIn, sched := s.sched
      rxSfidx := s.rxSfidx } = s := by
  rcases writeReg_cases r v s with ⟨c, e⟩ | ⟨p, e⟩ | ⟨_, _, _, _, _, _, _, _, e⟩ <;> rw [e] <;> rfl

theorem writeReg_dr (r : Reg) (v : Word) (s : State) : (writeReg r v s).dr = s.dr :=
  (congrArg State.dr (writeReg_frame r v s) :)

theorem writeReg_mem (r : Reg) (v : Word) (s : State) : (writeReg r v s).mem = s.mem :=
  (congrArg State.mem (writeReg_frame r v s) :)

/-- Every word but the register's own and `STATUS` reads as before its write. -/
theorem hostRead_writeReg_of_ne {a b : WordNo} {r : Reg} (hw : hostWritable r = true)
    (ha : a.toNat = regAddr r) (hb : b ≠ a) (hst : b ≠ 0x0002) (v : Word) (s : State) :
    hostRead b (writeReg r v s) = hostRead b s := by
  unfold hostRead
  cases hl : locate b with
  | reg r' =>
    have hr' := regAddr_of_locate hl
    have hne : r' ≠ r := fun e => hb (BitVec.eq_of_toNat_eq (by rw [hr', ha, e]))
    have hst' : r' ≠ .status := fun e => hst (BitVec.eq_of_toNat_eq (by rw [hr', e]; rfl))
    simp only [readReg_writeReg hw hst', if_neg hne]
  | dr i k => simp only [drAt, writeReg_dr]
  | txtb k => simp only [writeReg_mem]
  | rxtb i k => simp only [writeReg_mem]
  | unmapped => rfl

/-- While the block is not busy a host write of a writable register is that register's write. -/
theorem hostWrite_reg {a : WordNo} {r : Reg} (hb : s.status.busy = false) (hw : hostWritable r = true)
    (ha : a.toNat = regAddr r) (v : Word) : hostWrite a v s = .next (writeReg r v s) := by
  have hcmd : a ≠ cmdWord := by
    rintro rfl
    obtain rfl : Reg.cmd = r := Option.some.inj (regAt_eq_some_iff.mpr ha)
    cases hw
  simp only [hostWrite, if_neg hcmd, hb, Bool.false_eq_true, if_false, storeWord, locate_eq_reg ha]

/-- The low bits of a word, as a word. -/
theorem setWidth_setWidth_eq_ofNat (v : Word) (w : Nat) :
    (v.setWidth w).setWidth 32 = BitVec.ofNat 32 (v.toNat % 2 ^ w) := by
  apply BitVec.eq_of_toNat_eq
  simp

/-! ### Reset (10_state.md R57, R58) -/

theorem readReg_reset (r : Reg) :
    readReg r State.reset =
      if regAddr r = 0 then 0x534C5458 else if regAddr r = 0x31 then 100 else 0 := by
  cases r <;> rfl

theorem readWord_nil (a : Nat) : readWord [] a = 0 := by
  simp [readWord, readByte, unlistedByte]

theorem drWord_zero (k : Nat) : drWord {} k = 0 := by
  unfold drWord
  split <;> rfl

/-- After reset every word but `ID` and `SCH_STEP_MS` reads 0. -/
theorem hostRead_reset (a : WordNo) :
    hostRead a State.reset = if a = 0x0000 then 0x534C5458 else if a = 0x0031 then 100 else 0 := by
  by_cases hid : a = 0x0000
  · rw [hid, hostRead_reg (r := .id) rfl]
    rfl
  by_cases hstep : a = 0x0031
  · rw [hstep, hostRead_reg (r := .schStepMs) rfl]
    rfl
  rw [if_neg hid, if_neg hstep]
  unfold hostRead
  cases hl : locate a with
  | reg r =>
    have ha := regAddr_of_locate hl
    have h0 : regAddr r ≠ 0 := fun e => hid (BitVec.eq_of_toNat_eq (ha.trans e))
    have h1 : regAddr r ≠ 0x31 := fun e => hstep (BitVec.eq_of_toNat_eq (ha.trans e))
    simp only [readReg_reset, if_neg h0, if_neg h1]
  | dr i k =>
    have hz : drAt State.reset i = {} := drAt_cleared State.reset i
    simp only [hz, drWord_zero]
  | txtb k => exact readWord_nil _
  | rxtb i k => exact readWord_nil _
  | unmapped => rfl

/-- Every payload bit is 0 after reset (10_state.md R58). -/
theorem payloadBit_reset (base j : Nat) : payloadBit State.reset.mem base j = false := by
  rw [payloadBit, show State.reset.mem = [] from rfl, readWord_nil]
  exact BitVec.getLsbD_zero

end Sys2Proof.Machine

namespace Sys2Proof

open Machine

/-- Settles O13: an accepted write of a register is `writeReg`, which reads back as the low bits and leaves every
other word as it was (`readReg_writeReg`, `hostRead_writeReg_of_ne`). -/
theorem registerWrites : Obligations.RegisterWrites := by
  intro s a v w hb hmem
  obtain ⟨r, hw, ha, rfl⟩ := exists_reg_of_mem_rwRegisters hmem
  have hst : r ≠ .status := by
    rintro rfl
    cases hw
  refine ⟨writeReg r v s, hostWrite_reg hb hw ha v, ?_, ?_, ?_, writeReg_frame r v s⟩
  · rw [hostRead_reg ha, readReg_writeReg hw hst, if_pos rfl, setWidth_setWidth_eq_ofNat]
  · exact fun b hba hbst => hostRead_writeReg_of_ne hw ha hba hbst v s
  · rw [writeReg_status, ha]

/-- Settles O17: the two words are concatenations of their bits (`toNat_statusWord`, `toNat_flagsWord`). -/
theorem statusAndFlagsWords : Obligations.StatusAndFlagsWords := by
  intro s
  rw [hostRead_reg (r := .status) rfl, hostRead_reg (r := .flags) rfl]
  refine ⟨(toNat_statusWord s).trans ?_, toNat_flagsWord s.flags⟩
  cases s.frState <;> cases s.schState <;> rfl

/-- Settles O11: the host's view by word (`hostRead_reset`), the hidden state by its reset values. -/
theorem resetValues : Obligations.ResetValues :=
  ⟨hostRead_reset, rfl, rfl, rfl, rfl, rfl, rfl, rfl, rfl, payloadBit_reset _,
    fun i => payloadBit_reset (rxtbBase i)⟩

end Sys2Proof
end

section
/-! PROOF. 20_memory.md R75 to R79: the host port, window by window. What a busy block makes of a host write comes
first, then where each word number lies, then the words that no write changes, the payload windows and the
DecodeResult file. -/

namespace Sys2Proof.Machine

variable {s : State}

/-! ### Host writes to a busy block (20_memory.md R77) -/

/-- A command word other than that of `SCH_CANCEL` sets `FLAGS.OVR` in a busy block and does nothing else. -/
theorem issueWord_busy_of_ne {c : Word} (h : s.status.busy = true) (hc : c ≠ encode .schCancel) :
    issueWord c s = .next (setOvr s) := by
  cases hd : decode c with
  | error e =>
    rw [issueWord, hd]
    exact congrArg _ (if_pos h)
  | ok i =>
    rw [issueWord_of_decode s hd]
    refine exec_busy h ?_
    rintro rfl
    exact hc (eq_encode_of_decode hd)

/-- The word of `SCH_CANCEL` sets the cancel latch of a busy block and does nothing else. -/
theorem issueWord_schCancel_busy (h : s.status.busy = true) :
    issueWord (encode .schCancel) s = .next (setCancel s) :=
  (issueWord_of_decode s rfl).trans (exec_schCancel_busy h)

/-- A busy block ignores a host write of anything but the word of `SCH_CANCEL` to `CMD`, and says so in
`FLAGS.OVR`. -/
theorem hostWrite_busy_of_ne {a : WordNo} {v : Word} (h : s.status.busy = true)
    (hw : ¬(a = cmdWord ∧ v = encode .schCancel)) : hostWrite a v s = .next (setOvr s) := by
  by_cases ha : a = cmdWord
  · rw [hostWrite, if_pos ha]
    exact issueWord_busy_of_ne h fun hv => hw ⟨ha, hv⟩
  · rw [hostWrite, if_neg ha, if_pos h]

/-! ### Where a word number lies (20_memory.md R75) -/

/-- A payload window has at most the words of its place in the map. -/
theorem tbWords_le : Config.tbWords ≤ 0x400 := Config.params.tbWordsLessOne.isLt

theorem locate_eq_dr {a : WordNo} {i k : Nat} (hi : i < 20) (hk : k < 16)
    (ha : a.toNat = 0x100 + 16 * i + k) : locate a = .dr i k := by
  have h1 : (a.toNat - 0x100) / 16 = i := by omega
  have h2 : (a.toNat - 0x100) % 16 = k := by omega
  simp only [locate, h1, h2]
  rw [if_neg (by omega), if_pos (by omega)]

theorem locate_eq_txtb {a : WordNo} {k : Nat} (hk : k < Config.tbWords) (ha : a.toNat = 0x400 + k) :
    locate a = .txtb k := by
  have hle := tbWords_le
  have h1 : a.toNat - 0x400 = k := by omega
  simp only [locate, h1]
  rw [if_neg (by omega), if_neg (by omega), if_pos (by omega), if_pos hk]

theorem locate_eq_rxtb {a : WordNo} {i k : Nat} (hi : i < 20) (hk : k < Config.tbWords)
    (ha : a.toNat = 0x8000 + 0x400 * i + k) : locate a = .rxtb i k := by
  have hle := tbWords_le
  have h1 : (a.toNat - 0x8000) / 0x400 = i := by omega
  have h2 : (a.toNat - 0x8000) % 0x400 = k := by omega
  simp only [locate, h1, h2]
  rw [if_neg (by omega), if_neg (by omega), if_neg (by omega), if_pos (by omega), if_pos hk]

/-- Every register is `CMD` or in one of the two tables of the statements. -/
theorem regAddr_mem_tables (r : Reg) :
    regAddr r = 0x01 ∨ regAddr r ∈ roRegisters ∨ regAddr r ∈ rwRegisters.map Prod.fst := by
  cases r <;> decide

theorem regAt_eq_none {n : Nat} (hcmd : n ≠ 0x01) (hro : n ∉ roRegisters)
    (hrw : n ∉ rwRegisters.map Prod.fst) : regAt n = none := by
  refine Option.eq_none_iff_forall_ne_some.mpr fun r hr => ?_
  obtain rfl := regAt_eq_some_iff.mp hr
  exact (regAddr_mem_tables r).elim hcmd (Or.rec hro hrw)

/-- The words that the statements call unmapped name nothing. -/
theorem locate_eq_unmapped {a : WordNo} (h : Unmapped a.toNat) : locate a = .unmapped := by
  have hle := tbWords_le
  simp only [locate]
  rcases h with ⟨hlt, hcmd, hro, hrw⟩ | h | h | ⟨h1, h2, h3⟩ | h | ⟨h1, h2, h3⟩ | h
  · rw [if_pos hlt, regAt_eq_none hcmd hro hrw]
  · rw [if_neg (by omega), if_neg (by omega), if_neg (by omega), if_neg (by omega)]
  · rw [if_neg (by omega), if_neg (by omega), if_neg (by omega), if_neg (by omega)]
  · rw [if_neg (by omega), if_neg (by omega), if_pos ⟨h1, h2⟩, if_neg (by omega)]
  · rw [if_neg (by omega), if_neg (by omega), if_neg (by omega), if_neg (by omega)]
  · rw [if_neg (by omega), if_neg (by omega), if_neg (by omega), if_pos ⟨h1, h2⟩, if_neg (by omega)]
  · rw [if_neg (by omega), if_neg (by omega), if_neg (by omega), if_neg (by omega)]

/-! ### Words that no host write changes (20_memory.md R76, R78) -/

/-- While the block is not busy a host write of anything but `CMD` is a store. -/
theorem hostWrite_idle {a : WordNo} (hb : s.status.busy = false) (ha : a ≠ cmdWord) (v : Word) :
    hostWrite a v s = .next (storeWord a v s) := by
  simp only [hostWrite, if_neg ha, hb, Bool.false_eq_true, if_false]

/-- A place in the map that a host write leaves alone: all but the writable registers and `TXTB`. -/
def HostLoc.readOnly : HostLoc → Bool
  | .reg r => !hostWritable r
  | .txtb _ => false
  | .dr _ _ | .rxtb _ _ | .unmapped => true

theorem writeReg_of_not_writable {r : Reg} (h : hostWritable r = false) (v : Word) (s : State) :
    writeReg r v s = s := by
  cases r with
  | id | cmd | status | err | errInfo | flags | res0 | res1 | frCtrlOff | frDataStart | frDataNprb | frScrid | frRv
  | schEpochSec | schEpochFrac | schSecOff | schMsecOff | schTxSec | schTxFrac | schTicks | schSlips
  | schSendfails | schLastRet => rfl
  | _ => cases h

theorem storeWord_of_readOnly {a : WordNo} (h : (locate a).readOnly = true) (v : Word) (s : State) :
    storeWord a v s = s := by
  unfold storeWord
  cases hl : locate a with
  | reg r =>
    rw [hl] at h
    exact writeReg_of_not_writable (by simpa [HostLoc.readOnly] using h) v s
  | txtb k =>
    rw [hl] at h
    cases h
  | _ => rfl

/-- Each word of the table of read-only registers lies in the map as one. -/
theorem readOnly_locate_of_mem_roRegisters {a : WordNo} (h : a.toNat ∈ roRegisters) :
    (locate a).readOnly = true := by
  have table : ∀ n ∈ roRegisters, ((regAt n).any fun r => !hostWritable r) = true := by decide
  obtain ⟨r, hr, hw⟩ := (Option.any_eq_true ..).mp (table _ h)
  rw [locate_eq_reg (regAt_eq_some_iff.mp hr)]
  exact hw

/-- A receive window is read-only, its unmapped tail included. -/
theorem readOnly_locate_of_rxtb {a : WordNo} (h : 0x8000 ≤ a.toNat ∧ a.toNat < 0xD000) :
    (locate a).readOnly = true := by
  by_cases hk : (a.toNat - 0x8000) % 0x400 < Config.tbWords
  · rw [locate_eq_rxtb (i := (a.toNat - 0x8000) / 0x400) (by omega) hk (by omega)]
    rfl
  · rw [locate_eq_unmapped (by unfold Unmapped; omega)]
    rfl

theorem readOnly_locate_of_dr {a : WordNo} (h : 0x100 ≤ a.toNat ∧ a.toNat < 0x240) :
    (locate a).readOnly = true := by
  rw [locate_eq_dr (i := (a.toNat - 0x100) / 16) (k := (a.toNat - 0x100) % 16) (by omega) (by omega) (by omega)]
  rfl

/-- `CMD` is mapped. -/
theorem not_unmapped_cmdWord : ¬ Unmapped cmdWord.toNat := by
  rintro (⟨-, h, -⟩ | h)
  · exact h rfl
  · simp [cmdWord] at h

/-- A host read puts the word on the port and does nothing else (20_memory.md R74). -/
theorem makeMove_hostRead (a : WordNo) (s : State) :
    makeMove (.hostRead a) s = .next { s with out := .readData a (hostRead a s) :: s.out } := rfl

/-! ### Payload windows (20_memory.md R79) -/

/-- Bit `b` of word `k` of a payload window, the first bit highest. -/
theorem payloadBit_word (m : List Host.Cell) (base k : Nat) {b : Nat} (hb : b < 32) :
    payloadBit m base (32 * k + b) = (readWord m (base + k)).getLsbD (31 - b) := by
  have h1 : (32 * k + b) / 32 = k := by omega
  have h2 : (32 * k + b) % 32 = b := by omega
  rw [payloadBit, h1, h2]

theorem hostRead_txtb {a : WordNo} {k : Nat} (hk : k < Config.tbWords) (ha : a.toNat = 0x400 + k)
    (s : State) : hostRead a s = readWord s.mem (txtbBase + k) := by
  rw [hostRead, locate_eq_txtb hk ha]

theorem hostRead_rxtb {a : WordNo} {i k : Nat} (hi : i < 20) (hk : k < Config.tbWords)
    (ha : a.toNat = 0x8000 + 0x400 * i + k) (s : State) :
    hostRead a s = readWord s.mem (rxtbBase i + k) := by
  rw [hostRead, locate_eq_rxtb hi hk ha]

/-- While the block is not busy a host write in the `TXTB` window is a write of that payload word. -/
theorem hostWrite_txtb {a : WordNo} {k : Nat} (hb : s.status.busy = false) (hk : k < Config.tbWords)
    (ha : a.toNat = 0x400 + k) (v : Word) :
    hostWrite a v s = .next { s with mem := writeWord s.mem (txtbBase + k) v } := by
  have hcmd : a ≠ cmdWord := by
    rintro rfl
    simp [cmdWord] at ha
    omega
  rw [hostWrite_idle hb hcmd, storeWord, locate_eq_txtb hk ha]

/-! ### The DecodeResult file (10_state.md R42, R43) -/

theorem hostRead_dr {a : WordNo} {i k : Nat} (hi : i < 20) (hk : k < 16) (ha : a.toNat = 0x100 + 16 * i + k)
    (s : State) : hostRead a s = drWord (drAt s i) k := by
  rw [hostRead, locate_eq_dr hi hk ha]

theorem toNat_drFlagsWord (e : DrEntry) :
    (drFlagsWord e).toNat =
      e.ctrl.toNat + 2 * e.ok.toNat + 16 * e.ctrlMask.toNat + 256 * e.okMask.toNat := by
  simp only [drFlagsWord, toNat_append_eq_add, toNat_bit, BitVec.ofNat_eq_ofNat, BitVec.toNat_ofNat]
  omega

/-- The fields of an entry as numbers, in the order of the table of fields (10_state.md R43). -/
def drFields (e : DrEntry) : List Nat :=
  [e.ctrl.toNat + 2 * e.ok.toNat + 16 * e.ctrlMask.toNat + 256 * e.okMask.toNat,
    e.prio.toNat, e.resv.toNat, e.interval.toNat, e.riv.toNat, e.tgap.toNat, e.mcs.toNat, e.retx.toNat,
    e.txfmt.toNat, e.start.toNat, e.len.toNat, e.dataStart.toNat, e.dataNprb.toNat, e.scrid.toNat,
    e.rv.toNat, e.shift.toNat]

/-- Word `k` of an entry reads the field of row `k` of the table. -/
theorem toNat_drWord (e : DrEntry) (k : Nat) : (drWord e k).toNat = (drFields e).getD k 0 := by
  unfold drWord
  split
  case h_1 => exact (BitVec.toNat_setWidth_of_le (by decide)).trans (toNat_drFlagsWord e)
  case h_14 => rfl
  case h_17 =>
    simp only [imp_false] at *
    exact (List.getD_eq_default _ _ (show 16 ≤ k by omega)).symm
  all_goals exact BitVec.toNat_setWidth_of_le (by decide)

end Sys2Proof.Machine

namespace Sys2Proof

open Machine

/-- Settles O8: a busy block takes the word of `SCH_CANCEL` only (`hostWrite_busy_of_ne`,
`issueWord_schCancel_busy`). -/
theorem busyIgnoresHostWrites : Obligations.BusyIgnoresHostWrites :=
  fun s a _ h => ⟨hostWrite_busy_of_ne h, issueWord_schCancel_busy h, makeMove_hostRead a s⟩

/-- Settles O14: each of these words lies in the map as a read-only place (`storeWord_of_readOnly`). -/
theorem readOnlyAndUnmappedWords : Obligations.ReadOnlyAndUnmappedWords := by
  intro s a v
  refine ⟨fun hb ha => ?_, ?_, makeMove_hostRead a s⟩
  · have hcmd : a ≠ cmdWord := by
      rintro rfl
      rcases ha with h | h | h | h
      · exact absurd h (by decide)
      · exact absurd h (by decide)
      · exact absurd h (by decide)
      · exact not_unmapped_cmdWord h
    have hro : (locate a).readOnly = true := by
      rcases ha with h | h | h | h
      · exact readOnly_locate_of_mem_roRegisters h
      · exact readOnly_locate_of_dr h
      · exact readOnly_locate_of_rxtb h
      · rw [locate_eq_unmapped h]
        rfl
    rw [hostWrite_idle hb hcmd, storeWord_of_readOnly hro]
  · rintro (h | rfl)
    · rw [hostRead, locate_eq_unmapped h]
    · exact hostRead_reg (r := .cmd) rfl s

/-- Settles O15: the write is a write of one payload word (`hostWrite_txtb`), and the memory rules say what each
byte reads as after it. -/
theorem txtbWindowWrites : Obligations.TxtbWindowWrites := by
  intro s k v hb hwf hk
  have hle := tbWords_le
  have ha : (BitVec.ofNat 16 (0x400 + k)).toNat = 0x400 + k := by
    rw [BitVec.toNat_ofNat, Nat.mod_eq_of_lt (by omega)]
  have hread := readWord_writeWord_same (txtbBase + k) v hwf
  refine ⟨_, hostWrite_txtb hb hk ha v, (hostRead_txtb hk ha _).trans hread, fun b hlt => ?_, fun x hx => ?_⟩
  · rw [payloadBit_word _ _ _ hlt, hread]
  · rw [readByte_writeWord _ _ hwf]
    exact if_neg hx

/-- Settles O16: the reads of the two kinds of receive words (`hostRead_rxtb`, `hostRead_dr`), bit by bit and field
by field. -/
theorem receiveWindowsRead : Obligations.ReceiveWindowsRead := by
  intro s i hi
  refine ⟨fun k b hk hb => ?_, fun k hk => ?_⟩
  · have hle := tbWords_le
    have ha : (BitVec.ofNat 16 (0x8000 + 0x400 * i + k)).toNat = 0x8000 + 0x400 * i + k := by
      rw [BitVec.toNat_ofNat, Nat.mod_eq_of_lt (by omega)]
    rw [hostRead_rxtb hi hk ha, payloadBit_word _ _ _ hb]
  · have ha : (BitVec.ofNat 16 (0x100 + 16 * i + k)).toNat = 0x100 + 16 * i + k := by
      rw [BitVec.toNat_ofNat, Nat.mod_eq_of_lt (by omega)]
    rw [hostRead_dr hi hk ha]
    exact toNat_drWord _ k

end Sys2Proof
end

section
/-! PROOF. 20_memory.md R81, 42_framer_tx.md R174: where a frame that `FR_BUILD` made `READY` lies in the grid. -/

namespace Sys2Proof.Machine

variable {s t : State}

/-- A frame that a framer command left unfinished is not `READY`. -/
theorem FrameUnfinished.frState_ne_ready (h : FrameUnfinished s t) (hs : s.frState ≠ .ready) :
    t.frState ≠ .ready := by
  rcases h with ⟨_, _, _, _, _, _, _, _, _, _, -, rfl⟩ | ⟨_, _, _, _, _, _, _, _, _, _, -, rfl⟩ |
    ⟨_, _, _, _, _, _, _, _, _, _, -, rfl⟩
  · exact hs
  · nofun
  · nofun

/-- The placements of R174 in `t`, on a valid allocation of `s` and with a span that the request allows. -/
structure Placed (s t : State) : Prop where
  len_pos : 1 ≤ opLen s
  fits : opStart s + opLen s ≤ opN s
  ctrlOff : t.frOut.ctrlOff = BitVec.ofNat 8 (opStart s * opW s)
  dataStart : t.frOut.dataStart = BitVec.ofNat 8 (frDataStart s)
  dataNprb : ∃ v, 0 < v ∧ v ≤ frReq s ∧ t.frOut.dataNprb = BitVec.ofNat 8 v

/-- `FR_BUILD`'s rule comes to `READY` through all six steps only, and places the frame by then. -/
theorem finishFramer_ruleFrBuild_placed (hs : s.frState ≠ .ready)
    (h : (finishFramer (ruleFrBuild s)).frState = .ready) : Placed s (finishFramer (ruleFrBuild s)) := by
  have post := ruleFrBuild_post s
  have run := ruleFrBuild_framerRun s
  cases hr : ruleFrBuild s with
  | value u t =>
    rw [hr] at post
    obtain ⟨-, ⟨hlen, hfits⟩, hoff, hstart, hspan⟩ := post
    exact ⟨hlen, hfits, hoff, hstart, hspan⟩
  | raised k i t =>
    rw [hr] at h run
    exact absurd h (run.2.frState_ne_ready hs)
  | hung t =>
    rw [hr] at h run
    exact absurd h (run.frState_ne_ready hs)

/-- `FR_BUILD` makes a frame `READY` only where it runs, and places it then (42_framer_tx.md R168, R174). -/
theorem exec_frBuild_placed (hb : s.status.busy = false) (he : s.frState = .empty)
    (h : exec .frBuild s = .next t) (hr : t.frState = .ready) : Placed s t := by
  have hne : s.frState ≠ .ready := by simp [he]
  rw [exec_idle .frBuild hb] at h
  cases h
  rcases issue_cases .frBuild (commandRule .frBuild) s with ⟨h, -⟩ | ⟨-, -, h⟩ | ⟨-, -, -, h⟩ | ⟨-, -, -, h⟩
  · simp [hb] at h
  · rw [h] at hr
    exact absurd hr hne
  · rw [h] at hr
    exact absurd hr hne
  · rw [h] at hr ⊢
    exact { finishFramer_ruleFrBuild_placed (s := accept s) hne hr with }

/-- The allocation ends inside the grid when the pool fits the cell (10_state.md R35). -/
theorem Placed.allocation_le (h : Placed s t) (hpool : opN s * opW s ≤ opNprb s) :
    opStart s * opW s + opLen s * opW s ≤ opNprb s := by
  calc opStart s * opW s + opLen s * opW s
      = (opStart s + opLen s) * opW s := (Nat.add_mul ..).symm
    _ ≤ opN s * opW s := Nat.mul_le_mul_right _ h.fits
    _ ≤ opNprb s := hpool

/-- In a pool that fits the cell the placements are numbers of blocks below 256, so the registers hold them
whole. -/
theorem Placed.toNat_eq (h : Placed s t) (hpool : opN s * opW s ≤ opNprb s) :
    t.frOut.ctrlOff.toNat = opStart s * opW s ∧ t.frOut.dataStart.toNat = opStart s * opW s + 2 ∧
      0 < t.frOut.dataNprb.toNat ∧ t.frOut.dataNprb.toNat + 2 ≤ opLen s * opW s := by
  have halloc := h.allocation_le hpool
  have hgrid : opNprb s < 256 := s.cell.nprb.isLt
  obtain ⟨v, hpos, hreq, hspan⟩ := h.dataNprb
  rw [frReq, Config.ccw_eq] at hreq
  rw [h.ctrlOff, h.dataStart, hspan, frDataStart, Config.ccw_eq]
  simp only [BitVec.toNat_ofNat]
  omega

end Sys2Proof.Machine

namespace Sys2Proof

open Machine

/-- Settles O41: the placements of R174 (`exec_frBuild_placed`) on an allocation inside the pool, and a pool inside
the grid. -/
theorem placementsLieInTheGrid : Obligations.PlacementsLieInTheGrid := by
  intro s t hb he hpool h hr
  have placed := exec_frBuild_placed hb he h hr
  have halloc := placed.allocation_le hpool
  obtain ⟨hoff, hstart, hpos, hspan⟩ := placed.toNat_eq hpool
  have hlast : (s.frIn.start.toNat + s.frIn.len.toNat) * s.pool.width.toNat =
      opStart s * opW s + opLen s * opW s := Nat.add_mul ..
  refine ⟨hoff, by omega, ?_, hpos, ?_⟩
  · rw [hlast]
    omega
  · rw [hlast]
    exact halloc

end Sys2Proof
end

section
/-! PROOF. 30_encoding.md R100 to R109: the command word and its command, one for one, and what the issue of a word
comes to where the decoder or the state refuses it. A word is worked on as the number it is: the opcode is
`n % 256`, the immediate `n / 256 % 256`. -/

namespace Sys2Proof.Machine

variable {s : State}

/-! ### The command of a word and the word of a command (30_encoding.md R100 to R104) -/

/-- When a word decodes, on the word as a number: nothing above bit 15, a listed opcode, and no immediate but that
of `PARSE_SUBCH`. -/
theorem decode_eq_ok_iff {c : Word} {i : Instr} :
    decode c = .ok i ↔
      c.toNat < 65536 ∧ ofOpcode (c.toNat % 256) (c.toNat / 256 % 256) = some i ∧
        (c.toNat % 256 ≠ 0x32 → c.toNat / 256 % 256 = 0) := by
  obtain ⟨hop, himm, hzero⟩ := toNat_fields c
  have zero_iff : zeroField c = 0 ↔ c.toNat < 65536 := by
    simp only [← BitVec.toNat_inj, hzero, BitVec.ofNat_eq_ofNat, BitVec.toNat_zero]
    omega
  have imm_iff : immField c = 0 ↔ c.toNat / 256 % 256 = 0 := by
    simp only [← BitVec.toNat_inj, himm, BitVec.ofNat_eq_ofNat, BitVec.toNat_zero]
  rw [decode, hop, himm]
  simp only [ne_eq, zero_iff, imm_iff]
  by_cases small : c.toNat < 65536
  · cases ofOpcode (c.toNat % 256) (c.toNat / 256 % 256) with
    | none => simp [small]
    | some j =>
      by_cases imm : c.toNat / 256 % 256 = 0
      · simp [small, imm]
      · by_cases parse : c.toNat % 256 = 0x32 <;> simp [small, imm, parse]
  · simp [small]

/-- The opcode map gives a command back for its opcode and its immediate (30_encoding.md R103). -/
theorem ofOpcode_opcodeOf (i : Instr) : ofOpcode (opcodeOf i) (immOf i) = some i := by
  cases i <;> rfl

/-- Only `PARSE_SUBCH` has an immediate (30_encoding.md R101). -/
theorem immOf_eq_zero {i : Instr} (h : opcodeOf i ≠ 0x32) : immOf i = 0 :=
  (opcode_imm_of_ofOpcode (ofOpcode_opcodeOf i)).2.trans (if_neg h)

/-- A command is well-formed when its immediate fits the 8-bit field. -/
theorem wellFormed_iff {i : Instr} : i.WellFormed ↔ immOf i < 256 := by
  cases i <;> simp [Instr.WellFormed, Instr.wellFormed, immOf]

/-- No command has an opcode in a gap of the opcode map, or past its end (30_encoding.md R103, R104). -/
theorem opcodeOf_not_in_gap (i : Instr) :
    ¬(0x04 ≤ opcodeOf i ∧ opcodeOf i ≤ 0x0F) ∧ ¬(0x17 ≤ opcodeOf i ∧ opcodeOf i ≤ 0x1F) ∧
      ¬(0x25 ≤ opcodeOf i ∧ opcodeOf i ≤ 0x2F) ∧ ¬(0x35 ≤ opcodeOf i ∧ opcodeOf i ≤ 0x3F) ∧
      ¬(0x44 ≤ opcodeOf i ∧ opcodeOf i ≤ 0x7D) ∧ ¬0x80 ≤ opcodeOf i := by
  unfold opcodeOf
  split <;> decide

/-- Every word a well-formed command has decodes to that command. -/
theorem decode_encode {i : Instr} (h : i.WellFormed) : decode (encode i) = .ok i := by
  have himm : immOf i < 256 := wellFormed_iff.mp h
  obtain ⟨-, -, -, -, -, hop⟩ := opcodeOf_not_in_gap i
  have hword : (encode i).toNat = opcodeOf i + 256 * immOf i := by
    rw [encode, BitVec.toNat_ofNat, Nat.mod_eq_of_lt (by omega)]
  have opcode : (encode i).toNat % 256 = opcodeOf i := by omega
  have immediate : (encode i).toNat / 256 % 256 = immOf i := by omega
  rw [decode_eq_ok_iff, opcode, immediate]
  exact ⟨by omega, ofOpcode_opcodeOf i, immOf_eq_zero⟩

/-- What the decoder reads is well-formed: an immediate field has 8 bits. -/
theorem wellFormed_of_decode {c : Word} {i : Instr} (h : decode c = .ok i) : i.WellFormed := by
  obtain ⟨-, hi, -⟩ := decode_eq_ok_iff.mp h
  obtain ⟨-, himm⟩ := opcode_imm_of_ofOpcode hi
  rw [wellFormed_iff, himm]
  split <;> omega

/-! ### Words the decoder or the state refuses (30_encoding.md R104, R105, R109) -/

/-- A host write to `CMD` issues the word. -/
theorem hostWrite_cmdWord (c : Word) (s : State) : hostWrite cmdWord c s = issueWord c s := if_pos rfl

/-- A rejection with IllegalCommand, in the words of the statements. -/
theorem reject_illegalCommand (c : Word) (s : State) : reject .illegalCommand c s = afterError 8 c s :=
  takeError_afterError .illegalCommand c s

/-- A rejection with SequenceError, in the words of the statements. -/
theorem reject_sequenceError (c : Word) (s : State) : reject .sequenceError c s = afterError 9 c s :=
  takeError_afterError .sequenceError c s

/-- A command that fails the decoding check on the state is rejected with IllegalCommand. -/
theorem exec_illegal {i : Instr} (hb : s.status.busy = false) (hi : indexLegal i s = false) :
    exec i s = .next (afterError 8 (encode i) s) := by
  rw [exec_idle i hb, issue_illegal hb hi, reject_illegalCommand]

/-- A command whose state condition fails is rejected with SequenceError. -/
theorem exec_wrongState {i : Instr} (hb : s.status.busy = false) (hi : indexLegal i s = true)
    (ha : ¬acceptable i s = true) : exec i s = .next (afterError 9 (encode i) s) := by
  rw [exec_idle i hb, issue_sequence hb hi (Bool.not_eq_true _ ▸ ha), reject_sequenceError]

/-! ### The table of state conditions, row by row (30_encoding.md R109) -/

theorem indexLegal_parseSubch_iff {idx : Nat} :
    indexLegal (.parseSubch idx) s = true ↔ idx < s.pool.nsubch.toNat := decide_eq_true_iff

theorem acceptable_frBuild_iff :
    acceptable .frBuild s = true ↔ s.status.cellv = true ∧ s.status.poolv = true ∧
      s.status.frfail = false ∧ s.frState = .empty := by
  simp [acceptable, and_assoc]

theorem acceptable_frCtrl_iff :
    acceptable .frCtrl s = true ↔ s.status.cellv = true ∧ s.status.poolv = true ∧
      s.status.frfail = false ∧ s.frState = .empty :=
  acceptable_frBuild_iff

theorem acceptable_frData_iff :
    acceptable .frData s = true ↔ s.status.cellv = true ∧ s.status.poolv = true ∧
      s.status.frfail = false ∧ s.frState = .controlPlaced := by
  simp [acceptable, and_assoc]

theorem acceptable_frMod_iff :
    acceptable .frMod s = true ↔
      s.status.cellv = true ∧ s.status.frfail = false ∧ s.frState = .dataPlaced := by
  simp [acceptable, and_assoc]

theorem acceptable_rxLoop_iff :
    acceptable .rxLoop s = true ↔ s.status.cellv = true ∧ s.status.frfail = false := by
  simp [acceptable]

theorem acceptable_parseAll_iff :
    acceptable .parseAll s = true ↔ s.status.cellv = true ∧ s.status.poolv = true := by
  simp [acceptable]

theorem acceptable_parseSubch_iff {idx : Nat} :
    acceptable (.parseSubch idx) s = true ↔ s.status.cellv = true ∧ s.status.poolv = true :=
  acceptable_parseAll_iff

theorem acceptable_radioOpen_iff : acceptable .radioOpen s = true ↔ s.status.radio = false := by
  simp [acceptable]

theorem acceptable_schStart_iff :
    acceptable .schStart s = true ↔
      s.status.radio = true ∧ s.status.frfail = false ∧ s.frState = .ready := by
  simp [acceptable, and_assoc]

/-! ### One step, move by move (00_scope.md R6, 70_reset_and_hazards.md R310) -/

theorem step_cons {m : Move} {rest : List Move} (h : s.moves = m :: rest) :
    step s = makeMove m { s with moves := rest } := by
  rw [step, h]

theorem step_nil (h : s.moves = []) : step s = makeMove .engine s := by
  rw [step, h]

/-- What the host reads does not depend on the moves to come. -/
theorem hostRead_of_moves (a : WordNo) (s : State) (moves : List Move) :
    hostRead a { s with moves := moves } = hostRead a s := rfl

/-- The input `cancel` at 1 sets the latch (10_state.md R52), also while `rst` is 1. -/
theorem makeMove_cancelIn_true (s : State) :
    makeMove (.cancelIn true) s =
      .next { s with inCancel := true, status := { s.status with cancel := true } } := by
  simp [makeMove]

/-- With `rst` at 0 the input `cancel` at 0 leaves the latch (60_exceptions.md R282). -/
theorem makeMove_cancelIn_false (h : s.inRst = false) :
    makeMove (.cancelIn false) s = .next { s with inCancel := false } := by
  simp [makeMove, h]

/-- While `rst` is 1 the latch follows the input `cancel` (log entry 14). -/
theorem makeMove_cancelIn_false_held (h : s.inRst = true) :
    makeMove (.cancelIn false) s =
      .next { s with inCancel := false, status := { s.status with cancel := false } } := by
  simp [makeMove, h]

/-- The engine ticks only where the loop runs, in a block that is neither held nor waiting for an answer. -/
theorem makeMove_engine_still (h : s.inRst = true ∨ s.schState ≠ .scheduled ∨ s.hung = true) :
    makeMove .engine s = .next s := by
  rcases h with held | notRunning | hung
  · exact congrArg _ (if_pos held)
  · have : engineTurn s = s := if_neg (by simp [notRunning])
    rw [makeMove, this, ite_self]
  · rw [makeMove, engineTurn_hung hung, ite_self]

end Sys2Proof.Machine

namespace Sys2Proof

open Machine

/-- Settles O2 (`decode_encode`). -/
theorem decodeOfEncodedCommand : Obligations.DecodeOfEncodedCommand := fun _ => decode_encode

/-- Settles O3: the command's own word is the only one that decodes to it, and an immediate field has 8 bits. -/
theorem encodeOfDecodedWord : Obligations.EncodeOfDecodedWord := fun _ _ h =>
  ⟨wellFormed_of_decode h, (eq_encode_of_decode h).symm⟩

/-- Settles O5: an illegal word that decodes at all is `PARSE_SUBCH` with an index out of range, which the issue
rejects; every other one the decoder refuses. -/
theorem illegalWordsAreRejected : Obligations.IllegalWordsAreRejected := by
  intro s c hb illegal
  dsimp only at illegal
  rw [hostWrite_cmdWord]
  cases hd : decode c with
  | error e => exact (issueWord_of_error hb hd).trans (congrArg _ (reject_illegalCommand c s))
  | ok i =>
    obtain ⟨small, hi, noImm⟩ := decode_eq_ok_iff.mp hd
    obtain ⟨hop, himm⟩ := opcode_imm_of_ofOpcode hi
    obtain ⟨gap04, gap17, gap25, gap35, gap44, gap80⟩ := hop ▸ opcodeOf_not_in_gap i
    have outOfRange : c.toNat % 256 = 0x32 ∧ s.pool.nsubch.toNat ≤ c.toNat / 256 % 256 := by
      rcases illegal with large | h | h | h | h | h | h | ⟨notParse, imm⟩ | index
      · exact absurd large (not_le.mpr small)
      · exact absurd h gap04
      · exact absurd h gap17
      · exact absurd h gap25
      · exact absurd h gap35
      · exact absurd h gap44
      · exact absurd h gap80
      · exact absurd (noImm notParse) imm
      · exact index
    obtain ⟨hparse, hidx⟩ := outOfRange
    obtain rfl : .parseSubch (c.toNat / 256 % 256) = i := by
      rw [hparse] at hi
      exact Option.some.inj hi
    have hillegal : indexLegal (.parseSubch (c.toNat / 256 % 256)) s = false := by
      rw [← Bool.not_eq_true, indexLegal_parseSubch_iff, not_lt]
      exact hidx
    rw [issueWord_of_decode s hd, exec_illegal hb hillegal, ← eq_encode_of_decode hd]

/-- Settles O6: row by row, a failed condition is a rejection of the issue (`exec_wrongState`). -/
theorem wrongStateIsRejected : Obligations.WrongStateIsRejected := by
  intro s hb
  refine ⟨fun h => ⟨?frBuild, ?frCtrl⟩, fun h => ?frData, fun h => ?frMod, fun h => ?rxDemod, fun h => ?rxLoop,
    fun h => ⟨?parseAll, fun idx hi => ?parseSubch⟩, fun h => ?radioOpen, fun h => ?radioClose,
    fun h => ?schStart⟩
  case frBuild => exact exec_wrongState hb rfl (mt acceptable_frBuild_iff.mp h)
  case frCtrl => exact exec_wrongState hb rfl (mt acceptable_frCtrl_iff.mp h)
  case frData => exact exec_wrongState hb rfl (mt acceptable_frData_iff.mp h)
  case frMod => exact exec_wrongState hb rfl (mt acceptable_frMod_iff.mp h)
  case rxDemod => exact exec_wrongState (i := .rxDemod) hb rfl (Bool.not_eq_true _ ▸ h)
  case rxLoop => exact exec_wrongState hb rfl (mt acceptable_rxLoop_iff.mp h)
  case parseAll => exact exec_wrongState hb rfl (mt acceptable_parseAll_iff.mp h)
  case parseSubch =>
    exact exec_wrongState hb (indexLegal_parseSubch_iff.mpr hi) (mt acceptable_parseSubch_iff.mp h)
  case radioOpen => exact exec_wrongState hb rfl (mt acceptable_radioOpen_iff.mp (by simp [h]))
  case radioClose => exact exec_wrongState (i := .radioClose) hb rfl (Bool.not_eq_true _ ▸ h)
  case schStart => exact exec_wrongState hb rfl (mt acceptable_schStart_iff.mp h)

/-- Settles O1: the seven words are the words of their commands (`decode_encode`); no row has the opcode 4. -/
theorem writtenOutWordsDecode : Obligations.WrittenOutWordsDecode :=
  ⟨decode_encode (i := .nop) rfl, decode_encode (i := .poolCheck) rfl, decode_encode (i := .sciUnpack) rfl,
    decode_encode (i := .frData) rfl, decode_encode (i := .parseSubch 19) rfl,
    decode_encode (i := .schCancel) rfl, decode_encode (i := .softReset) rfl, rfl⟩

/-- Settles O4: `step` takes the next move off the list, and each clause is what `makeMove` makes of that move. -/
theorem stepRunsDecodedCommand : Obligations.StepRunsDecodedCommand := by
  refine ⟨?issue, fun s => step_nil, ?moves, fun s => makeMove_engine_still⟩
  case issue =>
    intro s rest c i hm hr hd
    calc step s = makeMove (.hostWrite cmdWord c) { s with moves := rest } := step_cons hm
      _ = hostWrite cmdWord c { s with moves := rest } := makeMove_hostWrite hr
      _ = issueWord c { s with moves := rest } := hostWrite_cmdWord c _
      _ = exec i { s with moves := rest } := issueWord_of_decode _ hd
  case moves =>
    intro s m rest hm u
    rw [step_cons hm]
    refine ⟨rfl, ?hostWrite, ?hostRead, ?cancelSet, ?cancelReleased, ?rst, ?rx⟩
    case hostWrite =>
      rintro a v rfl
      exact ⟨fun hr => makeMove_hostWrite_held hr, fun hr => makeMove_hostWrite hr⟩
    case hostRead =>
      rintro a rfl
      rw [makeMove_hostRead, hostRead_of_moves]
    case cancelSet =>
      rintro rfl
      exact makeMove_cancelIn_true u
    case cancelReleased =>
      rintro rfl
      exact ⟨fun hr => makeMove_cancelIn_false hr, fun hr => makeMove_cancelIn_false_held hr⟩
    case rst =>
      rintro rfl
      rfl
    case rx =>
      rintro x rfl
      rfl

end Sys2Proof
end

section
/-! PROOF. 40_pool.md R120 to R123: the Resource Pool Model commands. A rule that starts from the accepted state ends
in the accepted form of the state it would leave without acceptance, and a completion overwrites the two bits of
`STATUS` that acceptance wrote; so each branch of a rule has one lemma, and a statement is read off it. -/

namespace Sys2Proof.Machine

variable {s : State}

/-! ### From the word to the completion -/

/-- The word of a well-formed command, written to `CMD`, is that command's execution (30_encoding.md R105). -/
theorem hostWrite_encode {i : Instr} (hi : i.WellFormed) (s : State) :
    hostWrite cmdWord (encode i) s = exec i s := by
  rw [hostWrite_cmdWord, issueWord_of_decode s (decode_encode hi)]

/-- A completion without error leaves no trace of the acceptance (60_exceptions.md R276). -/
theorem finish_done_accept (s : State) : finish (done (accept s)) = afterOk s := rfl

/-- A completion with an error leaves no trace of the acceptance (60_exceptions.md R276). -/
theorem finish_raised_accept (k : ErrKind) (info : Word) (s : State) :
    finish (.raised k info (accept s)) = afterError k.code info s :=
  takeError_afterError k info (accept s)

/-- The count of resource blocks as a number and as a register value. -/
theorem opNprb_eq_iff {n : Nat} (hn : n < 256) : opNprb s = n ↔ s.cell.nprb = BitVec.ofNat 8 n := by
  rw [opNprb, ← BitVec.toNat_inj, BitVec.toNat_ofNat, Nat.mod_eq_of_lt hn]

/-! ### `CELL_SET` (40_pool.md R120) -/

theorem ruleCellSet_of_nprb_eq_zero (h : opNprb s = 0) :
    ruleCellSet s = .raised .invalidConfiguration 1 s := if_pos h

/-- What `CELL_SET` commits when there are resource blocks. -/
theorem ruleCellSet_accept_of_nprb_ne_zero (h : opNprb s ≠ 0) :
    ruleCellSet (accept s) = done (accept
      { s with
        backendCell := some s.cell
        txgrid := zeroGrid s
        rxgrid := zeroGrid s
        txsamp := Samples.empty
        frState := .empty
        status := { s.status with frfail := false, cellv := true }
        frOut := {}
        dr := Vector.replicate Config.maxSubch {}
        mem := clearRxtb s.mem
        out := .call (.setCell s.cell) :: s.out }) := if_neg h

/-- The `RXTB` windows by their byte addresses (20_memory.md R75, 43_parser_rx.md R193). -/
theorem readByte_clearRxtb (m : List Host.Cell) (a : Nat) :
    readByte (clearRxtb m) a = if 0x20000 ≤ a ∧ a < 0x34000 then 0 else readByte m a :=
  readByte_clearBytes m 0x20000 0x34000 a

/-! ### `POOL_DEFAULT` (40_pool.md R121, R123) -/

theorem defaultPool_fifty : defaultPool 50 = some ⟨10, 5, 0, 1⟩ := rfl

theorem defaultPool_hundred : defaultPool 100 = some ⟨20, 5, 0, 1⟩ := rfl

/-- The default pool table has no other row. -/
theorem defaultPool_eq_none {n : Nat} (h50 : n ≠ 50) (h100 : n ≠ 100) : defaultPool n = none := by
  have unsupported : n ∉ Config.supportedNprb := by simp [Config.supportedNprb_eq, h50, h100]
  exact if_neg unsupported

theorem rulePoolDefault_accept_of_none (h : defaultPool (opNprb s) = none) :
    rulePoolDefault (accept s) =
      .raised .invalidConfiguration 2 (accept { s with status := { s.status with poolv := false } }) := by
  rw [rulePoolDefault, show defaultPool (opNprb (accept s)) = none from h]
  rfl

theorem rulePoolDefault_accept_of_some {row : PoolRow} (h : defaultPool (opNprb s) = some row) :
    rulePoolDefault (accept s) = done (accept
      { s with
        pool :=
          { nsubch := BitVec.ofNat 5 row.count
            width := BitVec.ofNat 8 row.width
            startPrb := BitVec.ofNat 8 row.start
            adj := BitVec.ofNat 1 row.adjacency }
        status := { s.status with poolv := true } }) := by
  rw [rulePoolDefault, show defaultPool (opNprb (accept s)) = some row from h]
  rfl

/-! ### `POOL_CHECK` (40_pool.md R122) -/

theorem rulePoolCheck_accept_of_poolFits (h : PoolFits s.pool (opNprb s)) :
    rulePoolCheck (accept s) = done (accept { s with status := { s.status with poolv := true } }) :=
  if_pos ((poolInvariant_iff _ _ _).mpr h)

theorem rulePoolCheck_accept_of_not_poolFits (h : ¬ PoolFits s.pool (opNprb s)) :
    rulePoolCheck (accept s) =
      .raised .invalidConfiguration 3 (accept { s with status := { s.status with poolv := false } }) :=
  if_neg (mt (poolInvariant_iff _ _ _).mp h)

/-- The four ways to break the pool invariant. -/
theorem not_poolFits_iff (p : Pool) (nprb : Nat) :
    ¬ PoolFits p nprb ↔
      p.nsubch.toNat = 0 ∨ 20 < p.nsubch.toNat ∨ p.width.toNat = 0 ∨
        nprb < p.nsubch.toNat * p.width.toNat := by
  rw [PoolFits, Config.maxSubch_eq]
  omega

end Sys2Proof.Machine

namespace Sys2Proof

open Machine

/-- Settles O18: the two branches of the rule, and the cleared windows read by address (`readByte_clearRxtb`). -/
theorem cellSet : Obligations.CellSet := by
  intro s hb
  refine ⟨hostWrite_encode (i := .cellSet) rfl s, fun h => ?noBlocks,
    fun h => ⟨clearRxtb s.mem, ?committed, ?bytes⟩⟩
  case noBlocks =>
    have noBlocks : opNprb (accept s) = 0 := (opNprb_eq_iff (by decide)).mpr h
    rw [exec_cellSet hb, ruleCellSet_of_nprb_eq_zero noBlocks, finish_raised_accept]
    rfl
  case committed =>
    have blocks : opNprb s ≠ 0 := mt (opNprb_eq_iff (by decide)).mp h
    rw [exec_cellSet hb, ruleCellSet_accept_of_nprb_ne_zero blocks, finish_done_accept]
    rfl
  case bytes => exact readByte_clearRxtb s.mem

/-- Settles O19: the table has a row for each of the two supported counts and for no other. -/
theorem poolDefault : Obligations.PoolDefault := by
  intro s hb
  refine ⟨hostWrite_encode (i := .poolDefault) rfl s, fun h => ?fifty, fun h => ?hundred,
    fun ⟨h50, h100⟩ => ?other⟩
  case fifty =>
    have row : defaultPool (opNprb s) = some ⟨10, 5, 0, 1⟩ := by
      rw [(opNprb_eq_iff (by decide)).mpr h, defaultPool_fifty]
    rw [exec_poolDefault hb, rulePoolDefault_accept_of_some row, finish_done_accept]
    rfl
  case hundred =>
    have row : defaultPool (opNprb s) = some ⟨20, 5, 0, 1⟩ := by
      rw [(opNprb_eq_iff (by decide)).mpr h, defaultPool_hundred]
    rw [exec_poolDefault hb, rulePoolDefault_accept_of_some row, finish_done_accept]
    rfl
  case other =>
    have noRow : defaultPool (opNprb s) = none :=
      defaultPool_eq_none (mt (opNprb_eq_iff (by decide)).mp h50) (mt (opNprb_eq_iff (by decide)).mp h100)
    rw [exec_poolDefault hb, rulePoolDefault_accept_of_none noRow, finish_raised_accept]
    rfl

/-- Settles O20: the rule tests the pool invariant, which a bad pool breaks (`not_poolFits_iff`). -/
theorem poolCheck : Obligations.PoolCheck := by
  intro s hb
  have breaks_iff := not_poolFits_iff s.pool (opNprb s)
  refine ⟨hostWrite_encode (i := .poolCheck) rfl s, fun bad => ?bad, fun good => ?good⟩
  case bad =>
    rw [exec_poolCheck hb, rulePoolCheck_accept_of_not_poolFits (breaks_iff.mpr bad), finish_raised_accept]
    rfl
  case good =>
    have fits : PoolFits s.pool (opNprb s) := not_not.mp (mt breaks_iff.mp good)
    rw [exec_poolCheck hb, rulePoolCheck_accept_of_poolFits fits, finish_done_accept]

end Sys2Proof
end

section
/-! PROOF. 41_sci_codec.md R134 to R137: the RIV as arithmetic, for every count of sub-channels. A number is a row and
a place in it, `r = n a + b`; `riv_decode` is read off the row and the place, and the numbers below `n(n+1)/2` are the
rows up to the middle. The bijection and the laws of `riv_decode` follow from four facts about the pair of functions. -/

namespace Sys2Proof.Machine

variable {n s l r : Nat}

/-! ### The width of the RIV field (41_sci_codec.md R134) -/

/-- The search ends at a width that is wide enough, when its fuel reaches one. -/
theorem le_two_pow_leastWidth {t fuel w : Nat} (h : t ≤ 2 ^ (w + fuel)) : t ≤ 2 ^ leastWidth t fuel w := by
  induction fuel generalizing w with
  | zero => exact h
  | succ fuel ih =>
    rw [leastWidth]
    split
    · assumption
    · exact ih (by rwa [Nat.add_right_comm])

/-- The search passes no width that is wide enough. -/
theorem leastWidth_le {t fuel w v : Nat} (hv : w ≤ v) (h : t ≤ 2 ^ v) : leastWidth t fuel w ≤ v := by
  induction fuel generalizing w with
  | zero => exact hv
  | succ fuel ih =>
    rw [leastWidth]
    split
    · exact hv
    · next narrow =>
      have hne : w ≠ v := fun e => narrow (e ▸ h)
      exact ih (by omega)

theorem wRiv_isLeast (n : Nat) : IsLeast {w | rivCount n ≤ 2 ^ w} (wRiv n) := by
  refine ⟨le_two_pow_leastWidth ?_, fun v hv => leastWidth_le v.zero_le hv⟩
  rw [Nat.zero_add]
  exact Nat.lt_two_pow_self.le

/-! ### A number as a row and a place -/

theorem exists_row_place (hn : 1 ≤ n) (r : Nat) : ∃ a b, b < n ∧ n * a + b = r :=
  ⟨r / n, r % n, Nat.mod_lt r hn, Nat.div_add_mod r n⟩

/-- `riv_decode` of place `b` in row `a` (41_sci_codec.md R137). -/
theorem rivDecode_mul_add {a b : Nat} (hb : b < n) :
    rivDecode (n * a + b) n =
      if a + 1 + b ≤ n then some (b, a + 1) else if a ≤ n then some (n - 1 - b, n - a + 1) else none := by
  have row : (n * a + b) / n = a := by
    rw [Nat.mul_add_div (by omega), Nat.div_eq_of_lt hb, Nat.add_zero]
  have place : (n * a + b) % n = b := by rw [Nat.mul_add_mod, Nat.mod_eq_of_lt hb]
  simp only [rivDecode, row, place]

/-- The numbers below `n(n+1)/2`: the rows before the middle, and of a row in the middle the first half. -/
theorem mul_add_lt_rivCount_iff {a b : Nat} (hb : b < n) :
    n * a + b < rivCount n ↔ 2 * a < n ∨ 2 * a = n ∧ 2 * b < n := by
  have doubled : n * a + b < rivCount n ↔ n * (2 * a) + 2 * b < n * (n + 1) := by
    obtain ⟨c, hc⟩ := Nat.even_mul_succ_self n
    rw [rivCount, Nat.mul_left_comm, hc]
    omega
  rw [doubled]
  rcases lt_trichotomy (2 * a) n with before | middle | after
  · have : n * (2 * a + 1) ≤ n * n := Nat.mul_le_mul_left n before
    exact iff_of_true (by nlinarith) (.inl before)
  · rw [middle, Nat.mul_succ]
    omega
  · have : n * (n + 1) ≤ n * (2 * a) := Nat.mul_le_mul_left n after
    exact iff_of_false (by omega) (by omega)

/-! ### Encoding and decoding (41_sci_codec.md R135, R137) -/

theorem rivDecode_rivEncode (hl : 1 ≤ l) (hs : s + l ≤ n) : rivDecode (rivEncode n s l) n = some (s, l) := by
  rw [rivEncode]
  split
  case isTrue low =>
    rw [rivDecode_mul_add (by omega), if_pos (by omega), Nat.sub_add_cancel hl]
  case isFalse high =>
    rw [rivDecode_mul_add (by omega), if_neg (by omega), if_pos (by omega)]
    congr 2 <;> omega

/-- Every decoded pair is a valid pair. -/
theorem valid_of_rivDecode (hn : 1 ≤ n) (h : rivDecode r n = some (s, l)) : 1 ≤ l ∧ s + l ≤ n := by
  obtain ⟨a, b, place, rfl⟩ := exists_row_place hn r
  rw [rivDecode_mul_add place] at h
  split_ifs at h
  all_goals
    cases h
    omega

theorem rivDecode_eq_none_iff (hn : 1 ≤ n) : rivDecode r n = none ↔ n * (n + 1) ≤ r := by
  obtain ⟨a, b, place, rfl⟩ := exists_row_place hn r
  rw [rivDecode_mul_add place]
  rcases Nat.lt_or_ge n a with past | within
  · have : n * (n + 1) ≤ n * a := Nat.mul_le_mul_left n past
    rw [if_neg (by omega), if_neg (by omega)]
    exact iff_of_true rfl (by omega)
  · have : n * a ≤ n * n := Nat.mul_le_mul_left n within
    have below : ¬ n * (n + 1) ≤ n * a + b := by rw [Nat.mul_succ]; omega
    rw [if_pos within]
    exact iff_of_false (by split <;> nofun) below

theorem rivEncode_lt_rivCount (hl : 1 ≤ l) (hs : s + l ≤ n) : rivEncode n s l < rivCount n := by
  rw [rivEncode]
  split
  all_goals
    rw [mul_add_lt_rivCount_iff (by omega)]
    omega

/-- Below `n(n+1)/2` encoding inverts decoding. -/
theorem rivEncode_of_rivDecode (hn : 1 ≤ n) (hr : r < rivCount n) (h : rivDecode r n = some (s, l)) :
    rivEncode n s l = r := by
  obtain ⟨a, b, place, rfl⟩ := exists_row_place hn r
  rw [mul_add_lt_rivCount_iff place] at hr
  rw [rivDecode_mul_add place] at h
  rw [rivEncode]
  split at h
  case isTrue first =>
    cases h
    rw [if_pos (by omega), Nat.add_sub_cancel]
  case isFalse mirrored =>
    rw [if_pos (by omega)] at h
    cases h
    rw [if_neg (by omega)]
    congr 2 <;> omega

theorem exists_rivDecode_of_lt (hn : 1 ≤ n) (hr : r < n * (n + 1)) : ∃ s l, rivDecode r n = some (s, l) := by
  cases h : rivDecode r n with
  | none => exact absurd ((rivDecode_eq_none_iff hn).mp h) (by omega)
  | some p => exact ⟨p.1, p.2, rfl⟩

end Sys2Proof.Machine

namespace Sys2Proof

open Machine

/-- Settles O24: the search finds the least width (`wRiv_isLeast`); the table is the search run twenty times. -/
theorem rivWidthIsLeast : Obligations.RivWidthIsLeast :=
  ⟨fun n => ⟨(wRiv_isLeast n).1, fun _ hw => (wRiv_isLeast n).2 hw⟩, by decide⟩

/-- Settles O25: below the bound, decoding names the one pair. -/
theorem rivEncodeBijection : Obligations.RivEncodeBijection := by
  refine fun n hn => ⟨fun s l => rivEncode_lt_rivCount, fun r hr => ?_⟩
  obtain ⟨s, l, decoded⟩ := exists_rivDecode_of_lt (r := r) hn (by omega)
  obtain ⟨hl, hs⟩ := valid_of_rivDecode hn decoded
  refine ⟨s, l, ⟨hl, hs, rivEncode_of_rivDecode hn hr decoded⟩, fun s' l' hl' hs' encoded => ?unique⟩
  have same : some (s', l') = some (s, l) := by rw [← rivDecode_rivEncode hl' hs', encoded, decoded]
  exact Prod.ext_iff.mp (Option.some.inj same)

/-- Settles O27: a value from `n(n+1)/2` on decodes to a valid pair, whose own encoding is the smaller value. -/
theorem rivDecodeLaws : Obligations.RivDecodeLaws := by
  refine fun n hn => ⟨fun s l => rivDecode_rivEncode, fun r s l => valid_of_rivDecode hn,
    fun r => rivDecode_eq_none_iff hn, fun r hr hlt => ?_⟩
  obtain ⟨s, l, decoded⟩ := exists_rivDecode_of_lt hn hlt
  obtain ⟨hl, hs⟩ := valid_of_rivDecode hn decoded
  refine ⟨rivEncode n s l, (rivEncode_lt_rivCount hl hs).trans_le hr, ?_⟩
  rw [rivDecode_rivEncode hl hs, decoded]

end Sys2Proof
end

section
/-! PROOF. 41_sci_codec.md R130 to R133, R136, R138: the codec commands on operand registers. Each branch of a rule has
one lemma on any state; a statement runs the rule on the accepted state, and the completion overwrites what acceptance
wrote. -/

namespace Sys2Proof.Machine

variable {s : State}

/-! ### Reservation intervals and their codes (41_sci_codec.md R130, R132) -/

theorem resvToCode_hundreds {k : Nat} (h1 : 1 ≤ k) (h10 : k ≤ 10) : resvToCode (100 * k) = some k := by
  rw [resvToCode, if_neg (by omega), if_neg (by omega), if_pos (by omega), Nat.mul_div_cancel_left k (by decide)]

theorem resvToCode_eq_none {v : Nat} (h20 : v ≠ 20) (h50 : v ≠ 50) (h : ∀ k, 1 ≤ k → k ≤ 10 → v ≠ 100 * k) :
    resvToCode v = none := by
  have notHundreds : ¬ (v % 100 = 0 ∧ 100 ≤ v ∧ v ≤ 1000) := fun hv =>
    h (v / 100) (by omega) (by omega) (by omega)
  rw [resvToCode, if_neg h20, if_neg h50, if_neg notHundreds]

/-- The code of an accepted interval is one of 1 to 12 and gives the interval back (41_sci_codec.md R132). -/
theorem codeToResv_of_resvToCode {v c : Nat} (h : resvToCode v = some c) :
    1 ≤ c ∧ c ≤ 12 ∧ codeToResv c = v := by
  rw [resvToCode] at h
  split_ifs at h with h20 h50 hundreds
  · cases h
    exact ⟨by decide, by decide, h20.symm⟩
  · cases h
    exact ⟨by decide, by decide, h50.symm⟩
  · cases h
    rw [codeToResv, if_neg (by omega), if_neg (by omega)]
    omega

theorem ofNat_codeToResv (w c : Nat) :
    BitVec.ofNat w (codeToResv c) =
      if c = 12 then BitVec.ofNat w 20 else if c = 11 then BitVec.ofNat w 50 else BitVec.ofNat w (c * 100) := by
  rw [codeToResv, apply_ite (BitVec.ofNat w), apply_ite (BitVec.ofNat w)]

theorem ruleResv2code_of_some {c : Nat} (h : resvToCode s.opr.opa.toNat = some c) :
    ruleResv2code s = done { s with opr.res0 := BitVec.ofNat 32 c } := by
  rw [ruleResv2code, h]

theorem ruleResv2code_of_none (h : resvToCode s.opr.opa.toNat = none) :
    ruleResv2code s = .raised .invalidInterval s.opr.opa s := by
  rw [ruleResv2code, h]

/-- `RESV2CODE` of an accepted interval (41_sci_codec.md R131). -/
theorem exec_resv2code_of_some {c : Nat} (hb : s.status.busy = false) (h : resvToCode s.opr.opa.toNat = some c) :
    exec .resv2code s = .next (afterOk { s with opr := { s.opr with res0 := BitVec.ofNat 32 c } }) := by
  rw [exec_resv2code hb, ruleResv2code_of_some (s := accept s) h]
  rfl

/-- `RESV2CODE` of any other value (41_sci_codec.md R131). -/
theorem exec_resv2code_of_none (hb : s.status.busy = false) (h : resvToCode s.opr.opa.toNat = none) :
    exec .resv2code s = .next (afterError 2 s.opr.opa s) := by
  rw [exec_resv2code hb, ruleResv2code_of_none (s := accept s) h, finish_raised_accept]
  rfl

/-- `CODE2RESV` (41_sci_codec.md R133). -/
theorem exec_code2resv_eq (hb : s.status.busy = false) :
    exec .code2resv s = .next (afterOk
      { s with opr := { s.opr with res0 := BitVec.ofNat 32 (codeToResv s.opr.opa.toNat) } }) :=
  exec_code2resv hb

/-! ### The RIV commands (41_sci_codec.md R136, R138) -/

/-- The counts that the codec commands refuse. -/
theorem countRefused_iff (n : Nat) : (!countInRange n) = true ↔ n = 0 ∨ 20 < n := by
  rw [Bool.not_eq_true', ← Bool.not_eq_true, countInRange_iff]
  omega

theorem not_countRefused {n : Nat} (h1 : 1 ≤ n) (h20 : n ≤ 20) : ¬ (!countInRange n) = true := by
  rw [countRefused_iff]
  omega

theorem ruleRivEnc_of_count_refused (h : s.opr.opa.toNat = 0 ∨ 20 < s.opr.opa.toNat) :
    ruleRivEnc s = .raised .invalidConfiguration 4 s :=
  if_pos ((countRefused_iff _).mpr h)

theorem ruleRivEnc_of_pair_refused (h1 : 1 ≤ s.opr.opa.toNat) (h20 : s.opr.opa.toNat ≤ 20)
    (h : s.opr.opc.toNat = 0 ∨ s.opr.opa.toNat < s.opr.opb.toNat + s.opr.opc.toNat) :
    ruleRivEnc s = .raised .malformedControlInfo 4 s :=
  (if_neg (not_countRefused h1 h20)).trans (if_pos h)

theorem ruleRivEnc_of_pair (h20 : s.opr.opa.toNat ≤ 20) (hl : 1 ≤ s.opr.opc.toNat)
    (hs : s.opr.opb.toNat + s.opr.opc.toNat ≤ s.opr.opa.toNat) :
    ruleRivEnc s = done
      { s with opr.res0 := BitVec.ofNat 32 (rivEncode s.opr.opa.toNat s.opr.opb.toNat s.opr.opc.toNat) } :=
  (if_neg (not_countRefused (by omega) h20)).trans (if_neg (by omega))

theorem ruleRivDec_of_count_refused (h : s.opr.opb.toNat = 0 ∨ 20 < s.opr.opb.toNat) :
    ruleRivDec s = .raised .invalidConfiguration 4 s :=
  if_pos ((countRefused_iff _).mpr h)

theorem ruleRivDec_of_none (h1 : 1 ≤ s.opr.opb.toNat) (h20 : s.opr.opb.toNat ≤ 20)
    (h : rivDecode s.opr.opa.toNat s.opr.opb.toNat = none) :
    ruleRivDec s = .raised .malformedControlInfo 5 s := by
  simp only [ruleRivDec, if_neg (not_countRefused h1 h20), h]

theorem ruleRivDec_of_some {st l : Nat} (h1 : 1 ≤ s.opr.opb.toNat) (h20 : s.opr.opb.toNat ≤ 20)
    (h : rivDecode s.opr.opa.toNat s.opr.opb.toNat = some (st, l)) :
    ruleRivDec s = done { s with opr.res0 := BitVec.ofNat 32 st, opr.res1 := BitVec.ofNat 32 l } := by
  simp only [ruleRivDec, if_neg (not_countRefused h1 h20), h]

/-- `RIV_DEC` of a value that decodes (41_sci_codec.md R138). -/
theorem exec_rivDec_of_some {st l : Nat} (hb : s.status.busy = false) (h1 : 1 ≤ s.opr.opb.toNat)
    (h20 : s.opr.opb.toNat ≤ 20) (h : rivDecode s.opr.opa.toNat s.opr.opb.toNat = some (st, l)) :
    exec .rivDec s = .next (afterOk
      { s with opr := { s.opr with res0 := BitVec.ofNat 32 st, res1 := BitVec.ofNat 32 l } }) := by
  rw [exec_rivDec hb, ruleRivDec_of_some (s := accept s) h1 h20 h]
  rfl

/-- The first branch of `riv_decode` (41_sci_codec.md R137). -/
theorem rivDecode_of_place_in_row {r n : Nat} (h : r / n + 1 + r % n ≤ n) :
    rivDecode r n = some (r % n, r / n + 1) := if_pos h

/-- The second branch of `riv_decode` (41_sci_codec.md R137). -/
theorem rivDecode_of_mirrored {r n : Nat} (hr : r < n * (n + 1)) (h : n < r / n + 1 + r % n) :
    rivDecode r n = some (n - 1 - r % n, n - r / n + 1) := by
  have row : r / n ≤ n := Nat.le_of_lt_succ (Nat.div_lt_of_lt_mul hr)
  exact (if_neg (by omega)).trans (if_pos row)

end Sys2Proof.Machine

namespace Sys2Proof

open Machine

/-- Settles O21: the rows of the table and, by division, every value outside it. -/
theorem reservationToCode : Obligations.ReservationToCode := by
  intro s hb
  refine ⟨hostWrite_encode (i := .resv2code) rfl s, fun h => ?twenty, fun h => ?fifty,
    fun k h1 h10 h => ?hundreds, fun ⟨h20, h50, hk⟩ => ?other⟩
  case twenty => exact exec_resv2code_of_some hb (by rw [h]; rfl)
  case fifty => exact exec_resv2code_of_some hb (by rw [h]; rfl)
  case hundreds => exact exec_resv2code_of_some hb (by rw [h, resvToCode_hundreds h1 h10])
  case other => exact exec_resv2code_of_none hb (resvToCode_eq_none h20 h50 hk)

/-- Settles O22: the interval of the code, its low 32 bits. -/
theorem codeToReservation : Obligations.CodeToReservation := by
  refine fun s hb => ⟨hostWrite_encode (i := .code2resv) rfl s, ?_⟩
  rw [exec_code2resv_eq hb, ofNat_codeToResv]
  rfl

/-- Settles O23: an end without error means that the interval has a code; the code, below 13, survives the register. -/
theorem reservationRoundTrip : Obligations.ReservationRoundTrip := by
  intro s t hb ht noError
  cases coded : resvToCode s.opr.opa.toNat with
  | none =>
    rw [exec_resv2code_of_none hb coded] at ht
    cases ht
    exact absurd noError (by simp [afterError])
  | some c =>
    rw [exec_resv2code_of_some hb coded] at ht
    cases ht
    obtain ⟨h1, h12, back⟩ := codeToResv_of_resvToCode coded
    have stored : (BitVec.ofNat 32 c).toNat = c := by rw [BitVec.toNat_ofNat, Nat.mod_eq_of_lt (by omega)]
    refine ⟨?_, ?_, _, exec_code2resv_eq rfl, ?_⟩
    · exact stored.symm ▸ h1
    · exact stored.symm ▸ h12
    · calc BitVec.ofNat 32 (codeToResv (BitVec.ofNat 32 c).toNat)
        _ = BitVec.ofNat 32 s.opr.opa.toNat := by rw [stored, back]
        _ = s.opr.opa := BitVec.ofNat_toNat 32 s.opr.opa

/-- Settles O26: the rule's three branches. -/
theorem rivEncodeCommand : Obligations.RivEncodeCommand := by
  intro s hb
  refine ⟨hostWrite_encode (i := .rivEnc) rfl s, fun h => ?count, fun h1 h20 h => ?pair,
    fun h1 h20 hl hs => ?encoded⟩
  case count =>
    rw [exec_rivEnc hb, ruleRivEnc_of_count_refused (s := accept s) h, finish_raised_accept]
    rfl
  case pair =>
    rw [exec_rivEnc hb, ruleRivEnc_of_pair_refused (s := accept s) h1 h20 h, finish_raised_accept]
    rfl
  case encoded =>
    intro r
    rw [exec_rivEnc hb, ruleRivEnc_of_pair (s := accept s) h20 hl hs]
    rfl

/-- Settles O28: `riv_decode` fails from `n(n+1)` on (`rivDecode_eq_none_iff`) and has two branches below. -/
theorem rivDecodeCommand : Obligations.RivDecodeCommand := by
  intro s hb
  refine ⟨hostWrite_encode (i := .rivDec) rfl s, fun h => ?count, fun h1 h20 h => ?past,
    fun h1 h20 hr => ⟨fun h => ?inRow, fun h => ?mirrored⟩⟩
  case count =>
    rw [exec_rivDec hb, ruleRivDec_of_count_refused (s := accept s) h, finish_raised_accept]
    rfl
  case past =>
    have undecoded := (rivDecode_eq_none_iff h1).mpr h
    rw [exec_rivDec hb, ruleRivDec_of_none (s := accept s) h1 h20 undecoded, finish_raised_accept]
    rfl
  case inRow => exact exec_rivDec_of_some hb h1 h20 (rivDecode_of_place_in_row h)
  case mirrored => exact exec_rivDec_of_some hb h1 h20 (rivDecode_of_mirrored hr h)

end Sys2Proof
end

section
/-! PROOF. 41_sci_codec.md R139 to R147: the control word and the scrambling identifier. A packed word is a
concatenation of fields, and a field is read back by dropping those before it; the register forms are the numbers of
`pack_val`, `unpack_bitsOf` and `strOf_eq`. -/

namespace Sys2Proof.Machine

variable {s : State}

/-! ### Reading a field of a concatenation (41_sci_codec.md R142) -/

theorem fieldAt_append_of_eq_zero {k v p : Nat} (b : Bits) (hp : p = 0) :
    fieldAt (bitsOf k v ++ b) p k = v % 2 ^ k := by
  subst hp
  rw [fieldAt, substr, List.drop_zero, Nat.zero_add, Nat.sub_zero, List.take_left' (length_bitsOf k v),
    val_bitsOf]

theorem fieldAt_append_of_le {k v p : Nat} (b : Bits) (w : Nat) (hp : k ≤ p) :
    fieldAt (bitsOf k v ++ b) p w = fieldAt b (p - k) w := by
  have skipped : (bitsOf k v ++ b).drop p = b.drop (p - k) := by
    rw [List.drop_append, List.drop_of_length_le (by rwa [length_bitsOf]), List.nil_append, length_bitsOf]
  rw [fieldAt, fieldAt, substr, substr, skipped, Nat.add_sub_cancel_left, Nat.add_sub_cancel_left]

theorem ofNat_toNat_mod {w : Nat} (x : BitVec w) : BitVec.ofNat w (x.toNat % 2 ^ w) = x := by
  rw [ofNat_mod_two_pow, BitVec.ofNat_toNat, BitVec.setWidth_eq]

/-! ### Packing and unpacking (41_sci_codec.md R139 to R144) -/

theorem length_packBody (c : Sci) (n : Nat) : (packBody c n).length = sciLength c.fmt n := by
  rw [packBody, sciLength]
  split <;> simp only [List.length_append, length_bitsOf, List.length_nil]

theorem pack_of_fits {c : Sci} {n : Nat} (h : c.riv.toNat < 2 ^ wRiv n) :
    pack c n = some (packBody c n ++ zeros (Config.sciLen - (packBody c n).length)) :=
  if_neg (Nat.not_le.mpr h)

theorem pack_of_too_wide {c : Sci} {n : Nat} (h : 2 ^ wRiv n ≤ c.riv.toNat) : pack c n = none := if_pos h

/-- The fields of a control word, first field first (41_sci_codec.md R139). -/
theorem packBody_append (c : Sci) (n : Nat) (rest : Bits) :
    packBody c n ++ rest =
      bitsOf 3 c.prio.toNat ++ (bitsOf 4 c.resv.toNat ++ (bitsOf (wRiv n) c.riv.toNat ++
        (bitsOf 4 c.tgap.toNat ++ (bitsOf 5 c.mcs.toNat ++ (bitsOf 1 c.retx.toNat ++
          ((if c.fmt = 1 then bitsOf 1 c.txfmt.toNat else []) ++ rest)))))) := by
  simp only [packBody, List.append_assoc]
  rfl

/-- Whatever follows the fields, `unpack` reads them back (41_sci_codec.md R142, R144). -/
theorem unpack_packBody_append {c : Sci} {n : Nat} (rest : Bits) (riv : c.riv.toNat < 2 ^ wRiv n)
    (wf : c.fmt = 0 → c.txfmt = 0) : unpack (packBody c n ++ rest) c.fmt n = some c := by
  have long : ¬ (packBody c n ++ rest).length < sciLength c.fmt n := by
    rw [List.length_append, length_packBody]
    omega
  have txfmt : (if c.fmt = 1 then BitVec.ofNat 1 (fieldAt (packBody c n ++ rest) (17 + wRiv n) 1) else 0)
      = c.txfmt := by
    split
    case isTrue formatB =>
      rw [packBody_append, if_pos formatB]
      simp (disch := omega) only [fieldAt_append_of_le, fieldAt_append_of_eq_zero, ofNat_toNat_mod]
    case isFalse formatA => exact (wf ((BitVec.eq_zero_or_eq_one c.fmt).resolve_right formatA)).symm
  rw [unpack_places, if_neg long, txfmt, packBody_append]
  simp (disch := omega) only [fieldAt_append_of_le, fieldAt_append_of_eq_zero, ofNat_toNat_mod,
    Nat.mod_eq_of_lt riv]
  simp only [BitVec.ofNat_toNat, BitVec.setWidth_eq]

/-- A string that fills the pair is stored as its value (00_scope.md R13). -/
theorem pairOf_of_length {b : Bits} (h : b.length = 32) :
    pairOf b = { bits := BitVec.ofNat 32 (val b), nbits := 32 } := by
  have unpadded : b ++ zeros (Config.bitstrMax - b.length) = b := by rw [h]; exact List.append_nil b
  rw [pairOf, unpadded, h]
  rfl

theorem ruleSciPack_of_count_refused (h : opN s = 0 ∨ 20 < opN s) :
    ruleSciPack s = .raised .invalidConfiguration 4 s :=
  if_pos ((countRefused_iff _).mpr h)

theorem ruleSciPack_of_none (h1 : 1 ≤ opN s) (h20 : opN s ≤ 20) (h : pack s.sci (opN s) = none) :
    ruleSciPack s = .raised .malformedControlInfo 1 s := by
  rw [ruleSciPack, if_neg (not_countRefused h1 h20), h]

theorem ruleSciPack_of_some {b : Bits} (h1 : 1 ≤ opN s) (h20 : opN s ≤ 20)
    (h : pack s.sci (opN s) = some b) : ruleSciPack s = done { s with sciBits := pairOf b } := by
  rw [ruleSciPack, if_neg (not_countRefused h1 h20), h]

theorem ruleSciUnpack_of_count_refused (h : opN s = 0 ∨ 20 < opN s) :
    ruleSciUnpack s = .raised .invalidConfiguration 4 s :=
  if_pos ((countRefused_iff _).mpr h)

theorem ruleSciUnpack_of_too_long (h1 : 1 ≤ opN s) (h20 : opN s ≤ 20) (hk : 32 < s.sciBits.nbits.toNat) :
    ruleSciUnpack s = .raised .malformedControlInfo 3 s :=
  (if_neg (not_countRefused h1 h20)).trans (if_pos hk)

theorem ruleSciUnpack_of_none (h1 : 1 ≤ opN s) (h20 : opN s ≤ 20) (hk : s.sciBits.nbits.toNat ≤ 32)
    (h : unpack (strOf s.sciBits) s.sci.fmt (opN s) = none) :
    ruleSciUnpack s = .raised .malformedControlInfo 2 s := by
  have fits : ¬ Config.bitstrMax < s.sciBits.nbits.toNat := Nat.not_lt.mpr hk
  rw [ruleSciUnpack, if_neg (not_countRefused h1 h20), if_neg fits, h]

theorem ruleSciUnpack_of_some {c : Sci} (h1 : 1 ≤ opN s) (h20 : opN s ≤ 20) (hk : s.sciBits.nbits.toNat ≤ 32)
    (h : unpack (strOf s.sciBits) s.sci.fmt (opN s) = some c) :
    ruleSciUnpack s = done { s with sci := { c with fmt := s.sci.fmt } } := by
  have fits : ¬ Config.bitstrMax < s.sciBits.nbits.toNat := Nat.not_lt.mpr hk
  rw [ruleSciUnpack, if_neg (not_countRefused h1 h20), if_neg fits, h]

/-- A place counted from the end of the `k` highest bits of 32 is that place counted from the end of all 32. -/
theorem div_two_pow_div_two_pow {k e : Nat} (b : Nat) (he : e ≤ k) (hk : k ≤ 32) :
    b / 2 ^ (32 - k) / 2 ^ (k - e) = b / 2 ^ (32 - e) := by
  rw [Nat.div_div_eq_div_mul, ← pow_add]
  congr 2
  omega

/-- What `unpack` reads from a register pair: each field by its place in the 32-bit word (41_sci_codec.md R142). -/
theorem unpack_strOf {p : BitPair} {n : Nat} {f : BitVec 1} (hk : p.nbits.toNat ≤ 32)
    (need : 17 + wRiv n + (if f = 1 then 1 else 0) ≤ p.nbits.toNat) :
    unpack (strOf p) f n = some
      { fmt := f
        prio := BitVec.ofNat 3 (p.bits.toNat / 2 ^ 29)
        resv := BitVec.ofNat 4 (p.bits.toNat / 2 ^ 25)
        riv := BitVec.ofNat 8 (p.bits.toNat / 2 ^ (25 - wRiv n) % 2 ^ wRiv n)
        tgap := BitVec.ofNat 4 (p.bits.toNat / 2 ^ (21 - wRiv n))
        mcs := BitVec.ofNat 5 (p.bits.toNat / 2 ^ (16 - wRiv n))
        retx := BitVec.ofNat 1 (p.bits.toNat / 2 ^ (15 - wRiv n))
        txfmt := if f = 1 then BitVec.ofNat 1 (p.bits.toNat / 2 ^ (14 - wRiv n)) else 0 } := by
  rw [strOf_eq hk, unpack_bitsOf need]
  split_ifs at need ⊢
  all_goals
    simp (disch := omega) only [div_two_pow_div_two_pow]
    simp only [Nat.sub_add_eq, Nat.reduceSub]

/-! ### The scrambling identifier (41_sci_codec.md R145, R146) -/

/-- The value of a string as the sum of its bits' powers of two (00_scope.md R12). -/
theorem val_eq_sum (b : Bits) :
    val b = ∑ i ∈ Finset.range b.length, (b.getD i false).toNat * 2 ^ (b.length - 1 - i) := by
  induction b with
  | nil => rfl
  | cons x rest ih =>
    rw [val, ih, List.length_cons, Finset.sum_range_succ', Nat.add_comm]
    congr 1
    refine Finset.sum_congr rfl fun i _ => ?_
    rw [List.getD_cons_succ, Nat.add_sub_cancel, Nat.sub_sub, Nat.add_comm 1 i]

/-- The identifier of a register pair (41_sci_codec.md R146). -/
theorem scramblingId_strOf {p : BitPair} (hk : p.nbits.toNat ≤ 32) :
    scramblingId (strOf p) = p.bits.toNat / 2 ^ (32 - p.nbits.toNat) := by
  have fits : p.bits.toNat / 2 ^ (32 - p.nbits.toNat) < 2 ^ p.nbits.toNat := by
    refine Nat.div_lt_of_lt_mul ?_
    rw [← pow_add, Nat.sub_add_cancel hk]
    exact p.bits.isLt
  rw [scramblingId, strOf_eq hk, val_bitsOf, Nat.mod_eq_of_lt fits]

theorem ruleCrc2id_of_too_long (h : 32 < s.crcBits.nbits.toNat) :
    ruleCrc2id s = .raised .malformedControlInfo 3 s := if_pos h

theorem ruleCrc2id_of_le (h : s.crcBits.nbits.toNat ≤ 32) :
    ruleCrc2id s = done { s with opr.res0 := BitVec.ofNat 32 (scramblingId (strOf s.crcBits)) } :=
  if_neg (Nat.not_lt.mpr h)

end Sys2Proof.Machine

namespace Sys2Proof

open Machine

/-- Settles O29: `pack` fails on a RIV too wide, and else gives the 32 bits of `controlWord` (`pack_val`). -/
theorem sciPack : Obligations.SciPack := by
  intro s hb
  refine ⟨hostWrite_encode (i := .sciPack) rfl s, fun h => ?count, fun h1 h20 h => ?tooWide,
    fun h1 h20 h => ?packed⟩
  case count =>
    rw [exec_sciPack hb, ruleSciPack_of_count_refused (s := accept s) h, finish_raised_accept]
    rfl
  case tooWide =>
    rw [exec_sciPack hb, ruleSciPack_of_none (s := accept s) h1 h20 (pack_of_too_wide h), finish_raised_accept]
    rfl
  case packed =>
    obtain ⟨b, packed, length, value, bound⟩ := pack_val h20 h
    refine ⟨bound, ?_⟩
    rw [exec_sciPack hb, ruleSciPack_of_some (s := accept s) h1 h20 packed, pairOf_of_length length, value]
    rfl

/-- Settles O30: the three errors in their order, then the fields by their places (`unpack_strOf`). -/
theorem sciUnpack : Obligations.SciUnpack := by
  intro s hb
  refine ⟨hostWrite_encode (i := .sciUnpack) rfl s, fun h => ?count, fun h1 h20 hk => ?tooLong,
    fun h1 h20 hk short => ?tooShort, fun h1 h20 hk need => ?unpacked⟩
  case count =>
    rw [exec_sciUnpack hb, ruleSciUnpack_of_count_refused (s := accept s) h, finish_raised_accept]
    rfl
  case tooLong =>
    rw [exec_sciUnpack hb, ruleSciUnpack_of_too_long (s := accept s) h1 h20 hk, finish_raised_accept]
    rfl
  case tooShort =>
    have refused : unpack (strOf s.sciBits) s.sci.fmt (opN s) = none :=
      unpack_short (by rw [strOf_eq hk, length_bitsOf]; exact short)
    rw [exec_sciUnpack hb, ruleSciUnpack_of_none (s := accept s) h1 h20 hk refused, finish_raised_accept]
    rfl
  case unpacked =>
    rw [exec_sciUnpack hb, ruleSciUnpack_of_some (s := accept s) h1 h20 hk (unpack_strOf hk need)]
    rfl

/-- Settles O31: the packed word is the fields and then zeros, and `unpack` reads the fields back. -/
theorem packUnpackRoundTrip : Obligations.PackUnpackRoundTrip := by
  intro c n _ h20 riv wf
  obtain ⟨b, packed, length, -, -⟩ := pack_val h20 riv
  refine ⟨b, packed, length, ?_⟩
  obtain rfl := Option.some.inj ((pack_of_fits riv).symm.trans packed)
  exact unpack_packBody_append _ riv wf

/-- Settles O32: the identifier is the string's value. -/
theorem scramblingIdIsBigEndianValue : Obligations.ScramblingIdIsBigEndianValue :=
  ⟨val_eq_sum, val_zeros, rfl⟩

/-- Settles O33: the value of the `n` highest bits of the register (`scramblingId_strOf`). -/
theorem crcToId : Obligations.CrcToId := by
  intro s hb
  refine ⟨hostWrite_encode (i := .crc2id) rfl s, fun h => ?tooLong, fun h => ?value⟩
  case tooLong =>
    rw [exec_crc2id hb, ruleCrc2id_of_too_long (s := accept s) h, finish_raised_accept]
    rfl
  case value =>
    rw [exec_crc2id hb, ruleCrc2id_of_le (s := accept s) h, accept_crcBits, scramblingId_strOf h]
    rfl

end Sys2Proof
end

section
/-! PROOF. 42_framer_tx.md R162 to R175: the framer's steps on listed answers. Each step has one lemma for each
way it can end; a command's rule is put together from them on any state, and run on the accepted state, where the
completion overwrites what acceptance wrote. -/

namespace Sys2Proof.Machine

variable {s t : State}

/-! ### Steps 1 to 3 (42_framer_tx.md R162 to R164) -/

/-- An allocation that step 1 accepts: of one sub-channel at least, inside the pool, and the pool of at most 20. -/
structure ValidPair (s : State) : Prop where
  count : s.pool.nsubch.toNat ≤ 20
  len : 1 ≤ s.frIn.len.toNat
  inside : s.frIn.start.toNat + s.frIn.len.toNat ≤ s.pool.nsubch.toNat

/-- `s` when step 1 has written the RIV of its allocation. -/
def withRiv (s : State) : State :=
  { s with sci.riv := BitVec.ofNat 8 (rivEncode (opN s) (opStart s) (opLen s)) }

theorem frStep1_of_validPair (h : ValidPair s) : frStep1 s = done (withRiv s) := by
  have len := h.len
  have inside := h.inside
  exact if_neg (by unfold opLen opN opStart; omega)

theorem frStep1_of_invalid (h : opLen s = 0 ∨ opN s < opStart s + opLen s) :
    frStep1 s = .raised .malformedControlInfo 4 s := if_pos h

/-- The RIV of a valid allocation fits its field, so the control word is packed: 32 bits, those of `sentWord`. -/
theorem pack_withRiv (h : ValidPair s) :
    pack (withRiv s).sci (opN s) = some (bitsOf 32 (sentWord s).toNat) := by
  obtain ⟨fits, narrow⟩ := rivEncode_fits h.count h.len h.inside
  have stored : (withRiv s).sci.riv.toNat = rivEncode (opN s) (opStart s) (opLen s) :=
    (BitVec.toNat_ofNat _ 8).trans (Nat.mod_eq_of_lt narrow)
  obtain ⟨b, packed, length, value, bound⟩ := pack_val (c := (withRiv s).sci) h.count (stored.symm ▸ fits)
  have word : (sentWord s).toNat = val b :=
    ((BitVec.toNat_ofNat _ 32).trans (Nat.mod_eq_of_lt bound)).trans value.symm
  rw [word, ← length, bitsOf_val]
  exact packed

/-- The register pair of the control word. -/
theorem pairOf_bitsOf_word (w : Word) : pairOf (bitsOf 32 w.toNat) = { bits := w, nbits := 32 } := by
  rw [pairOf_of_length (length_bitsOf 32 _), val_bitsOf, ofNat_toNat_mod]

/-- The CRC bits are the 16 bits of the codeword after the 32 of the control word (42_framer_tx.md R164). -/
theorem substr_codeword (w : Word) (crc : CrcBits) :
    substr (codeword (bitsOf 32 w.toNat) crc) Config.sciLen (Config.sciLen + Config.crcLen) =
      bitsOf 16 crc.toNat := by
  have skipped : (codeword (bitsOf 32 w.toNat) crc).drop Config.sciLen = bitsOf 16 crc.toNat :=
    List.drop_left' (length_bitsOf 32 _)
  rw [substr, skipped, Nat.add_sub_cancel_left]
  exact List.take_of_length_le (length_bitsOf 16 _).le

/-- The 16 bits of a CRC have its value. -/
theorem val_crc (crc : CrcBits) : val (bitsOf 16 crc.toNat) = crc.toNat :=
  (val_bitsOf 16 _).trans (Nat.mod_eq_of_lt (by have := crc.toNat_lt; omega))

/-- The register pair of the CRC bits, left-aligned (00_scope.md R13). -/
theorem pairOf_crc (crc : CrcBits) :
    pairOf (bitsOf 16 crc.toNat) = { bits := BitVec.ofNat 32 (crc.toNat * 2 ^ 16), nbits := 16 } := by
  rw [pairOf, length_bitsOf, val_append, val_zeros, val_crc, length_zeros, Nat.add_zero]
  rfl

/-- Step 2 where the control encode fails: the packed word is written (42_framer_tx.md R163). -/
theorem frStep2_of_err {b : Bits} {q : List (Answer (Option (Grid × CrcBits)))}
    (packed : pack s.sci (opN s) = some b) (he : s.backends.encodeControl = .reply none :: q) :
    frStep2 s = .raised .backendFailure 1
      { s with
        sciBits := pairOf b
        backends := { s.backends with encodeControl := q }
        out := .call (.encodeControl b s.txgrid (opStart s * opW s)) :: s.out } := by
  rw [frStep2, packed]
  simp only [askEncodeControl, he, ask_reply, Run.next_value]
  rfl

/-- Step 2 with answering backends (42_framer_tx.md R163). -/
theorem frStep2_of_answers {b : Bits} {g g' : Grid} {crc : CrcBits}
    {qe : List (Answer (Option (Grid × CrcBits)))} {qi : List (Answer Grid)}
    (packed : pack s.sci (opN s) = some b) (he : s.backends.encodeControl = .reply (some (g, crc)) :: qe)
    (hi : s.backends.insertRef = .reply g' :: qi) :
    frStep2 s = .value (codeword b crc)
      { s with
        sciBits := pairOf b
        txgrid := g'
        frOut.ctrlOff := BitVec.ofNat 8 (opStart s * opW s)
        chestCfg := some (.control (opStart s * opW s) 0)
        frState := .controlPlaced
        backends := { s.backends with encodeControl := qe, insertRef := qi }
        out := .call (.insertReferenceSignal g) :: .call (.setConfig (.control (opStart s * opW s) 0)) ::
          .call (.encodeControl b s.txgrid (opStart s * opW s)) :: s.out } := by
  rw [frStep2, packed]
  simp only [askEncodeControl, he, ask_reply, Run.next_value, askInsertRef, callSetConfig, callNoAnswer,
    emit_backends, hi]
  rfl

/-- Step 3 on the codeword of step 2 (42_framer_tx.md R164). -/
theorem frStep3_codeword (w : Word) (crc : CrcBits) (s : State) :
    frStep3 (codeword (bitsOf 32 w.toNat) crc) s = done
      { s with
        crcBits := { bits := BitVec.ofNat 32 (crc.toNat * 2 ^ 16), nbits := 16 }
        frOut.scrid := BitVec.ofNat 32 crc.toNat } := by
  simp only [frStep3, substr_codeword, pairOf_crc, scramblingId, val_crc]

/-! ### Steps 4 to 6 (42_framer_tx.md R165 to R167) -/

/-- A request of nothing is refused without a call. -/
theorem frStep4_of_no_request (h : frReq s = 0) : frStep4 s = .raised .noValidDataResources 0 s := by
  simp only [frStep4, h]
  rfl

/-- `s` when the backend has answered what span it grants. -/
def spanAsked (s : State) (qv : List (Answer Nat)) : State :=
  { s with
    backends := { s.backends with validSpan := qv }
    out := .call (.getValidResourceSpan (frReq s)) :: s.out }

theorem frStep4_of_no_span {qv : List (Answer Nat)} (h : frReq s ≠ 0)
    (hv : s.backends.validSpan = .reply 0 :: qv) :
    frStep4 s = .raised .noValidDataResources (BitVec.ofNat 32 (frReq s)) (spanAsked s qv) := by
  simp only [frStep4, if_neg h, askValidSpan, hv, ask_reply, Run.next_value, Nat.zero_min, if_true]
  rfl

theorem frStep4_of_span {v : Nat} {qv : List (Answer Nat)} (pos : 0 < v) (le : v ≤ frReq s)
    (hv : s.backends.validSpan = .reply v :: qv) :
    frStep4 s = done { spanAsked s qv with frOut.dataNprb := BitVec.ofNat 8 v } := by
  have asks : frReq s ≠ 0 := by omega
  have granted : v ≠ 0 := by omega
  simp only [frStep4, if_neg asks, askValidSpan, hv, ask_reply, Run.next_value, Nat.min_eq_left le,
    if_neg granted]
  rfl

/-- Step 5 where the data encode fails: the data placement is written (42_framer_tx.md R166). -/
theorem frStep5_of_err {q : List (Answer (Option Grid))} (he : s.backends.encodeData = .reply none :: q) :
    frStep5 s = .raised .backendFailure 2
      { s with
        frOut.dataStart := BitVec.ofNat 8 (frDataConfig s).prbStart
        frOut.rv := (frDataConfig s).redundancyVersion
        backends := { s.backends with encodeData := q }
        out := .call (.encodeData (takePayload s.mem txtbBase) (frDataConfig s) s.txgrid) :: s.out } := by
  simp only [frStep5, askEncodeData, he, ask_reply, Run.next_value]
  rfl

/-- The reference signals of a data region lie on the region (42_framer_tx.md R166). -/
def dataSignals (cfg : DataConfig) : ChestParams :=
  .data cfg.scramblingId cfg.subframe cfg.prbStart cfg.nofPrb

/-- Step 5 with answering backends (42_framer_tx.md R166). -/
theorem frStep5_of_answers {g g' : Grid} {qe : List (Answer (Option Grid))} {qi : List (Answer Grid)}
    (he : s.backends.encodeData = .reply (some g) :: qe) (hi : s.backends.insertRef = .reply g' :: qi) :
    frStep5 s = done
      { s with
        frOut.dataStart := BitVec.ofNat 8 (frDataConfig s).prbStart
        frOut.rv := (frDataConfig s).redundancyVersion
        txgrid := g'
        chestCfg := some (dataSignals (frDataConfig s))
        frState := .dataPlaced
        backends := { s.backends with encodeData := qe, insertRef := qi }
        out := .call (.insertReferenceSignal g) :: .call (.setConfig (dataSignals (frDataConfig s))) ::
          .call (.encodeData (takePayload s.mem txtbBase) (frDataConfig s) s.txgrid) :: s.out } := by
  simp only [frStep5, askEncodeData, he, ask_reply, Run.next_value, askInsertRef, callSetConfig,
    callNoAnswer, emit_backends, hi]
  rfl

/-- Step 6 with an answering modulator (42_framer_tx.md R167). -/
theorem frStep6_of_answer {x : Samples} {q : List (Answer Samples)} (h : s.backends.modulate = .reply x :: q) :
    frStep6 s = done
      { s with
        txsamp := x
        txgrid := zeroGrid s
        frState := .ready
        backends := { s.backends with modulate := q }
        out := .call (.modulate s.txgrid) :: s.out } := by
  simp only [frStep6, askModulate, h, ask_reply, Run.next_value]
  rfl

/-! ### The commands' rules (42_framer_tx.md R168 to R170) -/

theorem ruleFrCtrl_of_invalid (h : opLen s = 0 ∨ opN s < opStart s + opLen s) :
    ruleFrCtrl s = .raised .malformedControlInfo 4 s := by
  rw [ruleFrCtrl, frStep1_of_invalid h, Run.next_raised]

/-- `s` when the control encode of a valid allocation has failed. -/
def controlRefused (s : State) (qe : List (Answer (Option (Grid × CrcBits)))) : State :=
  { withRiv s with
    sciBits := { bits := sentWord s, nbits := 32 }
    backends := { s.backends with encodeControl := qe }
    out := .call (.encodeControl (bitsOf 32 (sentWord s).toNat) s.txgrid (opStart s * opW s)) :: s.out }

theorem ruleFrCtrl_of_err {qe : List (Answer (Option (Grid × CrcBits)))} (valid : ValidPair s)
    (he : s.backends.encodeControl = .reply none :: qe) :
    ruleFrCtrl s = .raised .backendFailure 1 (controlRefused s qe) := by
  have refused := frStep2_of_err (s := withRiv s) (pack_withRiv valid) he
  rw [pairOf_bitsOf_word] at refused
  rw [ruleFrCtrl, frStep1_of_validPair valid]
  exact congrArg (fun r : Run Bits => r.next fun cw s => frStep3 cw s) refused

theorem ruleFrCtrl_of_answers {g g' : Grid} {crc : CrcBits} {qe : List (Answer (Option (Grid × CrcBits)))}
    {qi : List (Answer Grid)} (valid : ValidPair s)
    (he : s.backends.encodeControl = .reply (some (g, crc)) :: qe)
    (hi : s.backends.insertRef = .reply g' :: qi) :
    ruleFrCtrl s = done (controlStepsDone s g g' crc qe qi) := by
  have placed := frStep2_of_answers (s := withRiv s) (pack_withRiv valid) he hi
  rw [pairOf_bitsOf_word] at placed
  rw [ruleFrCtrl, frStep1_of_validPair valid]
  exact (congrArg (fun r : Run Bits => r.next fun cw s => frStep3 cw s) placed).trans
    (frStep3_codeword (sentWord s) crc _)

theorem ruleFrData_of_no_request (h : frReq s = 0) :
    ruleFrData s = .raised .noValidDataResources 0 s := by
  rw [ruleFrData, frStep4_of_no_request h, Run.next_raised]

theorem ruleFrData_of_no_span {qv : List (Answer Nat)} (h : frReq s ≠ 0)
    (hv : s.backends.validSpan = .reply 0 :: qv) :
    ruleFrData s = .raised .noValidDataResources (BitVec.ofNat 32 (frReq s)) (spanAsked s qv) := by
  rw [ruleFrData, frStep4_of_no_span h hv, Run.next_raised]

/-- The data-channel configuration of a span of `v` blocks; the register of the count has 8 bits
(42_framer_tx.md R166; log entry 21). -/
def spanConfig (s : State) (v : Nat) : DataConfig := { frDataConfig s with nofPrb := v % 256 }

/-- `s` when a span of `v` blocks was granted and the data encode has failed. -/
def dataRefused (s : State) (v : Nat) (qv : List (Answer Nat)) (qe : List (Answer (Option Grid))) : State :=
  { s with
    frOut.dataNprb := BitVec.ofNat 8 v
    frOut.dataStart := BitVec.ofNat 8 (spanConfig s v).prbStart
    frOut.rv := (spanConfig s v).redundancyVersion
    backends := { s.backends with validSpan := qv, encodeData := qe }
    out := .call (.encodeData (takePayload s.mem txtbBase) (spanConfig s v) s.txgrid) ::
      .call (.getValidResourceSpan (frReq s)) :: s.out }

theorem ruleFrData_of_err {v : Nat} {qv : List (Answer Nat)} {qe : List (Answer (Option Grid))} (pos : 0 < v)
    (le : v ≤ frReq s) (hv : s.backends.validSpan = .reply v :: qv)
    (he : s.backends.encodeData = .reply none :: qe) :
    ruleFrData s = .raised .backendFailure 2 (dataRefused s v qv qe) := by
  rw [ruleFrData, frStep4_of_span pos le hv]
  exact frStep5_of_err (s := { spanAsked s qv with frOut.dataNprb := BitVec.ofNat 8 v }) he

/-- `s` when a span of `v` blocks was granted and steps 4 and 5 have run (42_framer_tx.md R165, R166). -/
def dataStepsDone (s : State) (v : Nat) (g g' : Grid) (qv : List (Answer Nat))
    (qe : List (Answer (Option Grid))) (qi : List (Answer Grid)) : State :=
  { s with
    frOut.dataNprb := BitVec.ofNat 8 v
    frOut.dataStart := BitVec.ofNat 8 (spanConfig s v).prbStart
    frOut.rv := (spanConfig s v).redundancyVersion
    txgrid := g'
    chestCfg := some (dataSignals (spanConfig s v))
    frState := .dataPlaced
    backends := { s.backends with validSpan := qv, encodeData := qe, insertRef := qi }
    out := .call (.insertReferenceSignal g) :: .call (.setConfig (dataSignals (spanConfig s v))) ::
      .call (.encodeData (takePayload s.mem txtbBase) (spanConfig s v) s.txgrid) ::
      .call (.getValidResourceSpan (frReq s)) :: s.out }

theorem ruleFrData_of_answers {v : Nat} {g g' : Grid} {qv : List (Answer Nat)}
    {qe : List (Answer (Option Grid))} {qi : List (Answer Grid)} (pos : 0 < v) (le : v ≤ frReq s)
    (hv : s.backends.validSpan = .reply v :: qv) (he : s.backends.encodeData = .reply (some g) :: qe)
    (hi : s.backends.insertRef = .reply g' :: qi) :
    ruleFrData s = done (dataStepsDone s v g g' qv qe qi) := by
  rw [ruleFrData, frStep4_of_span pos le hv]
  exact frStep5_of_answers (s := { spanAsked s qv with frOut.dataNprb := BitVec.ofNat 8 v }) he hi

/-- `FR_BUILD` goes on where the steps of `FR_CTRL`, then those of `FR_DATA` end (42_framer_tx.md R168). -/
theorem ruleFrBuild_of_steps {u : State} (h : ruleFrCtrl s = done t) (h' : ruleFrData t = done u) :
    ruleFrBuild s = frStep6 u := by
  rw [ruleFrBuild, h, done, Run.next_value, h', done, Run.next_value]

theorem ruleFrBuild_of_control_raised {k : ErrKind} {i : Word} (h : ruleFrCtrl s = .raised k i t) :
    ruleFrBuild s = .raised k i t := by
  rw [ruleFrBuild, h, Run.next_raised]

theorem ruleFrBuild_of_data_raised {u : State} {k : ErrKind} {i : Word} (h : ruleFrCtrl s = done t)
    (h' : ruleFrData t = .raised k i u) : ruleFrBuild s = .raised k i u := by
  rw [ruleFrBuild, h, done, Run.next_value, h', Run.next_raised]

end Sys2Proof.Machine

namespace Sys2Proof

open Machine

/-- Settles O34: steps 1 to 3 on the accepted state (`ruleFrCtrl_of_answers`). -/
theorem framerControlSteps : Obligations.FramerControlSteps := by
  intro s g g' crc qe qi hb hc hp hf hempty count len inside he hi
  refine ⟨hostWrite_encode (i := .frCtrl) rfl s, ?_⟩
  rw [exec_frCtrl hb hc hp hf hempty, ruleFrCtrl_of_answers (s := accept s) ⟨count, len, inside⟩ he hi]
  rfl

/-- Settles O35: steps 4 and 5 on the accepted state (`ruleFrData_of_answers`). -/
theorem framerDataSteps : Obligations.FramerDataSteps := by
  intro s v g g' qv qe qi hb hc hp hf hplaced pos le hv he hi
  refine ⟨hostWrite_encode (i := .frData) rfl s, ?_⟩
  rw [exec_frData hb hc hp hf hplaced, ruleFrData_of_answers (s := accept s) pos le hv he hi]
  rfl

/-- Settles O36: the steps of `FR_CTRL`, of `FR_DATA` and of `FR_MOD`, each on what the one before leaves. -/
theorem framerBuild : Obligations.FramerBuild := by
  intro s g g' g'' g₃ crc v x qe qi qv qd qm hb hc hp hf hempty count len inside pos le he hi hv hd hm
  refine ⟨hostWrite_encode (i := .frBuild) rfl s, ?_⟩
  have control := ruleFrCtrl_of_answers (s := accept s) ⟨count, len, inside⟩ he hi
  have data := ruleFrData_of_answers (s := controlStepsDone (accept s) g g' crc qe (.reply g₃ :: qi)) pos le
    hv hd rfl
  have modulated := frStep6_of_answer
    (s := dataStepsDone (controlStepsDone (accept s) g g' crc qe (.reply g₃ :: qi)) v g'' g₃ qv qd qi) hm
  rw [exec_frBuild hb hc hp hf hempty, ruleFrBuild_of_steps control data, modulated]
  rfl

/-- Settles O38: the steps' failures, each in the command that runs the step alone and in `FR_BUILD`. -/
theorem framerStepErrors : Obligations.FramerStepErrors := by
  intro s hb hc hp hf
  refine ⟨fun hempty => ⟨fun invalid => ?pair, fun qe he count len inside => ?control⟩,
    fun hempty g g' crc qc qi he hi count len inside => ?build, fun hplaced => ?data⟩
  case pair =>
    have invalid' : opLen s = 0 ∨ opN s < opStart s + opLen s := invalid.imp_left (congrArg BitVec.toNat)
    have raised := ruleFrCtrl_of_invalid (s := accept s) invalid'
    rw [exec_frCtrl hb hc hp hf hempty, exec_frBuild hb hc hp hf hempty, ruleFrBuild_of_control_raised raised,
      raised, finishFramer_raised]
    exact ⟨rfl, rfl⟩
  case control =>
    have raised := ruleFrCtrl_of_err (s := accept s) ⟨count, len, inside⟩ he
    rw [exec_frCtrl hb hc hp hf hempty, exec_frBuild hb hc hp hf hempty, ruleFrBuild_of_control_raised raised,
      raised, finishFramer_raised]
    exact ⟨rfl, rfl⟩
  case build =>
    have control := ruleFrCtrl_of_answers (s := accept s) ⟨count, len, inside⟩ he hi
    rw [exec_frBuild hb hc hp hf hempty]
    refine ⟨fun noRequest => ?noRequest, fun asks qv hv => ?noSpan, fun v qv qe pos le hv he => ?encode⟩
    case noRequest =>
      rw [ruleFrBuild_of_data_raised control (ruleFrData_of_no_request noRequest), finishFramer_raised]
      rfl
    case noSpan =>
      rw [ruleFrBuild_of_data_raised control (ruleFrData_of_no_span asks hv), finishFramer_raised]
      rfl
    case encode =>
      rw [ruleFrBuild_of_data_raised control (ruleFrData_of_err pos le hv he), finishFramer_raised]
      rfl
  case data =>
    rw [exec_frData hb hc hp hf hplaced]
    refine ⟨fun noRequest => ?noRequest, fun asks qv hv => ?noSpan, fun v qv qe pos le hv he => ?encode⟩
    case noRequest =>
      rw [ruleFrData_of_no_request (s := accept s) noRequest, finishFramer_raised]
      rfl
    case noSpan =>
      rw [ruleFrData_of_no_span (s := accept s) asks hv, finishFramer_raised]
      rfl
    case encode =>
      rw [ruleFrData_of_err (s := accept s) pos le hv he, finishFramer_raised]
      rfl

/-- Settles O40: step 6 (`frStep6_of_answer`), and the one line of `FR_CLEAR`. -/
theorem framerModulationAndClear : Obligations.FramerModulationAndClear := by
  intro s hb
  refine ⟨fun x q hc hf hplaced hm => ⟨hostWrite_encode (i := .frMod) rfl s, ?modulated⟩,
    hostWrite_encode (i := .frClear) rfl s, exec_frClear hb⟩
  case modulated =>
    rw [exec_frMod hb hc hf hplaced, frStep6_of_answer (s := accept s) hm]
    rfl

end Sys2Proof
end

section
/-! PROOF. 42_framer_tx.md R169, R173: how a framer command ends, and what it leaves where it fails. An accepted
command that ends has ended with a value or with a raise; a raise leaves the frame at the state of the failing step.
`FR_BUILD` is then followed beside the three stepping commands, step by step. -/

namespace Sys2Proof.Machine

variable {s t u : State} {k : ErrKind} {info : Word}

/-! ### Runs, read backwards -/

/-- A run that raises does so in its first piece or in the rest. -/
theorem Run.next_eq_raised {α β : Type} {r : Run α} {f : α → State → Run β}
    (h : r.next f = .raised k info t) :
    r = .raised k info t ∨ ∃ a u, r = .value a u ∧ f a u = .raised k info t := by
  cases r with
  | value a u => exact .inr ⟨a, u, rfl, h⟩
  | raised k' info' u =>
    cases h
    exact .inl rfl
  | hung u => cases h

/-- A call raises nothing. -/
theorem ask_silent {α : Type} {R : ErrKind → Word → State → Prop} (c : Call) (listed : List (Answer α))
    (rest : List (Answer α) → Backends → Backends) (free : Answer α) (s : State) :
    (ask c listed rest free s).Post (fun _ _ => True) R (fun _ => True) :=
  (ask_post c listed rest free s).mono (fun _ _ _ => trivial) (fun _ _ _ h => h.elim) fun _ _ => trivial

/-! ### What a failing step raises (42_framer_tx.md R162 to R166) -/

theorem frStep2_raises (s : State) :
    (frStep2 s).Post (fun _ _ => True)
      (fun k i _ => k = .malformedControlInfo ∨ k = .backendFailure ∧ i = 1) (fun _ => True) := by
  unfold frStep2
  split
  · exact .inl rfl
  · refine (ask_silent _ _ _ _ _).next fun r _ _ => ?_
    cases r with
    | none => exact .inr ⟨rfl, rfl⟩
    | some p => exact (ask_silent _ _ _ _ _).next fun _ _ _ => trivial

theorem frStep5_raises (s : State) :
    (frStep5 s).Post (fun _ _ => True) (fun k i _ => k = .backendFailure ∧ i = 2) (fun _ => True) := by
  unfold frStep5
  refine (ask_silent _ _ _ _ _).next fun r _ _ => ?_
  cases r with
  | none => exact ⟨rfl, rfl⟩
  | some g => exact (ask_silent _ _ _ _ _).next fun _ _ _ => trivial

theorem ruleFrCtrl_raises (s : State) :
    (ruleFrCtrl s).Post (fun _ _ => True)
      (fun k i _ => k = .malformedControlInfo ∨ k = .backendFailure ∧ i = 1) (fun _ => True) :=
  ((frStep1_post s).mono (fun _ _ _ => trivial) (fun _ _ _ h => .inl h.1) fun _ _ => trivial).next
    fun _ t _ => (frStep2_raises t).next fun _ _ _ => trivial

theorem ruleFrData_raises (s : State) :
    (ruleFrData s).Post (fun _ _ => True)
      (fun k i _ => k = .noValidDataResources ∨ k = .backendFailure ∧ i = 2) (fun _ => True) :=
  ((frStep4_post s).mono (fun _ _ _ => trivial) (fun _ _ _ h => .inl h.1) fun _ _ => trivial).next
    fun _ t _ => (frStep5_raises t).mono (fun _ _ h => h) (fun _ _ _ h => .inr h) fun _ h => h

/-! ### Where the frame is when a rule ends (42_framer_tx.md R173) -/

/-- From `s` to `t` only the framer's own fields changed, but not the sample buffer; the frame is at `fr`. -/
structure FrameAt (fr : FrState) (s t : State) : Prop where
  leaves : FramerLeaves fr s t
  txsamp : t.txsamp = s.txsamp

theorem FramerLeaves.trans {fr fr' : FrState} (h : FramerLeaves fr s t) (h' : FramerLeaves fr' t u) :
    FramerLeaves fr' s u := by
  obtain ⟨_, _, _, _, _, _, _, _, _, _, ho, rfl⟩ := h
  obtain ⟨riv, bits, crc, fo, g, x, cfg, b, d, o, ho', rfl⟩ := h'
  exact ⟨riv, bits, crc, fo, g, x, cfg, b, d, o, ho.trans ho', rfl⟩

theorem FrameAt.trans {fr fr' : FrState} (h : FrameAt fr s t) (h' : FrameAt fr' t u) : FrameAt fr' s u :=
  ⟨h.leaves.trans h'.leaves, h'.txsamp.trans h.txsamp⟩

theorem FramerLeaves.frState {fr : FrState} (h : FramerLeaves fr s t) : t.frState = fr := by
  obtain ⟨_, _, _, _, _, _, _, _, _, _, -, rfl⟩ := h
  rfl

theorem ruleFrCtrl_frameAt {x : Unit} (h : ruleFrCtrl s = .value x t) : FrameAt .controlPlaced s t := by
  have post := ruleFrCtrl_post s
  rw [h] at post
  obtain ⟨-, riv, bits, crc, id, g, cfg, b, d, o, ho, rfl⟩ := post
  exact ⟨⟨riv, bits, crc, _, g, s.txsamp, cfg, b, d, o, ho, rfl⟩, rfl⟩

theorem ruleFrCtrl_frameAt_of_raised (h : ruleFrCtrl s = .raised k info t) : FrameAt s.frState s t := by
  have post := ruleFrCtrl_post s
  rw [h] at post
  obtain ⟨-, riv, bits, b, d, o, ho, rfl⟩ := post
  exact ⟨⟨riv, bits, s.crcBits, s.frOut, s.txgrid, s.txsamp, s.chestCfg, b, d, o, ho, rfl⟩, rfl⟩

theorem ruleFrData_frameAt_of_raised (h : ruleFrData s = .raised k info t) : FrameAt s.frState s t := by
  have post := ruleFrData_post s
  rw [h] at post
  obtain ⟨-, fo, b, d, o, ho, rfl⟩ := post
  exact ⟨⟨s.sci.riv, s.sciBits, s.crcBits, fo, s.txgrid, s.txsamp, s.chestCfg, b, d, o, ho, rfl⟩, rfl⟩

/-- `FR_CTRL` fails in steps 1 or 2, where the frame is as it found it. -/
theorem ruleFrCtrl_raised (h : ruleFrCtrl s = .raised k info t) :
    FrameAt s.frState s t ∧ (k = .malformedControlInfo ∨ k = .backendFailure ∧ info = 1) := by
  have raises := ruleFrCtrl_raises s
  rw [h] at raises
  exact ⟨ruleFrCtrl_frameAt_of_raised h, raises⟩

/-- `FR_DATA` fails in steps 4 or 5, where the frame is as it found it. -/
theorem ruleFrData_raised (h : ruleFrData s = .raised k info t) :
    FrameAt s.frState s t ∧ (k = .noValidDataResources ∨ k = .backendFailure ∧ info = 2) := by
  have raises := ruleFrData_raises s
  rw [h] at raises
  exact ⟨ruleFrData_frameAt_of_raised h, raises⟩

theorem frStep6_ne_raised : frStep6 s ≠ .raised k info t := fun h => by
  have post := frStep6_post s
  rwa [h] at post

/-- `FR_BUILD` fails as `FR_CTRL` does, or after steps 1 to 3 as `FR_DATA` does. -/
theorem ruleFrBuild_raised (h : ruleFrBuild s = .raised k info t) :
    (FrameAt s.frState s t ∧ (k = .malformedControlInfo ∨ k = .backendFailure ∧ info = 1)) ∨
      (FrameAt .controlPlaced s t ∧ (k = .noValidDataResources ∨ k = .backendFailure ∧ info = 2)) := by
  rcases Run.next_eq_raised h with control | ⟨_, u, control, rest⟩
  · exact .inl (ruleFrCtrl_raised control)
  rcases Run.next_eq_raised rest with data | ⟨_, v, -, modulation⟩
  · obtain ⟨at_u, raises⟩ := ruleFrData_raised data
    have placed := ruleFrCtrl_frameAt control
    exact .inr ⟨placed.trans (placed.leaves.frState ▸ at_u), raises⟩
  · exact absurd modulation frStep6_ne_raised

/-! ### How a framer command ends -/

/-- A command of the framer with its rule. -/
structure FramerCommand (i : Instr) (rule : State → Run Unit) : Prop where
  commandRule : ∀ s, commandRule i s = finishFramer (rule s)
  run : ∀ s, FramerRun s (rule s)
  legal : ∀ s, indexLegal i s = true

theorem framerCommand_frBuild : FramerCommand .frBuild ruleFrBuild :=
  ⟨fun _ => rfl, ruleFrBuild_framerRun, fun _ => rfl⟩

theorem framerCommand_frCtrl : FramerCommand .frCtrl ruleFrCtrl :=
  ⟨fun _ => rfl, ruleFrCtrl_framerRun, fun _ => rfl⟩

theorem framerCommand_frData : FramerCommand .frData ruleFrData :=
  ⟨fun _ => rfl, ruleFrData_framerRun, fun _ => rfl⟩

theorem framerCommand_frMod : FramerCommand .frMod frStep6 :=
  ⟨fun _ => rfl, frStep6_framerRun, fun _ => rfl⟩

section

variable {i : Instr} {rule : State → Run Unit}

theorem FramerCommand.exec (h : FramerCommand i rule) (hb : s.status.busy = false)
    (ha : acceptable i s = true) : exec i s = .next (finishFramer (rule (accept s))) := by
  rw [exec_idle i hb, issue_accepted hb (h.legal s) ha, h.commandRule]

/-- An accepted framer command that ends has run to its end or has raised. -/
theorem FramerCommand.ended (h : FramerCommand i rule) (hb : s.status.busy = false)
    (ha : acceptable i s = true) (ht : Machine.exec i s = .next t) (hidle : t.status.busy = false) :
    (∃ u, rule (accept s) = .value () u ∧ t = afterOk u) ∨
      ∃ k info u, rule (accept s) = .raised k info u ∧ t = afterError k.code info (frameDiscarded u) := by
  rw [h.exec hb ha] at ht
  cases ht
  have run := h.run (accept s)
  cases hr : rule (accept s) with
  | value x u => exact .inl ⟨u, rfl, rfl⟩
  | raised k info u => exact .inr ⟨k, info, u, rfl, finishFramer_raised k info u⟩
  | hung u =>
    rw [hr] at run hidle
    have busy : u.status.busy = true := congrArg Status.busy (FrameUnfinished.status run)
    exact absurd hidle (by simp [hang, busy])

/-- An accepted framer command that ends with an error has raised. -/
theorem FramerCommand.failed (h : FramerCommand i rule) (hb : s.status.busy = false)
    (ha : acceptable i s = true) (ht : Machine.exec i s = .next t) (hidle : t.status.busy = false)
    (herr : t.err ≠ 0) :
    ∃ k info u, rule (accept s) = .raised k info u ∧ t = afterError k.code info (frameDiscarded u) := by
  refine (h.ended hb ha ht hidle).resolve_left ?_
  rintro ⟨u, -, rfl⟩
  exact herr rfl

/-- A framer command that ends without error was accepted and has run to its end. -/
theorem FramerCommand.succeeded (h : FramerCommand i rule) (hb : s.status.busy = false)
    (ht : Machine.exec i s = .next t) (hidle : t.status.busy = false) (hok : t.err = 0) :
    acceptable i s = true ∧ ∃ u, rule (accept s) = .value () u ∧ t = afterOk u := by
  by_cases ha : acceptable i s = true
  · refine ⟨ha, (h.ended hb ha ht hidle).resolve_right ?_⟩
    rintro ⟨k, info, u, -, rfl⟩
    cases k <;> cases hok
  · rw [exec_wrongState hb (h.legal s) ha] at ht
    cases ht
    cases hok

end

/-- What a raise leaves of the accepted state, once the command is completed: the frame is discarded, everything
that is not the framer's is kept. -/
theorem FrameAt.discarded {fr : FrState} (h : FrameAt fr (accept s) u) (hb : s.status.busy = false)
    (e : BitVec 8) (info : Word) :
    (afterError e info (frameDiscarded u)).status = { s.status with errv := true, done := true, frfail := true } ∧
      (afterError e info (frameDiscarded u)).frState = fr ∧
      { afterError e info (frameDiscarded u) with
        err := s.err, errInfo := s.errInfo, status := s.status, frState := s.frState, sci := s.sci
        sciBits := s.sciBits, crcBits := s.crcBits, frOut := s.frOut, txgrid := s.txgrid
        chestCfg := s.chestCfg, backends := s.backends, draws := s.draws, out := s.out } = s := by
  obtain ⟨⟨riv, bits, crc, fo, g, x, cfg, b, d, o, -, rfl⟩, rfl⟩ := h
  refine ⟨?_, rfl, rfl⟩
  exact congrArg (fun busy => { s.status with busy := busy, errv := true, done := true, frfail := true }) hb.symm

/-- `FRFAIL` blocks the six commands that would use the frame (42_framer_tx.md R173). -/
theorem not_acceptable_of_frfail {i : Instr}
    (hi : i ∈ [Instr.frBuild, .frCtrl, .frData, .frMod, .rxLoop, .schStart]) (hf : s.status.frfail = true) :
    ¬acceptable i s = true := by
  simp only [List.mem_cons, List.not_mem_nil, or_false] at hi
  rcases hi with rfl | rfl | rfl | rfl | rfl | rfl
  · simp [acceptable_frBuild_iff, hf]
  · simp [acceptable_frCtrl_iff, hf]
  · simp [acceptable_frData_iff, hf]
  · simp [acceptable_frMod_iff, hf]
  · simp [acceptable_rxLoop_iff, hf]
  · simp [acceptable_schStart_iff, hf]

/-! ### The same steps beside other pulses (42_framer_tx.md R169) -/

/-- `t` is `s` but for what a completion and an acceptance write, and for `ev_done` pulses on the ports. -/
def SameButPulses (s t : State) : Prop :=
  ∃ e i errv busy finished o, withoutDone o = withoutDone s.out ∧
    t = { s with
      err := e, errInfo := i, out := o
      status := { s.status with errv := errv, busy := busy, done := finished } }

/-- Two runs end alike, in states that are the same but for pulses. -/
def Run.Same {α : Type} : Run α → Run α → Prop
  | .value a s, .value b t => a = b ∧ SameButPulses s t
  | .raised k i s, .raised l j t => k = l ∧ i = j ∧ SameButPulses s t
  | .hung s, .hung t => SameButPulses s t
  | _, _ => False

theorem Run.Same.next {α β : Type} {r r' : Run α} {f g : α → State → Run β} (h : r.Same r')
    (hf : ∀ a s t, SameButPulses s t → (f a s).Same (g a t)) : (r.next f).Same (r'.next g) := by
  cases r <;> cases r'
  case value.value a s b t =>
    obtain ⟨rfl, h⟩ := h
    exact hf a s t h
  case raised.raised => exact h
  case hung.hung => exact h
  all_goals exact h.elim

/-- Both runs take the same branch. -/
theorem Run.Same.ite {α : Type} {p : Prop} [Decidable p] {a b a' b' : Run α} (ha : p → a.Same a')
    (hb : ¬p → b.Same b') : (if p then a else b).Same (if p then a' else b') := by
  split
  · exact ha ‹_›
  · exact hb ‹_›

/-- A run beside one that ends with a value ends with the same. -/
theorem Run.Same.value_right {α : Type} {r : Run α} {a : α} (h : r.Same (.value a t)) :
    ∃ u, r = .value a u ∧ SameButPulses u t := by
  cases r with
  | value b u => exact ⟨u, h.1 ▸ rfl, h.2⟩
  | raised => exact h.elim
  | hung => exact h.elim

theorem withoutDone_cons {o o' : List Out} (x : Out) (h : withoutDone o = withoutDone o') :
    withoutDone (x :: o) = withoutDone (x :: o') := by
  simp only [withoutDone, List.filter_cons] at h ⊢
  rw [h]

/-- One call with the same argument, answered from the same list, ends alike. -/
theorem Run.Same.ask {α : Type} (h : SameButPulses s t) (c : Call) (listed : List (Answer α))
    (rest : List (Answer α) → Backends → Backends) (free : Answer α) :
    (ask c listed rest free s).Same (ask c listed rest free t) := by
  obtain ⟨e, i, errv, busy, finished, o, ho, rfl⟩ := h
  have ho' := withoutDone_cons (.call c) ho
  cases listed with
  | nil =>
    cases free with
    | never => exact ⟨e, i, errv, busy, finished, _, ho', rfl⟩
    | reply a => exact ⟨rfl, e, i, errv, busy, finished, _, ho', rfl⟩
  | cons answer q =>
    cases answer with
    | never => exact ⟨e, i, errv, busy, finished, _, ho', rfl⟩
    | reply a => exact ⟨rfl, e, i, errv, busy, finished, _, ho', rfl⟩

theorem frStep4_same (h : SameButPulses s t) : (frStep4 s).Same (frStep4 t) := by
  have asked := h
  obtain ⟨e, i, errv, busy, finished, o, ho, rfl⟩ := h
  refine .ite (fun _ => ⟨rfl, rfl, asked⟩) fun _ => ?_
  refine .next (.next (.ask asked _ _ _ _) fun v _ _ h => ⟨rfl, h⟩) fun v s' t' h => ?_
  refine .ite (fun _ => ⟨rfl, rfl, h⟩) fun _ => ⟨rfl, ?_⟩
  obtain ⟨e, i, errv, busy, finished, o, ho, rfl⟩ := h
  exact ⟨e, i, errv, busy, finished, o, ho, rfl⟩

theorem frStep5_same (h : SameButPulses s t) : (frStep5 s).Same (frStep5 t) := by
  obtain ⟨e, i, errv, busy, finished, o, ho, rfl⟩ := h
  unfold frStep5
  refine .next (.ask ?placed _ _ _ _) fun r s' t' h => ?encoded
  case placed => exact ⟨e, i, errv, busy, finished, o, ho, rfl⟩
  case encoded =>
    cases r with
    | none => exact ⟨rfl, rfl, h⟩
    | some g =>
      obtain ⟨e, i, errv, busy, finished, o, ho, rfl⟩ := h
      refine .next (.ask ?configured _ _ _ _) fun g s' t' h => ⟨rfl, ?inserted⟩
      case configured => exact ⟨e, i, errv, busy, finished, _, withoutDone_cons _ ho, rfl⟩
      case inserted =>
        obtain ⟨e, i, errv, busy, finished, o, ho, rfl⟩ := h
        exact ⟨e, i, errv, busy, finished, o, ho, rfl⟩

theorem frStep6_same (h : SameButPulses s t) : (frStep6 s).Same (frStep6 t) := by
  have asked := h
  obtain ⟨e, i, errv, busy, finished, o, ho, rfl⟩ := h
  refine .next (.ask asked _ _ _ _) fun x s' t' h => ⟨rfl, ?_⟩
  obtain ⟨e, i, errv, busy, finished, o, ho, rfl⟩ := h
  exact ⟨e, i, errv, busy, finished, o, ho, rfl⟩

theorem ruleFrData_same (h : SameButPulses s t) : (ruleFrData s).Same (ruleFrData t) :=
  (frStep4_same h).next fun _ _ _ h => frStep5_same h

/-- Completing a command and accepting the next one adds nothing but a pulse. -/
theorem SameButPulses.reaccepted (h : SameButPulses s t) : SameButPulses s (accept (afterOk t)) := by
  obtain ⟨e, i, errv, busy, finished, o, ho, rfl⟩ := h
  exact ⟨0, 0, false, true, false, .pulse .evDone :: o, ho, rfl⟩

theorem SameButPulses.refl (s : State) : SameButPulses s s := ⟨_, _, _, _, _, _, rfl, rfl⟩

/-- Two completions without error write the same. -/
theorem SameButPulses.afterOk (h : SameButPulses s t) :
    ∃ o, afterOk s = { afterOk t with out := o } ∧ withoutDone o = withoutDone (afterOk t).out := by
  obtain ⟨e, i, errv, busy, finished, o, ho, rfl⟩ := h
  exact ⟨.pulse .evDone :: s.out, rfl, ho.symm⟩

end Sys2Proof.Machine

namespace Sys2Proof

open Machine

/-- Settles O39: what the failing rule leaves (`FrameAt.discarded`), with the frame where the accepted command found
it or, for `FR_BUILD`, where steps 1 to 3 left it. -/
theorem failedFrameIsDiscarded : Obligations.FailedFrameIsDiscarded := by
  refine ⟨fun i s t hi hb ha ht hidle herr => ?failed, fun i s hi hb hf => ?blocked⟩
  case blocked =>
    have legal : indexLegal i s = true := by
      cases i with
      | parseSubch idx => simp at hi
      | _ => rfl
    exact exec_wrongState hb legal (not_acceptable_of_frfail hi hf)
  case failed =>
    simp only [List.mem_cons, List.not_mem_nil, or_false] at hi
    rcases hi with rfl | rfl | rfl | rfl
    · obtain ⟨k, info, u, raised, rfl⟩ := framerCommand_frBuild.failed hb ha ht hidle herr
      obtain ⟨-, -, -, hempty⟩ := acceptable_frBuild_iff.mp ha
      rcases ruleFrBuild_raised raised with ⟨frame, raises⟩ | ⟨frame, raises⟩
      · obtain ⟨hstatus, hfr, hframe⟩ := frame.discarded hb k.code info
        have empty := hfr.trans hempty
        refine ⟨hstatus, empty ▸ nofun, empty ▸ nofun, fun h => absurd rfl h,
          fun _ => ⟨hempty, .inl ⟨empty, ?_⟩⟩, hframe⟩
        exact raises.imp (congrArg ErrKind.code) (And.imp_left (congrArg ErrKind.code))
      · obtain ⟨hstatus, hfr, hframe⟩ := frame.discarded hb k.code info
        refine ⟨hstatus, hfr ▸ nofun, hfr ▸ nofun, fun h => absurd rfl h,
          fun _ => ⟨hempty, .inr ⟨hfr, ?_⟩⟩, hframe⟩
        exact raises.imp (congrArg ErrKind.code) (And.imp_left (congrArg ErrKind.code))
    · obtain ⟨k, info, u, raised, rfl⟩ := framerCommand_frCtrl.failed hb ha ht hidle herr
      obtain ⟨-, -, -, hempty⟩ := acceptable_frCtrl_iff.mp ha
      obtain ⟨hstatus, hfr, hframe⟩ := (ruleFrCtrl_raised raised).1.discarded hb k.code info
      have empty := hfr.trans hempty
      exact ⟨hstatus, empty ▸ nofun, empty ▸ nofun, fun _ => hfr, nofun, hframe⟩
    · obtain ⟨k, info, u, raised, rfl⟩ := framerCommand_frData.failed hb ha ht hidle herr
      obtain ⟨-, -, -, hplaced⟩ := acceptable_frData_iff.mp ha
      obtain ⟨hstatus, hfr, hframe⟩ := (ruleFrData_raised raised).1.discarded hb k.code info
      have placed := hfr.trans hplaced
      exact ⟨hstatus, placed ▸ nofun, placed ▸ nofun, fun _ => hfr, nofun, hframe⟩
    · obtain ⟨k, info, u, raised, -⟩ := framerCommand_frMod.failed hb ha ht hidle herr
      exact absurd raised frStep6_ne_raised

/-- Settles O37: `FR_BUILD` runs steps 4 and 5, then step 6, beside `FR_DATA` and `FR_MOD` (`ruleFrData_same`,
`frStep6_same`). -/
theorem buildEqualsThreeSteps : Obligations.BuildEqualsThreeSteps := by
  intro s a b c hs hctrl ha aOk hdata hb bOk hmod hc cOk
  obtain ⟨accepted, u, control, rfl⟩ := framerCommand_frCtrl.succeeded hs hctrl ha aOk
  obtain ⟨-, v, data, rfl⟩ := framerCommand_frData.succeeded ha hdata hb bOk
  obtain ⟨-, w, modulation, rfl⟩ := framerCommand_frMod.succeeded hb hmod hc cOk
  have dataBeside := ruleFrData_same (SameButPulses.refl u).reaccepted
  rw [data] at dataBeside
  obtain ⟨v', data', sameData⟩ := dataBeside.value_right
  have modulationBeside := frStep6_same sameData.reaccepted
  rw [modulation] at modulationBeside
  obtain ⟨w', modulation', sameModulation⟩ := modulationBeside.value_right
  obtain ⟨o, same, pulses⟩ := sameModulation.afterOk
  refine ⟨o, ?_, pulses⟩
  rw [framerCommand_frBuild.exec hs accepted, ruleFrBuild_of_steps control data', modulation', ← same]
  rfl

end Sys2Proof
end

section
/-! PROOF. 42_framer_tx.md R160: where `FR_STATE` can go. The framer's commands move it forward from the state that
accepts them; every other command, every other move of an agent and every tick leaves it or makes it `EMPTY`. -/

namespace Sys2Proof.Machine

variable {s t u : State}

/-! ### All that a parser command can change (43_parser_rx.md R194 to R202) -/

/-- The parser's own fields in `t`, all others as in `s`; whatever the sub-channel. -/
def ParserLeaves (s t : State) : Prop :=
  ∃ dr mem idx shift cfg b d o,
    t = { s with
      dr := dr, mem := mem, psIdx := idx, psShift := shift, chestCfg := cfg, backends := b, draws := d, out := o }

/-- Wherever the run ends, only the parser's fields have changed since `s`. -/
def ParserRun {α : Type} (s : State) (r : Run α) : Prop :=
  r.Post (fun _ t => ParserLeaves s t) (fun _ _ t => ParserLeaves s t) (ParserLeaves s)

theorem ParserLeaves.refl (s : State) : ParserLeaves s s := ⟨_, _, _, _, _, _, _, _, rfl⟩

theorem ParserLeaves.trans (h : ParserLeaves s t) (h' : ParserLeaves t u) : ParserLeaves s u := by
  obtain ⟨_, _, _, _, _, _, _, _, rfl⟩ := h
  obtain ⟨_, _, _, _, _, _, _, _, rfl⟩ := h'
  exact ⟨_, _, _, _, _, _, _, _, rfl⟩

theorem ParserLeaves.config (h : ParserLeaves s t) (p : ChestParams) : ParserLeaves s (callSetConfig p t) :=
  h.trans ⟨_, _, _, _, _, _, _, _, rfl⟩

theorem ParserLeaves.putDr (h : ParserLeaves s t) (idx : Nat) (e : DrEntry) : ParserLeaves s (putDr t idx e) :=
  h.trans ⟨_, _, _, _, _, _, _, _, rfl⟩

theorem ParserLeaves.ask {α : Type} {c : Call} {listed : List (Answer α)}
    {rest : List (Answer α) → Backends → Backends} {free : Answer α} (h : ParserLeaves s t) :
    ParserRun s (ask c listed rest free t) := by
  have called : ∀ {u}, CallLeaves c t u → ParserLeaves s u := by
    rintro u ⟨b, d, rfl⟩
    exact h.trans ⟨_, _, _, _, _, _, _, _, rfl⟩
  exact (ask_post c listed rest free t).mono (fun _ _ => called) (fun _ _ _ h => h.elim) fun _ => called

theorem ParserRun.next {α β : Type} {r : Run α} {f : α → State → Run β} (h : ParserRun s r)
    (hf : ∀ a t, ParserLeaves s t → ParserRun s (f a t)) : ParserRun s (r.next f) :=
  Run.Post.next h hf

theorem rxStep5_parserRun (idx k v : Nat) (c : Sci) (h : ParserLeaves s t) :
    ParserRun s (rxStep5 idx k v c t) := by
  unfold rxStep5
  refine .next (h.config _).ask fun _ _ h => .next h.ask fun r u h => ?_
  cases r with
  | none => exact h
  | some p =>
    have stored : ParserLeaves s { u with mem := putPayload u.mem (rxtbBase idx) p } :=
      h.trans ⟨_, _, _, _, _, _, _, _, rfl⟩
    exact stored.putDr idx _

theorem rxStep4_parserRun (idx k st l : Nat) (c : Sci) (crc : CrcBits) (h : ParserLeaves s t) :
    ParserRun s (rxStep4 idx k st l c crc t) := by
  have based := h.putDr idx (recordSpanBasis (drAt t idx) c crc (rxDataStart idx t))
  unfold rxStep4
  simp only
  split
  · exact based.putDr idx _
  · refine .next (.next based.ask fun _ _ h => h) fun v u h => ?_
    have granted := h.putDr idx { drAt u idx with dataNprb := BitVec.ofNat 8 v }
    split
    · exact granted
    · exact rxStep5_parserRun idx k v c granted

theorem rxStep3_parserRun (idx k cs : Nat) (bits : ControlBits) (crc : CrcBits) (h : ParserLeaves s t) :
    ParserRun s (rxStep3 idx k cs bits crc t) := by
  unfold rxStep3
  split
  · exact h
  split
  · exact h
  · exact rxStep4_parserRun _ _ _ _ _ _ (h.putDr idx _)

theorem scanShift_parserRun (idx k cs : Nat) (h : ParserLeaves s t) :
    ParserRun s (scanShift idx k cs t) := by
  have shifted : ParserLeaves s { t with psShift := BitVec.ofNat 2 k } :=
    h.trans ⟨_, _, _, _, _, _, _, _, rfl⟩
  unfold scanShift
  refine .next (shifted.config _).ask fun _ _ h => .next h.ask fun r _ h => ?_
  cases r with
  | none => exact h
  | some p => exact rxStep3_parserRun idx k cs p.1 p.2 h

theorem scanShifts_parserRun (idx : Nat) (l : List Nat) :
    ∀ (k : Nat) {t : State}, ParserLeaves s t → ParserRun s (scanShifts idx k l t) := by
  induction l with
  | nil => exact fun _ _ h => h
  | cons cs rest ih => exact fun k _ h => (scanShift_parserRun idx k cs h).next fun _ _ h => ih (k + 1) h

theorem scan_parserRun (idx : Nat) (h : ParserLeaves s t) : ParserRun s (scan idx t) :=
  scanShifts_parserRun idx _ 0 ((h.putDr idx {}).trans ⟨_, _, _, _, _, _, _, _, rfl⟩)

theorem scanList_parserRun (l : List Nat) :
    ∀ {t : State}, ParserLeaves s t → ParserRun s (scanList l t) := by
  induction l with
  | nil => exact fun h => h
  | cons idx rest ih => exact fun h => (scan_parserRun idx h).next fun _ _ h => ih h

/-! ### What leaves the frame or makes it `EMPTY` -/

/-- From `s` to `t` the frame stayed where it was, or there is none any more. -/
def FrameKept (s t : State) : Prop := t.frState = s.frState ∨ t.frState = .empty

/-- Wherever the run ends, the frame has stayed or there is none. -/
def KeepingRun (s : State) (r : Run Unit) : Prop :=
  r.Post (fun _ t => FrameKept s t) (fun _ _ t => FrameKept s t) (FrameKept s)

theorem KeepingRun.finish {r : Run Unit} (h : KeepingRun s r) : FrameKept s (finish r) := by
  cases r <;> exact h

/-- Termination leaves no frame (44_scheduler.md R232). -/
theorem KeepingRun.runScheduler {r : Run Unit} (h : KeepingRun s r) : FrameKept s (runScheduler r) := by
  cases r with
  | value x t => exact h
  | raised k i t => exact .inr rfl
  | hung t => exact h

theorem CodecRun.keeping {r : Run Unit} (h : CodecRun s r) : KeepingRun s r := by
  refine h.mono (fun _ t ht => ?_) (fun _ _ t ht => .inl (ht.2 ▸ rfl)) fun _ ht => ht.elim
  obtain ⟨_, _, _, rfl⟩ := ht
  exact .inl rfl

theorem PoolRun.keeping {r : Run Unit} (h : PoolRun s r) : KeepingRun s r := by
  refine h.mono (fun _ t ht => ?_) (fun _ _ t ht => .inl (ht.2 ▸ rfl)) fun _ ht => ht.elim
  obtain ⟨_, -, rfl⟩ := ht
  exact .inl rfl

theorem ParserRun.keeping {r : Run Unit} (h : ParserRun s r) : KeepingRun s r := by
  have kept : ∀ {t}, ParserLeaves s t → FrameKept s t := by
    rintro t ⟨_, _, _, _, _, _, _, _, rfl⟩
    exact .inl rfl
  exact h.mono (fun _ _ => kept) (fun _ _ _ => kept) fun _ => kept

theorem ruleCellSet_keeping (s : State) : KeepingRun s (ruleCellSet s) := by
  refine (ruleCellSet_post s).mono (fun _ t ht => ?_) (fun _ _ t ht => .inl (ht.2 ▸ rfl)) fun _ ht => ht.elim
  obtain ⟨-, _, _, _, _, _, _, rfl⟩ := ht
  exact .inr rfl

theorem ruleRxDemod_keeping (s : State) : KeepingRun s (ruleRxDemod s) := by
  refine (ruleRxDemod_post s).mono (fun _ t ht => ?_) (fun _ _ _ ht => ht.elim) fun t ht => ?_
  · obtain ⟨_, _, _, _, _, rfl⟩ := ht
    exact .inl rfl
  · obtain ⟨_, _, _, _, rfl⟩ := ht
    exact .inl rfl

theorem ruleRadioOpen_keeping (s : State) : KeepingRun s (ruleRadioOpen s) := by
  refine (ruleRadioOpen_post s).mono (fun _ t ht => ?_) (fun _ _ t ht => ?_) fun t ht => ?_
  · obtain ⟨_, _, _, _, -, rfl⟩ := ht
    exact .inl rfl
  · obtain ⟨-, _, _, _, _, -, rfl⟩ := ht
    exact .inl rfl
  · obtain ⟨_, _, _, _, -, rfl⟩ := ht
    exact .inl rfl

theorem ruleSchStart_keeping (s : State) : KeepingRun s (ruleSchStart s) := by
  refine (ruleSchStart_post s).mono (fun _ t ht => ?_) (fun _ _ t ht => ?_) fun t ht => ?_
  · obtain ⟨_, _, _, _, _, -, -, -, rfl⟩ := ht
    exact .inl rfl
  · obtain ⟨-, -, _, _, _, -, rfl⟩ := ht
    exact .inl rfl
  · obtain ⟨_, _, _, -, rfl⟩ := ht
    exact .inl rfl

theorem ruleTick_keeping (hs : s.schState = .scheduled) : KeepingRun s (ruleTick s) := by
  have kept : ∀ {st t}, TickLeaves st s t → FrameKept s t := by
    rintro st t ⟨_, _, _, _, _, rfl, -⟩
    exact .inl rfl
  exact (ruleTick_post s hs).mono (fun _ _ => kept) (fun _ _ _ ht => ht.2.2.elim kept kept)
    fun _ ht => ht.elim kept kept

/-- The commands that move a frame forward. -/
def framerCommands : List Instr := [.frBuild, .frCtrl, .frData, .frMod]

/-- Every command but those of the framer leaves the frame or makes it `EMPTY`. -/
theorem commandRule_frameKept {i : Instr} (hi : i ∉ framerCommands) (s : State) :
    FrameKept s (commandRule i s) := by
  cases i with
  | frBuild | frCtrl | frData | frMod => exact absurd (by decide) hi
  | cellSet => exact (ruleCellSet_keeping s).finish
  | poolDefault => exact (rulePoolDefault_poolRun s).keeping.finish
  | poolCheck => exact (rulePoolCheck_poolRun s).keeping.finish
  | resv2code => exact (ruleResv2code_codecRun s).keeping.finish
  | code2resv => exact (ruleCode2resv_codecRun s).keeping.finish
  | rivEnc => exact (ruleRivEnc_codecRun s).keeping.finish
  | rivDec => exact (ruleRivDec_codecRun s).keeping.finish
  | sciPack => exact (ruleSciPack_codecRun s).keeping.finish
  | sciUnpack => exact (ruleSciUnpack_codecRun s).keeping.finish
  | crc2id => exact (ruleCrc2id_codecRun s).keeping.finish
  | rxDemod => exact (ruleRxDemod_keeping s).finish
  | parseSubch idx => exact (scan_parserRun idx (.refl s)).keeping.finish
  | parseAll => exact (scanList_parserRun _ (.refl s)).keeping.finish
  | radioOpen => exact (ruleRadioOpen_keeping s).finish
  | schStart =>
    simp only [commandRule]
    split
    · exact (ruleSchStart_keeping s).runScheduler
    · exact .inl rfl
  | frClear | softReset => exact .inr rfl
  | nop | rxLoop | rxClear | radioClose | schCancel | clrFlags => exact .inl rfl

theorem engineTurn_frameKept (s : State) : FrameKept s (engineTurn s) := by
  unfold engineTurn
  split
  next running =>
    have hs : s.schState = .scheduled := by simp_all
    unfold tick
    split
    · exact .inr rfl
    · exact (ruleTick_keeping hs).runScheduler
  next => exact .inl rfl

theorem storeWord_frameKept (a : WordNo) (v : Word) (s : State) : FrameKept s (storeWord a v s) := by
  rcases storeWord_cases a v s with ⟨r, e⟩ | ⟨k, -, e⟩ | e
  · exact .inl (e ▸ congrArg State.frState (writeReg_frame r v s) :)
  · exact .inl (e ▸ rfl)
  · exact .inl (congrArg State.frState e)

/-! ### What moves a frame forward -/

/-- From `s` to `t` the frame goes forward along the linear order, in a block that would accept a framer command;
never to `MODULATED`. -/
structure FrameForward (s t : State) : Prop where
  move : (s.frState, t.frState) ∈
    [(FrState.empty, FrState.controlPlaced), (.empty, .dataPlaced), (.empty, .ready),
      (.controlPlaced, .dataPlaced), (.dataPlaced, .ready)]
  idle : s.status.busy = false
  cellv : s.status.cellv = true
  sound : s.status.frfail = false

/-- Where the frame can be after a framer command is where its rule can end. -/
theorem finishFramer_frState {P : FrState → Prop} {r : Run Unit}
    (h : r.Post (fun _ t => P t.frState) (fun _ _ t => P t.frState) fun t => P t.frState) :
    P (finishFramer r).frState := by
  cases r <;> exact h

theorem ruleFrCtrl_frState (s : State) :
    (finishFramer (ruleFrCtrl s)).frState = s.frState ∨
      (finishFramer (ruleFrCtrl s)).frState = .controlPlaced := by
  refine finishFramer_frState (P := fun fr => fr = s.frState ∨ fr = .controlPlaced)
    ((ruleFrCtrl_post s).mono (fun _ t ht => .inr ?_) (fun _ _ t ht => .inl ?_) fun t ht => .inl ?_)
  · obtain ⟨-, _, _, _, _, _, _, _, _, _, -, rfl⟩ := ht
    rfl
  · obtain ⟨-, _, _, _, _, _, -, rfl⟩ := ht
    rfl
  · obtain ⟨_, _, _, _, _, _, _, _, -, rfl⟩ := ht
    rfl

theorem ruleFrData_frState (s : State) :
    (finishFramer (ruleFrData s)).frState = s.frState ∨
      (finishFramer (ruleFrData s)).frState = .dataPlaced := by
  refine finishFramer_frState (P := fun fr => fr = s.frState ∨ fr = .dataPlaced)
    ((ruleFrData_post s).mono (fun _ t ht => .inr ?_) (fun _ _ t ht => .inl ?_) fun t ht => .inl ?_)
  · obtain ⟨_, _, _, _, _, _, _, -, -, -, rfl⟩ := ht
    rfl
  · obtain ⟨-, _, _, _, _, -, rfl⟩ := ht
    rfl
  · obtain ⟨_, _, _, _, _, _, -, rfl⟩ := ht
    rfl

theorem frStep6_frState (s : State) :
    (finishFramer (frStep6 s)).frState = s.frState ∨ (finishFramer (frStep6 s)).frState = .ready := by
  refine finishFramer_frState (P := fun fr => fr = s.frState ∨ fr = .ready)
    ((frStep6_post s).mono (fun _ t ht => .inr ?_) (fun _ _ _ ht => ht.elim) fun t ht => .inl ?_)
  · obtain ⟨_, _, _, _, -, rfl⟩ := ht
    rfl
  · obtain ⟨_, _, _, -, rfl⟩ := ht
    rfl

theorem ruleFrBuild_frState (s : State) :
    let fr := (finishFramer (ruleFrBuild s)).frState
    fr = s.frState ∨ fr = .controlPlaced ∨ fr = .dataPlaced ∨ fr = .ready := by
  refine finishFramer_frState
    (P := fun fr => fr = s.frState ∨ fr = .controlPlaced ∨ fr = .dataPlaced ∨ fr = .ready)
    ((ruleFrBuild_post s).mono (fun _ t ht => ?_) (fun _ _ t ht => ?_) fun t ht => ?_)
  · exact .inr (.inr (.inr ht.1.frState))
  · exact ht.2.2.imp FramerLeaves.frState fun h => .inl h.frState
  · exact ht.2.imp FramerLeaves.frState fun h => h.imp FramerLeaves.frState fun h => .inl h.frState

/-- An accepted framer command leaves the frame or moves it forward. -/
theorem framerCommand_forward {i : Instr} (hi : i ∈ framerCommands) (hb : s.status.busy = false)
    (ha : acceptable i s = true) :
    FrameKept s (commandRule i (accept s)) ∨ FrameForward s (commandRule i (accept s)) := by
  simp only [framerCommands, List.mem_cons, List.not_mem_nil, or_false] at hi
  rcases hi with rfl | rfl | rfl | rfl
  · obtain ⟨cellv, -, sound, empty⟩ := acceptable_frBuild_iff.mp ha
    rcases ruleFrBuild_frState (accept s) with h | h | h | h
    · exact .inl (.inl h)
    all_goals exact .inr ⟨by simp [commandRule, h, empty], hb, cellv, sound⟩
  · obtain ⟨cellv, -, sound, empty⟩ := acceptable_frCtrl_iff.mp ha
    exact (ruleFrCtrl_frState (accept s)).imp .inl fun h =>
      ⟨by simp [commandRule, h, empty], hb, cellv, sound⟩
  · obtain ⟨cellv, -, sound, placed⟩ := acceptable_frData_iff.mp ha
    exact (ruleFrData_frState (accept s)).imp .inl fun h =>
      ⟨by simp [commandRule, h, placed], hb, cellv, sound⟩
  · obtain ⟨cellv, sound, placed⟩ := acceptable_frMod_iff.mp ha
    exact (frStep6_frState (accept s)).imp .inl fun h =>
      ⟨by simp [commandRule, h, placed], hb, cellv, sound⟩

/-! ### Host writes, moves and steps -/

/-- A host write moves a frame forward only if it writes a framer command's word to `CMD`. -/
theorem hostWrite_frame {a : WordNo} {v : Word} (h : hostWrite a v s = .next t) :
    FrameKept s t ∨ FrameForward s t ∧ ∃ i ∈ framerCommands, a = cmdWord ∧ v = encode i := by
  cases hb : s.status.busy with
  | true =>
    rcases hostWrite_busy a v hb with e | e
    · cases e.symm.trans h
      exact .inl (.inl rfl)
    · cases e.symm.trans h
      exact .inl (.inl rfl)
  | false =>
    by_cases ha : a = cmdWord
    · subst ha
      rw [hostWrite_cmdWord] at h
      rcases issueWord_idle_cases v hb with ⟨k, w, -, e⟩ | ⟨i, hd, -, hacc, e⟩
      · cases e.symm.trans h
        exact .inl (.inl rfl)
      · cases e.symm.trans h
        by_cases hi : i ∈ framerCommands
        · exact (framerCommand_forward hi hb hacc).imp_right fun forward =>
            ⟨forward, i, hi, rfl, eq_encode_of_decode hd⟩
        · exact .inl (commandRule_frameKept hi (accept s))
    · cases (hostWrite_idle hb ha v).symm.trans h
      exact .inl (storeWord_frameKept a v s)

/-- A move of an agent moves a frame forward only if it writes a framer command's word to `CMD`. -/
theorem makeMove_frame {m : Move} (h : makeMove m s = .next t) :
    FrameKept s t ∨ FrameForward s t ∧ ∃ i ∈ framerCommands, m = .hostWrite cmdWord (encode i) := by
  cases m with
  | hostWrite a v =>
    cases hr : s.inRst with
    | true =>
      cases (makeMove_hostWrite_held hr).symm.trans h
      exact .inl (.inl rfl)
    | false =>
      rw [makeMove_hostWrite hr] at h
      refine (hostWrite_frame h).imp_right ?_
      rintro ⟨forward, i, hi, rfl, rfl⟩
      exact ⟨forward, i, hi, rfl⟩
  | hostRead a | cancelIn level | rxIn x =>
    cases h
    exact .inl (.inl rfl)
  | rstIn level =>
    cases h
    cases level with
    | true => exact .inl (.inr rfl)
    | false => exact .inl (.inl rfl)
  | engine =>
    cases h
    split
    next => exact .inl (.inl rfl)
    next => exact .inl (engineTurn_frameKept s)

end Sys2Proof.Machine

namespace Sys2Proof

open Machine

/-- Settles O56: a step is a move of an agent, and a move that does not write a framer command leaves the frame or
makes it `EMPTY` (`makeMove_frame`). -/
theorem frameStateIsLinear : Obligations.FrameStateIsLinear := by
  intro s t h
  cases hm : s.moves with
  | nil =>
    rw [step_nil hm] at h
    rcases makeMove_frame h with kept | ⟨-, i, -, hi⟩
    · exact kept.imp_right .inl
    · cases hi
  | cons m rest =>
    rw [step_cons hm] at h
    rcases makeMove_frame h with kept | ⟨⟨move, idle, cellv, sound⟩, i, hi, rfl⟩
    · exact kept.imp_right .inl
    · exact .inr (.inr ⟨move, idle, cellv, sound, i, rest, hi, rfl⟩)

end Sys2Proof
end

section
/-! PROOF. 43_parser_rx.md R190, R194 to R199: what a scan needs of the listed answers. A shift asks for two equalized
grids at most and for one answer of each other operation; so a scan never raises, and one that finds enough answers
listed ends, with no free value drawn. -/

namespace Sys2Proof.Machine

variable {s t : State} {p : Prop} {draws e c v d : Nat}

/-! ### Listed answers -/

theorem Answered.uncons {α : Type} {n : Nat} {q : List (Answer α)} (h : Answered (n + 1) q) :
    ∃ a rest, q = .reply a :: rest ∧ Answered n rest := by
  obtain ⟨hlen, hall⟩ := h
  cases q with
  | nil => simp at hlen
  | cons x rest =>
    obtain ⟨a, rfl⟩ := hall x (by simp)
    exact ⟨a, rest, rfl, by simpa using hlen, fun y hy => hall y (by simp [hy])⟩

theorem Answered.mono {α : Type} {m n : Nat} {q : List (Answer α)} (h : Answered n q) (hm : m ≤ n) :
    Answered m q :=
  ⟨hm.trans h.1, fun x hx => h.2 x (List.take_subset_take_left q hm hx)⟩

/-- The next answers of the four operations a scan asks are listed: so many of each. -/
structure Supplied (e c v d : Nat) (b : Backends) : Prop where
  equalize : Answered e b.equalize
  control : Answered c b.decodeControl
  span : Answered v b.validSpan
  data : Answered d b.decodeData

/-- If `p`, there are enough answers listed, and no free value has been drawn yet beyond `draws`. -/
def Fed (p : Prop) (draws e c v d : Nat) (s : State) : Prop :=
  p → Supplied e c v d s.backends ∧ s.draws = draws

/-- The run does not raise; if `p`, it ends with a value, with so many answers still listed. -/
def FedRun {α : Type} (p : Prop) (draws e c v d : Nat) (r : Run α) : Prop :=
  r.Post (fun _ t => Fed p draws e c v d t) (fun _ _ _ => False) fun _ => ¬p

theorem Fed.mono {e' c' v' d' : Nat} (h : Fed p draws e c v d s) (he : e' ≤ e) (hc : c' ≤ c) (hv : v' ≤ v)
    (hd : d' ≤ d) : Fed p draws e' c' v' d' s := by
  intro hp
  obtain ⟨⟨equalize, control, span, data⟩, hdraws⟩ := h hp
  exact ⟨⟨equalize.mono he, control.mono hc, span.mono hv, data.mono hd⟩, hdraws⟩

theorem FedRun.next {α β : Type} {e' c' v' d' : Nat} {r : Run α} {f : α → State → Run β}
    (h : FedRun p draws e c v d r) (hf : ∀ a t, Fed p draws e c v d t → FedRun p draws e' c' v' d' (f a t)) :
    FedRun p draws e' c' v' d' (r.next f) :=
  Run.Post.next h hf

/-! ### The calls of a scan -/

theorem fedRun_ask_of_not {α : Type} (hp : ¬p) (call : Call) (listed : List (Answer α))
    (rest : List (Answer α) → Backends → Backends) (free : Answer α) :
    FedRun p draws e c v d (ask call listed rest free s) :=
  (ask_post call listed rest free s).mono (fun _ _ _ => fun h => absurd h hp) (fun _ _ _ h => h) fun _ _ => hp

theorem askEqualize_fed (h : Fed p draws (e + 1) c v d s) : FedRun p draws e c v d (askEqualize s) := by
  by_cases hp : p
  · obtain ⟨⟨equalize, control, span, data⟩, hdraws⟩ := h hp
    obtain ⟨a, rest, listed, equalize⟩ := equalize.uncons
    rw [askEqualize, listed, ask_reply]
    exact fun _ => ⟨⟨equalize, control, span, data⟩, hdraws⟩
  · exact fedRun_ask_of_not hp _ _ _ _

theorem askDecodeControl_fed (eq : Grid) (off : Nat) (h : Fed p draws e (c + 1) v d s) :
    FedRun p draws e c v d (askDecodeControl eq off s) := by
  by_cases hp : p
  · obtain ⟨⟨equalize, control, span, data⟩, hdraws⟩ := h hp
    obtain ⟨a, rest, listed, control⟩ := control.uncons
    rw [askDecodeControl, listed, ask_reply]
    exact fun _ => ⟨⟨equalize, control, span, data⟩, hdraws⟩
  · exact fedRun_ask_of_not hp _ _ _ _

theorem askValidSpan_fed (req : Nat) (h : Fed p draws e c (v + 1) d s) :
    FedRun p draws e c v d (askValidSpan req s) := by
  by_cases hp : p
  · obtain ⟨⟨equalize, control, span, data⟩, hdraws⟩ := h hp
    obtain ⟨a, rest, listed, span⟩ := span.uncons
    rw [askValidSpan, listed, ask_reply]
    exact fun _ => ⟨⟨equalize, control, span, data⟩, hdraws⟩
  · exact FedRun.next (fedRun_ask_of_not hp _ _ _ _) fun _ _ h => h

theorem askDecodeData_fed (eq : Grid) (cfg : DataConfig) (h : Fed p draws e c v (d + 1) s) :
    FedRun p draws e c v d (askDecodeData eq cfg s) := by
  by_cases hp : p
  · obtain ⟨⟨equalize, control, span, data⟩, hdraws⟩ := h hp
    obtain ⟨a, rest, listed, data⟩ := data.uncons
    rw [askDecodeData, listed, ask_reply]
    exact fun _ => ⟨⟨equalize, control, span, data⟩, hdraws⟩
  · exact fedRun_ask_of_not hp _ _ _ _

/-! ### The steps of a scan -/

theorem rxStep5_fed (idx k w : Nat) (sci : Sci) (h : Fed p draws (e + 1) c v (d + 1) s) :
    FedRun p draws e c v d (rxStep5 idx k w sci s) := by
  unfold rxStep5
  refine .next (askEqualize_fed h) fun eq t h => .next (askDecodeData_fed _ _ h) fun r u h => ?_
  cases r with
  | none => exact h
  | some payload => exact h

theorem rxStep4_fed (idx k st l : Nat) (sci : Sci) (crc : CrcBits)
    (h : Fed p draws (e + 1) c (v + 1) (d + 1) s) : FedRun p draws e c v d (rxStep4 idx k st l sci crc s) := by
  unfold rxStep4
  simp only
  split
  · exact h.mono (by omega) le_rfl (by omega) (by omega)
  · refine .next (askValidSpan_fed _ h) fun w t h => ?_
    split
    · exact h.mono (by omega) le_rfl le_rfl (by omega)
    · exact rxStep5_fed idx k w sci h

theorem rxStep3_fed (idx k cs : Nat) (bits : ControlBits) (crc : CrcBits)
    (h : Fed p draws (e + 1) c (v + 1) (d + 1) s) : FedRun p draws e c v d (rxStep3 idx k cs bits crc s) := by
  have silent := h.mono (by omega : e ≤ e + 1) le_rfl (by omega : v ≤ v + 1) (by omega : d ≤ d + 1)
  unfold rxStep3
  split
  · exact silent
  split
  · exact silent
  · exact rxStep4_fed idx k _ _ _ crc h

theorem scanShift_fed (idx k cs : Nat) (h : Fed p draws (e + 2) (c + 1) (v + 1) (d + 1) s) :
    FedRun p draws e c v d (scanShift idx k cs s) := by
  unfold scanShift
  refine .next (askEqualize_fed h) fun eq t h => .next (askDecodeControl_fed _ _ h) fun r u h => ?_
  cases r with
  | none => exact h.mono (by omega) le_rfl (by omega) (by omega)
  | some message => exact rxStep3_fed idx k cs message.1 message.2 h

theorem scanShifts_fed (idx : Nat) (l : List Nat) :
    ∀ (k : Nat) {s : State}, Fed p draws (e + 2 * l.length) (c + l.length) (v + l.length) (d + l.length) s →
      FedRun p draws e c v d (scanShifts idx k l s) := by
  induction l with
  | nil => exact fun _ _ h => h
  | cons cs rest ih => exact fun k _ h => (scanShift_fed idx k cs h).next fun _ _ h => ih (k + 1) h

theorem scan_fed (idx : Nat) (h : Fed p draws (e + 8) (c + 4) (v + 4) (d + 4) s) :
    FedRun p draws e c v d (scan idx s) :=
  scanShifts_fed idx Config.shifts 0 h

theorem scanList_fed (l : List Nat) :
    ∀ {s : State}, Fed p draws (8 * l.length) (4 * l.length) (4 * l.length) (4 * l.length) s →
      FedRun p draws 0 0 0 0 (scanList l s) := by
  induction l with
  | nil => exact fun h => h
  | cons idx rest ih => exact fun h => (scan_fed idx h).next fun _ _ h => ih h

/-! ### How a scan ends -/

/-- A run that raises only where it may not, and finds what it asks for, ends with a value. -/
theorem FedRun.ended {r : Run Unit} (h : FedRun True draws e c v d r) :
    ∃ t, r = .value () t ∧ t.draws = draws := by
  cases r with
  | value a t => exact ⟨t, rfl, (h trivial).2⟩
  | raised => exact h.elim
  | hung => exact absurd trivial h

/-- Whatever is answered, the scans of a list of sub-channels do not raise (43_parser_rx.md R190). -/
theorem scanList_ne_raised {l : List Nat} {k : ErrKind} {i : Word} : scanList l s ≠ .raised k i t := by
  intro h
  have run : FedRun False 0 0 0 0 0 (scanList l s) := scanList_fed l False.elim
  rw [h] at run
  exact run

end Sys2Proof.Machine
end

section
/-! PROOF. 43_parser_rx.md R191 to R193, R202: the grid commands, and `PARSE_ALL` followed beside the commands
`PARSE_SUBCH` that it stands for. The steps of a scan end alike in states that differ in nothing but pulses, so each
command takes up the scan where the one before it stopped. -/

namespace Sys2Proof.Machine

variable {s t u : State}

/-! ### The grid commands (43_parser_rx.md R191) -/

theorem ruleRxDemod_of_answer {g : Grid} {q : List (Answer Grid)} (h : s.backends.demodulate = .reply g :: q) :
    ruleRxDemod s = done
      { s with
        rxsamp := s.inRx
        rxgrid := g
        backends := { s.backends with demodulate := q }
        out := .call (.demodulate s.inRx) :: s.out } := by
  simp only [ruleRxDemod, askDemodulate, h, ask_reply, Run.next_value]
  rfl

/-! ### What pulses leave alone -/

theorem SameButPulses.fields (h : SameButPulses s t) :
    t.pool = s.pool ∧ t.rxSfidx = s.rxSfidx ∧ t.rxgrid = s.rxgrid ∧ t.mem = s.mem ∧ t.backends = s.backends ∧
      t.draws = s.draws ∧ ∀ i, drAt t i = drAt s i := by
  obtain ⟨_, _, _, _, _, _, -, rfl⟩ := h
  exact ⟨rfl, rfl, rfl, rfl, rfl, rfl, fun _ => rfl⟩

theorem SameButPulses.symm (h : SameButPulses s t) : SameButPulses t s := by
  obtain ⟨_, _, _, _, _, o, ho, rfl⟩ := h
  exact ⟨s.err, s.errInfo, s.status.errv, s.status.busy, s.status.done, s.out, ho.symm, rfl⟩

theorem SameButPulses.putDr (h : SameButPulses s t) (i : Nat) (e : DrEntry) :
    SameButPulses (putDr s i e) (putDr t i e) := by
  obtain ⟨err, info, errv, busy, finished, o, ho, rfl⟩ := h
  exact ⟨err, info, errv, busy, finished, o, ho, rfl⟩

theorem SameButPulses.config (h : SameButPulses s t) (p : ChestParams) :
    SameButPulses (callSetConfig p s) (callSetConfig p t) := by
  obtain ⟨err, info, errv, busy, finished, o, ho, rfl⟩ := h
  exact ⟨err, info, errv, busy, finished, _, withoutDone_cons _ ho, rfl⟩

theorem SameButPulses.withMem (h : SameButPulses s t) (m : List Host.Cell) :
    SameButPulses { s with mem := m } { t with mem := m } := by
  obtain ⟨err, info, errv, busy, finished, o, ho, rfl⟩ := h
  exact ⟨err, info, errv, busy, finished, o, ho, rfl⟩

theorem SameButPulses.atShift (h : SameButPulses s t) (k : BitVec 2) :
    SameButPulses { s with psShift := k } { t with psShift := k } := by
  obtain ⟨err, info, errv, busy, finished, o, ho, rfl⟩ := h
  exact ⟨err, info, errv, busy, finished, o, ho, rfl⟩

theorem SameButPulses.atSubchannel (h : SameButPulses s t) (i : BitVec 5) :
    SameButPulses { s with psIdx := i } { t with psIdx := i } := by
  obtain ⟨err, info, errv, busy, finished, o, ho, rfl⟩ := h
  exact ⟨err, info, errv, busy, finished, o, ho, rfl⟩

/-! ### The steps of a scan beside other pulses (43_parser_rx.md R194 to R199) -/

theorem askEqualize_same (h : SameButPulses s t) : (askEqualize s).Same (askEqualize t) := by
  obtain ⟨-, -, hg, -, hb, hd, -⟩ := h.fields
  rw [askEqualize, askEqualize, hg, hb, hd]
  exact .ask h _ _ _ _

theorem askDecodeControl_same (eq : Grid) (off : Nat) (h : SameButPulses s t) :
    (askDecodeControl eq off s).Same (askDecodeControl eq off t) := by
  obtain ⟨-, -, -, -, hb, hd, -⟩ := h.fields
  rw [askDecodeControl, askDecodeControl, hb, hd]
  exact .ask h _ _ _ _

theorem askDecodeData_same (eq : Grid) (cfg : DataConfig) (h : SameButPulses s t) :
    (askDecodeData eq cfg s).Same (askDecodeData eq cfg t) := by
  obtain ⟨-, -, -, -, hb, hd, -⟩ := h.fields
  rw [askDecodeData, askDecodeData, hb, hd]
  exact .ask h _ _ _ _

theorem askValidSpan_same (req : Nat) (h : SameButPulses s t) :
    (askValidSpan req s).Same (askValidSpan req t) := by
  obtain ⟨-, -, -, -, hb, -, -⟩ := h.fields
  rw [askValidSpan, askValidSpan, hb]
  exact .next (.ask h _ _ _ _) fun _ _ _ h => ⟨rfl, h⟩

theorem rxStep5_same (idx k v : Nat) (c : Sci) (h : SameButPulses s t) :
    (rxStep5 idx k v c s).Same (rxStep5 idx k v c t) := by
  obtain ⟨hp, hsf, -, -, -, -, hdr⟩ := h.fields
  have config : rxDataConfig idx v c t = rxDataConfig idx v c s := by
    rw [rxDataConfig, rxDataConfig, rxDataStart, rxDataStart, opW, opW, hp, hsf, hdr]
  rw [rxStep5, rxStep5, config]
  refine .next (askEqualize_same (h.config _)) fun eq s' t' h => .next (askDecodeData_same _ _ h) fun r u w h => ?_
  cases r with
  | none => exact ⟨rfl, h⟩
  | some p =>
    obtain ⟨-, -, -, hm, -, -, hdr⟩ := h.fields
    rw [hm, hdr]
    exact ⟨rfl, (h.withMem _).putDr _ _⟩

theorem rxStep4_same (idx k st l : Nat) (c : Sci) (crc : CrcBits) (h : SameButPulses s t) :
    (rxStep4 idx k st l c crc s).Same (rxStep4 idx k st l c crc t) := by
  obtain ⟨hp, -, -, -, -, -, hdr⟩ := h.fields
  have start : rxDataStart idx t = rxDataStart idx s := by rw [rxDataStart, rxDataStart, opW, opW, hp]
  have request : rxReq idx st l t = rxReq idx st l s := by rw [rxReq, rxReq, opW, opW, opP0, opP0, hp]
  have counted : ∀ (x : BitVec 8) {s t : State}, SameButPulses s t → SameButPulses
      (putDr s idx { drAt s idx with dataNprb := x }) (putDr t idx { drAt t idx with dataNprb := x }) := by
    intro x s t h
    obtain ⟨-, -, -, -, -, -, hdr⟩ := h.fields
    rw [hdr]
    exact h.putDr _ _
  rw [rxStep4, rxStep4, start, request, hdr]
  have based := h.putDr idx (recordSpanBasis (drAt s idx) c crc (rxDataStart idx s))
  refine .ite (fun _ => ⟨rfl, counted 0 based⟩) fun _ => ?_
  refine .next (askValidSpan_same _ based) fun v s' t' h => ?_
  exact .ite (fun _ => ⟨rfl, counted _ h⟩) fun _ => rxStep5_same idx k v c (counted _ h)

theorem rxStep3_same (idx k cs : Nat) (bits : ControlBits) (crc : CrcBits) (h : SameButPulses s t) :
    (rxStep3 idx k cs bits crc s).Same (rxStep3 idx k cs bits crc t) := by
  obtain ⟨hp, -, -, -, -, -, hdr⟩ := h.fields
  have count : opN t = opN s := by rw [opN, opN, hp]
  rw [rxStep3, rxStep3, count]
  cases unpack (bitsOf Config.sciLen bits.toNat) 1 (opN s) with
  | none => exact ⟨rfl, h⟩
  | some c =>
    simp only
    cases rivDecode c.riv.toNat (opN s) with
    | none => exact ⟨rfl, h⟩
    | some pair =>
      simp only [hdr]
      exact rxStep4_same idx k _ _ c crc (h.putDr _ _)

theorem scanShift_same (idx k cs : Nat) (h : SameButPulses s t) :
    (scanShift idx k cs s).Same (scanShift idx k cs t) := by
  have offset : rxCtrlOff idx { t with psShift := BitVec.ofNat 2 k } =
      rxCtrlOff idx { s with psShift := BitVec.ofNat 2 k } := by
    obtain ⟨_, _, _, _, _, _, -, rfl⟩ := h
    rfl
  rw [scanShift, scanShift, offset]
  refine .next (askEqualize_same ((h.atShift _).config _)) fun eq s' t' h =>
    .next (askDecodeControl_same _ _ h) fun r u w h => ?_
  cases r with
  | none => exact ⟨rfl, h⟩
  | some message => exact rxStep3_same idx k cs message.1 message.2 h

theorem scanShifts_same (idx : Nat) (l : List Nat) :
    ∀ (k : Nat) {s t : State}, SameButPulses s t → (scanShifts idx k l s).Same (scanShifts idx k l t) := by
  induction l with
  | nil => exact fun k s t h => ⟨rfl, h⟩
  | cons cs rest ih => exact fun k s t h => (scanShift_same idx k cs h).next fun _ _ _ h => ih (k + 1) h

theorem scan_same (idx : Nat) (h : SameButPulses s t) : (scan idx s).Same (scan idx t) :=
  scanShifts_same idx _ 0 ((h.putDr idx {}).atSubchannel _)

/-! ### One scan after another, or one command after another (43_parser_rx.md R202) -/

theorem Run.Same.value_left {α : Type} {r : Run α} {a : α} (h : (Run.value a s).Same r) :
    ∃ u, r = .value a u ∧ SameButPulses s u := by
  cases r with
  | value b u => exact ⟨u, h.1 ▸ rfl, h.2⟩
  | raised => exact h.elim
  | hung => exact h.elim

/-- A run of two pieces that ends with a value has ended the first with one. -/
theorem Run.next_eq_value {α β : Type} {r : Run α} {f : α → State → Run β} {b : β}
    (h : r.next f = .value b t) : ∃ a u, r = .value a u ∧ f a u = .value b t := by
  cases r with
  | value a u => exact ⟨a, u, rfl, h⟩
  | raised => cases h
  | hung => cases h

/-- Between two commands of the parser: not busy, and both parse commands would be accepted. -/
structure ReadyToParse (n : Nat) (s : State) : Prop where
  idle : s.status.busy = false
  cellv : s.status.cellv = true
  poolv : s.status.poolv = true
  count : opN s = n

theorem ReadyToParse.afterOk_of_scan {n idx : Nat} (h : ReadyToParse n s)
    (hu : scan idx (accept s) = .value () u) : ReadyToParse n (afterOk u) := by
  have leaves := scan_parserRun idx (ParserLeaves.refl (accept s))
  rw [hu] at leaves
  obtain ⟨_, _, _, _, _, _, _, _, rfl⟩ := leaves
  exact ⟨rfl, h.cellv, h.poolv, h.count⟩

/-- The scans of a list of sub-channels in one command, and the commands `PARSE_SUBCH` one by one, from states
that are the same but for pulses. -/
theorem foldl_parseSubch {n : Nat} (rest : List Nat) :
    ∀ (idx : Nat) {s t u : State}, (∀ i ∈ idx :: rest, i < n) → ReadyToParse n t → SameButPulses s (accept t) →
      scanList (idx :: rest) s = .value () u →
      ∃ w, ((idx :: rest).map Instr.parseSubch).foldl execAfter (.next t) = .next (afterOk w) ∧
        SameButPulses u w := by
  induction rest with
  | nil =>
    intro idx s t u hi ht h hu
    obtain ⟨_, u', hscan, hdone⟩ := Run.next_eq_value hu
    cases hdone
    have beside := scan_same idx h
    rw [hscan] at beside
    obtain ⟨w, hw, same⟩ := beside.value_left
    refine ⟨w, ?_, same⟩
    have accepted := exec_parseSubch ht.idle (ht.count.symm ▸ hi idx List.mem_cons_self) ht.cellv ht.poolv
    exact accepted.trans (congrArg (fun r => Host.Outcome.next (finish r)) hw)
  | cons idx' rest ih =>
    intro idx s t u hi ht h hu
    obtain ⟨_, u', hscan, hrest⟩ := Run.next_eq_value hu
    have beside := scan_same idx h
    rw [hscan] at beside
    obtain ⟨w, hw, same⟩ := beside.value_left
    obtain ⟨w', fold, same'⟩ := ih idx' (fun i hi' => hi i (List.mem_cons_of_mem _ hi')) (ht.afterOk_of_scan hw)
      same.reaccepted hrest
    refine ⟨w', ?_, same'⟩
    have first : execAfter (.next t) (.parseSubch idx) = .next (afterOk w) :=
      (exec_parseSubch ht.idle (ht.count.symm ▸ hi idx List.mem_cons_self) ht.cellv ht.poolv).trans
        (congrArg (fun r => Host.Outcome.next (finish r)) hw)
    rw [List.map_cons, List.foldl_cons, first]
    exact fold

end Sys2Proof.Machine

namespace Sys2Proof

open Machine

/-- Settles O42: each command is its rule on the accepted state; what clearing leaves of the memory is
`readByte_clearRxtb`. -/
theorem receiveGridCommands : Obligations.ReceiveGridCommands := by
  intro s hb
  refine ⟨fun g q hc hq => ⟨hostWrite_encode (i := .rxDemod) rfl s, ?demodulated⟩,
    fun hc hf => ⟨hostWrite_encode (i := .rxLoop) rfl s, exec_rxLoop hb hc hf⟩,
    hostWrite_encode (i := .rxClear) rfl s, clearRxtb s.mem, exec_rxClear hb, readByte_clearRxtb s.mem⟩
  case demodulated =>
    rw [exec_rxDemod hb hc, ruleRxDemod_of_answer (s := accept s) hq]
    rfl

/-- Settles O45: the commands are followed beside the scans of `PARSE_ALL` (`foldl_parseSubch`), which ended, as they
neither hung nor can raise. -/
theorem parseAllIsEachInOrder : Obligations.ParseAllIsEachInOrder := by
  intro s t hb hc hp hn ht hidle
  rw [exec_parseAll hb hc hp] at ht
  cases ht
  cases hrun : scanList (List.range (opN s)) (accept s) with
  | raised k i u => exact absurd hrun scanList_ne_raised
  | hung u =>
    have waiting := scanList_statusKept (s := accept s) (List.range (opN s)) rfl
    rw [hrun] at hidle waiting
    have busy : u.status.busy = true := congrArg Status.busy waiting
    exact absurd (busy.symm.trans hidle) nofun
  | value x u =>
    obtain ⟨idx, rest, subchannels⟩ := List.exists_cons_of_ne_nil (l := List.range (opN s)) (by
      rw [ne_eq, List.range_eq_nil]
      exact Nat.ne_of_gt hn)
    rw [subchannels] at hrun
    obtain ⟨w, fold, same⟩ := foldl_parseSubch (n := opN s) rest idx
      (fun i hi => List.mem_range.mp (subchannels ▸ hi)) ⟨hb, hc, hp, rfl⟩ (SameButPulses.refl _) hrun
    obtain ⟨o, eq, pulses⟩ := same.symm.afterOk
    refine ⟨o, ?_, pulses⟩
    rw [show s.pool.nsubch.toNat = opN s from rfl, subchannels, fold, eq]
    rfl

end Sys2Proof
end

section
/-! PROOF. 43_parser_rx.md R190, R200, R202: what a scan leaves of the DecodeResult file and of the payload windows,
then the same of `PARSE_ALL`. That the answers suffice is `scanList_fed`; that nothing else changes is
`scanList_parserRun`. -/

namespace Sys2Proof.Machine

variable {s t u : State} {idx : Nat}

/-! ### One sub-channel (43_parser_rx.md R190, R200) -/

/-- What the scan of one sub-channel leaves: the other entries, an entry of its own as R200 says, and the memory
outside its window, or all of it where no data was decoded. -/
structure ScannedOne (idx : Nat) (s t : State) : Prop where
  others : ∀ j, j ≠ idx → drAt t j = drAt s j
  consistent : DrConsistent (drAt t idx)
  silent : (drAt t idx).ok = false → t.mem = s.mem
  wf : Memory.wf t.mem = true
  outside : ∀ a, ¬(byteAddr (rxtbBase idx) ≤ a ∧ a < byteAddr (rxtbBase idx) + tbBytes) →
    readByte t.mem a = readByte s.mem a

theorem ScanLeaves.scannedOne (hi : idx < 20) (hm : Memory.wf s.mem = true)
    (h : ScanLeaves idx (putDr s idx {}) t) : ScannedOne idx s t := by
  obtain ⟨e, m, pi, ps, cfg, b, d, o, stored, -, entry, rfl⟩ := h
  rw [putDr_putDr]
  rw [drAt_putDr_same _ _ hi] at entry
  have at_eq : ∀ j, drAt { putDr s idx e with
      mem := m, psIdx := pi, psShift := ps, chestCfg := cfg, backends := b, draws := d, out := o } j =
      drAt (putDr s idx e) j := fun _ => rfl
  refine ⟨fun j hj => ?_, ?_, fun hok => ?_, stored.wf hm, fun a ha => stored.outside hm ha⟩
  · rw [at_eq, drAt_putDr, if_neg fun h => hj h.1]
  · rw [at_eq, drAt_putDr_same _ _ hi]
    exact entry.consistent drConsistent_zero
  · rw [at_eq, drAt_putDr_same _ _ hi] at hok
    exact (entry.silent hok).2

/-- A scan that ends with a value. -/
theorem scannedOne_of_scan (hi : idx < 20) (hm : Memory.wf s.mem = true) (h : scan idx s = .value () t) :
    ScannedOne idx s t := by
  have post := scan_post s hi
  rw [h] at post
  exact post.scannedOne hi hm

/-! ### Several sub-channels (43_parser_rx.md R202) -/

/-- What the scans of a list of sub-channels leave. -/
structure ScannedAll (l : List Nat) (s t : State) : Prop where
  others : ∀ j, j ∉ l → drAt t j = drAt s j
  consistent : ∀ j ∈ l, DrConsistent (drAt t j)
  outside : ∀ a, (∀ j ∈ l, ¬(byteAddr (rxtbBase j) ≤ a ∧ a < byteAddr (rxtbBase j) + tbBytes)) →
    readByte t.mem a = readByte s.mem a

theorem ScannedOne.cons {l : List Nat} (h : ScannedOne idx s t) (h' : ScannedAll l t u) :
    ScannedAll (idx :: l) s u where
  others := fun j hj => by
    rw [List.mem_cons, not_or] at hj
    rw [h'.others j hj.2, h.others j hj.1]
  consistent := fun j hj => by
    by_cases hl : j ∈ l
    · exact h'.consistent j hl
    · obtain rfl := (List.mem_cons.mp hj).resolve_right hl
      rw [h'.others j hl]
      exact h.consistent
  outside := fun a ha => by
    rw [h'.outside a fun j hj => ha j (List.mem_cons_of_mem _ hj), h.outside a (ha idx List.mem_cons_self)]

theorem scannedAll_of_scanList {l : List Nat} :
    ∀ {s : State}, (∀ j ∈ l, j < 20) → Memory.wf s.mem = true → scanList l s = .value () t →
      ScannedAll l s t := by
  induction l with
  | nil =>
    intro s _ _ h
    cases h
    exact ⟨fun _ _ => rfl, nofun, fun _ _ => rfl⟩
  | cons idx rest ih =>
    intro s hl hm h
    obtain ⟨_, u, hscan, hrest⟩ := Run.next_eq_value h
    have one := scannedOne_of_scan (hl idx List.mem_cons_self) hm hscan
    exact one.cons (ih (fun j hj => hl j (List.mem_cons_of_mem _ hj)) one.wf hrest)

/-! ### Completion -/

/-- A parser command that has ended with a value and drawn nothing: `STATUS` is that of a completion, and the parser's
fields are all that changed. -/
theorem ParserLeaves.completed (h : ParserLeaves (accept s) u) (hd : u.draws = s.draws) :
    (afterOk u).status = { s.status with errv := false, busy := false, done := true } ∧
      { afterOk u with
        err := s.err, errInfo := s.errInfo, status := s.status, dr := s.dr, mem := s.mem
        chestCfg := s.chestCfg, psIdx := s.psIdx, psShift := s.psShift, backends := s.backends
        out := s.out } = s := by
  obtain ⟨_, _, _, _, _, _, _, _, rfl⟩ := h
  cases hd
  exact ⟨rfl, rfl⟩

end Sys2Proof.Machine

namespace Sys2Proof

open Machine

/-- Settles O44: each of the `N` scans finds its share of the answers (`scanList_fed`) and leaves what `ScannedAll`
says. -/
theorem parseAllSubchannels : Obligations.ParseAllSubchannels := by
  intro s hb hc hp hn hm
  dsimp only
  intro equalize control span data
  refine ⟨hostWrite_encode (i := .parseAll) rfl s, ?_⟩
  have fed : Fed True s.draws (8 * opN s) (4 * opN s) (4 * opN s) (4 * opN s) (accept s) :=
    fun _ => ⟨⟨equalize, control, span, data⟩, rfl⟩
  rw [← List.length_range (n := opN s)] at fed
  obtain ⟨u, run, draws⟩ := (scanList_fed _ fed).ended
  have leaves := scanList_parserRun (List.range (opN s)) (ParserLeaves.refl (accept s))
  rw [run] at leaves
  obtain ⟨status, frame⟩ := leaves.completed draws
  have inPool : ∀ j ∈ List.range (opN s), j < 20 := fun j hj => (List.mem_range.mp hj).trans_le hn
  have scanned := scannedAll_of_scanList inPool (s := accept s) hm run
  refine ⟨afterOk u, by rw [exec_parseAll hb hc hp, run]; rfl, rfl, rfl, status, fun j hj => ?_, fun j hj => ?_,
    fun a ha => ?_, frame⟩
  · exact scanned.others j fun h => absurd (List.mem_range.mp h) (Nat.not_lt.mpr hj)
  · exact scanned.consistent j (List.mem_range.mpr hj)
  · exact scanned.outside a fun j hj => ha j (List.mem_range.mp hj)

end Sys2Proof
end

section
/-! PROOF. 43_parser_rx.md R196 to R200, 41_sci_codec.md R137, R139: a received control word. What step 3 unpacks from it
and what a scan records of it are the fields by their places in the word, in the words of `heardEntry`. -/

namespace Sys2Proof.Machine

variable {s : State} {idx k n : Nat} {bits : ControlBits} {crc : CrcBits}

/-! ### The fields of a received word (41_sci_codec.md R137, R139) -/

/-- The ControlInfo of a received word, each field by its place. -/
def heardSci (n : Nat) (bits : ControlBits) : Sci where
  fmt := 1
  prio := BitVec.ofNat 3 (bits.toNat / 2 ^ 29)
  resv := BitVec.ofNat 4 (bits.toNat / 2 ^ 25)
  riv := BitVec.ofNat 8 (heardRiv n bits)
  tgap := BitVec.ofNat 4 (bits.toNat / 2 ^ (21 - wRiv n))
  mcs := BitVec.ofNat 5 (bits.toNat / 2 ^ (16 - wRiv n))
  retx := BitVec.ofNat 1 (bits.toNat / 2 ^ (15 - wRiv n))
  txfmt := BitVec.ofNat 1 (bits.toNat / 2 ^ (14 - wRiv n))

/-- A received word is long enough for format B, so it is always unpacked. -/
theorem unpack_heard (hn : n ≤ 20) (bits : ControlBits) :
    unpack (bitsOf Config.sciLen bits.toNat) 1 n = some (heardSci n bits) := by
  have width := wRiv_le_eight hn
  have long : 17 + wRiv n + (if (1 : BitVec 1) = 1 then 1 else 0) ≤ 32 := by rw [if_pos rfl]; omega
  refine (unpack_bitsOf long).trans ?_
  rw [if_pos rfl, heardSci, heardRiv,
    show 32 - (7 + wRiv n) = 25 - wRiv n by omega, show 32 - (11 + wRiv n) = 21 - wRiv n by omega,
    show 32 - (16 + wRiv n) = 16 - wRiv n by omega, show 32 - (17 + wRiv n) = 15 - wRiv n by omega,
    show 32 - (18 + wRiv n) = 14 - wRiv n by omega]

theorem heardRiv_lt (n : Nat) (bits : ControlBits) : heardRiv n bits < 2 ^ wRiv n :=
  Nat.mod_lt _ (Nat.two_pow_pos _)

/-- The register of the RIV holds the whole field. -/
theorem toNat_heardSci_riv (hn : n ≤ 20) (bits : ControlBits) :
    (heardSci n bits).riv.toNat = heardRiv n bits := by
  have field := heardRiv_lt n bits
  have narrow : 2 ^ wRiv n ≤ 2 ^ 8 := Nat.pow_le_pow_right (by decide) (wRiv_le_eight hn)
  exact Nat.mod_eq_of_lt (by omega)

/-- No value of the RIV field is past the two branches of `riv_decode` (41_sci_codec.md R134, R137). -/
theorem two_pow_wRiv_le (h1 : 1 ≤ n) (h20 : n ≤ 20) : 2 ^ wRiv n ≤ n * (n + 1) := by
  interval_cases n <;> decide

theorem rivDecode_heardRiv (h1 : 1 ≤ n) (h20 : n ≤ 20) (bits : ControlBits) :
    rivDecode (heardRiv n bits) n = some (heardPair n (heardRiv n bits)) := by
  rw [heardPair]
  split
  case isTrue inRow => exact rivDecode_of_place_in_row inRow
  case isFalse mirrored =>
    exact rivDecode_of_mirrored ((heardRiv_lt n bits).trans_le (two_pow_wRiv_le h1 h20)) (by omega)

/-! ### The entry (43_parser_rx.md R197 to R200) -/

theorem ite_bit_eq_one : ∀ x : BitVec 1, (if x = 1 then (1 : BitVec 1) else 0) = x := by decide

/-- The entry after steps 3 and 4 have recorded a received word, but for the count of blocks. -/
def recordHeard (s : State) (idx k : Nat) (bits : ControlBits) (crc : CrcBits) (e : DrEntry) : DrEntry :=
  let n := opN s
  let pair := heardPair n (heardRiv n bits)
  recordSpanBasis (recordControl e (heardSci n bits) pair.1 pair.2 k (3 * k)) (heardSci n bits) crc (rxDataStart idx s)

theorem heardEntry_of_none {h : Heard} (hc : h.control = none) (e : DrEntry) : heardEntry s idx k e h = e := by
  rw [heardEntry, hc]

/-- What a shift makes of the entry, by the steps that write it. -/
theorem heardEntry_of_some {h : Heard} (hc : h.control = some (bits, crc)) (e : DrEntry) :
    heardEntry s idx k e h =
      { recordHeard s idx k bits crc e with
        dataNprb := if h.asksSpan s idx then BitVec.ofNat 8 h.span else 0
        ok := e.ok || h.succeeds s idx
        okMask := if h.succeeds s idx then e.okMask ||| BitVec.ofNat 4 (2 ^ k) else e.okMask } := by
  have interval : codeToResv (BitVec.ofNat 4 (bits.toNat / 2 ^ 25)).toNat =
      let resv := bits.toNat / 2 ^ 25 % 16
      if resv = 12 then 20 else if resv = 11 then 50 else resv * 100 := rfl
  have resv : BitVec.ofNat 4 (bits.toNat / 2 ^ 25 % 16) = BitVec.ofNat 4 (bits.toNat / 2 ^ 25) :=
    ofNat_mod_two_pow 4 _
  have identifier : scramblingId (bitsOf Config.crcLen crc.toNat) = crc.toNat := val_crc crc
  simp only [heardEntry, hc, recordHeard, recordSpanBasis, recordControl, ite_bit_eq_one]
  simp only [heardSci, interval, identifier, resv]
  rfl

end Sys2Proof.Machine
end

section
/-! PROOF. 43_parser_rx.md R194 to R199: a scan on listed answers, shift by shift. While it runs, a scan
changes six things of the state only; they are a `ScanView`, and each step of a scan is a step of that view, in the words of
`Heard`. -/

namespace Sys2Proof.Machine

variable {s : State} {idx k : Nat} {h : Heard} {bits : ControlBits} {crc : CrcBits}

/-! ### The part of the state that a scan works on -/

/-- What changes while sub-channel `idx` is scanned. -/
structure ScanView where
  entry : DrEntry
  mem : List Host.Cell
  shift : BitVec 2
  config : Option ChestParams
  backends : Backends
  out : List Out

/-- `s` in the middle of the scan of sub-channel `idx`. -/
def scanning (s : State) (idx : Nat) (g : ScanView) : State :=
  { putDr s idx g.entry with
    mem := g.mem, psIdx := BitVec.ofNat 5 idx, psShift := g.shift, chestCfg := g.config, backends := g.backends
    out := g.out }

variable {g : ScanView}

/-- The view with another entry. -/
def ScanView.record (g : ScanView) (e : DrEntry) : ScanView := { g with entry := e }

/-- The view with other answers still listed. -/
def ScanView.leaving (g : ScanView) (b : Backends) : ScanView := { g with backends := b }

/-- The view after some calls, in order: they are on the ports, and the last configuration stands. -/
def ScanView.called (g : ScanView) (calls : List Call) : ScanView :=
  { g with
    config := (lastConfig calls).or g.config
    out := (calls.map Out.call).reverse ++ g.out }

@[simp] theorem ScanView.entry_record (e : DrEntry) : (g.record e).entry = e := rfl
@[simp] theorem ScanView.entry_leaving (b : Backends) : (g.leaving b).entry = g.entry := rfl
@[simp] theorem ScanView.entry_called (calls : List Call) : (g.called calls).entry = g.entry := rfl
@[simp] theorem ScanView.backends_record (e : DrEntry) : (g.record e).backends = g.backends := rfl
@[simp] theorem ScanView.backends_leaving (b : Backends) : (g.leaving b).backends = b := rfl
@[simp] theorem ScanView.backends_called (calls : List Call) : (g.called calls).backends = g.backends := rfl
@[simp] theorem ScanView.record_record (e e' : DrEntry) : (g.record e).record e' = g.record e' := rfl
@[simp] theorem ScanView.leaving_leaving (b b' : Backends) : (g.leaving b).leaving b' = g.leaving b' := rfl
@[simp] theorem ScanView.called_record (e : DrEntry) (calls : List Call) :
    (g.record e).called calls = (g.called calls).record e := rfl
@[simp] theorem ScanView.called_leaving (b : Backends) (calls : List Call) :
    (g.leaving b).called calls = (g.called calls).leaving b := rfl
@[simp] theorem ScanView.leaving_record (e : DrEntry) (b : Backends) :
    (g.record e).leaving b = (g.leaving b).record e := rfl

@[simp] theorem drAt_scanning (hi : idx < 20) : drAt (scanning s idx g) idx = g.entry :=
  drAt_putDr_same s g.entry hi

@[simp] theorem putDr_scanning (e : DrEntry) :
    putDr (scanning s idx g) idx e = scanning s idx (g.record e) :=
  congrArg (fun u : State => { u with
    mem := g.mem, psIdx := BitVec.ofNat 5 idx, psShift := g.shift, chestCfg := g.config, backends := g.backends
    out := g.out })
    (putDr_putDr s idx g.entry e)

/-- The last configuration of a sequence of calls is that of its second part, if that part makes one. -/
theorem lastConfig_append (a b : List Call) : lastConfig (a ++ b) = (lastConfig b).or (lastConfig a) := by
  induction b using List.reverseRecOn with
  | nil => simp [lastConfig]
  | append_singleton b c ih =>
    rw [← List.append_assoc]
    cases c with
    | setConfig q => simp [lastConfig]
    | _ => simpa [lastConfig] using ih

@[simp] theorem ScanView.called_called (a b : List Call) : (g.called a).called b = g.called (a ++ b) := by
  simp only [ScanView.called, lastConfig_append, Option.or_assoc, List.map_append, List.reverse_append,
    List.append_assoc]

@[simp] theorem callSetConfig_scanning (p : ChestParams) :
    callSetConfig p (scanning s idx g) = scanning s idx (g.called [.setConfig p]) := rfl

theorem askEqualize_scanning {a : Grid} {q : List (Answer Grid)} (listed : g.backends.equalize = .reply a :: q) :
    askEqualize (scanning s idx g) = .value a (scanning s idx
      ((g.called [.estimateAndEqualize s.rxgrid]).leaving { g.backends with equalize := q })) := by
  rw [askEqualize, show (scanning s idx g).backends.equalize = _ from listed, ask_reply]
  rfl

theorem askDecodeControl_scanning {a : Option (ControlBits × CrcBits)}
    {q : List (Answer (Option (ControlBits × CrcBits)))} (listed : g.backends.decodeControl = .reply a :: q)
    (eq : Grid) (off : Nat) :
    askDecodeControl eq off (scanning s idx g) = .value a (scanning s idx
      ((g.called [.decodeControl eq off]).leaving { g.backends with decodeControl := q })) := by
  rw [askDecodeControl, show (scanning s idx g).backends.decodeControl = _ from listed, ask_reply]
  rfl

theorem askValidSpan_scanning {v req : Nat} {q : List (Answer Nat)} (le : v ≤ req)
    (listed : g.backends.validSpan = .reply v :: q) :
    askValidSpan req (scanning s idx g) = .value v (scanning s idx
      ((g.called [.getValidResourceSpan req]).leaving { g.backends with validSpan := q })) := by
  rw [askValidSpan, show (scanning s idx g).backends.validSpan = _ from listed, ask_reply, Run.next_value,
    Nat.min_eq_left le]
  rfl

theorem askDecodeData_scanning {a : Option Payload} {q : List (Answer (Option Payload))}
    (listed : g.backends.decodeData = .reply a :: q) (eq : Grid) (cfg : DataConfig) :
    askDecodeData eq cfg (scanning s idx g) = .value a (scanning s idx
      ((g.called [.decodeData eq cfg]).leaving { g.backends with decodeData := q })) := by
  rw [askDecodeData, show (scanning s idx g).backends.decodeData = _ from listed, ask_reply]
  rfl

/-! ### Step 5 (43_parser_rx.md R199) -/

/-- The calls of step 5. -/
def dataCalls (s : State) (eq : Grid) (cfg : DataConfig) : List Call :=
  [.setConfig (dataSignals cfg), .estimateAndEqualize s.rxgrid, .decodeData eq cfg]

/-- What step 5 makes of the view when the data decode has answered `r`. -/
def ScanView.dataAnswered (g : ScanView) (idx k : Nat) (r : Option Payload) : ScanView :=
  { g with
    entry := { g.entry with
      ok := g.entry.ok || r.isSome
      okMask := if r.isSome then g.entry.okMask ||| BitVec.ofNat 4 (2 ^ k) else g.entry.okMask }
    mem := if r.isSome then putPayload g.mem (rxtbBase idx) (r.getD []) else g.mem }

theorem ScanView.dataAnswered_none (g : ScanView) (idx k : Nat) : g.dataAnswered idx k none = g := by
  simp [ScanView.dataAnswered]

/-- The end of step 5: a payload that decoded is stored (43_parser_rx.md R199). -/
def storeData (idx k : Nat) (r : Option Payload) (s : State) : Run Unit :=
  match r with
  | none => done s
  | some p =>
    done (putDr { s with mem := putPayload s.mem (rxtbBase idx) p } idx
      { drAt s idx with ok := true, okMask := (drAt s idx).okMask ||| BitVec.ofNat 4 (2 ^ k) })

theorem storeData_scanning (hi : idx < 20) (r : Option Payload) :
    storeData idx k r (scanning s idx g) = done (scanning s idx (g.dataAnswered idx k r)) := by
  cases r with
  | none => rw [ScanView.dataAnswered_none, storeData]
  | some p =>
    have stored := putDr_scanning (s := s) (idx := idx) (g := { g with mem := putPayload g.mem (rxtbBase idx) p })
      { g.entry with ok := true, okMask := g.entry.okMask ||| BitVec.ofNat 4 (2 ^ k) }
    rw [storeData, drAt_scanning hi, ScanView.dataAnswered, Option.isSome_some, Bool.or_true, if_pos rfl, if_pos rfl,
      Option.getD_some]
    exact congrArg done stored

theorem rxStep5_eq (idx k v : Nat) (c : Sci) (s : State) :
    rxStep5 idx k v c s =
      (askEqualize (callSetConfig (dataSignals (rxDataConfig idx v c s)) s)).next fun eq t =>
        (askDecodeData eq (rxDataConfig idx v c s) t).next fun r u => storeData idx k r u :=
  rfl

theorem rxStep5_scanning {v : Nat} {c : Sci} {eq : Grid} {r : Option Payload} {cfg : DataConfig}
    {qe : List (Answer Grid)} {qd : List (Answer (Option Payload))} (hi : idx < 20)
    (config : rxDataConfig idx v c (scanning s idx g) = cfg)
    (equalize : g.backends.equalize = .reply eq :: qe) (data : g.backends.decodeData = .reply r :: qd) :
    rxStep5 idx k v c (scanning s idx g) = done (scanning s idx (((g.called (dataCalls s eq cfg)).leaving
      { g.backends with equalize := qe, decodeData := qd }).dataAnswered idx k r)) := by
  rw [rxStep5_eq, config, callSetConfig_scanning, askEqualize_scanning (by exact equalize), Run.next_value,
    askDecodeData_scanning (by exact data), Run.next_value, storeData_scanning hi]
  simp only [ScanView.called_called, ScanView.called_leaving, ScanView.leaving_leaving]
  rfl

end Sys2Proof.Machine
end

section
/-! PROOF. 43_parser_rx.md R194 to R198: one shift of a scan, then all four, on the view that `ScanView` is. What is asked
for at a shift follows `Heard.asksSpan` and `Heard.asksData`. -/

namespace Sys2Proof.Machine

variable {s : State} {idx k : Nat} {g : ScanView} {h : Heard} {bits : ControlBits} {crc : CrcBits}

/-! ### Steps 3 and 4 (43_parser_rx.md R197, R198) -/

/-- The entry when the count of blocks is known, too. -/
def recordSpan (s : State) (idx k : Nat) (bits : ControlBits) (crc : CrcBits) (v : Nat) (e : DrEntry) : DrEntry :=
  { recordHeard s idx k bits crc e with dataNprb := BitVec.ofNat 8 v }

/-- Step 3 always goes on to step 4. -/
theorem rxStep3_scanning (h20 : opN s ≤ 20) (hi : idx < opN s) (bits : ControlBits) (crc : CrcBits) :
    rxStep3 idx k (3 * k) bits crc (scanning s idx g) =
      let pair := heardPair (opN s) (heardRiv (opN s) bits)
      rxStep4 idx k pair.1 pair.2 (heardSci (opN s) bits) crc (scanning s idx
        (g.record (recordControl g.entry (heardSci (opN s) bits) pair.1 pair.2 k (3 * k)))) := by
  have count : opN (scanning s idx g) = opN s := rfl
  rw [rxStep3, count, unpack_heard h20]
  simp only [toNat_heardSci_riv h20, rivDecode_heardRiv (show 1 ≤ opN s by omega) h20, putDr_scanning,
    drAt_scanning (show idx < 20 by omega)]

theorem rxStep3_of_collapsed (h20 : opN s ≤ 20) (hi : idx < opN s) (req : heardReq s idx bits = 0) :
    rxStep3 idx k (3 * k) bits crc (scanning s idx g) =
      done (scanning s idx (g.record (recordSpan s idx k bits crc 0 g.entry))) := by
  have collapsed : rxReq idx (heardPair (opN s) (heardRiv (opN s) bits)).1
    (heardPair (opN s) (heardRiv (opN s) bits)).2 s = 0 := req
  rw [rxStep3_scanning h20 hi]
  dsimp only
  rw [rxStep4]
  simp only [drAt_scanning (show idx < 20 by omega), putDr_scanning]
  exact if_pos collapsed

/-- Where the span is asked for. -/
theorem rxStep3_of_asked {v : Nat} {qv : List (Answer Nat)} (h20 : opN s ≤ 20) (hi : idx < opN s)
    (req : heardReq s idx bits ≠ 0) (le : v ≤ heardReq s idx bits) (span : g.backends.validSpan = .reply v :: qv) :
    rxStep3 idx k (3 * k) bits crc (scanning s idx g) =
      let asked := ((g.called [.getValidResourceSpan (heardReq s idx bits)]).leaving
        { g.backends with validSpan := qv }).record (recordSpan s idx k bits crc v g.entry)
      if v = 0 then done (scanning s idx asked)
      else rxStep5 idx k v (heardSci (opN s) bits) (scanning s idx asked) := by
  have request : ∀ e, rxReq idx (heardPair (opN s) (heardRiv (opN s) bits)).1
    (heardPair (opN s) (heardRiv (opN s) bits)).2 (scanning s idx (g.record e)) = heardReq s idx bits := fun _ => rfl
  rw [rxStep3_scanning h20 hi]
  dsimp only
  rw [rxStep4]
  simp only [drAt_scanning (show idx < 20 by omega), putDr_scanning, request, if_neg req, ScanView.record_record]
  rw [askValidSpan_scanning le (by exact span), Run.next_value]
  simp only [drAt_scanning (show idx < 20 by omega), putDr_scanning]
  rfl

/-- The configuration of step 5 after a received word was recorded. -/
theorem rxDataConfig_recorded (hi : idx < 20) (v w : Nat) (e : DrEntry)
    (entry : g.entry = recordSpan s idx k bits crc w e) :
    rxDataConfig idx v (heardSci (opN s) bits) (scanning s idx g) = heardConfig s idx bits crc v := by
  have identifier : scramblingId (bitsOf Config.crcLen crc.toNat) = crc.toNat := val_crc crc
  rw [rxDataConfig, drAt_scanning hi, entry]
  simp only [recordSpan, recordHeard, recordSpanBasis, ite_bit_eq_one, identifier]
  rfl

/-! ### One shift (43_parser_rx.md R194 to R199) -/

/-- What a shift listens to, after steps 1 and 2. -/
def hearControl (idx k cs : Nat) (r : Option (ControlBits × CrcBits)) (s : State) : Run Unit :=
  match r with
  | none => done s
  | some (bits, crc) => rxStep3 idx k cs bits crc s

theorem scanShift_eq (idx k cs : Nat) (s : State) :
    scanShift idx k cs s =
      (askEqualize (callSetConfig (.control (rxCtrlOff idx s) cs) { s with psShift := BitVec.ofNat 2 k })).next
        fun eq t => (askDecodeControl eq (rxCtrlOff idx s) t).next fun r u => hearControl idx k cs r u :=
  rfl

/-- The listed answers that some shifts use up, before those of `b`. -/
def heardAnswers (s : State) (idx : Nat) (hs : List Heard) (b : Backends) : Backends :=
  { b with
    equalize := (hs.flatMap fun h =>
      .reply h.eq :: if h.asksData s idx then [.reply h.eqData] else []) ++ b.equalize
    decodeControl := (hs.map fun h => .reply h.control) ++ b.decodeControl
    validSpan := ((hs.filter (·.asksSpan s idx)).map fun h => .reply h.span) ++ b.validSpan
    decodeData := ((hs.filter (·.asksData s idx)).map fun h => .reply h.data) ++ b.decodeData }

/-- The listed answers of a shift once its control decode has answered. -/
def heardRest (s : State) (idx : Nat) (h : Heard) (b : Backends) : Backends :=
  { heardAnswers s idx [h] b with
    equalize := (if h.asksData s idx then [.reply h.eqData] else []) ++ b.equalize
    decodeControl := b.decodeControl }

/-- What a shift makes of the view. -/
def ScanView.heard (g : ScanView) (s : State) (idx k : Nat) (h : Heard) (b : Backends) : ScanView :=
  { ((g.called (heardCalls s idx k h)).leaving b).record (heardEntry s idx k g.entry h) with
    shift := BitVec.ofNat 2 k
    mem := if h.succeeds s idx then putPayload g.mem (rxtbBase idx) (h.data.getD []) else g.mem }

/-- Where the control region is sought, and with which shift. -/
def controlCalls (s : State) (idx k : Nat) (eq : Grid) : List Call :=
  let off := if s.pool.adj = 1 then idx * s.pool.width.toNat else idx * 2
  [.setConfig (.control off (3 * k)), .estimateAndEqualize s.rxgrid, .decodeControl eq off]

theorem scanShift_listening {b : Backends} (listed : g.backends = heardAnswers s idx [h] b) :
    scanShift idx k (3 * k) (scanning s idx g) =
      hearControl idx k (3 * k) h.control (scanning s idx
        ((({ g with shift := BitVec.ofNat 2 k } : ScanView).called (controlCalls s idx k h.eq)).leaving
          (heardRest s idx h b))) := by
  have offset : rxCtrlOff idx (scanning s idx g) =
      if s.pool.adj = 1 then idx * s.pool.width.toNat else idx * 2 := by
    simp only [rxCtrlOff, opAdj, decide_eq_true_eq]
    rfl
  have equalize : g.backends.equalize =
      .reply h.eq :: ((if h.asksData s idx then [.reply h.eqData] else []) ++ b.equalize) := by
    rw [listed, heardAnswers, List.flatMap_singleton, List.cons_append]
  have control : g.backends.decodeControl = .reply h.control :: b.decodeControl := by
    rw [listed]
    rfl
  rw [scanShift_eq, offset, show ({ scanning s idx g with psShift := BitVec.ofNat 2 k } : State) =
    scanning s idx { g with shift := BitVec.ofNat 2 k } from rfl, callSetConfig_scanning,
    askEqualize_scanning (by exact equalize), Run.next_value, askDecodeControl_scanning (by exact control),
    Run.next_value]
  simp only [ScanView.called_called, ScanView.called_leaving, ScanView.leaving_leaving, ScanView.backends_called,
    ScanView.backends_leaving, listed]
  rfl

theorem asksData_of_not_asksSpan (hs : h.asksSpan s idx = false) : h.asksData s idx = false := by
  rw [Heard.asksData, hs, Bool.false_and]

theorem succeeds_of_not_asksData (hd : h.asksData s idx = false) : h.succeeds s idx = false := by
  rw [Heard.succeeds, hd, Bool.false_and]

theorem heardRest_of_not_asksSpan (hs : h.asksSpan s idx = false) (b : Backends) : heardRest s idx h b = b := by
  simp [heardRest, heardAnswers, hs, asksData_of_not_asksSpan hs]

theorem heardRest_of_not_asksData (hs : h.asksSpan s idx = true) (hd : h.asksData s idx = false) (b : Backends) :
    heardRest s idx h b = { b with validSpan := .reply h.span :: b.validSpan } := by
  simp [heardRest, heardAnswers, hs, hd]

theorem heardRest_of_asksData (hs : h.asksSpan s idx = true) (hd : h.asksData s idx = true) (b : Backends) :
    heardRest s idx h b =
      { b with
        equalize := .reply h.eqData :: b.equalize
        validSpan := .reply h.span :: b.validSpan
        decodeData := .reply h.data :: b.decodeData } := by
  simp [heardRest, heardAnswers, hs, hd]

/-- The calls of a shift where the control decode fails. -/
theorem heardCalls_of_none (hc : h.control = none) : heardCalls s idx k h = controlCalls s idx k h.eq := by
  rw [heardCalls, hc]
  rfl

/-- The calls of a shift where a control message decodes. -/
theorem heardCalls_of_some (hc : h.control = some (bits, crc)) :
    heardCalls s idx k h = controlCalls s idx k h.eq ++
      ((if h.asksSpan s idx then [.getValidResourceSpan (heardReq s idx bits)] else []) ++
        if h.asksData s idx then dataCalls s h.eqData (heardConfig s idx bits crc h.span) else []) := by
  rw [heardCalls, hc]
  rfl

theorem asksSpan_of_some (hc : h.control = some (bits, crc)) :
    h.asksSpan s idx = decide (heardReq s idx bits ≠ 0) := by
  rw [Heard.asksSpan, hc]

/-- The view of a shift where no data was decoded. -/
theorem ScanView.heard_of_silent (g : ScanView) (hd : h.asksData s idx = false) (b : Backends) :
    g.heard s idx k h b =
      (((({ g with shift := BitVec.ofNat 2 k } : ScanView).called (heardCalls s idx k h)).leaving b).record
        (heardEntry s idx k g.entry h)) := by
  rw [ScanView.heard, succeeds_of_not_asksData hd]
  rfl

/-- One shift, whatever is heard at it. -/
theorem scanShift_heard {b : Backends} (h20 : opN s ≤ 20) (hi : idx < opN s)
    (contract : ∀ bits crc, h.control = some (bits, crc) → h.span ≤ heardReq s idx bits)
    (listed : g.backends = heardAnswers s idx [h] b) :
    scanShift idx k (3 * k) (scanning s idx g) = done (scanning s idx (g.heard s idx k h b)) := by
  rw [scanShift_listening listed]
  cases hc : h.control with
  | none =>
    have noSpan : h.asksSpan s idx = false := by rw [Heard.asksSpan, hc]
    rw [hearControl, ScanView.heard_of_silent g (asksData_of_not_asksSpan noSpan), heardCalls_of_none hc,
      heardEntry_of_none hc, heardRest_of_not_asksSpan noSpan]
    rfl
  | some message =>
    obtain ⟨bits, crc⟩ := message
    have asks := asksSpan_of_some (s := s) (idx := idx) hc
    rw [hearControl]
    by_cases req : heardReq s idx bits = 0
    · have noSpan : h.asksSpan s idx = false := by rw [asks, decide_eq_false_iff_not, not_not]; exact req
      have noData := asksData_of_not_asksSpan noSpan
      rw [rxStep3_of_collapsed h20 hi req, ScanView.heard_of_silent g noData, heardCalls_of_some hc, noSpan, noData,
        heardEntry_of_some hc, noSpan, succeeds_of_not_asksData noData, heardRest_of_not_asksSpan noSpan]
      simp only [Bool.false_eq_true, if_false, Bool.or_false, List.append_nil]
      rfl
    · have span : h.asksSpan s idx = true := by rw [asks, decide_eq_true_eq]; exact req
      have data_eq : h.asksData s idx = decide (h.span ≠ 0) := by rw [Heard.asksData, span, Bool.true_and]
      have listedSpan : (heardRest s idx h b).validSpan = .reply h.span :: b.validSpan := by
        simp [heardRest, heardAnswers, span]
      rw [rxStep3_of_asked h20 hi req (contract bits crc hc) (by exact listedSpan)]
      dsimp only
      by_cases granted : h.span = 0
      · have noData : h.asksData s idx = false := by rw [data_eq, decide_eq_false_iff_not, not_not]; exact granted
        rw [if_pos granted, ScanView.heard_of_silent g noData, heardCalls_of_some hc, span, noData,
          heardEntry_of_some hc, span, succeeds_of_not_asksData noData, heardRest_of_not_asksData span noData]
        simp only [Bool.false_eq_true, if_false, if_true, Bool.or_false, List.append_nil, ScanView.called_leaving,
          ScanView.called_called, ScanView.leaving_leaving]
        rfl
      · have data : h.asksData s idx = true := by rw [data_eq, decide_eq_true_eq]; exact granted
        have succeeds : h.succeeds s idx = h.data.isSome := by rw [Heard.succeeds, data, Bool.true_and]
        rw [if_neg granted, heardRest_of_asksData span data, rxStep5_scanning (show idx < 20 by omega)
          (rxDataConfig_recorded (show idx < 20 by omega) h.span h.span _ rfl) rfl rfl, ScanView.heard,
          heardCalls_of_some hc, span, data, heardEntry_of_some hc, span, succeeds]
        simp only [if_true, ScanView.called_leaving, ScanView.called_record, ScanView.leaving_record,
          ScanView.called_called, ScanView.leaving_leaving, List.append_assoc]
        rfl

end Sys2Proof.Machine
end

section
/-! PROOF. 43_parser_rx.md R194, R199 to R201: all shifts of a scan, and the state that `PARSE_SUBCH` leaves. -/

namespace Sys2Proof.Machine

variable {s : State} {idx : Nat} {b : Backends}

/-! ### The shifts one after another -/

/-- What the shifts from number `k` on make of the view. -/
def ScanView.heardAll (g : ScanView) (s : State) (idx : Nat) (b : Backends) : Nat → List Heard → ScanView
  | _, [] => g
  | k, h :: hs => (g.heard s idx k h (heardAnswers s idx hs b)).heardAll s idx b (k + 1) hs

theorem heardAnswers_cons (h : Heard) (hs : List Heard) :
    heardAnswers s idx (h :: hs) b = heardAnswers s idx [h] (heardAnswers s idx hs b) := by
  rw [← List.singleton_append (x := h)]
  simp only [heardAnswers, List.flatMap_append, List.map_append, List.filter_append, List.append_assoc]

/-- In the words of the contract of `get_valid_resource_span` (60_exceptions.md R292): no span granted at a shift is
more than what is asked for there. -/
def SpansGranted (s : State) (idx : Nat) (hs : List Heard) : Prop :=
  ∀ h ∈ hs, ∀ bits crc, h.control = some (bits, crc) → h.span ≤ heardReq s idx bits

theorem scanShifts_heard (h20 : opN s ≤ 20) (hi : idx < opN s) (hs : List Heard) :
    ∀ (k : Nat) (g : ScanView), SpansGranted s idx hs → g.backends = heardAnswers s idx hs b →
      scanShifts idx k ((List.range' k hs.length).map (3 * ·)) (scanning s idx g) =
        done (scanning s idx (g.heardAll s idx b k hs)) := by
  induction hs with
  | nil => exact fun _ _ _ _ => rfl
  | cons h hs ih =>
    intro k g granted listed
    have first := scanShift_heard (k := k) h20 hi (granted h List.mem_cons_self) (listed.trans (heardAnswers_cons h hs))
    rw [List.length_cons, List.range'_succ, List.map_cons, scanShifts, first, done, Run.next_value]
    exact ih (k + 1) _ (fun h' hh => granted h' (List.mem_cons_of_mem _ hh)) rfl

/-! ### What the shifts leave, field by field -/

theorem ScanView.entry_heardAll (hs : List Heard) :
    ∀ (k : Nat) (g : ScanView), (g.heardAll s idx b k hs).entry =
      (hs.zipIdx k).foldl (fun e hk => heardEntry s idx hk.2 e hk.1) g.entry := by
  induction hs with
  | nil => exact fun _ _ => rfl
  | cons h hs ih => exact fun k g => ih (k + 1) _

theorem ScanView.backends_heardAll (hs : List Heard) :
    ∀ (k : Nat) (g : ScanView), g.backends = heardAnswers s idx hs b → (g.heardAll s idx b k hs).backends = b := by
  induction hs with
  | nil => exact fun _ _ listed => listed
  | cons h hs ih => exact fun k g _ => ih (k + 1) _ rfl

/-- The calls of the shifts from number `k` on. -/
def callsFrom (s : State) (idx k : Nat) (hs : List Heard) : List Call :=
  (hs.zipIdx k).flatMap fun hk => heardCalls s idx hk.2 hk.1

theorem callsFrom_cons (k : Nat) (h : Heard) (hs : List Heard) :
    callsFrom s idx k (h :: hs) = heardCalls s idx k h ++ callsFrom s idx (k + 1) hs := rfl

theorem ScanView.out_heardAll (hs : List Heard) :
    ∀ (k : Nat) (g : ScanView), (g.heardAll s idx b k hs).out =
      ((callsFrom s idx k hs).map Out.call).reverse ++ g.out := by
  induction hs with
  | nil => exact fun _ _ => rfl
  | cons h hs ih =>
    intro k g
    rw [callsFrom_cons, List.map_append, List.reverse_append, List.append_assoc]
    exact ih (k + 1) _

theorem ScanView.config_heardAll (hs : List Heard) :
    ∀ (k : Nat) (g : ScanView), (g.heardAll s idx b k hs).config =
      (lastConfig (callsFrom s idx k hs)).or g.config := by
  induction hs with
  | nil => exact fun _ _ => rfl
  | cons h hs ih =>
    intro k g
    rw [callsFrom_cons, lastConfig_append, Option.or_assoc]
    exact ih (k + 1) _

/-- Each shift begins with a configuration. -/
theorem lastConfig_callsFrom_cons (k : Nat) (h : Heard) (hs : List Heard) (p : Option ChestParams) :
    (lastConfig (callsFrom s idx k (h :: hs))).or p = lastConfig (callsFrom s idx k (h :: hs)) := by
  have begins : ∃ q rest, callsFrom s idx k (h :: hs) = [.setConfig q] ++ rest := ⟨_, _, rfl⟩
  obtain ⟨q, rest, begins⟩ := begins
  rw [begins, lastConfig_append, show lastConfig [.setConfig q] = some q from rfl, Option.or_assoc, Option.some_or]

/-- What the shifts leave of the memory: the payload of the last data decode, and every byte outside the window. -/
theorem ScanView.mem_heardAll (hs : List Heard) :
    ∀ (k : Nat) (g : ScanView), Memory.wf g.mem = true →
      (∀ j < tbBytes, readByte (g.heardAll s idx b k hs).mem (byteAddr (rxtbBase idx) + j) =
        heardByte s idx hs j (readByte g.mem (byteAddr (rxtbBase idx) + j))) ∧
      ∀ a, ¬(byteAddr (rxtbBase idx) ≤ a ∧ a < byteAddr (rxtbBase idx) + tbBytes) →
        readByte (g.heardAll s idx b k hs).mem a = readByte g.mem a := by
  induction hs with
  | nil => exact fun _ _ _ => ⟨fun _ _ => rfl, fun _ _ => rfl⟩
  | cons h hs ih =>
    intro k g wf
    have stored : (g.heard s idx k h (heardAnswers s idx hs b)).mem =
        if h.succeeds s idx then putPayload g.mem (rxtbBase idx) (h.data.getD []) else g.mem := rfl
    have wf' : Memory.wf (g.heard s idx k h (heardAnswers s idx hs b)).mem = true := by
      rw [stored]
      split
      · exact wf_putPayload _ _ wf
      · exact wf
    obtain ⟨inside, outside⟩ := ih (k + 1) _ wf'
    refine ⟨fun j hj => (inside j hj).trans ?_, fun a ha => (outside a ha).trans ?_⟩
    · rw [stored, heardByte, heardByte, List.foldl_cons]
      congr 1
      split
      · rw [readByte_putPayload _ _ wf, if_pos ⟨by omega, by omega⟩, Nat.add_sub_cancel_left]
      · rfl
    · rw [stored]
      split
      · rw [readByte_putPayload _ _ wf, if_neg ha]
      · rfl

/-! ### The command (43_parser_rx.md R201) -/

/-- The view a scan starts from: its entry cleared. -/
def startView (s : State) : ScanView where
  entry := {}
  mem := s.mem
  shift := s.psShift
  config := s.chestCfg
  backends := s.backends
  out := s.out

/-- Acceptance changes nothing that a scan depends on. -/
theorem ScanView.heardAll_accept (hs : List Heard) :
    ∀ (k : Nat) (g : ScanView), g.heardAll (accept s) idx b k hs = g.heardAll s idx b k hs := by
  induction hs with
  | nil => exact fun _ _ => rfl
  | cons h hs ih => exact fun k g => ih (k + 1) _

/-- `PARSE_SUBCH` on the answers of its four shifts. -/
theorem exec_parseSubch_heard {hs : List Heard} (hb : s.status.busy = false) (hc : s.status.cellv = true)
    (hp : s.status.poolv = true) (h20 : opN s ≤ 20) (hi : idx < opN s) (four : hs.length = 4)
    (granted : SpansGranted s idx hs) (listed : s.backends = heardAnswers s idx hs b) :
    exec (.parseSubch idx) s =
      .next (afterOk (scanning s idx ((startView s).heardAll s idx b 0 hs))) := by
  have shifts : Config.shifts = (List.range' 0 hs.length).map (3 * ·) := by
    rw [four]
    rfl
  have scanned : scan idx (accept s) =
      done (scanning (accept s) idx ((startView (accept s)).heardAll (accept s) idx b 0 hs)) := by
    rw [scan, shifts]
    exact scanShifts_heard (s := accept s) h20 hi hs 0 (startView (accept s)) granted listed
  rw [exec_parseSubch hb hi hc hp, scanned, ScanView.heardAll_accept]
  rfl

theorem shift_heardAll_four {hs : List Heard} (four : hs.length = 4) (g : ScanView) :
    (g.heardAll s idx b 0 hs).shift = 3 := by
  obtain ⟨h0, h1, h2, h3, rfl⟩ : ∃ h0 h1 h2 h3, hs = [h0, h1, h2, h3] := by
    match hs, four with
    | [h0, h1, h2, h3], _ => exact ⟨h0, h1, h2, h3, rfl⟩
  rfl

/-- The state after the four shifts, each field by what was heard. -/
theorem scanning_heardAll {hs : List Heard} (four : hs.length = 4) (listed : s.backends = heardAnswers s idx hs b) :
    scanning s idx ((startView s).heardAll s idx b 0 hs) =
      { s with
        dr := s.dr.setIfInBounds idx (hs.zipIdx.foldl (fun e hk => heardEntry s idx hk.2 e hk.1) {})
        mem := ((startView s).heardAll s idx b 0 hs).mem
        chestCfg := lastConfig (callsFrom s idx 0 hs)
        psIdx := BitVec.ofNat 5 idx
        psShift := 3
        backends := b
        out := ((callsFrom s idx 0 hs).map Out.call).reverse ++ s.out } := by
  have config : (lastConfig (callsFrom s idx 0 hs)).or s.chestCfg = lastConfig (callsFrom s idx 0 hs) := by
    cases hs with
    | nil => cases four
    | cons h hs => exact lastConfig_callsFrom_cons 0 h hs _
  rw [scanning, ScanView.entry_heardAll, ScanView.backends_heardAll hs 0 (startView s) listed, ScanView.out_heardAll,
    ScanView.config_heardAll, shift_heardAll_four four, show (startView s).config = s.chestCfg from rfl, config]
  rfl

end Sys2Proof.Machine

namespace Sys2Proof

open Machine

/-- Settles O43: whatever is answered, by the laws of a scan (`scannedOne_of_scan`, `scan_fed`); on given answers, by the
four shifts one after another (`exec_parseSubch_heard`). -/
theorem parseSubchannel : Obligations.ParseSubchannel := by
  refine ⟨?anyAnswers, ?givenAnswers⟩
  case anyAnswers =>
    intro s idx hb hc hp h20 hi hm equalize control span data
    refine ⟨hostWrite_encode (i := .parseSubch idx) (wellFormed_iff.mpr (show idx < 256 by omega)) s, ?_⟩
    have fed : Fed True s.draws (0 + 8) (0 + 4) (0 + 4) (0 + 4) (accept s) :=
      fun _ => ⟨⟨equalize, control, span, data⟩, rfl⟩
    obtain ⟨u, run, draws⟩ := (scan_fed idx fed).ended
    have leaves := scan_parserRun idx (ParserLeaves.refl (accept s))
    rw [run] at leaves
    obtain ⟨status, frame⟩ := leaves.completed draws
    have one := scannedOne_of_scan (show idx < 20 by omega) (s := accept s) hm run
    exact ⟨afterOk u, by rw [exec_parseSubch hb hi hc hp, run]; rfl, rfl, rfl, status, one.others, one.consistent,
      one.outside, one.silent, frame⟩
  case givenAnswers =>
    intro s idx hs qe qc qv qd hb hc hp h20 hi hm four granted equalize control span data
    have listed : s.backends = heardAnswers s idx hs
        { s.backends with equalize := qe, decodeControl := qc, validSpan := qv, decodeData := qd } := by
      rw [heardAnswers]
      dsimp only
      rw [← equalize, ← control, ← span, ← data]
    obtain ⟨inside, outside⟩ := ScanView.mem_heardAll (s := s) (idx := idx)
      (b := { s.backends with equalize := qe, decodeControl := qc, validSpan := qv, decodeData := qd }) hs 0
      (startView s) hm
    refine ⟨_, ?_, inside, outside⟩
    rw [exec_parseSubch_heard hb hc hp h20 hi four granted listed, scanning_heardAll four listed]
    rfl

end Sys2Proof
end

section
/-! PROOF. 43_parser_rx.md R194 to R199: a control message that decodes at exactly one of the four shifts. The three other
shifts make their control calls and leave the view as it is, so what is recorded is what the one shift makes of an empty
entry. -/

namespace Sys2Proof.Machine

variable {s : State} {idx k st l v : Nat} {bits : ControlBits} {crc : CrcBits} {p : Payload} {grid : Nat → Grid}

/-! ### A received word with a RIV that encodes a valid pair (41_sci_codec.md R135, R137) -/

theorem heardPair_of_rivEncode {n : Nat} (h20 : n ≤ 20) (hl : 1 ≤ l) (inside : st + l ≤ n)
    (riv : heardRiv n bits = rivEncode n st l) : heardPair n (heardRiv n bits) = (st, l) := by
  have decoded := rivDecode_heardRiv (show 1 ≤ n by omega) h20 bits
  rw [riv, rivDecode_rivEncode hl inside] at decoded
  exact riv ▸ (Option.some.inj decoded).symm

theorem heardReq_of_pair (pair : heardPair (opN s) (heardRiv (opN s) bits) = (st, l)) :
    heardReq s idx bits = (st + l) * opW s + opP0 s - (idx * opW s + 2) := by
  have unfolded : heardReq s idx bits =
      ((heardPair (opN s) (heardRiv (opN s) bits)).1 + (heardPair (opN s) (heardRiv (opN s) bits)).2) * opW s +
        opP0 s - (idx * opW s + 2) := rfl
  rw [unfolded, pair]

/-! ### What is heard -/

/-- A shift where the control decode fails. -/
def quiet (eq : Grid) : Heard := { eq := eq, control := none }

/-- A shift where a control message and its data decode. -/
def heardFrame (eq eqData : Grid) (bits : ControlBits) (crc : CrcBits) (v : Nat) (p : Payload) : Heard :=
  { eq := eq, control := some (bits, crc), span := v, eqData := eqData, data := some p }

/-- The four shifts of a scan that hears a message at shift number `k` only; the equalized grids are numbered in the
order they are asked for. -/
def heardOnce (k : Nat) (grid : Nat → Grid) (bits : ControlBits) (crc : CrcBits) (v : Nat) (p : Payload) :
    List Heard :=
  (List.range 4).map fun j =>
    if j = k then heardFrame (grid k) (grid (k + 1)) bits crc v p
    else quiet (grid (if j < k then j else j + 1))

@[simp] theorem eq_quiet (eq : Grid) : (quiet eq).eq = eq := rfl
@[simp] theorem control_quiet (eq : Grid) : (quiet eq).control = none := rfl
@[simp] theorem asksSpan_quiet (eq : Grid) : (quiet eq).asksSpan s idx = false := rfl
@[simp] theorem asksData_quiet (eq : Grid) : (quiet eq).asksData s idx = false := rfl
@[simp] theorem heardCalls_quiet (eq : Grid) : heardCalls s idx k (quiet eq) = controlCalls s idx k eq := rfl
@[simp] theorem succeeds_quiet (eq : Grid) : (quiet eq).succeeds s idx = false := rfl

@[simp] theorem eq_heardFrame (eq eqData : Grid) : (heardFrame eq eqData bits crc v p).eq = eq := rfl
@[simp] theorem control_heardFrame (eq eqData : Grid) :
    (heardFrame eq eqData bits crc v p).control = some (bits, crc) := rfl
@[simp] theorem span_heardFrame (eq eqData : Grid) : (heardFrame eq eqData bits crc v p).span = v := rfl
@[simp] theorem eqData_heardFrame (eq eqData : Grid) : (heardFrame eq eqData bits crc v p).eqData = eqData := rfl
@[simp] theorem data_heardFrame (eq eqData : Grid) : (heardFrame eq eqData bits crc v p).data = some p := rfl

theorem asksSpan_heardFrame {eq eqData : Grid} (pos : 0 < v) (le : v ≤ heardReq s idx bits) :
    (heardFrame eq eqData bits crc v p).asksSpan s idx = true := by
  rw [asksSpan_of_some (bits := bits) (crc := crc) rfl, decide_eq_true_eq]
  omega

theorem asksData_heardFrame {eq eqData : Grid} (pos : 0 < v) (le : v ≤ heardReq s idx bits) :
    (heardFrame eq eqData bits crc v p).asksData s idx = true := by
  rw [Heard.asksData, asksSpan_heardFrame pos le, Bool.true_and, decide_eq_true_eq]
  exact Nat.ne_of_gt pos

theorem succeeds_heardFrame {eq eqData : Grid} (pos : 0 < v) (le : v ≤ heardReq s idx bits) :
    (heardFrame eq eqData bits crc v p).succeeds s idx = true := by
  rw [Heard.succeeds, asksData_heardFrame pos le]
  rfl

theorem heardCalls_heardFrame {eq eqData : Grid} (pos : 0 < v) (le : v ≤ heardReq s idx bits) :
    heardCalls s idx k (heardFrame eq eqData bits crc v p) =
      controlCalls s idx k eq ++ .getValidResourceSpan (heardReq s idx bits) ::
        dataCalls s eqData (heardConfig s idx bits crc v) := by
  rw [heardCalls_of_some (bits := bits) (crc := crc) rfl, asksSpan_heardFrame pos le, asksData_heardFrame pos le]
  rfl

/-! ### What the scan leaves -/

theorem spansGranted_heardOnce (le : v ≤ heardReq s idx bits) :
    SpansGranted s idx (heardOnce k grid bits crc v p) := by
  intro h hh bits' crc' hc
  rw [heardOnce, List.mem_map] at hh
  obtain ⟨j, -, rfl⟩ := hh
  split at hc
  case isTrue =>
    cases hc
    rwa [if_pos ‹_›]
  case isFalse => cases hc

theorem heardAnswers_heardOnce (hk : k < 4) (pos : 0 < v) (le : v ≤ heardReq s idx bits) (b : Backends) :
    heardAnswers s idx (heardOnce k grid bits crc v p) b =
      { b with
        equalize := ((List.range 5).map fun j => .reply (grid j)) ++ b.equalize
        decodeControl := List.replicate k (.reply none) ++ .reply (some (bits, crc)) ::
          (List.replicate (3 - k) (.reply none) ++ b.decodeControl)
        validSpan := .reply v :: b.validSpan
        decodeData := .reply (some p) :: b.decodeData } := by
  interval_cases k <;>
    simp [heardAnswers, heardOnce, List.range_succ, asksSpan_heardFrame pos le, asksData_heardFrame pos le]

/-- The answers such a scan finds, list by list. -/
theorem listed_heardOnce {b : Backends} {qe : List (Answer Grid)}
    {qc : List (Answer (Option (ControlBits × CrcBits)))} {qv : List (Answer Nat)}
    {qd : List (Answer (Option Payload))} (hk : k < 4) (pos : 0 < v) (le : v ≤ heardReq s idx bits)
    (equalize : b.equalize = ((List.range 5).map fun j => .reply (grid j)) ++ qe)
    (control : b.decodeControl = List.replicate k (.reply none) ++ .reply (some (bits, crc)) ::
      (List.replicate (3 - k) (.reply none) ++ qc))
    (span : b.validSpan = .reply v :: qv) (data : b.decodeData = .reply (some p) :: qd) :
    b = heardAnswers s idx (heardOnce k grid bits crc v p)
      { b with equalize := qe, decodeControl := qc, validSpan := qv, decodeData := qd } := by
  rw [heardAnswers_heardOnce hk pos le]
  dsimp only
  rw [← equalize, ← control, ← span, ← data]

theorem entry_heardOnce (hk : k < 4) :
    (heardOnce k grid bits crc v p).zipIdx.foldl (fun e hk => heardEntry s idx hk.2 e hk.1) {} =
      heardEntry s idx k {} (heardFrame (grid k) (grid (k + 1)) bits crc v p) := by
  interval_cases k <;> rfl

theorem heardByte_heardOnce (hk : k < 4) (pos : 0 < v) (le : v ≤ heardReq s idx bits) (j : Nat) (b : Byte) :
    heardByte s idx (heardOnce k grid bits crc v p) j b = readByte p j := by
  have heard : ∀ eq eqData b', (if (heardFrame eq eqData bits crc v p).succeeds s idx then
      readByte ((heardFrame eq eqData bits crc v p).data.getD []) j else b') = readByte p j := fun _ _ _ =>
    if_pos (succeeds_heardFrame pos le)
  interval_cases k <;> exact heard _ _ _

/-- The calls of such a scan, in order. -/
def callsOnce (s : State) (idx k : Nat) (grid : Nat → Grid) (bits : ControlBits) (crc : CrcBits) (v : Nat) :
    List Call :=
  ((List.range (k + 1)).flatMap fun j => controlCalls s idx j (grid j)) ++
    .getValidResourceSpan (heardReq s idx bits) :: dataCalls s (grid (k + 1)) (heardConfig s idx bits crc v) ++
    ((List.range 4).drop (k + 1)).flatMap fun j => controlCalls s idx j (grid (j + 1))

theorem calls_heardOnce (hk : k < 4) (pos : 0 < v) (le : v ≤ heardReq s idx bits) :
    callsFrom s idx 0 (heardOnce k grid bits crc v p) = callsOnce s idx k grid bits crc v := by
  have heard := fun k eq eqData => heardCalls_heardFrame (s := s) (idx := idx) (k := k) (eq := eq) (eqData := eqData)
    (crc := crc) (p := p) pos le
  interval_cases k <;> simp [callsFrom, callsOnce, heardOnce, List.range_succ, List.zipIdx, heard]

/-- The entry of a scan that hears one message, by the places of the fields (43_parser_rx.md R197 to R199). -/
theorem heardEntry_heardFrame {eq eqData : Grid} (pair : heardPair (opN s) (heardRiv (opN s) bits) = (st, l))
    (pos : 0 < v) (le : v ≤ heardReq s idx bits) :
    heardEntry s idx k {} (heardFrame eq eqData bits crc v p) =
      let r := wRiv (opN s)
      let b := bits.toNat
      let resv := b / 2 ^ 25 % 16
      { ctrl := true, ok := true
        ctrlMask := BitVec.ofNat 4 (2 ^ k), okMask := BitVec.ofNat 4 (2 ^ k)
        prio := BitVec.ofNat 3 (b / 2 ^ 29)
        resv := BitVec.ofNat 4 resv
        interval := BitVec.ofNat 16 (if resv = 12 then 20 else if resv = 11 then 50 else resv * 100)
        riv := BitVec.ofNat 8 (heardRiv (opN s) bits)
        tgap := BitVec.ofNat 4 (b / 2 ^ (21 - r))
        mcs := BitVec.ofNat 5 (b / 2 ^ (16 - r))
        retx := BitVec.ofNat 1 (b / 2 ^ (15 - r))
        txfmt := BitVec.ofNat 1 (b / 2 ^ (14 - r))
        start := BitVec.ofNat 5 st
        len := BitVec.ofNat 5 l
        dataStart := BitVec.ofNat 8 (idx * opW s + 2)
        dataNprb := BitVec.ofNat 8 v
        scrid := BitVec.ofNat 32 crc.toNat
        rv := BitVec.ofNat 1 (b / 2 ^ (15 - r))
        shift := BitVec.ofNat 4 (3 * k) } := by
  have start : (heardPair s.pool.nsubch.toNat (heardRiv s.pool.nsubch.toNat bits)).1 = st := congrArg Prod.fst pair
  have len : (heardPair s.pool.nsubch.toNat (heardRiv s.pool.nsubch.toNat bits)).2 = l := congrArg Prod.snd pair
  have control : (heardFrame eq eqData bits crc v p).control = some (bits, crc) := rfl
  rw [heardEntry, control]
  dsimp only
  rw [succeeds_heardFrame pos le, asksSpan_heardFrame pos le, start, len]
  simp only [if_true, Bool.or_true, BitVec.ofNat_eq_ofNat, BitVec.zero_or]
  rfl

/-- `PARSE_SUBCH` where one message is heard: the whole next state. -/
theorem exec_parseSubch_heardOnce {b : Backends} (hb : s.status.busy = false) (hc : s.status.cellv = true)
    (hp : s.status.poolv = true) (h20 : opN s ≤ 20) (hi : idx < opN s) (hm : Memory.wf s.mem = true) (hk : k < 4)
    (pos : 0 < v) (le : v ≤ heardReq s idx bits)
    (listed : s.backends = heardAnswers s idx (heardOnce k grid bits crc v p) b) :
    ∃ m, exec (.parseSubch idx) s = .next (afterOk
        { s with
          dr := s.dr.setIfInBounds idx (heardEntry s idx k {} (heardFrame (grid k) (grid (k + 1)) bits crc v p))
          mem := m
          chestCfg := lastConfig (callsOnce s idx k grid bits crc v)
          psIdx := BitVec.ofNat 5 idx
          psShift := 3
          backends := b
          out := ((callsOnce s idx k grid bits crc v).map Out.call).reverse ++ s.out }) ∧
      ∀ j < tbBytes, readByte m (byteAddr (rxtbBase idx) + j) = readByte p j := by
  have four : (heardOnce k grid bits crc v p).length = 4 := rfl
  obtain ⟨inside, -⟩ := ScanView.mem_heardAll (s := s) (idx := idx) (b := b) (heardOnce k grid bits crc v p) 0
    (startView s) hm
  refine ⟨_, ?_, fun j hj => (inside j hj).trans (heardByte_heardOnce hk pos le j _)⟩
  rw [exec_parseSubch_heard hb hc hp h20 hi four (spansGranted_heardOnce le) listed, scanning_heardAll four listed,
    entry_heardOnce hk, calls_heardOnce hk pos le]

end Sys2Proof.Machine

namespace Sys2Proof

open Machine

/-- Settles O46: the four shifts are those of `heardOnce` (`exec_parseSubch_heardOnce`); the entry is
`heardEntry_heardFrame`. -/
theorem scanRecordsOneMessage : Obligations.ScanRecordsOneMessage := by
  intro s idx k st l v bits crc p eqs qe qd qv qp hb hc hp h20 hi hk hm equalize control span data
  dsimp only
  intro hl inside riv pos le
  have pair := heardPair_of_rivEncode (n := opN s) (bits := bits) h20 hl inside riv
  have req := heardReq_of_pair (idx := idx) pair
  have granted : v ≤ heardReq s idx bits := req ▸ le
  have listed := listed_heardOnce (s := s) (idx := idx) (grid := fun j => eqs (Fin.ofNat 5 j)) hk pos granted equalize
    control span data
  obtain ⟨m, run, bytes⟩ := exec_parseSubch_heardOnce hb hc hp h20 hi hm hk pos granted listed
  refine ⟨_, run, ?entry, bytes, ?out⟩
  case entry =>
    refine (drAt_putDr_same s _ (show idx < 20 by omega)).trans ((heardEntry_heardFrame pair pos granted).trans ?_)
    rw [show heardRiv (opN s) bits = rivEncode (opN s) st l from riv, ite_bit_eq_one]
    rfl
  case out =>
    rw [show (st + l) * s.pool.width.toNat + s.pool.startPrb.toNat - (idx * s.pool.width.toNat + 2) =
      heardReq s idx bits from req.symm]
    interval_cases k <;> rfl

end Sys2Proof
end

section
/-! PROOF. 43_parser_rx.md R203: the loop-back law. The three commands before the parse are run on listed answers; then the
received word is the one sent, so its fields are the ControlInfo of the frame, and the parse is that of a message heard at
shift 0 only. -/

namespace Sys2Proof.Machine

variable {s : State} {v : Nat} {crc : CrcBits} {p : Payload}

/-! ### The word that was sent (41_sci_codec.md R144, 42_framer_tx.md R163) -/

/-- The fields of the word sent are the ControlInfo with the allocation's RIV. -/
theorem heardSci_sentWord (valid : ValidPair s) (format : s.sci.fmt = 1) :
    heardSci (opN s) (sentWord s) = (withRiv s).sci := by
  have packed := pack_withRiv valid
  have fits : (withRiv s).sci.riv.toNat < 2 ^ wRiv (opN s) := by
    by_contra wide
    rw [pack_of_too_wide (Nat.not_lt.mp wide)] at packed
    cases packed
  have format' : (withRiv s).sci.fmt = 1 := format
  have unpacked := unpack_packBody_append (zeros (Config.sciLen - (packBody (withRiv s).sci (opN s)).length)) fits
    fun h => absurd (format'.symm.trans h) (by decide)
  rw [Option.some.inj ((pack_of_fits fits).symm.trans packed), format'] at unpacked
  exact Option.some.inj ((unpack_heard valid.count (sentWord s)).symm.trans unpacked)

theorem heardRiv_sentWord (valid : ValidPair s) (format : s.sci.fmt = 1) :
    heardRiv (opN s) (sentWord s) = rivEncode (opN s) (opStart s) (opLen s) := by
  obtain ⟨-, narrow⟩ := rivEncode_fits valid.count valid.len valid.inside
  have stored := toNat_heardSci_riv valid.count (sentWord s)
  have sent := congrArg (fun c : Sci => c.riv.toNat) (heardSci_sentWord valid format)
  exact (stored.symm.trans sent).trans (Nat.mod_eq_of_lt narrow)

theorem heardPair_sentWord (valid : ValidPair s) (format : s.sci.fmt = 1) :
    heardPair (opN s) (heardRiv (opN s) (sentWord s)) = (opStart s, opLen s) :=
  heardPair_of_rivEncode valid.count valid.len valid.inside (heardRiv_sentWord valid format)

/-- The span asked for by the parser is that asked for by the framer. -/
theorem heardReq_sentWord (valid : ValidPair s) (format : s.sci.fmt = 1) (base : s.pool.startPrb = 0) :
    heardReq s (opStart s) (sentWord s) = frReq s := by
  have base' : opP0 s = 0 := congrArg BitVec.toNat base
  rw [heardReq_of_pair (heardPair_sentWord valid format), base', Nat.add_mul, frReq, Config.ccw_eq]
  omega

/-! ### The three commands before the parse -/

/-- `s` with a control message placed by `FR_CTRL`. -/
def controlSent (s : State) (crc : CrcBits) (g1 g2 g4 : Grid) (qec : List (Answer (Option (Grid × CrcBits))))
    (qi : List (Answer Grid)) : State :=
  afterOk (controlStepsDone s g1 g2 crc qec (.reply g4 :: qi))

/-- `s` with a frame copied by `RX_LOOP`, which `FR_DATA` has placed after the control message. -/
def loopedBack (s : State) (v : Nat) (g3 g4 : Grid) (qv : List (Answer Nat)) (qed : List (Answer (Option Grid)))
    (qi : List (Answer Grid)) : State :=
  afterOk { afterOk (dataStepsDone s v g3 g4 qv qed qi) with rxgrid := g4 }

variable {g1 g2 g3 g4 : Grid} {qec : List (Answer (Option (Grid × CrcBits)))} {qi : List (Answer Grid)}
  {qv : List (Answer Nat)} {qed : List (Answer (Option Grid))}

theorem foldl_loopedBack (valid : ValidPair s) (hb : s.status.busy = false) (hc : s.status.cellv = true)
    (hp : s.status.poolv = true) (hf : s.status.frfail = false) (hempty : s.frState = .empty) (pos : 0 < v)
    (le : v ≤ frReq s) (encodeControl : s.backends.encodeControl = .reply (some (g1, crc)) :: qec)
    (insertRef : s.backends.insertRef = .reply g2 :: .reply g4 :: qi)
    (span : s.backends.validSpan = .reply v :: qv) (encodeData : s.backends.encodeData = .reply (some g3) :: qed) :
    [Instr.frCtrl, .frData, .rxLoop].foldl execAfter (.next s) =
      .next (loopedBack (controlSent s crc g1 g2 g4 qec qi) v g3 g4 qv qed qi) := by
  have control : exec .frCtrl s = .next (controlSent s crc g1 g2 g4 qec qi) := by
    rw [exec_frCtrl hb hc hp hf hempty, ruleFrCtrl_of_answers (s := accept s) ⟨valid.count, valid.len, valid.inside⟩
      encodeControl insertRef]
    rfl
  have data : exec .frData (controlSent s crc g1 g2 g4 qec qi) =
      .next (afterOk (dataStepsDone (controlSent s crc g1 g2 g4 qec qi) v g3 g4 qv qed qi)) := by
    rw [exec_frData (s := controlSent s crc g1 g2 g4 qec qi) rfl hc hp hf rfl,
      ruleFrData_of_answers (s := accept (controlSent s crc g1 g2 g4 qec qi)) pos le span encodeData rfl]
    rfl
  have loop : exec .rxLoop (afterOk (dataStepsDone (controlSent s crc g1 g2 g4 qec qi) v g3 g4 qv qed qi)) =
      .next (loopedBack (controlSent s crc g1 g2 g4 qec qi) v g3 g4 qv qed qi) :=
    exec_rxLoop (s := afterOk (dataStepsDone (controlSent s crc g1 g2 g4 qec qi) v g3 g4 qv qed qi)) rfl hc hf
  calc [Instr.frCtrl, .frData, .rxLoop].foldl execAfter (.next s)
      = execAfter (execAfter (exec .frCtrl s) .frData) .rxLoop := rfl
    _ = execAfter (exec .frData (controlSent s crc g1 g2 g4 qec qi)) .rxLoop := by rw [control, execAfter]
    _ = exec .rxLoop (afterOk (dataStepsDone (controlSent s crc g1 g2 g4 qec qi) v g3 g4 qv qed qi)) := by
        rw [data, execAfter]
    _ = .next (loopedBack (controlSent s crc g1 g2 g4 qec qi) v g3 g4 qv qed qi) := loop

/-- The configuration of the data decode is that of the data encode (42_framer_tx.md R166, 43_parser_rx.md R199). -/
theorem heardConfig_loopedBack (valid : ValidPair s) (format : s.sci.fmt = 1) (narrow : v < 256)
    (subframe : s.rxSfidx.toNat % 10 = s.frIn.sfidx.toNat % 10) :
    heardConfig (loopedBack (controlSent s crc g1 g2 g4 qec qi) v g3 g4 qv qed qi) (opStart s) (sentWord s) crc v =
      spanConfig (controlSent s crc g1 g2 g4 qec qi) v := by
  have fields := heardSci_sentWord valid format
  have mcs : BitVec.ofNat 5 ((sentWord s).toNat / 2 ^ (16 - wRiv (opN s))) = s.sci.mcs := congrArg Sci.mcs fields
  have retx : BitVec.ofNat 1 ((sentWord s).toNat / 2 ^ (15 - wRiv (opN s))) = s.sci.retx := congrArg Sci.retx fields
  have version := retx.trans (ite_bit_eq_one s.sci.retx).symm
  have span : v = v % 256 := (Nat.mod_eq_of_lt narrow).symm
  calc heardConfig (loopedBack (controlSent s crc g1 g2 g4 qec qi) v g3 g4 qv qed qi) (opStart s) (sentWord s) crc v
      = { prbStart := opStart s * opW s + 2
          nofPrb := v
          scramblingId := BitVec.ofNat 32 crc.toNat
          mcs := BitVec.ofNat 5 ((sentWord s).toNat / 2 ^ (16 - wRiv (opN s)))
          redundancyVersion := BitVec.ofNat 1 ((sentWord s).toNat / 2 ^ (15 - wRiv (opN s)))
          subframe := s.rxSfidx.toNat % 10 } := rfl
    _ = { prbStart := opStart s * opW s + 2
          nofPrb := v % 256
          scramblingId := BitVec.ofNat 32 crc.toNat
          mcs := s.sci.mcs
          redundancyVersion := if s.sci.retx = 1 then 1 else 0
          subframe := s.frIn.sfidx.toNat % 10 } := by rw [mcs, version, subframe, ← span]
    _ = spanConfig (controlSent s crc g1 g2 g4 qec qi) v := rfl

/-! ### The calls of the parse -/

theorem mem_callsOnce_control (s : State) {idx k j : Nat} {grid : Nat → Grid} {bits : ControlBits} (hj : j ≤ k) :
    Call.estimateAndEqualize s.rxgrid ∈ callsOnce s idx k grid bits crc v := by
  have here : Call.estimateAndEqualize s.rxgrid ∈ controlCalls s idx j (grid j) := by simp [controlCalls]
  exact List.mem_append_left _ (List.mem_append_left _
    (List.mem_flatMap.mpr ⟨j, List.mem_range.mpr (Nat.lt_succ_of_le hj), here⟩))

theorem mem_callsOnce_data (s : State) {idx k : Nat} {grid : Nat → Grid} {bits : ControlBits} :
    Call.decodeData (grid (k + 1)) (heardConfig s idx bits crc v) ∈ callsOnce s idx k grid bits crc v := by
  have here : Call.decodeData (grid (k + 1)) (heardConfig s idx bits crc v) ∈
      dataCalls s (grid (k + 1)) (heardConfig s idx bits crc v) := by simp [dataCalls]
  exact List.mem_append_left _ (List.mem_append_right _ (List.mem_cons_of_mem _ here))

end Sys2Proof.Machine

namespace Sys2Proof

open Machine

/-- Settles O47: the frame is looped back (`foldl_loopedBack`), and the parse hears it at shift 0 with the configuration of
the data encode (`heardConfig_loopedBack`). -/
theorem loopBackRecoversTheFrame : Obligations.LoopBackRecoversTheFrame := by
  intro s g1 g2 g3 g4 e1 e2 e3 e4 e5 crc v m p qec qi qq qv qed qdc qdd hb hc hp hf hempty count cell len inside hm format
    base _ subframe pos le encodeControl insertRef span encodeData equalize control data hmle bytes
  have valid : ValidPair s := ⟨count, len, inside⟩
  have narrow : v < 256 := by
    have grid : opN s * opW s < 256 := Nat.lt_of_le_of_lt cell s.cell.nprb.isLt
    have allocated : opLen s * opW s ≤ opN s * opW s := Nat.mul_le_mul_right _ (by unfold opLen opN; omega)
    have asked : v ≤ opLen s * opW s - 2 := le
    omega
  let placed := controlSent s crc g1 g2 g4 qec qi
  let looped := loopedBack placed v g3 g4 (.reply v :: qv) qed qi
  have loop : [Instr.frCtrl, .frData, .rxLoop].foldl execAfter (.next s) = .next looped :=
    foldl_loopedBack valid hb hc hp hf hempty pos le encodeControl insertRef span encodeData
  have pair := heardPair_sentWord valid format
  have granted : v ≤ heardReq looped (opStart s) (sentWord s) := le.trans_eq (heardReq_sentWord valid format base).symm
  have listed := listed_heardOnce (s := looped) (idx := opStart s) (b := looped.backends) (k := 0) (qc := qdc)
    (grid := fun j => [e1, e2, e3, e4, e5].getD j e5) (by decide) pos granted equalize control rfl data
  have inPool : opStart s < opN s := by
    unfold opStart opN
    omega
  have small : opN s ≤ 20 := count
  obtain ⟨mem, run, window⟩ := exec_parseSubch_heardOnce (s := looped) rfl hc hp count
    inPool hm (by decide) pos granted listed
  obtain ⟨t, run, after⟩ : ∃ t, exec (.parseSubch (opStart s)) looped = .next t ∧ t = afterOk _ := ⟨_, run, rfl⟩
  have entry : drAt t (opStart s) = heardEntry looped (opStart s) 0 {} (heardFrame e1 e2 (sentWord s) crc v p) := by
    rw [after]
    exact drAt_putDr_same looped _ (show opStart s < 20 by omega)
  rw [heardEntry_heardFrame (s := looped) pair pos granted] at entry
  have frOut : t.frOut = looped.frOut := by rw [after]; rfl
  have out : t.out = .pulse .evDone :: (((callsOnce looped (opStart s) 0 (fun j => [e1, e2, e3, e4, e5].getD j e5)
      (sentWord s) crc v).map Out.call).reverse ++ looped.out) := by rw [after]; rfl
  have asked {c : Call} (h : c ∈ callsOnce looped (opStart s) 0 (fun j => [e1, e2, e3, e4, e5].getD j e5)
      (sentWord s) crc v) : Out.call c ∈ t.out := by
    rw [out]
    exact List.mem_cons_of_mem _ (List.mem_append_left _ (List.mem_reverse.mpr (List.mem_map_of_mem h)))
  have bytes' : ∀ j < m, readByte t.mem (byteAddr (rxtbBase (opStart s)) + j) = readByte s.mem (byteAddr txtbBase + j) := by
    intro j hj
    rw [after, ← bytes j hj]
    exact window j (hj.trans_le hmle)
  refine ⟨t, spanConfig placed v, ?run, ?entry, by rw [after]; rfl, by rw [after]; rfl, bytes', ?encode, ?grid, ?decode⟩
  case run =>
    exact (congrArg (fun o => execAfter o (.parseSubch (opStart s))) loop).trans run
  case entry =>
    dsimp only
    rw [show s.frIn.start.toNat = opStart s from rfl, entry, frOut]
    have unwrapped (x : BitVec 5) : BitVec.ofNat 5 x.toNat = x := by rw [BitVec.ofNat_toNat, BitVec.setWidth_eq]
    have crc' : crc.toNat % 2 ^ 32 = crc.toNat := Nat.mod_eq_of_lt (crc.isLt.trans (by decide))
    exact ⟨unwrapped _, unwrapped _, rfl, (BitVec.toNat_ofNat _ _).trans crc', rfl,
      (BitVec.toNat_ofNat _ _).trans (Nat.mod_eq_of_lt narrow), rfl, rfl, rfl, rfl⟩
  case encode =>
    have sent : Out.call (.encodeData (takePayload s.mem txtbBase) (spanConfig placed v) g2) ∈ looped.out := by
      simp [looped, loopedBack, afterOk, dataStepsDone, placed, controlSent, controlStepsDone]
    rw [out]
    exact List.mem_cons_of_mem _ (List.mem_append_right _ sent)
  case grid => exact asked (mem_callsOnce_control looped (Nat.le_refl 0))
  case decode =>
    rw [← heardConfig_loopedBack valid format narrow subframe]
    exact asked (mem_callsOnce_data looped)

end Sys2Proof
end

section
/-! PROOF. 44_scheduler.md R221, R222, R231: the radio commands on listed answers, and `SCH_CANCEL`. The bring-up of
R221 is cut into its four calls, each a state it leaves and an equation for each of its answers. -/

namespace Sys2Proof.Machine

variable {s : State}

/-! ### The calls of the bring-up and what each leaves (60_exceptions.md R294) -/

/-- `s` when `open` has answered with handle `h`. -/
def radioOpened (h : Handle) (q : List (Answer (Option Handle))) (s : State) : State :=
  { s with
    handle := some h
    backends := { s.backends with radioOpen := q }
    out := .call (.radioOpen Config.radioArgs) :: s.out }

/-- `s` when `set_freq` has answered. -/
def freqAsked (q : List (Answer Bool)) (s : State) : State :=
  { s with
    backends := { s.backends with setFreq := q }
    out := .call (.setFreq s.handle Config.centerFreq) :: s.out }

/-- `s` when `set_gain` has answered. -/
def gainAsked (q : List (Answer Bool)) (s : State) : State :=
  { s with
    backends := { s.backends with setGain := q }
    out := .call (.setGain s.handle Config.txGain) :: s.out }

/-- `s` when `set_sample_rate` has answered. -/
def rateAsked (q : List (Answer (Option Nat))) (s : State) : State :=
  { s with
    backends := { s.backends with setRate := q }
    out := .call (.setSampleRate s.handle (opSr s)) :: s.out }

theorem askSetFreq_of_reply {ok : Bool} {q : List (Answer Bool)} (h : s.backends.setFreq = .reply ok :: q) :
    askSetFreq s = .value ok (freqAsked q s) := by
  rw [askSetFreq, h, ask_reply]
  rfl

theorem askSetGain_of_reply {ok : Bool} {q : List (Answer Bool)} (h : s.backends.setGain = .reply ok :: q) :
    askSetGain s = .value ok (gainAsked q s) := by
  rw [askSetGain, h, ask_reply]
  rfl

theorem askSetRate_of_reply {r : Option Nat} {q : List (Answer (Option Nat))}
    (h : s.backends.setRate = .reply r :: q) : askSetRate s = .value r (rateAsked q s) := by
  rw [askSetRate, h, ask_reply]
  rfl

/-! ### The pseudocode of the bring-up, from each of its calls on (44_scheduler.md R221) -/

/-- `RADIO_OPEN` from `set_sample_rate` on. -/
def bringUpRate (s : State) : Run Unit :=
  (askSetRate s).next fun a s => if a = some (opSr s) then done { s with status.radio := true } else radioFail 4 s

/-- `RADIO_OPEN` from `set_gain` on. -/
def bringUpGain (s : State) : Run Unit :=
  (askSetGain s).next fun ok s => if !ok then radioFail 3 s else bringUpRate s

/-- `RADIO_OPEN` from `set_freq` on. -/
def bringUpFreq (s : State) : Run Unit :=
  (askSetFreq s).next fun ok s => if !ok then radioFail 2 s else bringUpGain s

/-- A sample rate that `RADIO_OPEN` accepts (44_scheduler.md R221). -/
def RateLegal (s : State) : Prop := opSr s ≠ 0 ∧ opSr s % 1000 = 0

theorem ruleRadioOpen_of_rate_illegal (h : opSr s = 0 ∨ opSr s % 1000 ≠ 0) :
    ruleRadioOpen s = .raised .invalidConfiguration 5 s := if_pos h

/-- A legal rate leads to the call of `open`. -/
theorem ruleRadioOpen_of_rateLegal (h : RateLegal s) :
    ruleRadioOpen s = (askRadioOpen s).next fun r s =>
      match r with
      | none => .raised .hardwareFailure 1 s
      | some h => bringUpFreq { s with handle := some h } := by
  obtain ⟨positive, thousands⟩ := h
  exact if_neg (by simp [positive, thousands])

/-- `open` fails: no handle was opened, and none is closed. -/
theorem ruleRadioOpen_of_open_err {q : List (Answer (Option Handle))} (legal : RateLegal s)
    (h : s.backends.radioOpen = .reply none :: q) :
    ruleRadioOpen s = .raised .hardwareFailure 1
      { s with
        backends := { s.backends with radioOpen := q }
        out := .call (.radioOpen Config.radioArgs) :: s.out } := by
  rw [ruleRadioOpen_of_rateLegal legal, askRadioOpen, h, ask_reply]
  rfl

theorem ruleRadioOpen_of_open_ok {hd : Handle} {q : List (Answer (Option Handle))} (legal : RateLegal s)
    (h : s.backends.radioOpen = .reply (some hd) :: q) : ruleRadioOpen s = bringUpFreq (radioOpened hd q s) := by
  rw [ruleRadioOpen_of_rateLegal legal, askRadioOpen, h, ask_reply]
  rfl

theorem bringUpFreq_of_err {q : List (Answer Bool)} (h : s.backends.setFreq = .reply false :: q) :
    bringUpFreq s = radioFail 2 (freqAsked q s) := by
  rw [bringUpFreq, askSetFreq_of_reply h]
  rfl

theorem bringUpFreq_of_ok {q : List (Answer Bool)} (h : s.backends.setFreq = .reply true :: q) :
    bringUpFreq s = bringUpGain (freqAsked q s) := by
  rw [bringUpFreq, askSetFreq_of_reply h]
  rfl

theorem bringUpGain_of_err {q : List (Answer Bool)} (h : s.backends.setGain = .reply false :: q) :
    bringUpGain s = radioFail 3 (gainAsked q s) := by
  rw [bringUpGain, askSetGain_of_reply h]
  rfl

theorem bringUpGain_of_ok {q : List (Answer Bool)} (h : s.backends.setGain = .reply true :: q) :
    bringUpGain s = bringUpRate (gainAsked q s) := by
  rw [bringUpGain, askSetGain_of_reply h]
  rfl

/-- `set_sample_rate` fails, or the hardware took another rate than the one asked for. -/
theorem bringUpRate_of_other {r : Option Nat} {q : List (Answer (Option Nat))} (other : r ≠ some (opSr s))
    (h : s.backends.setRate = .reply r :: q) : bringUpRate s = radioFail 4 (rateAsked q s) := by
  rw [bringUpRate, askSetRate_of_reply h]
  exact if_neg other

theorem bringUpRate_of_asked {q : List (Answer (Option Nat))}
    (h : s.backends.setRate = .reply (some (opSr s)) :: q) :
    bringUpRate s = done { rateAsked q s with status.radio := true } := by
  rw [bringUpRate, askSetRate_of_reply h]
  exact if_pos rfl

/-! ### The commands, from the word to the completion -/

/-- A failed step of the bring-up closes the handle (44_scheduler.md R221). -/
theorem finish_radioFail (sub : Word) (s : State) :
    finish (radioFail sub s) = afterError 5 sub
      { s with handle := none, out := .call (.radioClose s.handle) :: s.out } :=
  takeError_afterError .hardwareFailure sub (callRadioClose s)

/-- `SCH_CANCEL` in an idle block sets the latch and completes (44_scheduler.md R231). -/
theorem exec_schCancel_idle (h : s.status.busy = false) :
    exec .schCancel s = .next (afterOk { s with status := { s.status with cancel := true } }) :=
  exec_schCancel h

end Sys2Proof.Machine

namespace Sys2Proof

open Machine

/-- Settles O48: the four calls of the bring-up, each answered `ok`, on the accepted state; `RADIO_CLOSE` is one
call and one write. -/
theorem radioOpenAndClose : Obligations.RadioOpenAndClose := by
  intro s hb
  refine ⟨fun h qo qf qg qr closed positive thousands hopen hfreq hgain hrate => ⟨?openWord, ?opened⟩,
    fun isOpen => ⟨?closeWord, ?closed⟩⟩
  case openWord => exact hostWrite_encode (i := .radioOpen) rfl s
  case opened =>
    have legal : RateLegal (accept s) := ⟨fun zero => positive (BitVec.eq_of_toNat_eq zero), thousands⟩
    let opened := radioOpened h qo (accept s)
    have run : bringUpFreq opened = done _ :=
      calc bringUpFreq opened = bringUpGain (freqAsked qf opened) := bringUpFreq_of_ok hfreq
        _ = bringUpRate (gainAsked qg (freqAsked qf opened)) := bringUpGain_of_ok hgain
        _ = done _ := bringUpRate_of_asked hrate
    rw [exec_radioOpen hb closed, ruleRadioOpen_of_open_ok legal hopen, run]
    rfl
  case closeWord => exact hostWrite_encode (i := .radioClose) rfl s
  case closed => exact exec_radioClose hb isOpen

/-- Settles O49: the calls up to the failing one (`ruleRadioOpen_of_open_ok` and the `bringUp` lemmas), then the close
and the error (`finish_radioFail`), which overwrites what acceptance wrote. -/
theorem radioOpenFailures : Obligations.RadioOpenFailures := by
  intro s hb closed
  rw [exec_radioOpen hb closed]
  refine ⟨fun illegal => ?rate, fun positive thousands => ?_⟩
  case rate =>
    rw [ruleRadioOpen_of_rate_illegal (s := accept s) illegal, finish_raised_accept]
    rfl
  have legal : RateLegal (accept s) := ⟨positive, thousands⟩
  refine ⟨fun qo hopen => ?openErr, fun h qo hopen => ?_⟩
  case openErr =>
    rw [ruleRadioOpen_of_open_err legal hopen, finish_raised, takeError_afterError]
    rfl
  let opened := radioOpened h qo (accept s)
  rw [ruleRadioOpen_of_open_ok legal hopen]
  refine ⟨fun qf hfreq => ?freqErr, fun qf qg hfreq hgain => ?gainErr,
    fun r qf qg qr other hfreq hgain hrate => ?rateErr⟩
  case freqErr =>
    have run : bringUpFreq opened = radioFail 2 _ := bringUpFreq_of_err hfreq
    rw [run, finish_radioFail]
    rfl
  case gainErr =>
    have run : bringUpFreq opened = radioFail 3 _ :=
      calc bringUpFreq opened = bringUpGain (freqAsked qf opened) := bringUpFreq_of_ok hfreq
        _ = radioFail 3 _ := bringUpGain_of_err hgain
    rw [run, finish_radioFail]
    rfl
  case rateErr =>
    have run : bringUpFreq opened = radioFail 4 _ :=
      calc bringUpFreq opened = bringUpGain (freqAsked qf opened) := bringUpFreq_of_ok hfreq
        _ = bringUpRate (gainAsked qg (freqAsked qf opened)) := bringUpGain_of_ok hgain
        _ = radioFail 4 _ := bringUpRate_of_other other hrate
    rw [run, finish_radioFail]
    rfl

/-- Settles O51: a busy block only sets the latch (`exec_schCancel_busy`), an idle one also completes. -/
theorem schedulerCancelCommand : Obligations.SchedulerCancelCommand := fun s =>
  ⟨hostWrite_encode (i := .schCancel) rfl s, exec_schCancel_busy, exec_schCancel_idle⟩

end Sys2Proof
end

section
/-! PROOF. 44_scheduler.md R223 to R232, R236: the start of the loop and one tick, on listed answers. The clock read,
the epoch derived from it and the transmit time are stated in the words of the statements; each way a pass of the
loop can end has one lemma. -/

namespace Sys2Proof.Machine

variable {s : State}

/-! ### The clock and the radio on listed answers (60_exceptions.md R294, R295) -/

/-- `s` when a clock read has been answered. -/
def clockRead (q : List (Answer HwTime)) (s : State) : State :=
  { s with backends := { s.backends with getTime := q }, out := .call (.getTime s.handle) :: s.out }

/-- A time within the contract of the clock (60_exceptions.md R295). -/
structure InContract (t : HwTime) : Prop where
  sec : t.sec < 2 ^ 32
  frac : t.frac < 1000000000

/-- A time within the contract is taken as it is. -/
theorem clockContract_of_inContract {t : HwTime} (h : InContract t) : clockContract t = t := by
  have hsec := h.sec
  have hfrac := h.frac
  have sec : min t.sec (2 ^ 32 - 1) = t.sec := by omega
  have frac : min t.frac (Config.fracUnits - 1) = t.frac := by
    rw [Config.fracUnits_eq]
    omega
  rw [clockContract, sec, frac]

theorem askTime_of_reply {now : HwTime} {q : List (Answer HwTime)} (valid : InContract now)
    (h : s.backends.getTime = .reply now :: q) : askTime s = .value now (clockRead q s) := by
  rw [askTime, h, ask_reply, Run.next_value, clockContract_of_inContract valid]
  rfl

theorem askSendTimed_of_reply {ret : Word} {q : List (Answer Word)} (tx : HwTime)
    (h : s.backends.sendTimed = .reply ret :: q) :
    askSendTimed tx s = .value ret
      { s with
        backends := { s.backends with sendTimed := q }
        out := .call (.sendTimed s.handle s.txsamp (nSamples (opSr s)) tx.sec tx.frac true true) :: s.out } := by
  rw [askSendTimed, h, ask_reply]
  rfl

/-! ### The epoch (44_scheduler.md R224, R236) -/

/-- The clock read aligned down to a millisecond plus 3 ms. -/
def epochOf (now : HwTime) : HwTime :=
  let f := now.frac / 1000000 * 1000000 + 3000000
  { sec := now.sec + f / 1000000000, frac := f % 1000000000 }

theorem normTime_aligned (now : HwTime) :
    normTime now.sec (now.frac / Config.ms * Config.ms + Config.guardMs * Config.ms) = epochOf now := by
  simp only [normTime, epochOf, Config.ms_eq, Config.guardMs_eq, Config.fracUnits_eq]

variable {now e : HwTime} {q : List (Answer HwTime)}

theorem deriveEpoch_of_fits (valid : InContract now) (h : s.backends.getTime = .reply now :: q)
    (he : epochOf now = e) (fits : e.sec < 2 ^ 32) :
    deriveEpoch s = done
      { clockRead q s with
        sched.epochSec := BitVec.ofNat 32 e.sec
        sched.epochFrac := BitVec.ofNat 30 e.frac } := by
  rw [deriveEpoch, askTime_of_reply valid h, Run.next_value]
  dsimp only
  rw [normTime_aligned, he]
  exact if_neg (Nat.not_le_of_lt fits)

theorem deriveEpoch_of_overflow (valid : InContract now) (h : s.backends.getTime = .reply now :: q)
    (he : epochOf now = e) (tooLate : 2 ^ 32 ≤ e.sec) :
    deriveEpoch s = .raised .hardwareFailure 5 (clockRead q s) := by
  rw [deriveEpoch, askTime_of_reply valid h, Run.next_value]
  dsimp only
  rw [normTime_aligned, he]
  exact if_pos tooLate

/-! ### The start (44_scheduler.md R223) -/

/-- `s` when `SCH_START` comes to derive the epoch: the latch and the counters cleared. -/
def awaitingStart (s : State) : State :=
  { s with
    status := { s.status with cancel := s.inCancel }
    schState := .awaitStart
    sched := { s.sched with ticks := 0, slips := 0, sendFails := 0, lastRet := 0 } }

theorem ruleSchStart_eq (s : State) :
    ruleSchStart s = (deriveEpoch (awaitingStart s)).next fun _ t =>
      done { zeroOffsets t with schState := .scheduled } := rfl

theorem stepLegal_iff {n : Nat} : stepLegal n = true ↔ n ≠ 0 ∧ 1000 % n = 0 := by
  simp [stepLegal]

/-- A pass of the scheduler that raises terminates the loop and completes `SCH_START` (44_scheduler.md R236). -/
theorem runScheduler_raised (k : ErrKind) (info : Word) (s : State) :
    runScheduler (.raised k info s) = afterError k.code info (released s) :=
  takeError_afterError k info (terminate s)

/-! ### The tick, up to its clock read (44_scheduler.md R225, R226) -/

/-- A turn of the engine while the loop runs is a tick. -/
theorem makeMove_engine_tick (hs : s.schState = .scheduled) (awake : s.hung = false) (hr : s.inRst = false) :
    makeMove .engine s = .next (tick s) := by
  simp [makeMove, engineTurn, hs, awake, hr]

theorem tick_of_cancelled (h : s.status.cancel = true ∨ s.inCancel = true) : tick s = afterOk (released s) :=
  if_pos (by simpa using h)

/-- The next turn of the engine is a tick that is not cancelled. -/
structure Ticking (s : State) : Prop where
  scheduled : s.schState = .scheduled
  awake : s.hung = false
  notHeld : s.inRst = false
  latch : s.status.cancel = false
  input : s.inCancel = false

theorem makeMove_engine_of_ticking (h : Ticking s) : makeMove .engine s = .next (runScheduler (ruleTick s)) := by
  have notCancelled : ¬(s.status.cancel || s.inCancel) = true := by simp [h.latch, h.input]
  rw [makeMove_engine_tick h.scheduled h.awake h.notHeld, tick, if_neg notCancelled]

/-- The transmit time is the epoch plus the offsets, in `frac` units and normalized. -/
theorem txTimeOf_eq (s : State) :
    txTimeOf s =
      (let units := (s.sched.epochSec.toNat + s.sched.secOff.toNat) * 1000000000
        + s.sched.epochFrac.toNat + s.sched.msecOff.toNat * 1000000
       ⟨units / 1000000000, units % 1000000000⟩) := by
  simp only [txTimeOf, normTime, Config.ms_eq, Config.fracUnits_eq, HwTime.mk.injEq]
  omega

variable {tx : HwTime} {qt : List (Answer HwTime)}

/-- `s` when the tick has been counted and its transmit time written. -/
def txTimeTaken (tx : HwTime) (s : State) : State :=
  { s with
    sched := { s.sched with
      ticks := s.sched.ticks + 1
      txSec := BitVec.ofNat 32 tx.sec
      txFrac := BitVec.ofNat 30 tx.frac } }

/-- Counting the tick does not move its transmit time. -/
theorem takeTxTime_of_fits (htx : txTimeOf s = tx) (fits : tx.sec < 2 ^ 32) :
    takeTxTime { s with sched.ticks := s.sched.ticks + 1 } = .value tx (txTimeTaken tx s) := by
  subst htx
  exact if_neg (Nat.not_le_of_lt fits)

/-- A transmit time of `2^32` seconds or more ends the tick (44_scheduler.md R236; log entry 26). -/
theorem ruleTick_of_overflow (tooLate : 2 ^ 32 ≤ (txTimeOf s).sec) :
    ruleTick s = .raised .hardwareFailure 5 { s with sched.ticks := s.sched.ticks + 1 } := by
  have raised : takeTxTime { s with sched.ticks := s.sched.ticks + 1 } =
      .raised .hardwareFailure 5 { s with sched.ticks := s.sched.ticks + 1 } := if_pos tooLate
  rw [ruleTick, raised, Run.next_raised]

/-! ### The two branches of the slip test (44_scheduler.md R227 to R230) -/

theorem samplesOf_eq (t : HwTime) (sr : Nat) : samplesOf t sr = sampleUnits t.sec t.frac sr := by
  simp only [samplesOf, sampleUnits, Config.fracUnits_eq]

/-- The slip test in sample units. -/
theorem slipped_iff {sr : Nat} :
    slipped now tx sr = true ↔ sampleUnits tx.sec tx.frac sr < sampleUnits now.sec now.frac sr := by
  rw [slipped, samplesOf_eq, samplesOf_eq, decide_eq_true_iff]

/-- What a tick of `s` reads: its transmit time `tx`, below `2^32` seconds, and the clock at `now`. -/
structure TickReads (s : State) (tx now : HwTime) (qt : List (Answer HwTime)) : Prop where
  txTime : txTimeOf s = tx
  fits : tx.sec < 2 ^ 32
  valid : InContract now
  listed : s.backends.getTime = .reply now :: qt

/-- The clock at `now` has not passed the transmit time `tx`, in sample units. -/
def InTime (s : State) (tx now : HwTime) : Prop :=
  sampleUnits now.sec now.frac s.sched.srate.toNat ≤ sampleUnits tx.sec tx.frac s.sched.srate.toNat

/-- A tick that read the clock goes one of two ways. -/
theorem ruleTick_of_reads (h : TickReads s tx now qt) :
    ruleTick s =
      (let t := clockRead qt (txTimeTaken tx s)
       if slipped now tx s.sched.srate.toNat then lateReset t
       else (sendBurst tx t).next fun _ u => done (advance u)) := by
  rw [ruleTick, takeTxTime_of_fits h.txTime h.fits, Run.next_value,
    askTime_of_reply (s := txTimeTaken tx s) h.valid h.listed, Run.next_value]
  rfl

theorem ruleTick_of_slip (h : TickReads s tx now qt) (late : ¬InTime s tx now) :
    ruleTick s = lateReset (clockRead qt (txTimeTaken tx s)) :=
  (ruleTick_of_reads h).trans (if_pos (slipped_iff.mpr (Nat.lt_of_not_le late)))

theorem ruleTick_of_inTime (h : TickReads s tx now qt) (inTime : InTime s tx now) :
    ruleTick s = (sendBurst tx (clockRead qt (txTimeTaken tx s))).next fun _ u => done (advance u) :=
  (ruleTick_of_reads h).trans (if_neg (mt slipped_iff.mp (Nat.not_lt_of_le inTime)))

/-- The send keeps the return value; a negative one is reported (44_scheduler.md R229). -/
theorem sendBurst_of_reply {ret : Word} {q : List (Answer Word)} (tx : HwTime)
    (h : s.backends.sendTimed = .reply ret :: q) :
    sendBurst tx s = done
      { s with
        sched := { s.sched with
          lastRet := ret
          sendFails := if ret.toInt < 0 then s.sched.sendFails + 1 else s.sched.sendFails }
        flags := { s.flags with sendfail := s.flags.sendfail || decide (ret.toInt < 0) }
        backends := { s.backends with sendTimed := q }
        out := (if ret.toInt < 0 then [.pulse .evSendfail] else []) ++
          .call (.sendTimed s.handle s.txsamp (nSamples (opSr s)) tx.sec tx.frac true true) :: s.out } := by
  rw [sendBurst, askSendTimed_of_reply tx h, Run.next_value]
  by_cases negative : ret.toInt < 0
  · simp [BitVec.msb_eq_toInt, negative, reportSendFail, pulse, emit]
  · simp [BitVec.msb_eq_toInt, negative]

/-- The advance by the step, with the carry at 1000 (44_scheduler.md R230; log entry 33). -/
theorem advance_offsets (s : State) :
    advance s =
      (let m := s.sched.msecOff.toNat + s.sched.stepMs.toNat
       { s with
         sched := { s.sched with
           secOff := if 1000 ≤ m then s.sched.secOff + 1 else s.sched.secOff
           msecOff := if 1000 ≤ m then 0 else BitVec.ofNat 10 m } }) := by
  unfold advance opStep
  dsimp only
  split <;> rfl

/-! ### What a tick leaves -/

/-- A subframe is one millisecond (44_scheduler.md R235). -/
theorem nSamples_eq (sr : Nat) : nSamples sr = sr / 1000 := by
  rw [nSamples, Config.subframeMs_eq, Nat.mul_one]

/-- `s` after a tick that sends at `tx` (44_scheduler.md R226, R229, R230). -/
def tickSent (tx : HwTime) (ret : Word) (qt : List (Answer HwTime)) (qs : List (Answer Word)) (s : State) : State :=
  let m := s.sched.msecOff.toNat + s.sched.stepMs.toNat
  { s with
    sched := { s.sched with
      ticks := s.sched.ticks + 1
      txSec := BitVec.ofNat 32 tx.sec
      txFrac := BitVec.ofNat 30 tx.frac
      lastRet := ret
      sendFails := if ret.toInt < 0 then s.sched.sendFails + 1 else s.sched.sendFails
      secOff := if 1000 ≤ m then s.sched.secOff + 1 else s.sched.secOff
      msecOff := if 1000 ≤ m then 0 else BitVec.ofNat 10 m }
    flags := { s.flags with sendfail := s.flags.sendfail || decide (ret.toInt < 0) }
    backends := { s.backends with getTime := qt, sendTimed := qs }
    out := (if ret.toInt < 0 then [.pulse .evSendfail] else []) ++
      .call (.sendTimed s.handle s.txsamp (s.sched.srate.toNat / 1000) tx.sec tx.frac true true) ::
      .call (.getTime s.handle) :: s.out }

theorem ruleTick_of_sends {ret : Word} {qs : List (Answer Word)} (h : TickReads s tx now qt)
    (hsend : s.backends.sendTimed = .reply ret :: qs) (inTime : InTime s tx now) :
    ruleTick s = done (tickSent tx ret qt qs s) := by
  rw [ruleTick_of_inTime h inTime, sendBurst_of_reply (s := clockRead qt (txTimeTaken tx s)) tx hsend, nSamples_eq]
  exact congrArg done (advance_offsets _)

/-- A tick that is not cancelled and does not slip. -/
theorem makeMove_engine_sends {ret : Word} {qs : List (Answer Word)} (ticking : Ticking s)
    (h : TickReads s tx now qt) (hsend : s.backends.sendTimed = .reply ret :: qs) (inTime : InTime s tx now) :
    makeMove .engine s = .next (tickSent tx ret qt qs s) := by
  rw [makeMove_engine_of_ticking ticking, ruleTick_of_sends h hsend inTime]
  rfl

/-- `s` after a tick that slips: the slip reported and the second clock read answered (44_scheduler.md R228). -/
def slipReported (tx : HwTime) (q : List (Answer HwTime)) (s : State) : State :=
  { s with
    sched := { s.sched with
      ticks := s.sched.ticks + 1
      txSec := BitVec.ofNat 32 tx.sec
      txFrac := BitVec.ofNat 30 tx.frac
      slips := s.sched.slips + 1 }
    flags := { s.flags with slip := true }
    backends := { s.backends with getTime := q }
    out := .call (.getTime s.handle) :: .pulse .evSlip :: .call (.getTime s.handle) :: s.out }

theorem slipReported_schState (tx : HwTime) (q : List (Answer HwTime)) (s : State) :
    (slipReported tx q s).schState = s.schState := by
  rw [slipReported]

/-- A late reset reports the slip, derives the epoch from a clock read of its own and goes on in `SCHEDULED`. -/
theorem lateReset_of_fits (hs : s.schState = .scheduled) (valid : InContract now) (h : qt = .reply now :: q)
    (he : epochOf now = e) (fits : e.sec < 2 ^ 32) :
    lateReset (clockRead qt (txTimeTaken tx s)) = done
      { slipReported tx q s with
        sched := { (slipReported tx q s).sched with
          epochSec := BitVec.ofNat 32 e.sec, epochFrac := BitVec.ofNat 30 e.frac, secOff := 0, msecOff := 0 } } := by
  have goesOn : SchState.scheduled = (slipReported tx q s).schState := by rw [slipReported_schState, hs]
  rw [lateReset, deriveEpoch_of_fits (s := reportSlip { clockRead qt (txTimeTaken tx s) with schState := .lateReset })
    valid h he fits, goesOn]
  rfl

theorem lateReset_of_overflow (valid : InContract now) (h : qt = .reply now :: q) (he : epochOf now = e)
    (tooLate : 2 ^ 32 ≤ e.sec) :
    lateReset (clockRead qt (txTimeTaken tx s)) =
      .raised .hardwareFailure 5 { slipReported tx q s with schState := .lateReset } := by
  rw [lateReset, deriveEpoch_of_overflow
    (s := reportSlip { clockRead qt (txTimeTaken tx s) with schState := .lateReset }) valid h he tooLate]
  rfl

end Sys2Proof.Machine

namespace Sys2Proof

open Machine

/-- Settles O50: the step check, then the derivation of the epoch (`deriveEpoch_of_fits`, `deriveEpoch_of_overflow`)
from the state that the accepted command has cleared. -/
theorem schedulerStart : Obligations.SchedulerStart := by
  intro s hb radio frame ready
  refine ⟨hostWrite_encode (i := .schStart) rfl s, fun illegal => ?step,
    fun sec frac q positive divides hsec hfrac ht => ?start⟩
  case step =>
    have refused : ¬stepLegal (opStep s) = true := by
      rw [stepLegal_iff]
      exact fun ⟨positive, divides⟩ => illegal.elim positive (absurd divides)
    rw [exec_schStart hb radio frame ready, if_neg refused]
    rfl
  case start =>
    intro f es ef zeroed
    have legal : stepLegal (opStep s) = true := stepLegal_iff.mpr ⟨positive, divides⟩
    have valid : InContract ⟨sec, frac⟩ := ⟨hsec, hfrac⟩
    have epoch : epochOf ⟨sec, frac⟩ = ⟨es, ef⟩ := rfl
    clear_value es ef
    rw [exec_schStart hb radio frame ready, if_pos legal, ruleSchStart_eq]
    refine ⟨fun fits => ?runs, fun tooLate => ?ends⟩
    case runs =>
      rw [deriveEpoch_of_fits (s := awaitingStart (accept s)) valid ht epoch fits]
      rfl
    case ends =>
      rw [deriveEpoch_of_overflow (s := awaitingStart (accept s)) valid ht epoch tooLate, Run.next_raised,
        runScheduler_raised]
      rfl

/-- Settles O52 (`makeMove_engine_sends`). -/
theorem tickSends : Obligations.TickSends := by
  intro s nowSec nowFrac ret qt qs hs awake hr hc hi hsec hfrac ht hsend units sec frac sr m fits inTime
  have txTime : txTimeOf s = ⟨sec, frac⟩ := txTimeOf_eq s
  clear_value sec frac
  exact makeMove_engine_sends ⟨hs, awake, hr, hc, hi⟩ ⟨txTime, fits, ⟨hsec, hfrac⟩, ht⟩ hsend inTime

/-- Settles O53: the tick goes the way of the late reset (`ruleTick_of_slip`), whose epoch fits or does not. -/
theorem tickSlips : Obligations.TickSlips := by
  intro s nowSec nowFrac againSec againFrac q hs awake hr hc hi hsec hfrac hsec' hfrac' ht
    units sec frac sr f es slipped fits late
  have txTime : txTimeOf s = ⟨sec, frac⟩ := txTimeOf_eq s
  have again : InContract ⟨againSec, againFrac⟩ := ⟨hsec', hfrac'⟩
  have reads : TickReads s ⟨sec, frac⟩ ⟨nowSec, nowFrac⟩ (.reply ⟨againSec, againFrac⟩ :: q) :=
    ⟨txTime, fits, ⟨hsec, hfrac⟩, ht⟩
  have epoch : epochOf ⟨againSec, againFrac⟩ = ⟨es, f % 1000000000⟩ := rfl
  generalize f % 1000000000 = ef at epoch ⊢
  clear_value sec frac es
  have reported : slipReported ⟨sec, frac⟩ q s = slipped := rfl
  rw [makeMove_engine_of_ticking ⟨hs, awake, hr, hc, hi⟩, ruleTick_of_slip reads (Nat.not_le_of_lt late)]
  refine ⟨fun fits => ?goesOn, fun tooLate => ?ends⟩
  case goesOn =>
    rw [lateReset_of_fits hs again rfl epoch fits, reported]
    rfl
  case ends =>
    rw [lateReset_of_overflow again rfl epoch tooLate, reported, runScheduler_raised]
    rfl

/-- Settles O54: the cancelled tick only terminates (`tick_of_cancelled`), the transmit time out of range raises what
terminates (`ruleTick_of_overflow`). -/
theorem tickTerminates : Obligations.TickTerminates := by
  intro s hs awake hr
  refine ⟨fun cancelled => ?cancelled, fun hc hi tooLate => ?overflow⟩
  case cancelled => rw [makeMove_engine_tick hs awake hr, tick_of_cancelled cancelled]
  case overflow =>
    have outOfRange : 2 ^ 32 ≤ (txTimeOf s).sec := by
      rw [txTimeOf_eq]
      exact tooLate
    rw [makeMove_engine_of_ticking ⟨hs, awake, hr, hc, hi⟩, ruleTick_of_overflow outOfRange, runScheduler_raised]
    rfl

end Sys2Proof
end

section
/-! PROOF. 44_scheduler.md R230, R238: ten ticks of 100 ms that do not slip. What `k` of them leave of the state they
started from is one predicate, `TicksSent`; a tick leads from `k` to `k + 1`, and the run of the machine is an
induction on `k`. -/

namespace Sys2Proof.Machine

variable {s t : State} {k : Nat}

/-! ### Runs -/

/-- One more step at the end of a run. -/
theorem run_succ_of_run (M : Host.Core) {s t : M.State} (h : M.run k s = .next t) : M.run (k + 1) s = M.step t := by
  induction k generalizing s with
  | zero =>
    obtain rfl : s = t := Host.Outcome.next.inj h
    rw [Host.Core.run]
    cases M.step s <;> rfl
  | succ k ih =>
    rw [Host.Core.run] at h ⊢
    cases first : M.step s with
    | next u =>
      rw [first] at h
      exact ih h
    | fault r => simp [first] at h
    | refused r => simp [first] at h

/-! ### What a tick that sends keeps and writes -/

/-- What the loop keeps of the state while it goes on: whether the next step is a tick, and `STATUS`. -/
structure LoopKept (s t : State) : Prop where
  schState : t.schState = s.schState
  hung : t.hung = s.hung
  inRst : t.inRst = s.inRst
  status : t.status = s.status
  inCancel : t.inCancel = s.inCancel
  moves : t.moves = s.moves

theorem LoopKept.refl (s : State) : LoopKept s s := ⟨rfl, rfl, rfl, rfl, rfl, rfl⟩

theorem LoopKept.trans {u : State} (h : LoopKept s t) (h' : LoopKept t u) : LoopKept s u where
  schState := h'.schState.trans h.schState
  hung := h'.hung.trans h.hung
  inRst := h'.inRst.trans h.inRst
  status := h'.status.trans h.status
  inCancel := h'.inCancel.trans h.inCancel
  moves := h'.moves.trans h.moves

theorem LoopKept.ticking (h : LoopKept s t) (hs : Ticking s) : Ticking t where
  scheduled := h.schState.trans hs.scheduled
  awake := h.hung.trans hs.awake
  notHeld := h.inRst.trans hs.notHeld
  latch := (congrArg Status.cancel h.status).trans hs.latch
  input := h.inCancel.trans hs.input

section

variable (tx : HwTime) (ret : Word) (qt : List (Answer HwTime)) (qs : List (Answer Word)) (s : State)

theorem tickSent_loopKept : LoopKept s (tickSent tx ret qt qs s) := by
  constructor <;> rw [tickSent]

@[simp] theorem tickSent_getTime : (tickSent tx ret qt qs s).backends.getTime = qt := rfl

@[simp] theorem tickSent_sendTimed : (tickSent tx ret qt qs s).backends.sendTimed = qs := rfl

theorem tickSent_sched :
    (tickSent tx ret qt qs s).sched =
      (let m := s.sched.msecOff.toNat + s.sched.stepMs.toNat
       { s.sched with
         ticks := s.sched.ticks + 1
         txSec := BitVec.ofNat 32 tx.sec
         txFrac := BitVec.ofNat 30 tx.frac
         lastRet := ret
         sendFails := if ret.toInt < 0 then s.sched.sendFails + 1 else s.sched.sendFails
         secOff := if 1000 ≤ m then s.sched.secOff + 1 else s.sched.secOff
         msecOff := if 1000 ≤ m then 0 else BitVec.ofNat 10 m }) := by
  rw [tickSent]

end

/-! ### The state after `k` ticks -/

/-- The transmit time of the first tick in `frac` units, from the milliseconds offset 0. -/
def firstUnits (s : State) : Nat :=
  (s.sched.epochSec.toNat + s.sched.secOff.toNat) * 1000000000 + s.sched.epochFrac.toNat

/-- The transmit time `k` steps of 100 ms after the first. -/
def timeAfter (s : State) (k : Nat) : HwTime :=
  ⟨(firstUnits s + k * 100000000) / 1000000000, (firstUnits s + k * 100000000) % 1000000000⟩

/-- What `k ≤ 10` ticks of 100 ms that all send leave of `s`, from the milliseconds offset 0. -/
structure TicksSent (s : State) (k : Nat) (t : State) : Prop where
  kept : LoopKept s t
  epochSec : t.sched.epochSec = s.sched.epochSec
  epochFrac : t.sched.epochFrac = s.sched.epochFrac
  srate : t.sched.srate = s.sched.srate
  stepMs : t.sched.stepMs = s.sched.stepMs
  slips : t.sched.slips = s.sched.slips
  ticks : t.sched.ticks = s.sched.ticks + BitVec.ofNat 32 k
  secOff : t.sched.secOff = s.sched.secOff + BitVec.ofNat 32 (k / 10)
  msecOff : t.sched.msecOff = BitVec.ofNat 10 (k % 10 * 100)
  getTime : t.backends.getTime = s.backends.getTime.drop k
  sendTimed : t.backends.sendTimed = s.backends.sendTimed.drop k

theorem TicksSent.zero (h : s.sched.msecOff = 0) : TicksSent s 0 s where
  kept := .refl s
  epochSec := rfl
  epochFrac := rfl
  srate := rfl
  stepMs := rfl
  slips := rfl
  ticks := (BitVec.add_zero _).symm
  secOff := (BitVec.add_zero _).symm
  msecOff := h
  getTime := rfl
  sendTimed := rfl

theorem TicksSent.toNat_msecOff (h : TicksSent s k t) (hk : k < 10) : t.sched.msecOff.toNat = k * 100 := by
  have narrow : k * 100 < 2 ^ 10 := by omega
  rw [h.msecOff, BitVec.toNat_ofNat, Nat.mod_eq_of_lt hk, Nat.mod_eq_of_lt narrow]

/-- Before the tenth tick only the milliseconds have moved, by 100 for each tick. -/
theorem TicksSent.txTimeOf (h : TicksSent s k t) (hk : k < 10) : txTimeOf t = timeAfter s k := by
  have secOff : t.sched.secOff = s.sched.secOff := by
    rw [h.secOff, Nat.div_eq_of_lt hk]
    exact BitVec.add_zero _
  have units : (s.sched.epochSec.toNat + s.sched.secOff.toNat) * 1000000000 + s.sched.epochFrac.toNat
      + k * 100 * 1000000 = firstUnits s + k * 100000000 := by
    rw [firstUnits]
    omega
  rw [txTimeOf_eq, h.epochSec, h.epochFrac, secOff, h.toNat_msecOff hk, units, timeAfter]

/-- A tick on the step of 100 ms: the tenth one carries into the seconds (44_scheduler.md R230). -/
theorem TicksSent.succ (h : TicksSent s k t) (hk : k < 10) (stepMs : s.sched.stepMs = 100) (tx : HwTime)
    (ret : Word) :
    TicksSent s (k + 1)
      (tickSent tx ret (s.backends.getTime.drop (k + 1)) (s.backends.sendTimed.drop (k + 1)) t) := by
  have sum : t.sched.msecOff.toNat + t.sched.stepMs.toNat = k * 100 + 100 := by
    have step : (100 : BitVec 10).toNat = 100 := rfl
    rw [h.toNat_msecOff hk, h.stepMs, stepMs, step]
  constructor
  case kept => exact h.kept.trans (tickSent_loopKept ..)
  case getTime => exact tickSent_getTime ..
  case sendTimed => exact tickSent_sendTimed ..
  case ticks =>
    rw [tickSent_sched, BitVec.ofNat_add, ← BitVec.add_assoc, ← h.ticks]
    rfl
  case secOff =>
    rw [tickSent_sched]
    dsimp only
    rw [sum, h.secOff]
    rcases Nat.lt_succ_iff_lt_or_eq.mp hk with before | rfl
    · rw [if_neg (by omega), Nat.div_eq_of_lt hk, Nat.div_eq_of_lt (by omega)]
    · simp
  case msecOff =>
    rw [tickSent_sched]
    dsimp only
    rw [sum]
    rcases Nat.lt_succ_iff_lt_or_eq.mp hk with before | rfl
    · rw [if_neg (by omega), Nat.mod_eq_of_lt (by omega), Nat.add_mul]
    · rfl
  case epochSec => rw [tickSent_sched, h.epochSec]
  case epochFrac => rw [tickSent_sched, h.epochFrac]
  case srate => rw [tickSent_sched, h.srate]
  case stepMs => rw [tickSent_sched, h.stepMs]
  case slips => rw [tickSent_sched, h.slips]

/-! ### Ten ticks -/

/-- What ten ticks that send ask of `s`: a running loop with a step of 100 ms and no offset in milliseconds, and ten
answers of each call, the clock never past the transmit time. -/
structure TenSends (s : State) (now : Fin 10 → HwTime) (ret : Fin 10 → Word) : Prop where
  ticking : Ticking s
  noMoves : s.moves = []
  stepMs : s.sched.stepMs = 100
  msecOff : s.sched.msecOff = 0
  fits : (firstUnits s + 900000000) / 1000000000 < 2 ^ 32
  valid : ∀ i, InContract (now i)
  inTime : ∀ i : Fin 10, InTime s (timeAfter s i) (now i)
  clock : ∀ i : Fin 10, s.backends.getTime.drop i = .reply (now i) :: s.backends.getTime.drop (i + 1)
  sends : ∀ i : Fin 10, s.backends.sendTimed.drop i = .reply (ret i) :: s.backends.sendTimed.drop (i + 1)

variable {now : Fin 10 → HwTime} {ret : Fin 10 → Word}

theorem TenSends.timeAfter_fits (h : TenSends s now ret) (i : Fin 10) : (timeAfter s i).sec < 2 ^ 32 := by
  have last : (firstUnits s + i * 100000000) / 1000000000 ≤ (firstUnits s + 900000000) / 1000000000 :=
    Nat.div_le_div_right (by omega)
  exact last.trans_lt h.fits

/-- The tick after `i` others, as a step of the machine. -/
theorem TenSends.step (h : TenSends s now ret) (i : Fin 10) (sent : TicksSent s i t) :
    step t = .next (tickSent (timeAfter s i) (ret i) (s.backends.getTime.drop (i + 1))
      (s.backends.sendTimed.drop (i + 1)) t) := by
  have reads : TickReads t (timeAfter s i) (now i) (s.backends.getTime.drop (i + 1)) :=
    ⟨sent.txTimeOf i.isLt, h.timeAfter_fits i, h.valid i, sent.getTime.trans (h.clock i)⟩
  have inTime : InTime t (timeAfter s i) (now i) := by
    rw [InTime, sent.srate]
    exact h.inTime i
  rw [step_nil (sent.kept.moves.trans h.noMoves)]
  exact makeMove_engine_sends (sent.kept.ticking h.ticking) reads (sent.sendTimed.trans (h.sends i)) inTime

/-- The run of the first `k` ticks. -/
theorem TenSends.run (h : TenSends s now ret) (hk : k ≤ 10) :
    ∃ t : State, Sys2Proof.core.run k s = .next t ∧ TicksSent s k t := by
  induction k with
  | zero => exact ⟨s, rfl, .zero h.msecOff⟩
  | succ k ih =>
    obtain ⟨t, run, sent⟩ := ih (Nat.le_of_succ_le hk)
    exact ⟨_, (run_succ_of_run Sys2Proof.core run).trans (h.step ⟨k, hk⟩ sent), sent.succ hk h.stepMs _ _⟩

/-- The registers hold a transmit time below `2^32` seconds exactly. -/
theorem toNat_txTime {n : Nat} (fits : n / 1000000000 < 2 ^ 32) :
    (BitVec.ofNat 32 (n / 1000000000)).toNat * 1000000000 + (BitVec.ofNat 30 (n % 1000000000)).toNat = n := by
  rw [BitVec.toNat_ofNat, BitVec.toNat_ofNat]
  omega

/-- The tick after `i` others: its transmit time, and the counts it leaves. -/
theorem TenSends.run_succ (h : TenSends s now ret) (i : Fin 10) :
    ∃ t : State, Sys2Proof.core.run (i + 1) s = .next t ∧ TicksSent s (i + 1) t ∧
      t.sched.txSec.toNat * 1000000000 + t.sched.txFrac.toNat = firstUnits s + i * 100000000 := by
  obtain ⟨t, run, sent⟩ := h.run i.isLt.le
  refine ⟨_, (run_succ_of_run Sys2Proof.core run).trans (h.step i sent), sent.succ i.isLt h.stepMs _ _, ?_⟩
  rw [tickSent_sched]
  exact toNat_txTime (h.timeAfter_fits i)

/-- The answers listed one by one, from the `i`-th on. -/
theorem drop_ofFn_append {α : Type} {n : Nat} (f : Fin n → α) (q : List α) (i : Fin n) :
    (List.ofFn f ++ q).drop i = f i :: (List.ofFn f ++ q).drop (i + 1) := by
  have inside : i.val < (List.ofFn f).length := by
    rw [List.length_ofFn]
    exact i.isLt
  have here : i.val < (List.ofFn f ++ q).length := by
    rw [List.length_append]
    omega
  rw [List.drop_eq_getElem_cons here, List.getElem_append_left inside, List.getElem_ofFn]

end Sys2Proof.Machine

namespace Sys2Proof

open Machine

/-- Settles O55: the run of the ten ticks (`TenSends.run_succ`), and what all ten leave (`TicksSent` at 10). -/
theorem tenTicksAdvanceOneSecond : Obligations.TenTicksAdvanceOneSecond := by
  intro s now ret qt qs hs awake hr hc hi noMoves stepMs msecOff valid ht hsend start fits carries inTime
  have sends : TenSends s (fun i => ⟨(now i).1, (now i).2⟩) ret :=
    { ticking := ⟨hs, awake, hr, hc, hi⟩
      noMoves := noMoves
      stepMs := stepMs
      msecOff := msecOff
      fits := fits
      valid := fun i => ⟨(valid i).1, (valid i).2⟩
      inTime := inTime
      clock := fun i => by rw [ht, drop_ofFn_append]
      sends := fun i => by rw [hsend, drop_ofFn_append] }
  refine ⟨fun i => ?each, ?last⟩
  case each =>
    obtain ⟨t, run, sent, txTime⟩ := sends.run_succ i
    exact ⟨t, run, txTime, sent.ticks, sent.slips⟩
  case last =>
    obtain ⟨t, run, sent⟩ := sends.run (k := 10) (Nat.le_refl 10)
    have secOff : t.sched.secOff.toNat = s.sched.secOff.toNat + 1 := by
      rw [sent.secOff, BitVec.toNat_add]
      exact Nat.mod_eq_of_lt carries
    exact ⟨t, run, secOff, sent.msecOff, sent.epochSec, sent.epochFrac, sent.kept.schState.trans hs,
      sent.kept.status⟩

end Sys2Proof
end

section
/-! PROOF. 45_system_ops.md R260 to R262: the system commands, from the word to the completion. -/

namespace Sys2Proof.Machine

variable {s : State}

/-- The calls `SOFT_RESET` makes: `close` where the radio is open (45_system_ops.md R262). -/
def softResetCalls (s : State) : List Out := if s.status.radio then [.call (.radioClose s.handle)] else []

theorem softResetCalls_of_open (h : s.status.radio = true) :
    softResetCalls s = [.call (.radioClose s.handle)] := if_pos h

theorem softResetCalls_of_closed (h : s.status.radio = false) : softResetCalls s = [] :=
  if_neg (by rw [h]; decide)

/-- The reset event overwrites what acceptance wrote (70_reset_and_hazards.md R311). -/
theorem resetBlock_accept (s : State) : resetBlock (accept s) = resetBlock s := rfl

/-- The reset event overwrites what a close wrote; only the call stays on the ports. -/
theorem resetBlock_callRadioClose (s : State) :
    resetBlock (callRadioClose s) = emit (.call (.radioClose s.handle)) (resetBlock s) := rfl

/-- `SOFT_RESET` is the reset event of the state before it, and the calls (45_system_ops.md R262). -/
theorem ruleSoftReset_accept (s : State) :
    ruleSoftReset (accept s) = done { resetBlock s with out := softResetCalls s ++ s.out } := by
  rw [ruleSoftReset, accept_status]
  cases radio : s.status.radio with
  | true =>
    rw [if_pos rfl, resetBlock_callRadioClose, resetBlock_accept, softResetCalls_of_open radio]
    rfl
  | false =>
    rw [if_neg Bool.false_ne_true, resetBlock_accept, softResetCalls_of_closed radio]
    rfl

end Sys2Proof.Machine

namespace Sys2Proof

open Machine

/-- Settles O9: neither rule can fail, and its completion overwrites what acceptance wrote. -/
theorem nopAndClearFlags : Obligations.NopAndClearFlags := by
  intro s hb
  refine ⟨?nop, ?nopWord, ?clrFlags, ?clrFlagsWord⟩
  case nop => exact (exec_nop hb).trans (congrArg _ (finish_done_accept s))
  case nopWord => exact hostWrite_encode (i := .nop) rfl s
  case clrFlags => exact (exec_clrFlags hb).trans (congrArg _ (finish_done_accept { s with flags := {} }))
  case clrFlagsWord => exact hostWrite_encode (i := .clrFlags) rfl s

/-- Settles O10: what the rule leaves is the reset event and the calls (`ruleSoftReset_accept`); its completion
writes `DONE`, `ev_done`, and an error code that reset made 0 already. -/
theorem softReset : Obligations.SoftReset := by
  intro s hb
  refine ⟨hostWrite_encode (i := .softReset) rfl s, ?_⟩
  rw [exec_softReset hb, ruleSoftReset_accept, finish_done, completeOk_eq]
  rfl

end Sys2Proof
end

section
/-! PROOF. 60_exceptions.md R276, 00_scope.md R8: how a command ends. While its rule runs, a command stays in
execution (`Executing`); a rule ends with a completion, which writes the reports of R276 and pulses R281, or inside
a call that is never answered, or, for `SCH_START`, in the scheduler's loop. -/

namespace Sys2Proof.Machine

variable {s t u : State}

/-! ### A command in execution -/

/-- Since `s` nothing but calls went out; no call is waited for and no scheduler runs, so a completion is in order. -/
structure CanComplete (s t : State) : Prop where
  calls : CallsBefore s.out t.out
  awake : t.hung = false
  idle : t.schState = .idle

/-- A command of `s` is in execution in `t`: it was accepted and has written none of what its end will write. -/
structure Executing (s t : State) : Prop extends CanComplete s t where
  busy : t.status.busy = true
  fresh : t.status.done = false
  err : t.err = s.err

/-- A command that stays in execution: inside a call never answered, or in the scheduler's loop
(00_scope.md R8, 20_memory.md R86). -/
structure StillExecuting (i : Instr) (s t : State) : Prop where
  busy : t.status.busy = true
  fresh : t.status.done = false
  err : t.err = s.err
  reason : (t.hung = true ∧ t.schState ≠ .scheduled) ∨
    (i = .schStart ∧ t.schState = .scheduled ∧ t.hung = false)

/-- A command of `s` has completed in `t` (60_exceptions.md R270, R276, R281). -/
structure Completed (s t : State) : Prop where
  busy : t.status.busy = false
  finished : t.status.done = true
  awake : t.hung = false
  idle : t.schState = .idle
  code : t.err.toNat ≤ 9 ∧ t.err ≠ 6
  errv : t.status.errv = decide (t.err ≠ 0)
  errInfo : t.err = 0 → t.errInfo = 0
  ports : ∃ o, CallsBefore s.out o ∧ t.out = completionPulses t.err ++ o

/-- What any command leaves. -/
def Ended (i : Instr) (s t : State) : Prop := StillExecuting i s t ∨ Completed s t

variable {i : Instr}

/-- Before anything was done a block that is idle can complete: so it rejects (60_exceptions.md R278). -/
theorem CanComplete.refl (awake : s.hung = false) (idle : s.schState = .idle) : CanComplete s s :=
  ⟨.refl _, awake, idle⟩

/-- Acceptance puts the command in execution. -/
theorem CanComplete.accept (h : CanComplete s s) : Executing s (accept s) :=
  { h with
    busy := rfl
    fresh := rfl
    err := rfl }

/-! ### The ends of a command -/

theorem CanComplete.complete (h : CanComplete s t) {e : BitVec 8} {info : Word} (code : e.toNat ≤ 9 ∧ e ≠ 6)
    (noInfo : e = 0 → info = 0) : Completed s (complete e info t) :=
  { h with
    busy := rfl
    finished := rfl
    code := code
    errv := rfl
    errInfo := noInfo
    ports := ⟨t.out, h.calls, rfl⟩ }

theorem CanComplete.completeOk (h : CanComplete s t) : Completed s (completeOk t) :=
  h.complete (by decide) fun _ => rfl

/-- Every error kind but `ScheduleSlip` has a code that `ERR` may hold, and none has 0 (60_exceptions.md R270). -/
theorem ErrKind.code_legal {k : ErrKind} (hk : k ≠ .scheduleSlip) :
    (k.code.toNat ≤ 9 ∧ k.code ≠ 6) ∧ k.code ≠ 0 := by
  cases k with
  | scheduleSlip => exact absurd rfl hk
  | _ => decide

theorem CanComplete.takeError (h : CanComplete s t) {k : ErrKind} (info : Word) (hk : k ≠ .scheduleSlip) :
    Completed s (takeError k info t) := by
  obtain ⟨legal, nonzero⟩ := ErrKind.code_legal hk
  exact h.complete legal fun zero => absurd zero nonzero

/-- A call never answered leaves the command in execution (00_scope.md R8). -/
theorem Executing.hang (h : Executing s t) : StillExecuting i s (hang t) :=
  { h with reason := .inl ⟨rfl, show t.schState ≠ .scheduled from h.idle ▸ nofun⟩ }

/-- Wherever the run of a rule ends, the command of `s` is in execution, and a raise has a kind that `ERR` may name
(60_exceptions.md R277). -/
def ExecutingRun (s : State) (r : Run Unit) : Prop :=
  r.Post (fun _ t => Executing s t) (fun k _ t => k ≠ .scheduleSlip ∧ Executing s t) (Executing s)

theorem ExecutingRun.finish {r : Run Unit} (h : ExecutingRun s r) : Ended i s (finish r) := by
  cases r with
  | value x t => exact .inr h.toCanComplete.completeOk
  | raised k info t => exact .inr (h.2.toCanComplete.takeError info h.1)
  | hung t => exact .inl h.hang

/-- A framer command that raises discards the frame first, which no report of its end shows (42_framer_tx.md R173). -/
theorem ExecutingRun.finishFramer {r : Run Unit} (h : ExecutingRun s r) : Ended i s (finishFramer r) := by
  cases r with
  | value x t => exact .inr h.toCanComplete.completeOk
  | raised k info t =>
    obtain ⟨hk, executing⟩ := h
    have discarded : CanComplete s (frameDiscarded t) := { executing with }
    exact .inr (discarded.takeError info hk)
  | hung t => exact .inl h.hang

/-- A rule that ends with a value at once. -/
theorem Ended.finish_done (h : CanComplete s t) : Ended i s (finish (done t)) := .inr h.completeOk

/-! ### Codec, pool and framer commands -/

theorem CodecRun.executing {r : Run Unit} (h : Executing s t) (hr : CodecRun t r) : ExecutingRun s r := by
  refine hr.mono (fun _ u hu => ?_) (fun k _ u hu => ?_) fun _ hu => hu.elim
  · obtain ⟨_, _, _, rfl⟩ := hu
    exact { h with }
  · obtain ⟨hk, rfl⟩ := hu
    exact ⟨hk, h⟩

theorem PoolRun.executing {r : Run Unit} (h : Executing s t) (hr : PoolRun t r) : ExecutingRun s r := by
  refine hr.mono (fun _ u hu => ?_) (fun k _ u hu => ?_) fun _ hu => hu.elim
  · obtain ⟨_, -, rfl⟩ := hu
    exact { h with }
  · obtain ⟨rfl, rfl⟩ := hu
    exact ⟨nofun, { h with }⟩

/-- `CELL_SET` tells the backends, or raises before any write (40_pool.md R120). -/
theorem ruleCellSet_executing (h : Executing s t) : ExecutingRun s (ruleCellSet t) := by
  unfold ruleCellSet
  split
  · exact ⟨nofun, h⟩
  · have told : Executing s (callSetCell t) := { h with calls := h.calls.cons _ }
    exact { told with }

theorem Executing.framerLeaves {fr : FrState} (h : Executing s t) (hu : FramerLeaves fr t u) : Executing s u := by
  obtain ⟨_, _, _, _, _, _, _, _, _, _, calls, rfl⟩ := hu
  exact { h with calls := h.calls.trans calls }

theorem Executing.frameUnfinished (h : Executing s t) (hu : FrameUnfinished t u) : Executing s u := by
  rcases hu with hu | hu | hu <;> exact h.framerLeaves hu

theorem FramerRun.executing {r : Run Unit} (h : Executing s t) (hr : FramerRun t r) : ExecutingRun s r :=
  hr.mono (fun _ _ ⟨_, _, hu⟩ => h.framerLeaves hu) (fun _ _ _ hu => ⟨hu.1, h.frameUnfinished hu.2⟩)
    fun _ => h.frameUnfinished

/-! ### What a parser command puts on the ports (43_parser_rx.md R191, R194 to R202) -/

/-- The run raises nothing, and wherever it ends nothing but calls went out since `s`. -/
def CallingRun {α : Type} (s : State) (r : Run α) : Prop :=
  r.Post (fun _ t => CallsBefore s.out t.out) (fun _ _ _ => False) fun t => CallsBefore s.out t.out

theorem CallingRun.next {α β : Type} {r : Run α} {f : α → State → Run β} (h : CallingRun s r)
    (hf : ∀ a t, CallsBefore s.out t.out → CallingRun s (f a t)) : CallingRun s (r.next f) :=
  Run.Post.next h hf

theorem ask_callingRun {α : Type} {c : Call} {listed : List (Answer α)}
    {rest : List (Answer α) → Backends → Backends} {free : Answer α} (h : CallsBefore s.out t.out) :
    CallingRun s (ask c listed rest free t) :=
  (ask_post c listed rest free t).mono (fun _ _ hu => h.trans hu.callsBefore) (fun _ _ _ hu => hu)
    fun _ hu => h.trans hu.callsBefore

theorem askValidSpan_callingRun (req : Nat) (h : CallsBefore s.out t.out) :
    CallingRun s (askValidSpan req t) :=
  .next (ask_callingRun h) fun _ _ h => h

theorem rxStep5_callingRun (idx k v : Nat) (c : Sci) (h : CallsBefore s.out t.out) :
    CallingRun s (rxStep5 idx k v c t) := by
  unfold rxStep5
  refine .next (ask_callingRun (h.cons _)) fun _ _ h => .next (ask_callingRun h) fun r _ h => ?_
  cases r with
  | none => exact h
  | some p => exact h

theorem rxStep4_callingRun (idx k st l : Nat) (c : Sci) (crc : CrcBits) (h : CallsBefore s.out t.out) :
    CallingRun s (rxStep4 idx k st l c crc t) := by
  unfold rxStep4
  simp only
  split
  · exact h
  · refine .next (askValidSpan_callingRun _ h) fun v _ h => ?_
    split
    · exact h
    · exact rxStep5_callingRun idx k v c h

theorem rxStep3_callingRun (idx k cs : Nat) (bits : ControlBits) (crc : CrcBits) (h : CallsBefore s.out t.out) :
    CallingRun s (rxStep3 idx k cs bits crc t) := by
  unfold rxStep3
  split
  · exact h
  split
  · exact h
  · exact rxStep4_callingRun _ _ _ _ _ _ h

theorem scanShift_callingRun (idx k cs : Nat) (h : CallsBefore s.out t.out) :
    CallingRun s (scanShift idx k cs t) := by
  unfold scanShift
  refine .next (ask_callingRun (h.cons _)) fun _ _ h => .next (ask_callingRun h) fun r _ h => ?_
  cases r with
  | none => exact h
  | some message => exact rxStep3_callingRun idx k cs message.1 message.2 h

theorem scanShifts_callingRun (idx : Nat) (l : List Nat) :
    ∀ (k : Nat) {t : State}, CallsBefore s.out t.out → CallingRun s (scanShifts idx k l t) := by
  induction l with
  | nil => exact fun _ _ h => h
  | cons cs rest ih => exact fun k _ h => (scanShift_callingRun idx k cs h).next fun _ _ h => ih (k + 1) h

theorem scan_callingRun (idx : Nat) (h : CallsBefore s.out t.out) : CallingRun s (scan idx t) :=
  scanShifts_callingRun idx _ 0 h

theorem scanList_callingRun (l : List Nat) :
    ∀ {t : State}, CallsBefore s.out t.out → CallingRun s (scanList l t) := by
  induction l with
  | nil => exact fun h => h
  | cons idx rest ih => exact fun h => (scan_callingRun idx h).next fun _ _ h => ih h

theorem ruleRxDemod_callingRun (h : CallsBefore s.out t.out) : CallingRun s (ruleRxDemod t) := by
  unfold ruleRxDemod
  exact .next (ask_callingRun h) fun _ _ h => h

/-- Two accounts of where a run ends, taken together. -/
theorem Run.Post.and {α : Type} {V V' : α → State → Prop} {R R' : ErrKind → Word → State → Prop}
    {H H' : State → Prop} {r : Run α} (h : r.Post V R H) (h' : r.Post V' R' H') :
    r.Post (fun a s => V a s ∧ V' a s) (fun k i s => R k i s ∧ R' k i s) fun s => H s ∧ H' s := by
  cases r <;> exact ⟨h, h'⟩

/-- Among the parser's fields only the ports tell how a command ends. -/
theorem Executing.parserLeaves (h : Executing s t) (hu : ParserLeaves t u) (calls : CallsBefore s.out u.out) :
    Executing s u := by
  obtain ⟨_, _, _, _, _, _, _, _, rfl⟩ := hu
  exact { h with calls := calls }

theorem ParserRun.executing {r : Run Unit} (h : Executing s t) (hr : ParserRun t r) (calls : CallingRun s r) :
    ExecutingRun s r :=
  (hr.and calls).mono (fun _ _ hu => h.parserLeaves hu.1 hu.2) (fun _ _ _ hu => hu.2.elim)
    fun _ hu => h.parserLeaves hu.1 hu.2

theorem ruleRxDemod_executing (h : Executing s t) : ExecutingRun s (ruleRxDemod t) := by
  refine ((ruleRxDemod_post t).and (ruleRxDemod_callingRun h.calls)).mono (fun _ u hu => ?_)
    (fun _ _ _ hu => hu.2.elim) fun u hu => ?_
  · obtain ⟨⟨_, _, _, _, _, rfl⟩, calls⟩ := hu
    exact { h with calls := calls }
  · obtain ⟨⟨_, _, _, _, rfl⟩, calls⟩ := hu
    exact { h with calls := calls }

/-! ### Radio, scheduler and system commands -/

theorem ruleRadioOpen_executing (h : Executing s t) : ExecutingRun s (ruleRadioOpen t) := by
  refine (ruleRadioOpen_post t).mono (fun _ u hu => ?_) (fun k _ u hu => ?_) fun u hu => ?_
  · obtain ⟨_, _, _, _, calls, rfl⟩ := hu
    exact { h with calls := h.calls.trans calls }
  · obtain ⟨hk, _, _, _, _, calls, rfl⟩ := hu
    exact ⟨by rcases hk with ⟨rfl, -⟩ | rfl <;> nofun, { h with calls := h.calls.trans calls }⟩
  · obtain ⟨_, _, _, _, calls, rfl⟩ := hu
    exact { h with calls := h.calls.trans calls }

/-- Termination closes the radio and stops the scheduler (44_scheduler.md R232). -/
theorem terminate_canComplete (calls : CallsBefore s.out t.out) (awake : t.hung = false) :
    CanComplete s (terminate t) :=
  ⟨calls.cons _, awake, rfl⟩

/-- `SCH_START` enters the loop, or terminates with an error, or waits in `AWAIT_START`
(44_scheduler.md R223, R232, R236). -/
theorem runScheduler_ruleSchStart_ended (h : Executing s t) :
    Ended .schStart s (runScheduler (ruleSchStart t)) := by
  have post := ruleSchStart_post t
  cases run : ruleSchStart t with rw [run] at post
  | value x u =>
    obtain ⟨_, _, _, _, _, -, -, -, rfl⟩ := post
    exact .inl { h with reason := .inr ⟨rfl, rfl, h.awake⟩ }
  | raised k info u =>
    obtain ⟨rfl, -, _, _, _, calls, leaves⟩ := post
    have since : CallsBefore s.out u.out := h.calls.trans (leaves ▸ calls)
    have awake : u.hung = false := leaves ▸ h.awake
    exact .inr ((terminate_canComplete since awake).takeError (k := .hardwareFailure) info nofun)
  | hung u =>
    obtain ⟨_, _, _, -, rfl⟩ := post
    exact .inl { h with reason := .inl ⟨rfl, nofun⟩ }

/-- After the reset event the command completes as from the reset state (45_system_ops.md R262). -/
theorem ruleSoftReset_ended (h : Executing s t) : Ended i s (finish (ruleSoftReset t)) := by
  refine .finish_done ⟨?_, rfl, rfl⟩
  split
  · exact h.calls.cons _
  · exact h.calls

/-! ### All commands -/

/-- The rule of every accepted command ends it or leaves it in execution. -/
theorem commandRule_ended (i : Instr) (h : Executing s t) : Ended i s (commandRule i t) := by
  cases i with
  | nop => exact .finish_done h.toCanComplete
  | cellSet => exact (ruleCellSet_executing h).finish
  | poolDefault => exact ((rulePoolDefault_poolRun t).executing h).finish
  | poolCheck => exact ((rulePoolCheck_poolRun t).executing h).finish
  | resv2code => exact ((ruleResv2code_codecRun t).executing h).finish
  | code2resv => exact ((ruleCode2resv_codecRun t).executing h).finish
  | rivEnc => exact ((ruleRivEnc_codecRun t).executing h).finish
  | rivDec => exact ((ruleRivDec_codecRun t).executing h).finish
  | sciPack => exact ((ruleSciPack_codecRun t).executing h).finish
  | sciUnpack => exact ((ruleSciUnpack_codecRun t).executing h).finish
  | crc2id => exact ((ruleCrc2id_codecRun t).executing h).finish
  | frBuild => exact ((ruleFrBuild_framerRun t).executing h).finishFramer
  | frCtrl => exact ((ruleFrCtrl_framerRun t).executing h).finishFramer
  | frData => exact ((ruleFrData_framerRun t).executing h).finishFramer
  | frMod => exact ((frStep6_framerRun t).executing h).finishFramer
  | rxDemod => exact (ruleRxDemod_executing h).finish
  | parseSubch idx => exact ((scan_parserRun idx (.refl t)).executing h (scan_callingRun idx h.calls)).finish
  | parseAll => exact ((scanList_parserRun _ (.refl t)).executing h (scanList_callingRun _ h.calls)).finish
  | radioOpen => exact (ruleRadioOpen_executing h).finish
  | radioClose => exact .finish_done ⟨h.calls.cons _, h.awake, h.idle⟩
  | schStart =>
    simp only [commandRule]
    split
    · exact runScheduler_ruleSchStart_ended h
    · exact .inr (h.toCanComplete.takeError 6 nofun)
  | softReset => exact ruleSoftReset_ended h
  | frClear | rxLoop | rxClear | schCancel | clrFlags => exact .finish_done ⟨h.calls, h.awake, h.idle⟩

/-- The issue of every command from an idle block: a rejection completes at once (30_encoding.md R105,
60_exceptions.md R278). -/
theorem issue_ended (i : Instr) (hb : s.status.busy = false) (h : CanComplete s s) :
    Ended i s (issue i (commandRule i) s) := by
  rcases issue_cases i (commandRule i) s with ⟨busy, -⟩ | ⟨-, -, e⟩ | ⟨-, -, -, e⟩ | ⟨-, -, -, e⟩
  · exact absurd busy (by simp [hb])
  · exact e ▸ .inr (h.takeError _ nofun)
  · exact e ▸ .inr (h.takeError _ nofun)
  · exact e ▸ commandRule_ended i h.accept

end Sys2Proof.Machine

namespace Sys2Proof

open Machine

/-- Settles O7: each command is issued with its rule (`exec_idle`), which ends or stays in execution
(`issue_ended`). -/
theorem everyCommandCompletesOrRuns : Obligations.EveryCommandCompletesOrRuns := by
  intro i s hb awake idle
  refine ⟨_, exec_idle i hb, ?_⟩
  rcases issue_ended i hb (.refl awake idle) with h | h
  · exact .inl ⟨h.busy, h.fresh, h.err, h.reason⟩
  · obtain ⟨o, ⟨calls, rfl⟩, ports⟩ := h.ports
    have onlyCalls : ∀ x ∈ calls.map Out.call, ∃ c, x = Out.call c := fun x hx =>
      let ⟨c, _, e⟩ := List.mem_map.mp hx
      ⟨c, e.symm⟩
    refine .inr ⟨h.busy, h.finished, h.awake, h.idle, h.code.1, h.code.2, h.errv, h.errInfo,
      calls.map Out.call, onlyCalls, ?_⟩
    rw [ports, completionPulses, List.append_assoc]

end Sys2Proof
end

section
/-! PROOF. 70_reset_and_hazards.md R310, R311: the reset event, whatever runs. What the host reads comes first (the
reset event leaves every register but `STATUS` at its reset value), then the move that takes `rst` to 1. -/

namespace Sys2Proof.Machine

/-- What the host reads, but for `STATUS`, is fixed by the other registers, the DecodeResult file and the payload
memory. -/
theorem hostRead_congr {s t : State} {a : WordNo} (ha : a ≠ 0x0002)
    (hreg : ∀ r, r ≠ .status → readReg r t = readReg r s) (hdr : t.dr = s.dr) (hmem : t.mem = s.mem) :
    hostRead a t = hostRead a s := by
  unfold hostRead
  cases hl : locate a with
  | reg r =>
    refine hreg r fun e => ha (BitVec.eq_of_toNat_eq ?_)
    rw [regAddr_of_locate hl, e]
    rfl
  | dr i k => simp only [drAt, hdr]
  | txtb k => simp only [hmem]
  | rxtb i k => simp only [hmem]
  | unmapped => rfl

/-! ### The reset event (70_reset_and_hazards.md R311) -/

theorem readReg_resetBlock {r : Reg} (h : r ≠ .status) (s : State) :
    readReg r (resetBlock s) = readReg r State.reset := by
  cases r with
  | status => exact absurd rfl h
  | _ => rfl

theorem hostRead_resetBlock {a : WordNo} (ha : a ≠ 0x0002) (s : State) :
    hostRead a (resetBlock s) = hostRead a State.reset :=
  hostRead_congr ha (fun _ h => readReg_resetBlock h s) rfl rfl

/-- Of `STATUS` only the cancel latch, bit 6, can be 1 after the reset event: it follows the input (log entry 14). -/
theorem statusWord_resetBlock (s : State) :
    statusWord (resetBlock s) = if s.inCancel then 0x40 else 0 := by
  have latch : (resetBlock s).status = { cancel := s.inCancel } := rfl
  have idle : (resetBlock s).schState = .idle := rfl
  have empty : (resetBlock s).frState = .empty := rfl
  rw [statusWord, latch, idle, empty]
  cases s.inCancel <;> decide

/-! ### The input `rst` at 1 (70_reset_and_hazards.md R310) -/

theorem makeMove_rstIn_true (s : State) : makeMove (.rstIn true) s = .next (enterReset s) := rfl

theorem enterReset_inRst (s : State) : (enterReset s).inRst = true := rfl

end Sys2Proof.Machine

namespace Sys2Proof

open Machine

/-- Settles O12: the move is a reset event (`hostRead_resetBlock`, `statusWord_resetBlock`) that leaves `rst` at 1,
where host writes and the engine are held (`makeMove_hostWrite_held`, `makeMove_engine_still`). -/
theorem rstEvent : Obligations.RstEvent := by
  intro s
  have held : (enterReset s).inRst = true := enterReset_inRst s
  refine ⟨enterReset s, makeMove_rstIn_true s, fun a ha => hostRead_resetBlock ha _, ?status,
    rfl, rfl, rfl, rfl, rfl, rfl, rfl, rfl,
    fun a v => makeMove_hostWrite_held held, makeMove_engine_still (.inl held)⟩
  case status => exact (hostRead_reg (r := .status) rfl _).trans (statusWord_resetBlock _)

end Sys2Proof
end
